-- ==== Sys2Proof/Word.lean ====
section
/-! DEFINITION. The word types of the machine (R8, R10, R11). -/

namespace Sys2Proof

/-- A byte, the unit of memory (R60). -/
abbrev Byte := BitVec 8

/-- A 16-bit VRAM cell (R460). -/
abbrev Cell16 := BitVec 16

/-- A 32-bit register, address or instruction word (R8). -/
abbrev Word := BitVec 32

/-- The number of a general or coprocessor register, as a 5-bit instruction field (R110). -/
abbrev Reg := BitVec 5

end Sys2Proof
end

