-- ==== Sys2Proof/Machine/Flags.lean ====
section
/-! DEFINITION. The machine has no condition codes (R29). What stands in their place: signed overflow, which only traps
(R146, R147), the comparisons that deliver into a register (R170 to R173), and the conditions of the branches. -/

namespace Sys2Proof.Machine

/-- The exact sum of the operands as signed numbers (R140). -/
def exactSum (a b : Word) : Int := a.toInt + b.toInt

/-- The exact difference of the operands as signed numbers (R142). -/
def exactDifference (a b : Word) : Int := a.toInt - b.toInt

/-- An exact result outside [−2^31, 2^31 − 1] (R146). -/
def overflows (exact : Int) : Bool := decide (exact < -2147483648) || decide (2147483647 < exact)

/-- 1 or 0, as the set instructions deliver it. -/
def flagWord (c : Bool) : Word := if c then 1#32 else 0#32

/-- `signed(a) < signed(b)` (R170). -/
def signedLess (a b : Word) : Bool := decide (a.toInt < b.toInt)

/-- `unsigned(a) < unsigned(b)` (R171). -/
def unsignedLess (a b : Word) : Bool := decide (a.toNat < b.toNat)

end Sys2Proof.Machine
end

