-- ==== Sys2Proof/Syntax.lean ====
section
/-! DEFINITION. The instructions: one constructor for each of the 68 rows of spec/opcode_table.json (R2, R114 to R121).
Operands stand in the order rs, rt, rd, then shamt or immediate, whichever the row has. Fields an instruction does not
use are no operands (R123). -/

namespace Sys2Proof

/-- An instruction. `bltz` and `bgez` keep the four bits rt[4:1] that their rows leave free (R115), `syscall` and
`brk` (BREAK) their ignored code. -/
inductive Instr where
  -- shifts (R160 to R166)
  | sll (rt rd : Reg) (shamt : BitVec 5)
  | srl (rt rd : Reg) (shamt : BitVec 5)
  | sra (rt rd : Reg) (shamt : BitVec 5)
  | sllv (rs rt rd : Reg)
  | srlv (rs rt rd : Reg)
  | srav (rs rt rd : Reg)
  -- register jumps (R232, R233)
  | jr (rs : Reg)
  | jalr (rs rd : Reg)
  -- traps (R310, R311)
  | syscall (code : BitVec 20)
  | brk (code : BitVec 20)
  -- HI/LO moves, multiply, divide (R200 to R209)
  | mfhi (rd : Reg)
  | mthi (rs : Reg)
  | mflo (rd : Reg)
  | mtlo (rs : Reg)
  | mult (rs rt : Reg)
  | multu (rs rt : Reg)
  | div (rs rt : Reg)
  | divu (rs rt : Reg)
  -- register arithmetic, logic, set (R140 to R143, R150 to R153, R170, R171)
  | add (rs rt rd : Reg)
  | addu (rs rt rd : Reg)
  | sub (rs rt rd : Reg)
  | subu (rs rt rd : Reg)
  | and (rs rt rd : Reg)
  | or (rs rt rd : Reg)
  | xor (rs rt rd : Reg)
  | nor (rs rt rd : Reg)
  | slt (rs rt rd : Reg)
  | sltu (rs rt rd : Reg)
  -- BCOND (R236 to R239)
  | bltz (rs : Reg) (sel : BitVec 4) (imm : BitVec 16)
  | bgez (rs : Reg) (sel : BitVec 4) (imm : BitVec 16)
  | bltzal (rs : Reg) (imm : BitVec 16)
  | bgezal (rs : Reg) (imm : BitVec 16)
  -- jumps and branches (R230, R231, R234, R235, R240, R241)
  | j (target : BitVec 26)
  | jal (target : BitVec 26)
  | beq (rs rt : Reg) (imm : BitVec 16)
  | bne (rs rt : Reg) (imm : BitVec 16)
  | blez (rs : Reg) (imm : BitVec 16)
  | bgtz (rs : Reg) (imm : BitVec 16)
  -- immediates (R144, R145, R154 to R156, R172, R173, R180)
  | addi (rs rt : Reg) (imm : BitVec 16)
  | addiu (rs rt : Reg) (imm : BitVec 16)
  | slti (rs rt : Reg) (imm : BitVec 16)
  | sltiu (rs rt : Reg) (imm : BitVec 16)
  | andi (rs rt : Reg) (imm : BitVec 16)
  | ori (rs rt : Reg) (imm : BitVec 16)
  | xori (rs rt : Reg) (imm : BitVec 16)
  | lui (rt : Reg) (imm : BitVec 16)
  -- coprocessor 0 (R313 to R315)
  | mfc0 (rt rd : Reg)
  | mtc0 (rt rd : Reg)
  | rfe
  -- coprocessor 2 (R342 to R345, R348)
  | mfc2 (rt rd : Reg)
  | cfc2 (rt rd : Reg)
  | mtc2 (rt rd : Reg)
  | ctc2 (rt rd : Reg)
  | cop2 (command : BitVec 25)
  -- loads (R270 to R277)
  | lb (rs rt : Reg) (imm : BitVec 16)
  | lh (rs rt : Reg) (imm : BitVec 16)
  | lwl (rs rt : Reg) (imm : BitVec 16)
  | lw (rs rt : Reg) (imm : BitVec 16)
  | lbu (rs rt : Reg) (imm : BitVec 16)
  | lhu (rs rt : Reg) (imm : BitVec 16)
  | lwr (rs rt : Reg) (imm : BitVec 16)
  -- stores (R285 to R289)
  | sb (rs rt : Reg) (imm : BitVec 16)
  | sh (rs rt : Reg) (imm : BitVec 16)
  | swl (rs rt : Reg) (imm : BitVec 16)
  | sw (rs rt : Reg) (imm : BitVec 16)
  | swr (rs rt : Reg) (imm : BitVec 16)
  -- coprocessor-2 loads and stores (R349, R350)
  | lwc2 (rs rt : Reg) (imm : BitVec 16)
  | swc2 (rs rt : Reg) (imm : BitVec 16)
  deriving DecidableEq, Repr

end Sys2Proof
end

