-- ==== Sys2Proof/WellFormed.lean ====
section
/-! DEFINITION. Which instruction terms stand for an encoding. The operand types carry every bound of R110; what is left
is R115: rt[4:1] = 1000 is the linking form, so BLTZ and BGEZ never hold it. -/

namespace Sys2Proof

/-- The term is one a word decodes to (R115, R236, R237). -/
def Instr.wf : Instr → Bool
  | .bltz _ sel _ => sel != 0b1000#4
  | .bgez _ sel _ => sel != 0b1000#4
  | _ => true

end Sys2Proof
end

