-- ==== Sys2Proof/Decode.lean ====
section
/-! DEFINITION. The decoder, total on words and on bytes, rejecting by name (R110 to R125), and after it the encoder,
written from the same formats. -/

namespace Sys2Proof

/-! ## Fields of an instruction word (R110) -/

/-- `op`, bits [31:26]. -/
def opField (w : Word) : BitVec 6 := w.extractLsb' 26 6
/-- `rs`, bits [25:21]. -/
def rsField (w : Word) : Reg := w.extractLsb' 21 5
/-- `rt`, bits [20:16]. -/
def rtField (w : Word) : Reg := w.extractLsb' 16 5
/-- `rt[4:1]`, bits [20:17]: the part of BCOND's selector that only the linking forms read (R115). -/
def selField (w : Word) : BitVec 4 := w.extractLsb' 17 4
/-- `rd`, bits [15:11]. -/
def rdField (w : Word) : Reg := w.extractLsb' 11 5
/-- `shamt`, bits [10:6]. -/
def shamtField (w : Word) : BitVec 5 := w.extractLsb' 6 5
/-- `funct`, bits [5:0]. -/
def functField (w : Word) : BitVec 6 := w.extractLsb' 0 6
/-- `imm16`, bits [15:0]. -/
def imm16Field (w : Word) : BitVec 16 := w.extractLsb' 0 16
/-- `target26`, bits [25:0]. -/
def target26Field (w : Word) : BitVec 26 := w.extractLsb' 0 26
/-- `imm25`, bits [24:0]. -/
def imm25Field (w : Word) : BitVec 25 := w.extractLsb' 0 25
/-- `code20`, bits [25:6]. -/
def code20Field (w : Word) : BitVec 20 := w.extractLsb' 6 20

/-! ## The decoder -/

/-- Why a word or a byte sequence is no instruction. The machine raises RI for the first four (R122). -/
inductive DecodeReject where
  /-- The primary opcode selects nothing (R122, first item). -/
  | illegalOpcode (op : BitVec 6)
  /-- The function code under op 0x00 selects nothing (R122, second item). -/
  | illegalFunct (funct : BitVec 6)
  /-- The sub-opcode (and function) under op 0x10 selects nothing (R122, third item). -/
  | illegalCop0 (rs : Reg) (funct : BitVec 6)
  /-- The sub-opcode under op 0x12 selects nothing (R122, fourth item). -/
  | illegalCop2 (rs : Reg)
  /-- Fewer than four bytes: no whole word (R125). -/
  | truncated
  deriving DecidableEq, Repr

/-- op 0x00, by `funct` (R114). -/
def decodeSpecial (w : Word) : Except DecodeReject Instr :=
  match functField w with
  | 0x00#6 => .ok (.sll (rtField w) (rdField w) (shamtField w))
  | 0x02#6 => .ok (.srl (rtField w) (rdField w) (shamtField w))
  | 0x03#6 => .ok (.sra (rtField w) (rdField w) (shamtField w))
  | 0x04#6 => .ok (.sllv (rsField w) (rtField w) (rdField w))
  | 0x06#6 => .ok (.srlv (rsField w) (rtField w) (rdField w))
  | 0x07#6 => .ok (.srav (rsField w) (rtField w) (rdField w))
  | 0x08#6 => .ok (.jr (rsField w))
  | 0x09#6 => .ok (.jalr (rsField w) (rdField w))
  | 0x0C#6 => .ok (.syscall (code20Field w))
  | 0x0D#6 => .ok (.brk (code20Field w))
  | 0x10#6 => .ok (.mfhi (rdField w))
  | 0x11#6 => .ok (.mthi (rsField w))
  | 0x12#6 => .ok (.mflo (rdField w))
  | 0x13#6 => .ok (.mtlo (rsField w))
  | 0x18#6 => .ok (.mult (rsField w) (rtField w))
  | 0x19#6 => .ok (.multu (rsField w) (rtField w))
  | 0x1A#6 => .ok (.div (rsField w) (rtField w))
  | 0x1B#6 => .ok (.divu (rsField w) (rtField w))
  | 0x20#6 => .ok (.add (rsField w) (rtField w) (rdField w))
  | 0x21#6 => .ok (.addu (rsField w) (rtField w) (rdField w))
  | 0x22#6 => .ok (.sub (rsField w) (rtField w) (rdField w))
  | 0x23#6 => .ok (.subu (rsField w) (rtField w) (rdField w))
  | 0x24#6 => .ok (.and (rsField w) (rtField w) (rdField w))
  | 0x25#6 => .ok (.or (rsField w) (rtField w) (rdField w))
  | 0x26#6 => .ok (.xor (rsField w) (rtField w) (rdField w))
  | 0x27#6 => .ok (.nor (rsField w) (rtField w) (rdField w))
  | 0x2A#6 => .ok (.slt (rsField w) (rtField w) (rdField w))
  | 0x2B#6 => .ok (.sltu (rsField w) (rtField w) (rdField w))
  | f => .error (.illegalFunct f)

/-- op 0x01, by `rt`: rt[0] is the condition, rt[4:1] = 1000 the link; no rt is illegal (R115). -/
def decodeBcond (w : Word) : Except DecodeReject Instr :=
  match rtField w with
  | 0x10#5 => .ok (.bltzal (rsField w) (imm16Field w))
  | 0x11#5 => .ok (.bgezal (rsField w) (imm16Field w))
  | rt =>
    if rt.getLsbD 0 then .ok (.bgez (rsField w) (selField w) (imm16Field w))
    else .ok (.bltz (rsField w) (selField w) (imm16Field w))

/-- op 0x10, by `rs`; with rs[4] = 1 by `funct` (R117). -/
def decodeCop0 (w : Word) : Except DecodeReject Instr :=
  match rsField w with
  | 0x00#5 => .ok (.mfc0 (rtField w) (rdField w))
  | 0x04#5 => .ok (.mtc0 (rtField w) (rdField w))
  | rs =>
    if rs.getLsbD 4 && functField w == 0x10#6 then .ok .rfe
    else .error (.illegalCop0 rs (functField w))

/-- op 0x12, by `rs` (R118). -/
def decodeCop2 (w : Word) : Except DecodeReject Instr :=
  match rsField w with
  | 0x00#5 => .ok (.mfc2 (rtField w) (rdField w))
  | 0x02#5 => .ok (.cfc2 (rtField w) (rdField w))
  | 0x04#5 => .ok (.mtc2 (rtField w) (rdField w))
  | 0x06#5 => .ok (.ctc2 (rtField w) (rdField w))
  | rs =>
    if rs.getLsbD 4 then .ok (.cop2 (imm25Field w))
    else .error (.illegalCop2 rs)

/-- The instruction a word stands for (R113, R116, R119 to R121), or why it stands for none (R122). -/
def decode (w : Word) : Except DecodeReject Instr :=
  match opField w with
  | 0x00#6 => decodeSpecial w
  | 0x01#6 => decodeBcond w
  | 0x02#6 => .ok (.j (target26Field w))
  | 0x03#6 => .ok (.jal (target26Field w))
  | 0x04#6 => .ok (.beq (rsField w) (rtField w) (imm16Field w))
  | 0x05#6 => .ok (.bne (rsField w) (rtField w) (imm16Field w))
  | 0x06#6 => .ok (.blez (rsField w) (imm16Field w))
  | 0x07#6 => .ok (.bgtz (rsField w) (imm16Field w))
  | 0x08#6 => .ok (.addi (rsField w) (rtField w) (imm16Field w))
  | 0x09#6 => .ok (.addiu (rsField w) (rtField w) (imm16Field w))
  | 0x0A#6 => .ok (.slti (rsField w) (rtField w) (imm16Field w))
  | 0x0B#6 => .ok (.sltiu (rsField w) (rtField w) (imm16Field w))
  | 0x0C#6 => .ok (.andi (rsField w) (rtField w) (imm16Field w))
  | 0x0D#6 => .ok (.ori (rsField w) (rtField w) (imm16Field w))
  | 0x0E#6 => .ok (.xori (rsField w) (rtField w) (imm16Field w))
  | 0x0F#6 => .ok (.lui (rtField w) (imm16Field w))
  | 0x10#6 => decodeCop0 w
  | 0x12#6 => decodeCop2 w
  | 0x20#6 => .ok (.lb (rsField w) (rtField w) (imm16Field w))
  | 0x21#6 => .ok (.lh (rsField w) (rtField w) (imm16Field w))
  | 0x22#6 => .ok (.lwl (rsField w) (rtField w) (imm16Field w))
  | 0x23#6 => .ok (.lw (rsField w) (rtField w) (imm16Field w))
  | 0x24#6 => .ok (.lbu (rsField w) (rtField w) (imm16Field w))
  | 0x25#6 => .ok (.lhu (rsField w) (rtField w) (imm16Field w))
  | 0x26#6 => .ok (.lwr (rsField w) (rtField w) (imm16Field w))
  | 0x28#6 => .ok (.sb (rsField w) (rtField w) (imm16Field w))
  | 0x29#6 => .ok (.sh (rsField w) (rtField w) (imm16Field w))
  | 0x2A#6 => .ok (.swl (rsField w) (rtField w) (imm16Field w))
  | 0x2B#6 => .ok (.sw (rsField w) (rtField w) (imm16Field w))
  | 0x2E#6 => .ok (.swr (rsField w) (rtField w) (imm16Field w))
  | 0x32#6 => .ok (.lwc2 (rsField w) (rtField w) (imm16Field w))
  | 0x3A#6 => .ok (.swc2 (rsField w) (rtField w) (imm16Field w))
  | op => .error (.illegalOpcode op)

/-- A word from its four bytes, the first at the lowest address: little-endian (R60). -/
def wordOfBytes (b0 b1 b2 b3 : Byte) : Word := b3 ++ b2 ++ b1 ++ b0

/-- The four bytes of a word, the one at the lowest address first (R60). -/
def bytesOfWord (w : Word) : List Byte :=
  [w.extractLsb' 0 8, w.extractLsb' 8 8, w.extractLsb' 16 8, w.extractLsb' 24 8]

/-- The instruction at the head of a byte sequence, and the bytes after it. -/
def decodeBytes : List Byte → Except DecodeReject (Instr × List Byte)
  | b0 :: b1 :: b2 :: b3 :: rest =>
    match decode (wordOfBytes b0 b1 b2 b3) with
    | .ok i => .ok (i, rest)
    | .error e => .error e
  | _ => .error .truncated

/-- The instruction whose bits, numbered as spec/opcode_table.json numbers them, are the low `nbits` of `w`. -/
def decodeTableWord (nbits w : Nat) : Option Instr :=
  match decodeBytes (bytesOfWord (BitVec.ofNat 32 (w % 2 ^ nbits))) with
  | .ok (i, _) => some i
  | .error _ => none

/-- The jumps and branches: the instructions that have a delay slot (R42, R242). -/
def Instr.isBranch : Instr → Bool
  | .j _ | .jal _ | .jr _ | .jalr _ _ | .beq _ _ _ | .bne _ _ _ | .blez _ _ | .bgtz _ _
  | .bltz _ _ _ | .bgez _ _ _ | .bltzal _ _ | .bgezal _ _ => true
  | _ => false

/-! ## The encoder (R111) -/

/-- Format R under op 0x00. -/
def formatR (rs rt rd : Reg) (shamt : BitVec 5) (funct : BitVec 6) : Word :=
  0x00#6 ++ rs ++ rt ++ rd ++ shamt ++ funct

/-- Formats I and REGIMM. -/
def formatI (op : BitVec 6) (rs rt : Reg) (imm : BitVec 16) : Word :=
  op ++ rs ++ rt ++ imm

/-- Format J. -/
def formatJ (op : BitVec 6) (target : BitVec 26) : Word :=
  op ++ target

/-- SYSCALL and BREAK: op 0x00 with a 20-bit code. -/
def formatCode (code : BitVec 20) (funct : BitVec 6) : Word :=
  0x00#6 ++ code ++ funct

/-- The coprocessor moves. -/
def formatMove (op : BitVec 6) (sub rt rd : Reg) : Word :=
  op ++ sub ++ rt ++ rd ++ 0#11

/-- The coprocessor-2 command form. -/
def formatCommand (imm25 : BitVec 25) : Word :=
  0x12#6 ++ 1#1 ++ imm25

/-- The word of an instruction: unused fields are 0, and BLTZ and BGEZ put their `sel` in rt[4:1]. -/
def encode : Instr → Word
  | .sll rt rd shamt => formatR 0#5 rt rd shamt 0x00#6
  | .srl rt rd shamt => formatR 0#5 rt rd shamt 0x02#6
  | .sra rt rd shamt => formatR 0#5 rt rd shamt 0x03#6
  | .sllv rs rt rd => formatR rs rt rd 0#5 0x04#6
  | .srlv rs rt rd => formatR rs rt rd 0#5 0x06#6
  | .srav rs rt rd => formatR rs rt rd 0#5 0x07#6
  | .jr rs => formatR rs 0#5 0#5 0#5 0x08#6
  | .jalr rs rd => formatR rs 0#5 rd 0#5 0x09#6
  | .syscall code => formatCode code 0x0C#6
  | .brk code => formatCode code 0x0D#6
  | .mfhi rd => formatR 0#5 0#5 rd 0#5 0x10#6
  | .mthi rs => formatR rs 0#5 0#5 0#5 0x11#6
  | .mflo rd => formatR 0#5 0#5 rd 0#5 0x12#6
  | .mtlo rs => formatR rs 0#5 0#5 0#5 0x13#6
  | .mult rs rt => formatR rs rt 0#5 0#5 0x18#6
  | .multu rs rt => formatR rs rt 0#5 0#5 0x19#6
  | .div rs rt => formatR rs rt 0#5 0#5 0x1A#6
  | .divu rs rt => formatR rs rt 0#5 0#5 0x1B#6
  | .add rs rt rd => formatR rs rt rd 0#5 0x20#6
  | .addu rs rt rd => formatR rs rt rd 0#5 0x21#6
  | .sub rs rt rd => formatR rs rt rd 0#5 0x22#6
  | .subu rs rt rd => formatR rs rt rd 0#5 0x23#6
  | .and rs rt rd => formatR rs rt rd 0#5 0x24#6
  | .or rs rt rd => formatR rs rt rd 0#5 0x25#6
  | .xor rs rt rd => formatR rs rt rd 0#5 0x26#6
  | .nor rs rt rd => formatR rs rt rd 0#5 0x27#6
  | .slt rs rt rd => formatR rs rt rd 0#5 0x2A#6
  | .sltu rs rt rd => formatR rs rt rd 0#5 0x2B#6
  | .bltz rs sel imm => formatI 0x01#6 rs (sel ++ 0#1) imm
  | .bgez rs sel imm => formatI 0x01#6 rs (sel ++ 1#1) imm
  | .bltzal rs imm => formatI 0x01#6 rs 0x10#5 imm
  | .bgezal rs imm => formatI 0x01#6 rs 0x11#5 imm
  | .j target => formatJ 0x02#6 target
  | .jal target => formatJ 0x03#6 target
  | .beq rs rt imm => formatI 0x04#6 rs rt imm
  | .bne rs rt imm => formatI 0x05#6 rs rt imm
  | .blez rs imm => formatI 0x06#6 rs 0#5 imm
  | .bgtz rs imm => formatI 0x07#6 rs 0#5 imm
  | .addi rs rt imm => formatI 0x08#6 rs rt imm
  | .addiu rs rt imm => formatI 0x09#6 rs rt imm
  | .slti rs rt imm => formatI 0x0A#6 rs rt imm
  | .sltiu rs rt imm => formatI 0x0B#6 rs rt imm
  | .andi rs rt imm => formatI 0x0C#6 rs rt imm
  | .ori rs rt imm => formatI 0x0D#6 rs rt imm
  | .xori rs rt imm => formatI 0x0E#6 rs rt imm
  | .lui rt imm => formatI 0x0F#6 0#5 rt imm
  | .lb rs rt imm => formatI 0x20#6 rs rt imm
  | .lh rs rt imm => formatI 0x21#6 rs rt imm
  | .lwl rs rt imm => formatI 0x22#6 rs rt imm
  | .lw rs rt imm => formatI 0x23#6 rs rt imm
  | .lbu rs rt imm => formatI 0x24#6 rs rt imm
  | .lhu rs rt imm => formatI 0x25#6 rs rt imm
  | .lwr rs rt imm => formatI 0x26#6 rs rt imm
  | .sb rs rt imm => formatI 0x28#6 rs rt imm
  | .sh rs rt imm => formatI 0x29#6 rs rt imm
  | .swl rs rt imm => formatI 0x2A#6 rs rt imm
  | .sw rs rt imm => formatI 0x2B#6 rs rt imm
  | .swr rs rt imm => formatI 0x2E#6 rs rt imm
  | .lwc2 rs rt imm => formatI 0x32#6 rs rt imm
  | .swc2 rs rt imm => formatI 0x3A#6 rs rt imm
  | .mfc0 rt rd => formatMove 0x10#6 0x00#5 rt rd
  | .mtc0 rt rd => formatMove 0x10#6 0x04#5 rt rd
  | .rfe => 0x10#6 ++ 1#1 ++ 0#19 ++ 0x10#6
  | .mfc2 rt rd => formatMove 0x12#6 0x00#5 rt rd
  | .cfc2 rt rd => formatMove 0x12#6 0x02#5 rt rd
  | .mtc2 rt rd => formatMove 0x12#6 0x04#5 rt rd
  | .ctc2 rt rd => formatMove 0x12#6 0x06#5 rt rd
  | .cop2 command => formatCommand command

end Sys2Proof
end

