-- ==== Sys2Proof/Config.lean ====
section
/-! DEFINITION. What no source fixes (R9): the free values ("draws" of R14) and the named parameters `GTE` and
`TRI_COVERAGE`. Every constant here is opaque, so no proof can rest on a value of it. The other parameters of R9 are
elsewhere: `BIOS_IMAGE` and `IGNORED_WRITE_RANGES` are plain data of the platform that no step changes (logs 4, 21), `DEV`
is the free values below (log 11) and `HALT` is an argument of `Safety.runUntil` (log 22). -/

namespace Sys2Proof

/-! ## Free values

Each is applied to the draw counter `State.plat.draws`, which every step advances (log 9). -/

/-- A draw of a word: undefined results, `DEV` reads, unspecified register bits (R14, R379). -/
opaque Config.freeWord : Nat → Word

/-- Does this instruction's read of the register loaded by the previous instruction see the value before the load?
(R503, log 12) -/
opaque Config.freeReadsOld : Nat → Bool

/-- Does the previous instruction's loaded value win over this instruction's own write of the same register?
(R503, log 12) -/
opaque Config.freeLoadWins : Nat → Bool

/-- Does a toggle-mode timer edge request an interrupt? (R416) -/
opaque Config.freeToggleRequests : Nat → Bool

/-- How many system-clock cycles pass before this step (R411). -/
opaque Config.freeCycles : Nat → Nat

/-- Which interrupt sources `DEV` asserts before this step (R379); the step keeps only those it owns (R371). -/
opaque Config.freeAsserts : Nat → BitVec 11

/-! ## The parameter `TRI_COVERAGE` (R481) -/

/-- A vertex of a triangle: drawn position, colour and texture coordinate (R480). -/
structure Vertex where
  x : Int
  y : Int
  r : Byte
  g : Byte
  b : Byte
  u : Byte
  v : Byte
  deriving DecidableEq, Repr, Inhabited

/-- A fragment: a cell with interpolated attributes (R481). -/
structure Fragment where
  x : Int
  y : Int
  r : Byte
  g : Byte
  b : Byte
  u : Byte
  v : Byte
  deriving DecidableEq, Repr, Inhabited

/-- The drawing area, inclusive (R467). -/
structure DrawArea where
  x1 : BitVec 10
  y1 : BitVec 9
  x2 : BitVec 10
  y2 : BitVec 9
  deriving DecidableEq, Repr, Inhabited

/-- The fragments the edge walk of R481 proposes for a triangle; `Machine.triangleFragments` makes the laws (a) to (e)
of R481 hold of what is drawn (log 19). -/
opaque Config.triCoverage : Vertex → Vertex → Vertex → DrawArea → List Fragment

/-! ## The parameter `GTE` (R340) -/

/-- The geometry engine's register banks (R40): 32 data registers, 31 control registers and the flag register, which is
control register 31 (R346). -/
structure GteState where
  data  : Vector Word 32
  ctrl  : Vector Word 31
  flags : Word
  deriving DecidableEq, Repr, Inhabited

/-- What a command passes to its saturating helpers, in order, one list for each helper (R347). -/
structure GteRaw where
  mac0 : List Int
  mac1 : List Int
  mac2 : List Int
  mac3 : List Int
  ir0  : List Int
  ir1  : List Int
  ir2  : List Int
  ir3  : List Int
  screenX : List Int
  screenY : List Int
  screenZ : List Int
  /-- Which colours R, G, B (bits 2, 1, 0) were clipped: R346 names their flag bits, R347 gives them no bound. -/
  colourClips : BitVec 3
  deriving DecidableEq, Repr, Inhabited

/-- The operations R347 names, and any other the engine knows. -/
inductive GteOperation where
  | rtps
  | nclip
  | dpcs
  | mvmva
  | ncds
  | avsz3
  | rtpt
  | other
  deriving DecidableEq, Repr, Inhabited

/-- What the laws R346 to R348 leave open of `GTE.command`. `Machine.gteCommand` takes it as an argument. -/
structure GteEngine where
  /-- The operation a number, bits [5:0], stands for; `none` where the engine knows none (R348). -/
  operation : BitVec 6 → Option GteOperation
  /-- Whether the engine accepts the selector fields, bits [18:13], of an MVMVA command (R348). -/
  acceptsSelectors : BitVec 6 → Bool
  /-- The operands (screen distance h, depth sz3) of the perspective divide for vertex k. PRESUMED: each has 16 bits; R347
  gives them no width (log 30). -/
  divideOperands : BitVec 25 → GteState → Nat → BitVec 16 × BitVec 16
  /-- The refinement of the perspective divide (N2), from h, the shift that left-justifies the divisor, the shifted
  divisor and the table's estimate. -/
  refine : BitVec 16 → Nat → Nat → Nat → Nat
  /-- The arithmetic of a command, from the quotients of its divides. -/
  arith : BitVec 25 → GteState → List Nat → GteRaw
  /-- Where a command stores its saturated results: the register numbering is not in the source (N2). -/
  store : BitVec 25 → GteState → GteRaw → Vector Word 32 × Vector Word 31
  deriving Inhabited

/-- The machine's engine. -/
opaque Config.gteEngine : GteEngine

/-- `GTE.readData` (R340). -/
opaque Config.gteReadData : GteState → Reg → Word

/-- `GTE.readCtrl` for the control registers other than the flag register (R340). -/
opaque Config.gteReadCtrl : GteState → Reg → Word

/-- `GTE.writeData` (R340). -/
opaque Config.gteWriteData : GteState → Reg → Word → GteState

/-- `GTE.writeCtrl` (R340). -/
opaque Config.gteWriteCtrl : GteState → Reg → Word → GteState

end Sys2Proof
end

