-- ==== Sys2Proof/Machine/State.lean ====
section
/-! DEFINITION. The machine's state as plain data, its outcomes that are no next state, and the state after reset
(R20 to R40, R370, R410, R430, R460, R501). -/

namespace Sys2Proof.Machine

/-! ## Why a step ends the run -/

/-- Fatal conditions: "fatal — the core aborts" (R14, R382). No instruction ends in one on every path. -/
inductive Fault where
  /-- A load or an SWL/SWR read of an address with no target (R72). Raised by every load, SWL, SWR. Safe: the spec's own
  fatal condition. -/
  | unmappedRead
  /-- A store to an address with no target, outside the ignored ranges (R72). Raised by every store. Safe: the spec's own
  fatal condition. -/
  | unmappedWrite
  /-- An MVMVA command whose selector the engine finds invalid (R348). Raised by COP2. Safe: the spec's own fatal
  condition; which selectors they are is the parameter `GTE` (log 20). -/
  | invalidGteSelector
  /-- A seventeenth word in the command FIFO (R461). Raised by a store to GP0 and by DMA channel 2. Safe: the spec's own
  fatal condition; no run reaches it. -/
  | gpuFifoOverflow
  /-- A linked list with no terminating node: the CHCR store never completes (R442, U50). Raised by a store to CHCR 2.
  Safe: a stuck machine takes no further step (log 16). -/
  | dmaListNeverEnds
  deriving DecidableEq, Repr

/-- What the spec gives no meaning: `refuse(reason)` of R14. Every reason but the first is the spec's own name, and a
refusal is safe: no claim passes through it. -/
inductive Refusal where
  /-- An instruction whose arm of `exec` is not written yet. -/
  | notModelled (mnemonic : String)
  /-- A user-mode access to an address with bit 31 set (R65). Raised by fetch, loads, stores. -/
  | userKernelAccess
  /-- MFC0, MTC0 or RFE in user mode (R312). -/
  | userCop0
  /-- A coprocessor-2 instruction while Status.CU2 = 0 (R341). -/
  | cop2Unusable
  /-- A branch or jump in a delay slot (R41, R242). Raised by the step. -/
  | branchInDelaySlot
  /-- A writer of HI/LO in one of the two instructions after MFHI or MFLO (R507). Raised by MULT, MULTU, DIV, DIVU, MTHI,
  MTLO. -/
  | hiLoHazard
  /-- A fetch from anything but RAM and BIOS (R67). Raised by the step. -/
  | fetchOutsideMemory
  /-- A byte or halfword access to a DMA, GPU or CCR register (R74). Raised by loads and stores. -/
  | subwordDeviceAccess
  /-- A timer mode write with SyncEn = 1 (R418). Raised by stores. -/
  | timerSync
  /-- A triggered transfer with sync mode 3 (R432). Raised by a store to CHCR. -/
  | dmaSyncReserved
  /-- A triggered manual or block transfer of no words, or an OTC of size 0 (R433, R443). -/
  | dmaZeroSize
  /-- A trigger on a channel whose DPCR enable bit is 0 (R434). -/
  | dmaChannelDisabled
  /-- Linked-list mode on a channel other than 2, or with Dir = 0 (R442). -/
  | dmaLinkedListNotGpu
  /-- A GP0 first byte outside the command table (R462). Raised by a store to GP0 and by DMA channel 2. -/
  | gpuUnknownCommand
  /-- A texel sampled with texture depth 3 (R464). Raised by a store to GP0 and by DMA channel 2. -/
  | gpuTextureDepth
  deriving DecidableEq, Repr

/-! ## Small names -/

/-- The widths of an access (R73). -/
inductive Size where
  | byte
  | half
  | word
  deriving DecidableEq, Repr

/-- The exceptions (R380). -/
inductive Exception where
  | int
  | adel
  | ades
  | sys
  | bp
  | ri
  | ov
  deriving DecidableEq, Repr

/-- What GP0 words and GPUREAD loads mean to the GPU (R460). -/
inductive TransferMode where
  | fifo
  | read
  | write
  deriving DecidableEq, Repr

/-! ## Parts of the state -/

/-- Values of `w` bits by key, strictly rising, no entry equal to what an unlisted key reads as. -/
abbrev Sparse (w : Nat) := List (Nat × BitVec w)

/-- The bytes of RAM, scratchpad and BIOS by physical address (R68, R70, R71). -/
abbrev Memory := List Host.Cell

/-- A line of the instruction cache (R38). -/
structure CacheLine where
  valid : Bool
  tag   : BitVec 19
  data  : Vector Word 4
  deriving DecidableEq, Repr, Inhabited

/-- A timer (R410). -/
structure Timer where
  count     : BitVec 16
  mode      : BitVec 13
  target    : BitVec 16
  prescaler : Nat
  armed     : Bool
  deriving DecidableEq, Repr, Inhabited

/-- The registers of a DMA channel (R431). -/
structure DmaChannel where
  madr : BitVec 24
  bcr  : Word
  chcr : Word
  deriving DecidableEq, Repr, Inhabited

/-- The stored fields of DICR (R435); bit 31 is computed when it is read. -/
structure Dicr where
  low    : BitVec 6
  force  : Bool
  enable : BitVec 7
  master : Bool
  flag   : BitVec 7
  deriving DecidableEq, Repr, Inhabited

/-- The DMA controller (R430, R434, R437). -/
structure Dma where
  channels : Vector DmaChannel 7
  dpcr     : Word
  dicr     : Dicr
  irqLevel : Bool
  deriving DecidableEq, Repr, Inhabited

/-- The VRAM transfer machine: mode, rectangle and cursor (R460). -/
structure Transfer where
  mode : TransferMode
  x    : Nat
  y    : Nat
  w    : Nat
  h    : Nat
  tx   : Nat
  ty   : Nat
  deriving DecidableEq, Repr

/-- The drawing state that E1 to E6 set (R464 to R469). -/
structure DrawState where
  texpage   : BitVec 14
  texwin    : BitVec 20
  area      : DrawArea
  offX      : BitVec 11
  offY      : BitVec 11
  setMask   : Bool
  checkMask : Bool
  deriving DecidableEq, Repr, Inhabited

/-- The GPU's modelled state (R460, R471). A VRAM cell (x, y) has the key 1024 y + x. -/
structure Gpu where
  vram     : Sparse 16
  fifo     : List Word
  transfer : Transfer
  draw     : DrawState
  stat31   : Bool
  deriving DecidableEq, Repr

/-- Memory and the devices: what the bus reaches. `ignoredWrites` is the parameter `IGNORED_WRITE_RANGES`, half-open, which
no step changes (R9, R72, log 21); `draws` numbers the free values (log 9). -/
structure Platform where
  mem    : Memory
  ccr    : Word
  iStat  : BitVec 11
  iMask  : BitVec 11
  timers : Vector Timer 3
  dma    : Dma
  gpu    : Gpu
  ignoredWrites : List (Nat × Nat)
  draws  : Nat
  deriving DecidableEq, Repr

/-- Which load made a load-delay record: only LWL and LWR complete each other (R503, log 13). -/
inductive LoadKind where
  | whole
  | left
  | right
  deriving DecidableEq, Repr

/-- A load-delay record: the register a delayed load wrote and its value before (R30), and the kind of the load. -/
structure LoadDelay where
  reg  : Reg
  old  : Word
  kind : LoadKind
  deriving DecidableEq, Repr

/-- The machine's state. -/
structure State where
  regs          : Vector Word 32
  hi            : Word
  lo            : Word
  pc            : Word
  nextPC        : Word
  currentPC     : Word
  branchPending : Bool
  branchDelay   : Bool
  ldNow         : Option LoadDelay
  ldNext        : Option LoadDelay
  mfAge         : Nat
  hiloUnread    : Bool
  status        : Word
  cause         : Word
  epc           : Word
  icache        : Vector CacheLine 256
  gte           : GteState
  plat          : Platform
  deriving DecidableEq, Repr

/-! ## Reset -/

/-- A line after reset. R38 leaves it a draw (log 5). -/
def CacheLine.reset : CacheLine := { valid := false, tag := 0#19, data := Vector.replicate 4 0#32 }

/-- A timer after reset (R419); `count` and `target` are draws there (log 7). -/
def Timer.reset : Timer := { count := 0#16, mode := 0x0400#13, target := 0#16, prescaler := 0, armed := true }

/-- The DMA controller after reset (R445); MADR and BCR are draws there (log 7). -/
def Dma.reset : Dma :=
  { channels := Vector.replicate 7 { madr := 0#24, bcr := 0#32, chcr := 0#32 }
    dpcr := 0x07654321#32
    dicr := { low := 0#6, force := false, enable := 0#7, master := false, flag := 0#7 }
    irqLevel := false }

/-- The GPU after reset (R460, R471); all but the FIFO and the mode are draws there (log 6). -/
def Gpu.reset : Gpu :=
  { vram := []
    fifo := []
    transfer := { mode := .fifo, x := 0, y := 0, w := 0, h := 0, tx := 0, ty := 0 }
    draw := { texpage := 0#14, texwin := 0#20, area := { x1 := 0#10, y1 := 0#9, x2 := 0#10, y2 := 0#9 },
              offX := 0#11, offY := 0#11, setMask := false, checkMask := false }
    stat31 := false }

/-- The default of the parameter `IGNORED_WRITE_RANGES`: memory control, RAM size, expansion 2 (R72). -/
def defaultIgnoredWrites : List (Nat × Nat) :=
  [(0x1F801000, 0x1F801024), (0x1F801060, 0x1F801064), (0x1F802000, 0x1F803000)]

/-- Memory and devices after reset (R378, R501): no byte listed, so memory reads as `Machine.unlisted` (logs 3, 4). -/
def Platform.reset : Platform :=
  { mem := [], ccr := 0#32, iStat := 0#11, iMask := 0#11, timers := Vector.replicate 3 Timer.reset
    dma := Dma.reset, gpu := Gpu.reset, ignoredWrites := defaultIgnoredWrites, draws := 0 }

/-- The geometry engine at the first power-on: flags 0 (R500); the other registers are the model's choice (log 8). -/
def GteState.reset : GteState :=
  { data := Vector.replicate 32 0#32, ctrl := Vector.replicate 31 0#32, flags := 0#32 }

/-- The machine right after reset (R501, R502). Registers the spec gives no value hold 0 (logs 1, 2). -/
def State.reset : State :=
  { regs := Vector.replicate 32 0#32, hi := 0#32, lo := 0#32
    pc := 0xBFC00000#32, nextPC := 0xBFC00004#32, currentPC := 0#32
    branchPending := false, branchDelay := false, ldNow := none, ldNext := none
    mfAge := 3, hiloUnread := false
    status := 0x00400000#32, cause := 0#32, epc := 0#32
    icache := Vector.replicate 256 CacheLine.reset
    gte := GteState.reset, plat := Platform.reset }

/-- The machine after a reset of a machine that was in state `s` (R500): the geometry engine persists but for its flags,
and the ROM image and the ignored ranges are not part of what reset changes (R71, R72). -/
def State.resetFrom (s : State) : State :=
  { State.reset with
    gte := { s.gte with flags := 0#32 }
    plat := { Platform.reset with
      mem := s.plat.mem.filter fun c => 0x1FC00000 ≤ c.1 ∧ c.1 < 0x1FC80000
      ignoredWrites := s.plat.ignoredWrites } }

end Sys2Proof.Machine
end

