-- ==== Sys2Proof/Machine/Outcome.lean ====
section
/-! DEFINITION. Sequencing of outcomes (R14): a fault or a refusal ends the step at once. -/

namespace Sys2Proof.Machine

/-- An outcome that carries a value on success. -/
abbrev Result (α : Type) := Host.Outcome α Fault Refusal

/-- Continue with the value of a `next`; a fault or a refusal stands. -/
def andThen {α β : Type} (r : Result α) (f : α → Result β) : Result β :=
  match r with
  | .next a => f a
  | .fault e => .fault e
  | .refused e => .refused e

/-- Apply a total function to the value of a `next`. -/
def mapNext {α β : Type} (f : α → β) (r : Result α) : Result β :=
  match r with
  | .next a => .next (f a)
  | .fault e => .fault e
  | .refused e => .refused e

/-- `f (n-1) (… (f 1 (f 0 a)))`: the loop "for i in 0 .. n-1". -/
def loop {α : Type} : Nat → (Nat → α → α) → α → α
  | 0, _, a => a
  | n + 1, f, a => f n (loop n f a)

/-- The loop "for i in 0 .. n-1" whose body may end the step. -/
def loopResult {α : Type} : Nat → (Nat → α → Result α) → α → Result α
  | 0, _, a => .next a
  | n + 1, f, a => andThen (loopResult n f a) (f n)

end Sys2Proof.Machine
end

