-- ==== Sys2Proof/Machine/Memory.lean ====
section
/-! DEFINITION. The one canonical form of memory and of VRAM, and little-endian access (R60, R68). -/

namespace Sys2Proof.Machine

/-- What a key that is not listed reads as: 0, for a byte of memory and for a VRAM cell. The spec leaves the reset
contents a draw (R68, R70, R460); this is the model's choice (logs 3, 4, 6). -/
def unlisted (w : Nat) : BitVec w := 0#w

/-- The value at a key. -/
def Sparse.read {w : Nat} : Sparse w → Nat → BitVec w
  | [], _ => unlisted w
  | (b, v) :: rest, a => if a = b then v else Sparse.read rest a

/-- The map with the value at a key replaced, in canonical form again. -/
def Sparse.write {w : Nat} : Sparse w → Nat → BitVec w → Sparse w
  | [], a, v => if v = unlisted w then [] else [(a, v)]
  | (b, u) :: rest, a, v =>
    if a < b then
      if v = unlisted w then (b, u) :: rest else (a, v) :: (b, u) :: rest
    else if a = b then
      if v = unlisted w then rest else (a, v) :: rest
    else (b, u) :: Sparse.write rest a v

/-- Every key of the map is above `a`, if the map is rising: its first key is. -/
def Sparse.startsAbove {w : Nat} (a : Nat) : Sparse w → Bool
  | [] => true
  | (b, _) :: _ => decide (a < b)

/-- The canonical form: keys strictly rising, no entry equal to what an unlisted key reads as. -/
def Sparse.wf {w : Nat} : Sparse w → Bool
  | [] => true
  | (a, v) :: rest => decide (v ≠ unlisted w) && Sparse.startsAbove a rest && Sparse.wf rest

/-- Memory is in canonical form. -/
def Memory.wf (m : Memory) : Bool := Sparse.wf (w := 8) m

/-- One byte of memory. -/
def Memory.readByte (m : Memory) (a : Nat) : Byte := Sparse.read (w := 8) m a

/-- Memory with one byte replaced. -/
def Memory.writeByte (m : Memory) (a : Nat) (v : Byte) : Memory := Sparse.write (w := 8) m a v

/-- How many bytes an access moves (R73). -/
def Size.bytes : Size → Nat
  | .byte => 1
  | .half => 2
  | .word => 4

/-- The low 8n bits of a word (R74). -/
def Size.low (n : Size) (v : Word) : Word :=
  match n with
  | .byte => (v.extractLsb' 0 8).setWidth 32
  | .half => (v.extractLsb' 0 16).setWidth 32
  | .word => v

/-- The value of n bytes at address a, byte a in its low bits, zero-extended (R60). -/
def Memory.read (m : Memory) (a : Nat) (n : Size) : Word :=
  match n with
  | .byte => (m.readByte a).setWidth 32
  | .half => (m.readByte (a + 1) ++ m.readByte a).setWidth 32
  | .word => m.readByte (a + 3) ++ m.readByte (a + 2) ++ m.readByte (a + 1) ++ m.readByte a

/-- Memory with the low n bytes of v stored at address a (R60). -/
def Memory.write (m : Memory) (a : Nat) (n : Size) (v : Word) : Memory :=
  match n with
  | .byte => m.writeByte a (v.extractLsb' 0 8)
  | .half => (m.writeByte a (v.extractLsb' 0 8)).writeByte (a + 1) (v.extractLsb' 8 8)
  | .word =>
    (((m.writeByte a (v.extractLsb' 0 8)).writeByte (a + 1) (v.extractLsb' 8 8)).writeByte (a + 2)
      (v.extractLsb' 16 8)).writeByte (a + 3) (v.extractLsb' 24 8)

end Sys2Proof.Machine
end

