-- ==== Sys2Proof/Machine/Intc.lean ====
section
/-! DEFINITION. The interrupt aggregator (R370 to R378) and the draws of the platform (R14). -/

namespace Sys2Proof.Machine

/-- The bit of an interrupt source in I_STAT and I_MASK (R371). -/
def sourceBit (n : Nat) : BitVec 11 := 1#11 <<< n

/-- Bit 3 (R371). -/
def dmaSource : BitVec 11 := sourceBit 3

/-- Bit 4 + t (R371). -/
def timerSource (t : Nat) : BitVec 11 := sourceBit (4 + t)

/-- The sources `DEV` owns: Vblank, Gpu, Cdrom, Controller, Sio, Spu, Pio (R371, R379). -/
def devSources : BitVec 11 := 0x787#11

/-- `assert(source)` (R376). -/
def assertSource (source iStat : BitVec 11) : BitVec 11 := iStat ||| source

/-- The line to the CPU (R372). -/
def interruptLine (p : Platform) : Bool := (p.iStat &&& p.iMask) != 0#11

/-- A write to I_STAT clears the bits written as 0 (R374). -/
def writeIStat (v : Word) (p : Platform) : Platform := { p with iStat := p.iStat &&& v.extractLsb' 0 11 }

/-- A write to I_MASK (R375). -/
def writeIMask (v : Word) (p : Platform) : Platform := { p with iMask := v.extractLsb' 0 11 }

/-- A draw of a word, and the platform with the next draw due (R14, log 9). -/
def drawWord (p : Platform) : Word × Platform :=
  (Config.freeWord p.draws, { p with draws := p.draws + 1 })

end Sys2Proof.Machine
end

