-- ==== Sys2Proof/Machine/Raster.lean ====
section
/-! DEFINITION. VRAM and the rasterizer: fills, blits, fragments, textures, blending, polygons and rectangles (R460,
R463, R473, R474, R480 to R489). -/

namespace Sys2Proof.Machine

/-! ## VRAM -/

/-- The key of the cell (x, y), coordinates taken modulo 1024 and 512 (R460). -/
def cellKey (x y : Nat) : Nat := 1024 * (y % 512) + x % 1024

/-- The cell (x, y). -/
def Gpu.cell (g : Gpu) (x y : Nat) : Cell16 := Sparse.read g.vram (cellKey x y)

/-- The GPU with the cell (x, y) written. -/
def Gpu.setCell (x y : Nat) (c : Cell16) (g : Gpu) : Gpu := { g with vram := Sparse.write g.vram (cellKey x y) c }

/-- The mask bit of a cell, bit 15 (R460). -/
def maskBit (c : Cell16) : Bool := c.getLsbD 15

/-- A cell with bit 15 as given. -/
def withMask (m : Bool) (c : BitVec 15) : Cell16 := BitVec.ofBool m ++ c

/-! ## Fill and blit -/

/-- Fill rectangle (R473). -/
def fillRectangle (c p s : Word) (g : Gpu) : Gpu :=
  let colour : Cell16 := 0#1 ++ c.extractLsb' 19 5 ++ c.extractLsb' 11 5 ++ c.extractLsb' 3 5
  let x0 := ((p.extractLsb' 0 10) &&& 0x3F0#10).toNat
  let y0 := (p.extractLsb' 16 9).toNat
  let w := ((s.extractLsb' 0 10).toNat + 0xF) / 16 * 16
  let h := (s.extractLsb' 16 9).toNat
  loop h (fun j g => loop w (fun i g => g.setCell (x0 + i) (y0 + j) colour) g) g

/-- A position word of a blit or a transfer (R475). -/
def positionX (p : Word) : Nat := (p.extractLsb' 0 10).toNat
/-- See `positionX`. -/
def positionY (p : Word) : Nat := (p.extractLsb' 16 9).toNat
/-- The width of a size word: 1 to 1024, 0 standing for 1024 (R474, R475, R477). -/
def sizeWidth (s : Word) : Nat := ((s.extractLsb' 0 16 - 1#16).extractLsb' 0 10).toNat + 1
/-- The height of a size word: 1 to 512, 0 standing for 512 (R474, R475, R477). -/
def sizeHeight (s : Word) : Nat := ((s.extractLsb' 16 16 - 1#16).extractLsb' 0 9).toNat + 1

/-- A pixel store under the mask bits of E6 (R469). -/
def storeMasked (x y : Nat) (c : Cell16) (g : Gpu) : Gpu :=
  if g.draw.checkMask && maskBit (g.cell x y) then g
  else g.setCell x y (withMask (g.draw.setMask || maskBit c) (c.extractLsb' 0 15))

/-- VRAM-to-VRAM blit, in row-major order (R474). -/
def blit (src dst size : Word) (g : Gpu) : Gpu :=
  loop (sizeHeight size) (fun j g => loop (sizeWidth size) (fun i g =>
    storeMasked (positionX dst + i) (positionY dst + j) (g.cell (positionX src + i) (positionY src + j)) g) g) g

/-! ## Colours -/

/-- A 15-bit colour from 5-bit channels (R484). -/
def packColour (r g b : Nat) : BitVec 15 :=
  BitVec.ofNat 5 b ++ BitVec.ofNat 5 g ++ BitVec.ofNat 5 r

/-- The red, green and blue channels of a cell (R460). -/
def red5 (c : Cell16) : Nat := (c.extractLsb' 0 5).toNat
/-- See `red5`. -/
def green5 (c : Cell16) : Nat := (c.extractLsb' 5 5).toNat
/-- See `red5`. -/
def blue5 (c : Cell16) : Nat := (c.extractLsb' 10 5).toNat

/-- The 4 × 4 dither offsets, rows by y mod 4 (R486). -/
def ditherOffset (x y : Nat) : Int :=
  let rows : List (List Int) := [[-4, 0, -3, 1], [2, -2, 3, -1], [-3, 1, -4, 0], [3, -1, 2, -2]]
  (rows.getD (y % 4) []).getD (x % 4) 0

/-- An 8-bit channel with its dither offset, clamped, or unchanged when dithering is off (R486). -/
def ditherChannel (dither : Bool) (x y : Nat) (c8 : Nat) : Nat :=
  if dither then (min 255 (max 0 ((c8 : Int) + ditherOffset x y))).toNat else min 255 c8

/-- An 8-bit channel as a 5-bit one (R484). -/
def toFive (c8 : Nat) : Nat := c8 / 8

/-- A flat or shaded fragment's colour (R482, R484, R486). -/
def flatColour (dither : Bool) (x y : Nat) (f : Fragment) : BitVec 15 :=
  let ch (c : Byte) : Nat := toFive (ditherChannel dither x y c.toNat)
  packColour (ch f.r) (ch f.g) (ch f.b)

/-- A texel modulated by the fragment's colour: min(31, (t5 × c8) >> 7), dithered as an 8-bit value when dithering is on
(R485). -/
def modulate (dither : Bool) (x y : Nat) (t : Cell16) (f : Fragment) : BitVec 15 :=
  let ch (t5 : Nat) (c : Byte) : Nat := toFive (ditherChannel dither x y (t5 * c.toNat / 16))
  packColour (ch (red5 t) f.r) (ch (green5 t) f.g) (ch (blue5 t) f.b)

/-- Semi-transparency of one channel (R487). -/
def blendChannel (mode : BitVec 2) (b f : Nat) : Nat :=
  match mode with
  | 0#2 => b / 2 + f / 2
  | 1#2 => min 31 (b + f)
  | 2#2 => b - f
  | _ => min 31 (b + f / 4)

/-- Semi-transparency of a colour over the destination cell (R487). -/
def blend (mode : BitVec 2) (dst : Cell16) (c : BitVec 15) : BitVec 15 :=
  let f : Cell16 := withMask false c
  packColour (blendChannel mode (red5 dst) (red5 f)) (blendChannel mode (green5 dst) (green5 f))
    (blendChannel mode (blue5 dst) (blue5 f))

/-! ## Textures -/

/-- Whatever of a primitive does not vary over its fragments. -/
structure Primitive where
  textured : Bool
  semi     : Bool
  raw      : Bool
  dither   : Bool
  clutX    : Nat
  clutY    : Nat
  deriving DecidableEq, Repr

/-- The texture window's adjustment of a coordinate (R465). -/
def windowed (mask offset : BitVec 5) (u : Byte) : Nat :=
  let m8 : Byte := mask ++ 0#3
  let o8 : Byte := (offset &&& mask) ++ 0#3
  ((u &&& ~~~m8) ||| o8).toNat

/-- `sample(u, v)`: the texel, or a refusal for texture depth 3 (R464, R465, R483). -/
def sample (pr : Primitive) (u v : Byte) (g : Gpu) : Result Cell16 :=
  let page := g.draw.texpage
  let win := g.draw.texwin
  let u' := windowed (win.extractLsb' 0 5) (win.extractLsb' 10 5) u
  let v' := windowed (win.extractLsb' 5 5) (win.extractLsb' 15 5) v
  let bx := (page.extractLsb' 0 4).toNat * 64
  let byy := (page.extractLsb' 4 1).toNat * 256
  match page.extractLsb' 7 2 with
  | 0#2 =>
    let i := (g.cell (bx + u' / 4) (byy + v')).toNat / 2 ^ (4 * (u' % 4)) % 16
    .next (g.cell (pr.clutX + i) pr.clutY)
  | 1#2 =>
    let i := (g.cell (bx + u' / 2) (byy + v')).toNat / 2 ^ (8 * (u' % 2)) % 256
    .next (g.cell (pr.clutX + i) pr.clutY)
  | 2#2 => .next (g.cell (bx + u') (byy + v'))
  | _ => .refused .gpuTextureDepth

/-! ## The fragment pipeline (R482) -/

/-- The last steps of a fragment: blend, mask and store. -/
def storeFragment (pr : Primitive) (x y : Nat) (texelBit15 : Bool) (c : BitVec 15) (g : Gpu) : Gpu :=
  let semi := pr.semi && (!pr.textured || texelBit15)
  let c' := if semi then blend (g.draw.texpage.extractLsb' 5 2) (g.cell x y) c else c
  g.setCell x y (withMask (g.draw.setMask || (pr.textured && texelBit15)) c')

/-- `frag(x, y, u, v, r, g, b)` (R482). -/
def drawFragment (pr : Primitive) (f : Fragment) (g : Gpu) : Result Gpu :=
  let x := f.x.toNat
  let y := f.y.toNat
  if g.draw.checkMask && maskBit (g.cell x y) then .next g
  else if pr.textured then
    andThen (sample pr f.u f.v g) fun t =>
      if t = 0#16 then .next g
      else if pr.raw then .next (storeFragment pr x y (maskBit t) (t.extractLsb' 0 15) g)
      else .next (storeFragment pr x y (maskBit t) (modulate pr.dither x y t f) g)
  else .next (storeFragment pr x y false (flatColour pr.dither x y f) g)

/-- The fragments of a list, in order. -/
def drawFragments (pr : Primitive) : List Fragment → Gpu → Result Gpu
  | [], g => .next g
  | f :: fs, g => andThen (drawFragment pr f g) (drawFragments pr fs)

/-! ## Triangles (R480, R481) -/

/-- Twice the signed area of the triangle a, b, c. -/
def cross (ax ay bx byy cx cy : Int) : Int := (bx - ax) * (cy - ay) - (byy - ay) * (cx - ax)

/-- Twice the signed area of a triangle of vertices. -/
def signedArea (a b c : Vertex) : Int := cross a.x a.y b.x b.y c.x c.y

/-- The point lies in the closed triangle (R481 (a)). -/
def insideTriangle (a b c : Vertex) (x y : Int) : Bool :=
  let e0 := cross a.x a.y b.x b.y x y
  let e1 := cross b.x b.y c.x c.y x y
  let e2 := cross c.x c.y a.x a.y x y
  decide (0 ≤ e0 ∧ 0 ≤ e1 ∧ 0 ≤ e2) || decide (e0 ≤ 0 ∧ e1 ≤ 0 ∧ e2 ≤ 0)

/-- The point lies in the drawing area (R467). -/
def insideArea (area : DrawArea) (x y : Int) : Bool :=
  decide ((area.x1.toNat : Int) ≤ x ∧ x ≤ (area.x2.toNat : Int) ∧
    (area.y1.toNat : Int) ≤ y ∧ y ≤ (area.y2.toNat : Int))

/-- A byte forced between the least and the greatest of three (R481 (c), (e)). -/
def between (a b c v : Byte) : Byte :=
  BitVec.ofNat 8 (max (min a.toNat (min b.toNat c.toNat)) (min (max a.toNat (max b.toNat c.toNat)) v.toNat))

/-- A fragment with every attribute forced between those of the vertices. -/
def boundAttributes (a b c : Vertex) (f : Fragment) : Fragment :=
  { f with
    r := between a.r b.r c.r f.r, g := between a.g b.g c.g f.g, b := between a.b b.b c.b f.b
    u := between a.u b.u c.u f.u, v := between a.v b.v c.v f.v }

/-- The fragments with no cell twice, the first of each kept (R481 (b)). -/
def onePerCell : List Fragment → List Fragment
  | [] => []
  | f :: fs => f :: (onePerCell fs).filter fun g => !(g.x == f.x && g.y == f.y)

/-- The fragments of a triangle: what the parameter `TRI_COVERAGE` proposes, with the laws (a) to (e) of R481 made to
hold (log 19). -/
def triangleFragments (a b c : Vertex) (area : DrawArea) : List Fragment :=
  if signedArea a b c = 0 then []
  else
    (onePerCell ((Config.triCoverage a b c area).filter fun f =>
      insideArea area f.x f.y && insideTriangle a b c f.x f.y)).map (boundAttributes a b c)

/-- Draw one triangle. -/
def drawTriangle (pr : Primitive) (a b c : Vertex) (g : Gpu) : Result Gpu :=
  drawFragments pr (triangleFragments a b c g.draw.area) g

/-! ## Polygons and rectangles -/

/-- The flag bits of a polygon command (R462). -/
structure PolygonFlags where
  shaded   : Bool
  quad     : Bool
  textured : Bool
  semi     : Bool
  raw      : Bool
  deriving DecidableEq, Repr

/-- The flag bits of a rectangle command (R462). -/
structure RectangleFlags where
  size     : BitVec 2
  textured : Bool
  semi     : Bool
  raw      : Bool
  deriving DecidableEq, Repr

/-- The words of a vertex: its colour if shaded, its position, its texture word if textured (R463). -/
def PolygonFlags.stride (p : PolygonFlags) : Nat := 1 + p.shaded.toNat + p.textured.toNat

/-- 3 or 4 (R462). -/
def PolygonFlags.vertices (p : PolygonFlags) : Nat := if p.quad then 4 else 3

/-- The signed 11-bit coordinates of a vertex word with the drawing offset added (R463, R468). -/
def vertexX (w : Word) (d : DrawState) : Int := (w.extractLsb' 0 11).toInt + d.offX.toInt
/-- See `vertexX`. -/
def vertexY (w : Word) (d : DrawState) : Int := (w.extractLsb' 16 11).toInt + d.offY.toInt

/-- Vertex i of a polygon's words (R463). -/
def polygonVertex (p : PolygonFlags) (ws : List Word) (d : DrawState) (i : Nat) : Vertex :=
  let at' (k : Nat) : Word := ws.getD k 0#32
  let colour := at' (if p.shaded then i * p.stride else 0)
  let pos := at' (i * p.stride + 1)
  let tex := at' (i * p.stride + 2)
  { x := vertexX pos d, y := vertexY pos d
    r := colour.extractLsb' 0 8, g := colour.extractLsb' 8 8, b := colour.extractLsb' 16 8
    u := if p.textured then tex.extractLsb' 0 8 else 0#8
    v := if p.textured then tex.extractLsb' 8 8 else 0#8 }

/-- The CLUT position in a texture word (R463). -/
def clutXOf (tex : Word) : Nat := (tex.extractLsb' 16 6).toNat * 16
/-- See `clutXOf`. -/
def clutYOf (tex : Word) : Nat := (tex.extractLsb' 22 9).toNat

/-- The drawing state with a textured polygon's own texture page in bits [8:0] (R464, log 18). -/
def withPolygonPage (page : BitVec 9) (d : DrawState) : DrawState :=
  { d with texpage := d.texpage.extractLsb' 9 5 ++ page }

/-- Polygon drawing (R480): a triangle, or a quad as (v0, v1, v2) then (v1, v2, v3). -/
def drawPolygon (p : PolygonFlags) (ws : List Word) (g : Gpu) : Result Gpu :=
  let tex0 := ws.getD 2 0#32
  let tex1 := ws.getD (p.stride + 2) 0#32
  let g := if p.textured then { g with draw := withPolygonPage (tex1.extractLsb' 16 9) g.draw } else g
  let pr : Primitive :=
    { textured := p.textured, semi := p.semi, raw := p.raw
      dither := g.draw.texpage.getLsbD 9 && (p.shaded || (p.textured && !p.raw))
      clutX := clutXOf tex0, clutY := clutYOf tex0 }
  let vertex := polygonVertex p ws g.draw
  andThen (drawTriangle pr (vertex 0) (vertex 1) (vertex 2) g) fun g' =>
    if p.quad then drawTriangle pr (vertex 1) (vertex 2) (vertex 3) g' else .next g'

/-- A rectangle's width and height (R489). -/
def rectangleSize (f : RectangleFlags) (sizeWord : Word) : Nat × Nat :=
  match f.size with
  | 0#2 => ((sizeWord.extractLsb' 0 10).toNat, (sizeWord.extractLsb' 16 9).toNat)
  | 1#2 => (1, 1)
  | 2#2 => (8, 8)
  | _ => (16, 16)

/-- Rectangle drawing: every cell inside the drawing area through the fragment pipeline, never dithered (R486, R489). -/
def drawRectangle (f : RectangleFlags) (ws : List Word) (g : Gpu) : Result Gpu :=
  let colour := ws.getD 0 0#32
  let tex := ws.getD 2 0#32
  let size := rectangleSize f (ws.getD (if f.textured then 3 else 2) 0#32)
  let x0 := vertexX (ws.getD 1 0#32) g.draw
  let y0 := vertexY (ws.getD 1 0#32) g.draw
  let pr : Primitive :=
    { textured := f.textured, semi := f.semi, raw := f.raw, dither := false
      clutX := clutXOf tex, clutY := clutYOf tex }
  loopResult size.2 (fun j g => loopResult size.1 (fun i g =>
    if insideArea g.draw.area (x0 + i) (y0 + j) then
      drawFragment pr
        { x := x0 + i, y := y0 + j
          r := colour.extractLsb' 0 8, g := colour.extractLsb' 8 8, b := colour.extractLsb' 16 8
          u := tex.extractLsb' 0 8 + BitVec.ofNat 8 i, v := tex.extractLsb' 8 8 + BitVec.ofNat 8 j } g
    else .next g) g) g

end Sys2Proof.Machine
end

