-- ==== Sys2Proof/Machine/Gpu.lean ====
section
/-! DEFINITION. The GPU command engine: GP0, GP1, GPUREAD, GPUSTAT and the VRAM transfers (R460 to R477). GP0 takes a
`Gpu` to a `Gpu`, so that a command touches nothing else (R466). -/

namespace Sys2Proof.Machine

/-! ## Commands (R462) -/

/-- The GP0 commands. -/
inductive GpuCommand where
  | nop
  | clearCache
  | fill
  | polygon (f : PolygonFlags)
  | rectangle (f : RectangleFlags)
  | blit
  | vramWrite
  | vramRead
  | drawMode
  | textureWindow
  | areaTopLeft
  | areaBottomRight
  | drawOffset
  | maskSetting
  deriving DecidableEq, Repr

/-- The command of a first byte, or none for the bytes that are refused (R462). -/
def gpuCommand (c : Byte) : Option GpuCommand :=
  match c.extractLsb' 5 3 with
  | 1#3 => some (.polygon
      { shaded := c.getLsbD 4, quad := c.getLsbD 3, textured := c.getLsbD 2, semi := c.getLsbD 1, raw := c.getLsbD 0 })
  | 3#3 => some (.rectangle
      { size := c.extractLsb' 3 2, textured := c.getLsbD 2, semi := c.getLsbD 1, raw := c.getLsbD 0 })
  | 4#3 => some .blit
  | 5#3 => some .vramWrite
  | 6#3 => some .vramRead
  | _ =>
    match c with
    | 0x00#8 => some .nop
    | 0x01#8 => some .clearCache
    | 0x02#8 => some .fill
    | 0xE1#8 => some .drawMode
    | 0xE2#8 => some .textureWindow
    | 0xE3#8 => some .areaTopLeft
    | 0xE4#8 => some .areaBottomRight
    | 0xE5#8 => some .drawOffset
    | 0xE6#8 => some .maskSetting
    | _ => none

/-- `words(c)`: the words of a command, its first among them (R462). -/
def GpuCommand.words : GpuCommand → Nat
  | .nop | .clearCache => 1
  | .fill => 3
  | .polygon f =>
    1 + f.vertices + (if f.textured then f.vertices else 0) + (if f.shaded then f.vertices - 1 else 0)
  | .rectangle f => 2 + f.textured.toNat + (if f.size = 0#2 then 1 else 0)
  | .blit => 4
  | .vramWrite | .vramRead => 3
  | .drawMode | .textureWindow | .areaTopLeft | .areaBottomRight | .drawOffset | .maskSetting => 1

/-- The transfer a command of position and size words starts (R475, R476). -/
def startTransfer (mode : TransferMode) (p s : Word) : Transfer :=
  { mode := mode, x := positionX p, y := positionY p, w := sizeWidth s, h := sizeHeight s, tx := 0, ty := 0 }

/-- Run a complete command on its words (R464 to R469, R473 to R476, R480, R489). -/
def runCommand (c : GpuCommand) (ws : List Word) (g : Gpu) : Result Gpu :=
  let w (k : Nat) : Word := ws.getD k 0#32
  match c with
  | .nop => .next g
  | .clearCache => .next g
  | .fill => .next (fillRectangle (w 0) (w 1) (w 2) g)
  | .polygon f => drawPolygon f ws g
  | .rectangle f => drawRectangle f ws g
  | .blit => .next (blit (w 1) (w 2) (w 3) g)
  | .vramWrite => .next { g with transfer := startTransfer .write (w 1) (w 2) }
  | .vramRead => .next { g with transfer := startTransfer .read (w 1) (w 2) }
  | .drawMode => .next { g with draw := { g.draw with texpage := (w 0).extractLsb' 0 14 } }
  | .textureWindow => .next { g with draw := { g.draw with texwin := (w 0).extractLsb' 0 20 } }
  | .areaTopLeft =>
    .next { g with draw := { g.draw with area :=
      { g.draw.area with x1 := (w 0).extractLsb' 0 10, y1 := (w 0).extractLsb' 10 9 } } }
  | .areaBottomRight =>
    .next { g with draw := { g.draw with area :=
      { g.draw.area with x2 := (w 0).extractLsb' 0 10, y2 := (w 0).extractLsb' 10 9 } } }
  | .drawOffset =>
    .next { g with draw := { g.draw with offX := (w 0).extractLsb' 0 11, offY := (w 0).extractLsb' 11 11 } }
  | .maskSetting =>
    .next { g with draw := { g.draw with setMask := (w 0).getLsbD 0, checkMask := (w 0).getLsbD 1 } }

/-! ## Transfers -/

/-- The cursor one cell on; at the end of the rectangle the mode is Fifo again (R475, R476). -/
def Transfer.advance (t : Transfer) : Transfer :=
  if t.tx + 1 = t.w then
    let t' := { t with tx := 0, ty := t.ty + 1 }
    if t'.ty = t.h then { t' with mode := .fifo } else t'
  else { t with tx := t.tx + 1 }

/-- Write one cell at the cursor, with no mask check (R475). -/
def writePixel (c : Cell16) (g : Gpu) : Gpu :=
  let g' := g.setCell (g.transfer.x + g.transfer.tx) (g.transfer.y + g.transfer.ty) c
  { g' with transfer := g.transfer.advance }

/-- `writePixels(v)`: two cells, the second discarded past the rectangle (R475). -/
def writePixels (v : Word) (g : Gpu) : Gpu :=
  let g' := writePixel (v.extractLsb' 0 16) g
  if g'.transfer.mode = .write then writePixel (v.extractLsb' 16 16) g' else g'

/-- The cell at the cursor, and the GPU with the cursor one on (R476). -/
def readPixel (g : Gpu) : Cell16 × Gpu :=
  (g.cell (g.transfer.x + g.transfer.tx) (g.transfer.y + g.transfer.ty), { g with transfer := g.transfer.advance })

/-- A load from GPUREAD: two cells in Read mode, a half-word beyond the rectangle a draw; otherwise a draw (R470,
R476). -/
def gpuRead (p : Platform) : Word × Platform :=
  if p.gpu.transfer.mode = .read then
    let first := readPixel p.gpu
    if first.2.transfer.mode = .read then
      let second := readPixel first.2
      (second.1 ++ first.1, { p with gpu := second.2 })
    else
      let d := drawWord p
      (d.1.extractLsb' 16 16 ++ first.1, { d.2 with gpu := first.2 })
  else drawWord p

/-! ## Ports -/

/-- A word to GP0 (R461): pixels in Write mode, else the next word of a command. -/
def gp0 (v : Word) (g : Gpu) : Result Gpu :=
  if g.transfer.mode = .write then .next (writePixels v g)
  else
    let fifo := g.fifo ++ [v]
    if 16 < fifo.length then .fault .gpuFifoOverflow
    else
      match gpuCommand ((fifo.getD 0 0#32).extractLsb' 24 8) with
      | none => .refused .gpuUnknownCommand
      | some c =>
        if fifo.length = c.words then
          mapNext (fun g' => { g' with fifo := [] }) (runCommand c fifo { g with fifo := fifo })
        else .next { g with fifo := fifo }

/-- The bits of GPUSTAT that R471 names: [12:0], 26, 27, 28, 31. -/
def gpuStatNamed : Word := 0x9C001FFF#32

/-- A load from GPUSTAT: the named bits, draws in the others; bit 31 inverts after each read (R471). -/
def gpuStat (p : Platform) : Word × Platform :=
  let g := p.gpu
  let d := drawWord p
  let named : Word :=
    BitVec.ofBool g.stat31 ++ 0#2 ++ 1#1 ++ BitVec.ofBool (g.transfer.mode == .read) ++ 1#1 ++ 0#13 ++
      BitVec.ofBool g.draw.checkMask ++ BitVec.ofBool g.draw.setMask ++ g.draw.texpage.extractLsb' 0 11
  (named ||| (d.1 &&& ~~~gpuStatNamed), { d.2 with gpu := { g with stat31 := !g.stat31 } })

/-- The drawing state after a GP1 reset: draws (R472). -/
def drawnDrawState (n : Nat) : DrawState :=
  let w (k : Nat) : Word := Config.freeWord (n + k)
  { texpage := (w 0).extractLsb' 0 14, texwin := (w 1).extractLsb' 0 20
    area := { x1 := (w 2).extractLsb' 0 10, y1 := (w 2).extractLsb' 10 9
              x2 := (w 3).extractLsb' 0 10, y2 := (w 3).extractLsb' 10 9 }
    offX := (w 4).extractLsb' 0 11, offY := (w 4).extractLsb' 11 11
    setMask := (w 5).getLsbD 0, checkMask := (w 5).getLsbD 1 }

/-- The GPU with an empty FIFO and no transfer. -/
def Gpu.flush (g : Gpu) : Gpu := { g with fifo := [], transfer := { g.transfer with mode := .fifo } }

/-- A word to GP1: the two commands that reach the modelled state; every other has no effect on it (R472). -/
def gp1 (v : Word) (p : Platform) : Platform :=
  match v.extractLsb' 24 8 with
  | 0x00#8 => { p with gpu := { p.gpu.flush with draw := drawnDrawState p.draws }, draws := p.draws + 6 }
  | 0x01#8 => { p with gpu := p.gpu.flush }
  | _ => p

end Sys2Proof.Machine
end

