-- ==== Sys2Proof/Machine/Dma.lean ====
section
/-! DEFINITION. The DMA sequencer (R430 to R445). A transfer runs to completion inside the CHCR store (R441). -/

namespace Sys2Proof.Machine

/-! ## Register fields -/

/-- The bits of CHCR that are stored (R431). -/
def chcrMask : Word := 0x71770703#32

/-- Dir, bit 0 (R432). -/
def DmaChannel.toDevice (c : DmaChannel) : Bool := c.chcr.getLsbD 0
/-- Step, bit 1 (R432). -/
def DmaChannel.stepsDown (c : DmaChannel) : Bool := c.chcr.getLsbD 1
/-- Sync, bits 10:9 (R432). -/
def DmaChannel.sync (c : DmaChannel) : BitVec 2 := c.chcr.extractLsb' 9 2
/-- Enable, bit 24 (R432). -/
def DmaChannel.enabled (c : DmaChannel) : Bool := c.chcr.getLsbD 24
/-- Start, bit 28 (R432). -/
def DmaChannel.started (c : DmaChannel) : Bool := c.chcr.getLsbD 28
/-- `size`, BCR[15:0] (R433). -/
def DmaChannel.size (c : DmaChannel) : Nat := (c.bcr.extractLsb' 0 16).toNat
/-- `count`, BCR[31:16] (R433). -/
def DmaChannel.blocks (c : DmaChannel) : Nat := (c.bcr.extractLsb' 16 16).toNat

/-- A CHCR write with Enable and (Start or a sync mode other than manual) starts a transfer (R440). -/
def DmaChannel.triggered (c : DmaChannel) : Bool := c.enabled && (c.started || c.sync != 0#2)

/-- The condition behind DICR bit 31 (R435, R437). -/
def Dicr.irq (d : Dicr) : Bool := d.force || (d.master && (d.enable &&& d.flag) != 0#7)

/-- The word a load of DICR returns (R435). -/
def Dicr.word (d : Dicr) : Word :=
  BitVec.ofBool d.irq ++ d.flag ++ BitVec.ofBool d.master ++ d.enable ++ BitVec.ofBool d.force ++ 0#9 ++ d.low

/-- The fields after a DICR write, before the interrupt is recomputed (R436). -/
def Dicr.written (v : Word) (d : Dicr) : Dicr :=
  { low := v.extractLsb' 0 6, force := v.getLsbD 15, enable := v.extractLsb' 16 7, master := v.getLsbD 23
    flag := d.flag &&& ~~~v.extractLsb' 24 7 }

/-! ## Interrupt and completion -/

/-- Recompute the interrupt level; a rising edge asserts Dma (R437). -/
def updateDmaIrq (p : Platform) : Platform :=
  let b := p.dma.dicr.irq
  { p with
    iStat := if b && !p.dma.irqLevel then assertSource dmaSource p.iStat else p.iStat
    dma := { p.dma with irqLevel := b } }

/-- A write to DICR (R436, R437). -/
def writeDicr (v : Word) (p : Platform) : Platform :=
  updateDmaIrq { p with dma := { p.dma with dicr := p.dma.dicr.written v } }

/-- The platform with channel n's registers replaced. -/
def setChannel (n : Fin 7) (c : DmaChannel) (p : Platform) : Platform :=
  { p with dma := { p.dma with channels := p.dma.channels.set n c } }

/-- `complete(n)` (R444): busy and start cleared, MADR a draw, the flag set if enabled, the interrupt recomputed. -/
def completeTransfer (n : Fin 7) (p : Platform) : Platform :=
  let c := p.dma.channels[n]
  let d := drawWord p
  let p := setChannel n { c with chcr := c.chcr &&& ~~~0x11000000#32, madr := d.1.extractLsb' 0 24 } d.2
  let dicr := p.dma.dicr
  let p := if dicr.enable.getLsbD n then
      { p with dma := { p.dma with dicr := { dicr with flag := dicr.flag ||| 1#7 <<< n.val } } }
    else p
  updateDmaIrq p

/-! ## Devices and RAM (R438, R439) -/

/-- The RAM address of a DMA access: `a & 0x1FFFFC` (R439). -/
def dmaAddress (a : Word) : Nat := (a &&& 0x001FFFFC#32).toNat

/-- The RAM word at a DMA address. -/
def dmaRead (a : Word) (p : Platform) : Word := p.mem.read (dmaAddress a) .word

/-- The platform with the RAM word at a DMA address written. -/
def dmaWrite (a v : Word) (p : Platform) : Platform := { p with mem := p.mem.write (dmaAddress a) .word v }

/-- A word to GP0 from DMA (R438). -/
def putGp0 (v : Word) (p : Platform) : Result Platform :=
  mapNext (fun g => { p with gpu := g }) (gp0 v p.gpu)

/-- A word to channel n's device: GP0 for channel 2, `DEV` (no effect) for the others (R379, R438). -/
def devicePut (n : Fin 7) (v : Word) (p : Platform) : Result Platform :=
  if n = 2 then putGp0 v p else .next p

/-- A word from channel n's device: GPUREAD for channel 2, a draw for the others (R379, R438). -/
def deviceGet (n : Fin 7) (p : Platform) : Word × Platform :=
  if n = 2 then gpuRead p else drawWord p

/-- The address of word i of a transfer (R439). -/
def transferAddress (c : DmaChannel) (i : Nat) : Word :=
  if c.stepsDown then c.madr.setWidth 32 - BitVec.ofNat 32 (4 * i) else c.madr.setWidth 32 + BitVec.ofNat 32 (4 * i)

/-! ## The transfers -/

/-- One word of a manual or block transfer (R441). -/
def transferWord (n : Fin 7) (c : DmaChannel) (i : Nat) (p : Platform) : Result Platform :=
  let a := transferAddress c i
  if c.toDevice then devicePut n (dmaRead a p) p
  else
    let d := deviceGet n p
    .next (dmaWrite a d.1 d.2)

/-- The words of a manual or block transfer (R433, R441). -/
def DmaChannel.words (c : DmaChannel) : Nat := if c.sync = 0#2 then c.size else c.size * c.blocks

/-- The nodes of a linked list, in order (R442). RAM does not change while the list is walked and only `a & 0x1FFFFC`
selects a node, so a walk over more nodes than there are RAM words never ends (log 16). -/
def linkedList : Nat → Word → Platform → Result Platform
  | 0, _, _ => .fault .dmaListNeverEnds
  | fuel + 1, a, p =>
    let h := dmaRead a p
    andThen (loopResult (h.extractLsb' 24 8).toNat
        (fun i p => putGp0 (dmaRead (a + BitVec.ofNat 32 (4 * (i + 1))) p) p) p) fun p =>
      if h.getLsbD 23 then .next p else linkedList fuel ((h.extractLsb' 0 24).setWidth 32) p

/-- The words of RAM: the most nodes a list that ends can have. -/
def maxListNodes : Nat := 524288

/-- OTC, channel 6 (R443). -/
def orderingTable (c : DmaChannel) (p : Platform) : Platform :=
  loop c.size (fun i p =>
    let a := c.madr.setWidth 32 - BitVec.ofNat 32 (4 * i)
    dmaWrite a (if i + 1 = c.size then 0x00FFFFFF#32 else (a - 4#32) &&& 0x001FFFFF#32) p) p

/-- A triggered transfer moves no words (R433, R443): for channel 6 only `size` counts (log 17). -/
def zeroSize (n : Fin 7) (c : DmaChannel) : Bool :=
  if n = 6 then c.size == 0
  else (c.sync == 0#2 && c.size == 0) || (c.sync == 1#2 && (c.size == 0 || c.blocks == 0))

/-- A triggered transfer: the checks of R433, R434, R432, then the transfer, then completion (R441). -/
def runTransfer (n : Fin 7) (p : Platform) : Result Platform :=
  let c := p.dma.channels[n]
  if zeroSize n c then .refused .dmaZeroSize
  else if !p.dma.dpcr.getLsbD (4 * n.val + 3) then .refused .dmaChannelDisabled
  else if c.sync = 3#2 then .refused .dmaSyncReserved
  else if n = 6 then .next (completeTransfer n (orderingTable c p))
  else if c.sync = 2#2 then
    if n = 2 && c.toDevice then
      mapNext (completeTransfer n) (linkedList maxListNodes (c.madr.setWidth 32) p)
    else .refused .dmaLinkedListNotGpu
  else mapNext (completeTransfer n) (loopResult c.words (transferWord n c) p)

/-! ## Register writes (R431) -/

/-- A write to MADR. -/
def writeMadr (n : Fin 7) (v : Word) (p : Platform) : Platform :=
  setChannel n { p.dma.channels[n] with madr := v.extractLsb' 0 24 } p

/-- A write to BCR. -/
def writeBcr (n : Fin 7) (v : Word) (p : Platform) : Platform :=
  setChannel n { p.dma.channels[n] with bcr := v } p

/-- A write to CHCR, which may run a transfer (R431, R440). -/
def writeChcr (n : Fin 7) (v : Word) (p : Platform) : Result Platform :=
  let c := { p.dma.channels[n] with chcr := v &&& chcrMask }
  let p := setChannel n c p
  if c.triggered then runTransfer n p else .next p

end Sys2Proof.Machine
end

