-- ==== Sys2Proof/Machine/Timers.lean ====
section
/-! DEFINITION. The three timers and the timer clock (R410 to R419). -/

namespace Sys2Proof.Machine

/-! ## The fields of `mode` (R412) -/

/-- Bit 3. -/
def Timer.resetAtTarget (t : Timer) : Bool := t.mode.getLsbD 3
/-- Bit 4. -/
def Timer.irqAtTarget (t : Timer) : Bool := t.mode.getLsbD 4
/-- Bit 5. -/
def Timer.irqAtFFFF (t : Timer) : Bool := t.mode.getLsbD 5
/-- Bit 6. -/
def Timer.repeats (t : Timer) : Bool := t.mode.getLsbD 6
/-- Bit 7. -/
def Timer.toggles (t : Timer) : Bool := t.mode.getLsbD 7
/-- Bits 9:8. -/
def Timer.source (t : Timer) : BitVec 2 := t.mode.extractLsb' 8 2

/-- ReachedTarget, bit 11. -/
def reachedTarget : BitVec 13 := 0x0800#13
/-- ReachedFFFF, bit 12. -/
def reachedFFFF : BitVec 13 := 0x1000#13
/-- IrqLine, bit 10. -/
def irqLineBit : BitVec 13 := 0x0400#13

/-! ## One cycle -/

/-- What a timer's cycle moves: the timer, I_STAT and the draw counter. -/
structure TimerStep where
  timer : Timer
  iStat : BitVec 11
  draws : Nat
  deriving DecidableEq, Repr

/-- `fire(t)` (R416). -/
def fireTimer (t : Nat) (s : TimerStep) : TimerStep :=
  if s.timer.armed then
    let fired : TimerStep :=
      if s.timer.toggles then
        { timer := { s.timer with mode := s.timer.mode ^^^ irqLineBit }
          iStat := if Config.freeToggleRequests s.draws then assertSource (timerSource t) s.iStat else s.iStat
          draws := s.draws + 1 }
      else { s with iStat := assertSource (timerSource t) s.iStat }
    { fired with timer := { fired.timer with armed := fired.timer.repeats } }
  else s

/-- The counter's move in one count: reload at the target or wrap at 16 bits (R415). -/
def Timer.countUp (tm : Timer) : Timer :=
  { tm with count := if tm.resetAtTarget && tm.count == tm.target then 0#16 else tm.count + 1#16 }

/-- The comparison with `target` after a count (R415). -/
def compareTarget (t : Nat) (s : TimerStep) : TimerStep :=
  if s.timer.count = s.timer.target then
    let s' := { s with timer := { s.timer with mode := s.timer.mode ||| reachedTarget } }
    if s'.timer.irqAtTarget then fireTimer t s' else s'
  else s

/-- The comparison with 0xFFFF after a count (R415). -/
def compareFFFF (t : Nat) (s : TimerStep) : TimerStep :=
  if s.timer.count = 0xFFFF#16 then
    let s' := { s with timer := { s.timer with mode := s.timer.mode ||| reachedFFFF } }
    if s'.timer.irqAtFFFF then fireTimer t s' else s'
  else s

/-- Timer 1 divides by 2100 with source 1 or 3 (R415, R417). -/
def Timer.divides (t : Nat) (tm : Timer) : Bool := t == 1 && tm.source.getLsbD 0

/-- `cycle(t)` (R415). -/
def cycleTimer (t : Nat) (s : TimerStep) : TimerStep :=
  if s.timer.divides t && decide (s.timer.prescaler + 1 < 2100) then
    { s with timer := { s.timer with prescaler := s.timer.prescaler + 1 } }
  else
    let started := if s.timer.divides t then { s.timer with prescaler := 0 } else s.timer
    compareFFFF t (compareTarget t { s with timer := started.countUp })

/-- What the timer clock moves: all three timers, I_STAT and the draw counter. -/
structure Clock where
  timers : Vector Timer 3
  iStat  : BitVec 11
  draws  : Nat
  deriving DecidableEq, Repr

/-- One cycle of timer t within the clock. -/
def Clock.cycleOne (t : Fin 3) (c : Clock) : Clock :=
  let r := cycleTimer t.val { timer := c.timers[t], iStat := c.iStat, draws := c.draws }
  { timers := c.timers.set t r.timer, iStat := r.iStat, draws := r.draws }

/-- One system-clock cycle: timers 0, 1, 2 in that order (R411). -/
def Clock.cycle (c : Clock) : Clock := ((c.cycleOne 0).cycleOne 1).cycleOne 2

/-- `k` system-clock cycles (R411). -/
def clockCycles (k : Nat) (p : Platform) : Platform :=
  let c := loop k (fun _ => Clock.cycle) { timers := p.timers, iStat := p.iStat, draws := p.draws }
  { p with timers := c.timers, iStat := c.iStat, draws := c.draws }

/-! ## Register accesses -/

/-- A read of `mode` returns it and clears the reached flags (R413). -/
def readTimerMode (t : Fin 3) (p : Platform) : Word × Platform :=
  let tm := p.timers[t]
  (tm.mode.setWidth 32,
    { p with timers := p.timers.set t { tm with mode := tm.mode &&& ~~~(reachedTarget ||| reachedFFFF) } })

/-- A write to `count` (R414). -/
def writeTimerCount (t : Fin 3) (v : Word) (p : Platform) : Platform :=
  { p with timers := p.timers.set t { p.timers[t] with count := v.extractLsb' 0 16 } }

/-- A write to `target` (R414). -/
def writeTimerTarget (t : Fin 3) (v : Word) (p : Platform) : Platform :=
  { p with timers := p.timers.set t { p.timers[t] with target := v.extractLsb' 0 16 } }

/-- A write to `mode`; SyncEn = 1 is refused (R414, R418). -/
def writeTimerMode (t : Fin 3) (v : Word) (p : Platform) : Result Platform :=
  if v.getLsbD 0 then .refused .timerSync
  else
    let tm := p.timers[t]
    let mode := tm.mode.extractLsb' 11 2 ++ 1#1 ++ v.extractLsb' 0 10
    .next { p with
      timers := p.timers.set t { tm with mode := mode, count := 0#16, prescaler := 0, armed := true } }

end Sys2Proof.Machine
end

