-- ==== Sys2Proof/Machine/Bus.lean ====
section
/-! DEFINITION. The physical address map and the bus (R66 to R74). -/

namespace Sys2Proof.Machine

/-- What a physical address reaches (R66). -/
inductive Target where
  | ram
  | expansion
  | scratchpad
  | dev
  | iStat
  | iMask
  | madr (n : Fin 7)
  | bcr (n : Fin 7)
  | chcr (n : Fin 7)
  | dpcr
  | dicr
  | timerCount (t : Fin 3)
  | timerMode (t : Fin 3)
  | timerTarget (t : Fin 3)
  | gp0
  | gp1
  | bios
  | ccr
  | unmapped
  deriving DecidableEq, Repr

/-- The registers of DMA channel n by offset in its 16 bytes (R431). -/
def channelTarget (n : Fin 7) : Nat → Target
  | 0 => .madr n
  | 4 => .bcr n
  | 8 => .chcr n
  | _ => .unmapped

/-- The registers of timer t by offset in its 16 bytes (R410). -/
def timerRegister (t : Fin 3) : Nat → Target
  | 0 => .timerCount t
  | 4 => .timerMode t
  | 8 => .timerTarget t
  | _ => .unmapped

/-- The device registers that stand at a single address (R66). -/
def registerTarget (pa : Nat) : Target :=
  match pa with
  | 0x1F801040 | 0x1F801044 | 0x1F801048 | 0x1F80104A | 0x1F80104E => .dev
  | 0x1F801070 => .iStat
  | 0x1F801074 => .iMask
  | 0x1F8010F0 => .dpcr
  | 0x1F8010F4 => .dicr
  | 0x1F801810 => .gp0
  | 0x1F801814 => .gp1
  | 0xFFFE0130 => .ccr
  | _ => .unmapped

/-- The physical address map (R66). -/
def target (pa : Nat) : Target :=
  if pa < 0x00200000 then .ram
  else if 0x1F000000 ≤ pa ∧ pa < 0x1F800000 then .expansion
  else if 0x1F800000 ≤ pa ∧ pa < 0x1F800400 then .scratchpad
  else if h : 0x1F801080 ≤ pa ∧ pa < 0x1F8010F0 then
    channelTarget ⟨(pa - 0x1F801080) / 16, by omega⟩ ((pa - 0x1F801080) % 16)
  else if h : 0x1F801100 ≤ pa ∧ pa < 0x1F801130 then
    timerRegister ⟨(pa - 0x1F801100) / 16, by omega⟩ ((pa - 0x1F801100) % 16)
  else if 0x1F801800 ≤ pa ∧ pa < 0x1F801804 then .dev
  else if 0x1F801C00 ≤ pa ∧ pa < 0x1F802000 then .dev
  else if 0x1FC00000 ≤ pa ∧ pa < 0x1FC80000 then .bios
  else registerTarget pa

/-- A write there is dropped (R72, log 21). -/
def ignoredWrite (ranges : List (Nat × Nat)) (pa : Nat) : Bool := ranges.any fun r => decide (r.1 ≤ pa ∧ pa < r.2)

/-- A read of a register that takes any width: the low 8n bits of its value (R74). -/
def anyWidth (n : Size) (r : Word × Platform) : Result (Word × Platform) := .next (n.low r.1, r.2)

/-- A read of a register that takes words only (R74). -/
def wordOnly (n : Size) (r : Word × Platform) : Result (Word × Platform) :=
  if n = .word then .next r else .refused .subwordDeviceAccess

/-- `BusRead(pa, n)` (R66, R74), zero-extended. -/
def busRead (pa : Nat) (n : Size) (p : Platform) : Result (Word × Platform) :=
  match target pa with
  | .ram | .scratchpad | .bios => .next (p.mem.read pa n, p)
  | .expansion => .next (0#32, p)
  | .dev => anyWidth n (drawWord p)
  | .iStat => anyWidth n (p.iStat.setWidth 32, p)
  | .iMask => anyWidth n (p.iMask.setWidth 32, p)
  | .madr c => wordOnly n ((p.dma.channels[c]).madr.setWidth 32, p)
  | .bcr c => wordOnly n ((p.dma.channels[c]).bcr, p)
  | .chcr c => wordOnly n ((p.dma.channels[c]).chcr, p)
  | .dpcr => wordOnly n (p.dma.dpcr, p)
  | .dicr => wordOnly n (p.dma.dicr.word, p)
  | .timerCount t => anyWidth n ((p.timers[t]).count.setWidth 32, p)
  | .timerMode t => anyWidth n (readTimerMode t p)
  | .timerTarget t => anyWidth n ((p.timers[t]).target.setWidth 32, p)
  | .gp0 => wordOnly n (gpuRead p)
  | .gp1 => wordOnly n (gpuStat p)
  | .ccr => wordOnly n (p.ccr, p)
  | .unmapped => .fault .unmappedRead

/-- A write to a register that takes words only (R74). -/
def wordOnlyWrite (n : Size) (r : Result Platform) : Result Platform :=
  if n = .word then r else .refused .subwordDeviceAccess

/-- `BusWrite(pa, n, v)` (R66, R69, R71, R72, R74); a narrow write to an INTC or timer register acts as a write of
`zext(v)`. -/
def busWrite (pa : Nat) (n : Size) (v : Word) (p : Platform) : Result Platform :=
  match target pa with
  | .ram | .scratchpad => .next { p with mem := p.mem.write pa n v }
  | .bios => .next p
  | .expansion => .next p
  | .dev => .next p
  | .iStat => .next (writeIStat (n.low v) p)
  | .iMask => .next (writeIMask (n.low v) p)
  | .madr c => wordOnlyWrite n (.next (writeMadr c v p))
  | .bcr c => wordOnlyWrite n (.next (writeBcr c v p))
  | .chcr c => wordOnlyWrite n (writeChcr c v p)
  | .dpcr => wordOnlyWrite n (.next { p with dma := { p.dma with dpcr := v } })
  | .dicr => wordOnlyWrite n (.next (writeDicr v p))
  | .timerCount t => .next (writeTimerCount t (n.low v) p)
  | .timerMode t => writeTimerMode t (n.low v) p
  | .timerTarget t => .next (writeTimerTarget t (n.low v) p)
  | .gp0 => wordOnlyWrite n (mapNext (fun g => { p with gpu := g }) (gp0 v p.gpu))
  | .gp1 => wordOnlyWrite n (.next (gp1 v p))
  | .ccr => wordOnlyWrite n (.next { p with ccr := v })
  | .unmapped => if ignoredWrite p.ignoredWrites pa then .next p else .fault .unmappedWrite

/-- RAM, scratchpad and BIOS: the addresses memory lists bytes at (R66). -/
def isStorage (pa : Nat) : Bool :=
  match target pa with
  | .ram | .scratchpad | .bios => true
  | _ => false

/-- RAM and BIOS: what instruction fetch is admitted from (R67). -/
def isFetchable (pa : Nat) : Bool :=
  match target pa with
  | .ram | .bios => true
  | _ => false

end Sys2Proof.Machine
end

