-- ==== Sys2Proof/Machine/Operands.lean ====
section
/-! DEFINITION. Operand forms (R112) and the general registers with the load-delay slot (R21, R30, R503). -/

namespace Sys2Proof.Machine

/-! ## Immediates (R112) -/

/-- `sext_16(imm16)`. -/
def sext16 (imm : BitVec 16) : Word := imm.signExtend 32

/-- `zext_16(imm16)`. -/
def zext16 (imm : BitVec 16) : Word := imm.setWidth 32

/-- LUI's value, `imm16 << 16`. -/
def upper16 (imm : BitVec 16) : Word := imm ++ 0#16

/-- A branch displacement, `sext_16(imm16) << 2`. -/
def displacement (imm : BitVec 16) : Word := sext16 imm <<< 2

/-! ## General registers -/

/-- The committed value of a register; x[0] is 0 (R21). -/
def State.reg (s : State) (r : Reg) : Word := if r = 0#5 then 0#32 else s.regs[r.toNat]

/-- The state with a register's committed value replaced; a write to x[0] is discarded (R21). -/
def State.setReg (s : State) (r : Reg) (v : Word) : State :=
  if r = 0#5 then s else { s with regs := s.regs.set r.toNat v }

/-- The value before the load, if the register is the one the previous instruction loaded (R30). -/
def State.pendingOld (s : State) (r : Reg) : Option Word :=
  match s.ldNow with
  | some d => if d.reg = r ∧ r ≠ 0#5 then some d.old else none
  | none => none

/-- What an instruction reads from a register: in the load-delay slot one of the old and the loaded value, the same for
every read of the instruction (R503, log 12). -/
def readReg (s : State) (r : Reg) : Word :=
  match s.pendingOld r with
  | some old => if Config.freeReadsOld s.plat.draws then old else s.reg r
  | none => s.reg r

/-- An instruction's result write: over a register the previous instruction loaded, one of the result and the loaded
value stays (R503, log 12). -/
def writeReg (s : State) (r : Reg) (v : Word) : State :=
  match s.pendingOld r with
  | some _ => if Config.freeLoadWins s.plat.draws then s else s.setReg r v
  | none => s.setReg r v

/-- A delayed load's write: the register, and the load-delay slot with its value before (R30, R278, R504). -/
def writeDelayed (s : State) (r : Reg) (v : Word) : State :=
  { writeReg s r v with ldNext := some { reg := r, old := s.reg r, kind := .whole } }

/-- LWL after LWR and LWR after LWL are the two halves of a pair (R503, log 13). -/
def LoadKind.completes : LoadKind → LoadKind → Bool
  | .left, .right | .right, .left => true
  | .whole, _ | .left, .whole | .left, .left | .right, .whole | .right, .right => false

/-- A load of this kind into the register completes an LWL/LWR pair whose first half is pending (R503, log 13). -/
def State.completesPair (s : State) (kind : LoadKind) (r : Reg) : Bool :=
  match s.ldNow with
  | some d => d.reg == r && kind.completes d.kind
  | none => false

/-- The delayed write of LWL and LWR: raced as any load's is, but for the second half of a pair, whose value already
holds the first half's (R280, R503, log 13). -/
def writeMerged (s : State) (kind : LoadKind) (r : Reg) (v : Word) : State :=
  { (if s.completesPair kind r then s.setReg r v else writeReg s r v) with
    ldNext := some { reg := r, old := s.reg r, kind := kind } }

/-! ## Addresses -/

/-- `EA = x[rs] + sext_16(imm16)` (R275). -/
def effectiveAddress (s : State) (rs : Reg) (imm : BitVec 16) : Word := readReg s rs + sext16 imm

/-- The aligned word containing an address, `EA & ~3` (R279). -/
def wordBase (ea : Word) : Word := ea &&& 0xFFFFFFFC#32

/-- The byte offset within the word, `EA[1:0]` (R279). -/
def byteOffset (ea : Word) : BitVec 2 := ea.extractLsb' 0 2

/-- The address is not a multiple of the access width (R73). -/
def misaligned (n : Size) (a : Word) : Bool :=
  match n with
  | .byte => false
  | .half => a.getLsbD 0
  | .word => a.extractLsb' 0 2 != 0#2

/-- The target of a PC-relative branch (R243). -/
def branchTarget (s : State) (imm : BitVec 16) : Word := s.currentPC + 4#32 + displacement imm

/-- The target of J and JAL (R243). -/
def jumpTarget (s : State) (target : BitVec 26) : Word :=
  ((s.currentPC + 4#32) &&& 0xF0000000#32) ||| (target.setWidth 32 <<< 2)

/-- The return address of the linking instructions (R244). -/
def linkAddress (s : State) : Word := s.currentPC + 8#32

/-! ## The merge table of the unaligned accesses (R279) -/

/-- LWL: memory bytes from the word's base up to the address, into the top of the register. -/
def mergeLwl (n : BitVec 2) (r w : Word) : Word :=
  match n with
  | 0#2 => (r &&& 0x00FFFFFF#32) ||| (w <<< 24)
  | 1#2 => (r &&& 0x0000FFFF#32) ||| (w <<< 16)
  | 2#2 => (r &&& 0x000000FF#32) ||| (w <<< 8)
  | _ => w

/-- LWR: memory bytes from the address to the word's end, into the bottom of the register. -/
def mergeLwr (n : BitVec 2) (r w : Word) : Word :=
  match n with
  | 0#2 => w
  | 1#2 => (r &&& 0xFF000000#32) ||| (w >>> 8)
  | 2#2 => (r &&& 0xFFFF0000#32) ||| (w >>> 16)
  | _ => (r &&& 0xFFFFFF00#32) ||| (w >>> 24)

/-- SWL: the bytes LWL would load, stored. -/
def mergeSwl (n : BitVec 2) (r w : Word) : Word :=
  match n with
  | 0#2 => (w &&& 0xFFFFFF00#32) ||| (r >>> 24)
  | 1#2 => (w &&& 0xFFFF0000#32) ||| (r >>> 16)
  | 2#2 => (w &&& 0xFF000000#32) ||| (r >>> 8)
  | _ => r

/-- SWR: the bytes LWR would load, stored. -/
def mergeSwr (n : BitVec 2) (r w : Word) : Word :=
  match n with
  | 0#2 => r
  | 1#2 => (w &&& 0x000000FF#32) ||| (r <<< 8)
  | 2#2 => (w &&& 0x0000FFFF#32) ||| (r <<< 16)
  | _ => (w &&& 0x00FFFFFF#32) ||| (r <<< 24)

end Sys2Proof.Machine
end

