-- ==== Sys2Proof/Machine/Ops.lean ====
section
/-! DEFINITION. The operations the meanings share: status fields, translation, loads and stores, coprocessor-0 reads
and writes, taking an exception and returning from one. -/

namespace Sys2Proof.Machine

/-! ## Fields of Status (R34) -/

/-- IEc, bit 0. -/
def State.interruptsEnabled (s : State) : Bool := s.status.getLsbD 0
/-- KUc, bit 1: user mode (R400). -/
def State.userMode (s : State) : Bool := s.status.getLsbD 1
/-- IsC, bit 16 (R96). -/
def State.cacheIsolated (s : State) : Bool := s.status.getLsbD 16
/-- BEV, bit 22 (R385). -/
def State.bootVectors (s : State) : Bool := s.status.getLsbD 22
/-- CU2, bit 30 (R341). -/
def State.cop2Usable (s : State) : Bool := s.status.getLsbD 30

/-! ## Taking an exception and returning from one -/

/-- The code in Cause.ExcCode (R380). -/
def Exception.code : Exception → BitVec 5
  | .int => 0#5
  | .adel => 4#5
  | .ades => 5#5
  | .sys => 8#5
  | .bp => 9#5
  | .ri => 10#5
  | .ov => 12#5

/-- The vector: 0xBFC00180 with BEV, else 0x80000080 (R385 step 4). -/
def State.exceptionVector (s : State) : Word := if s.bootVectors then 0xBFC00180#32 else 0x80000080#32

/-- Where the excepting instruction restarts: itself, or the branch before it (R385 step 1). -/
def State.restartPC (s : State) : Word := if s.branchDelay then s.currentPC - 4#32 else s.currentPC

/-- The mode and interrupt stack pushed, kernel mode and interrupts off on top (R385 step 2). -/
def pushStatus (status : Word) : Word := status.extractLsb' 6 26 ++ status.extractLsb' 0 4 ++ 0#2

/-- Cause after entry: BD and ExcCode as given, BT and CE cleared, the software bits IP[1:0] kept (R35, R385 steps 1
and 3). -/
def enteredCause (bd : Bool) (code : BitVec 5) (cause : Word) : Word :=
  BitVec.ofBool bd ++ 0#21 ++ cause.extractLsb' 8 2 ++ 0#1 ++ code ++ 0#2

/-- Exception entry, `raise E` (R14, R385): EPC and Cause.BD, the status stack, Cause, the vector, and no branch or load
pending. No general register, HI, LO or memory changes. -/
def enter (e : Exception) (s : State) : State :=
  { s with
    epc := s.restartPC
    cause := enteredCause s.branchDelay e.code s.cause
    status := pushStatus s.status
    pc := s.exceptionVector
    nextPC := s.exceptionVector + 4#32
    branchPending := false
    branchDelay := false
    ldNow := none
    ldNext := none }

/-- The outcome of an instruction that raises an exception. -/
def raise (e : Exception) (s : State) : Result State := .next (enter e s)

/-- The mode and interrupt stack popped, `Status[3:0] <- Status[5:2]` (R315). -/
def popStatus (status : Word) : Word := status.extractLsb' 4 28 ++ status.extractLsb' 2 4

/-- The return from an exception: RFE pops the stack and changes nothing else (R315, R390). -/
def leaveException (s : State) : State := { s with status := popStatus s.status }

/-! ## Coprocessor 0 (R32 to R36, R313, R314) -/

/-- PRId (R33). -/
def prid : Word := 0x00000002#32

/-- Cause as a read returns it: bit 10 is the live interrupt line (R35). -/
def State.causeRead (s : State) : Word :=
  s.cause.extractLsb' 11 21 ++ BitVec.ofBool (interruptLine s.plat) ++ s.cause.extractLsb' 0 10

/-- `cop0read(n)`; a register that names no state reads as a draw (R32, R313). -/
def cop0Read (n : Reg) (s : State) : Word × State :=
  match n with
  | 12#5 => (s.status, s)
  | 13#5 => (s.causeRead, s)
  | 14#5 => (s.epc, s)
  | 15#5 => (prid, s)
  | _ =>
    let d := drawWord s.plat
    (d.1, { s with plat := d.2 })

/-- `cop0write(n, v)`: all of Status, IP[1:0] of Cause, nothing else (R314). -/
def cop0Write (n : Reg) (v : Word) (s : State) : State :=
  match n with
  | 12#5 => { s with status := v }
  | 13#5 => { s with cause := (s.cause &&& ~~~0x00000300#32) ||| (v &&& 0x00000300#32) }
  | _ => s

/-- `IntPending()` (R388). -/
def State.interruptPending (s : State) : Bool :=
  s.interruptsEnabled && (s.status.extractLsb' 8 8 &&& s.causeRead.extractLsb' 8 8) != 0#8

/-! ## Translation and cacheability (R62 to R64) -/

/-- `Translate(va)`: KSEG0 and KSEG1 are masked to 29 bits, the other segments are identity (R63). -/
def translate (va : Word) : Word :=
  match va.extractLsb' 29 3 with
  | 4#3 => va &&& 0x1FFFFFFF#32
  | 5#3 => va &&& 0x1FFFFFFF#32
  | _ => va

/-- `cached(va)`: KUSEG and KSEG0 (R64). -/
def cached (va : Word) : Bool := decide ((va.extractLsb' 29 3).toNat ≤ 4)

/-- A user-mode access to a kernel address (R65). -/
def State.forbids (s : State) (va : Word) : Bool := s.userMode && va.getLsbD 31

/-! ## Loads and stores -/

/-- `MemRead(va, n)` (R77), zero-extended. -/
def memRead (va : Word) (n : Size) (s : State) : Result (Word × State) :=
  if s.forbids va then .refused .userKernelAccess
  else if s.cacheIsolated && cached va then
    let d := drawWord s.plat
    .next (n.low d.1, { s with plat := d.2 })
  else mapNext (fun r => (r.1, { s with plat := r.2 })) (busRead (translate va).toNat n s.plat)

/-- The index of an address's cache line, `va[11:4]` (R38). -/
def lineIndex (va : Word) : BitVec 8 := va.extractLsb' 4 8

/-- The state with a cache line replaced. -/
def State.setLine (s : State) (i : BitVec 8) (l : CacheLine) : State := { s with icache := s.icache.set i.toNat l }

/-- The cache line at an index. -/
def State.line (s : State) (i : BitVec 8) : CacheLine := s.icache[i.toNat]

/-- A store while Status.IsC = 1: a byte or halfword invalidates a line, a word reaches only CCR (R96). -/
def isolatedStore (va : Word) (n : Size) (v : Word) (s : State) : State :=
  match n with
  | .word => if translate va = 0xFFFE0130#32 then { s with plat := { s.plat with ccr := v } } else s
  | _ => s.setLine (lineIndex va) { s.line (lineIndex va) with valid := false }

/-- `MemWrite(va, n, v)` (R78). -/
def memWrite (va : Word) (n : Size) (v : Word) (s : State) : Result State :=
  if s.forbids va then .refused .userKernelAccess
  else if s.cacheIsolated then .next (isolatedStore va n v s)
  else mapNext (fun p => { s with plat := p }) (busWrite (translate va).toNat n v s.plat)

/-! ## Branches and HI/LO -/

/-- A branch or jump: the next instruction is its delay slot; if taken, control goes to the target after it (R42). -/
def branchIf (taken : Bool) (target : Word) (s : State) : State :=
  { s with branchPending := true, nextPC := if taken then target else s.nextPC }

/-- A writer of HI or LO, refused within two instructions of MFHI or MFLO (R507 (a)). -/
def whenHiLoFree (s : State) (t : State) : Result State :=
  if s.mfAge < 2 then .refused .hiLoHazard else .next t

/-! ## Privilege (R312, R341, R400) -/

/-- A coprocessor-0 instruction, refused in user mode (R312). -/
def kernelOnly (s : State) (r : Result State) : Result State :=
  if s.userMode then .refused .userCop0 else r

/-- A coprocessor-2 instruction, refused while Status.CU2 = 0 (R341). -/
def withCop2 (s : State) (r : Result State) : Result State :=
  if s.cop2Usable then r else .refused .cop2Unusable

end Sys2Proof.Machine
end

