-- ==== Sys2Proof/Machine/Alu.lean ====
section
/-! DEFINITION. The ALU instructions (40_alu.md, R140 to R180). -/

namespace Sys2Proof.Machine

/-! ## Shared forms -/

/-- Write an exact signed result, or raise Ov and write nothing (R146). -/
def trapOrWrite (exact : Int) (rd : Reg) (s : State) : Result State :=
  if overflows exact then raise .ov s else .next (writeReg s rd (BitVec.ofInt 32 exact))

/-- A result of two registers (R146). -/
def registerOp (f : Word → Word → Word) (rs rt rd : Reg) (s : State) : Result State :=
  .next (writeReg s rd (f (readReg s rs) (readReg s rt)))

/-- A result of a register and an assembled immediate (R112). -/
def immediateOp (f : Word → Word) (rs rt : Reg) (s : State) : Result State :=
  .next (writeReg s rt (f (readReg s rs)))

/-- The amount of a variable shift, `x[rs][4:0]` (R166). -/
def shiftAmount (a : Word) : Nat := (a.extractLsb' 0 5).toNat

/-! ## Add and subtract -/

/-- ADD (R140). -/
def execAdd (rs rt rd : Reg) (s : State) : Result State :=
  trapOrWrite (exactSum (readReg s rs) (readReg s rt)) rd s

/-- ADDU (R141). -/
def execAddu (rs rt rd : Reg) (s : State) : Result State := registerOp (fun a b => a + b) rs rt rd s

/-- SUB (R142). -/
def execSub (rs rt rd : Reg) (s : State) : Result State :=
  trapOrWrite (exactDifference (readReg s rs) (readReg s rt)) rd s

/-- SUBU (R143). -/
def execSubu (rs rt rd : Reg) (s : State) : Result State := registerOp (fun a b => a - b) rs rt rd s

/-- ADDI (R144). -/
def execAddi (rs rt : Reg) (imm : BitVec 16) (s : State) : Result State :=
  trapOrWrite (exactSum (readReg s rs) (sext16 imm)) rt s

/-- ADDIU (R145). -/
def execAddiu (rs rt : Reg) (imm : BitVec 16) (s : State) : Result State :=
  immediateOp (fun a => a + sext16 imm) rs rt s

/-! ## Logic -/

/-- AND (R150). -/
def execAnd (rs rt rd : Reg) (s : State) : Result State := registerOp (fun a b => a &&& b) rs rt rd s

/-- OR (R151). -/
def execOr (rs rt rd : Reg) (s : State) : Result State := registerOp (fun a b => a ||| b) rs rt rd s

/-- XOR (R152). -/
def execXor (rs rt rd : Reg) (s : State) : Result State := registerOp (fun a b => a ^^^ b) rs rt rd s

/-- NOR (R153). -/
def execNor (rs rt rd : Reg) (s : State) : Result State := registerOp (fun a b => ~~~(a ||| b)) rs rt rd s

/-- ANDI (R154). -/
def execAndi (rs rt : Reg) (imm : BitVec 16) (s : State) : Result State :=
  immediateOp (fun a => a &&& zext16 imm) rs rt s

/-- ORI (R155). -/
def execOri (rs rt : Reg) (imm : BitVec 16) (s : State) : Result State :=
  immediateOp (fun a => a ||| zext16 imm) rs rt s

/-- XORI (R156). -/
def execXori (rs rt : Reg) (imm : BitVec 16) (s : State) : Result State :=
  immediateOp (fun a => a ^^^ zext16 imm) rs rt s

/-! ## Shifts -/

/-- SLL (R160). -/
def execSll (rt rd : Reg) (shamt : BitVec 5) (s : State) : Result State :=
  immediateOp (fun a => a <<< shamt.toNat) rt rd s

/-- SRL (R161). -/
def execSrl (rt rd : Reg) (shamt : BitVec 5) (s : State) : Result State :=
  immediateOp (fun a => a >>> shamt.toNat) rt rd s

/-- SRA (R162). -/
def execSra (rt rd : Reg) (shamt : BitVec 5) (s : State) : Result State :=
  immediateOp (fun a => a.sshiftRight shamt.toNat) rt rd s

/-- SLLV (R163). -/
def execSllv (rs rt rd : Reg) (s : State) : Result State := registerOp (fun n a => a <<< shiftAmount n) rs rt rd s

/-- SRLV (R164). -/
def execSrlv (rs rt rd : Reg) (s : State) : Result State := registerOp (fun n a => a >>> shiftAmount n) rs rt rd s

/-- SRAV (R165). -/
def execSrav (rs rt rd : Reg) (s : State) : Result State :=
  registerOp (fun n a => a.sshiftRight (shiftAmount n)) rs rt rd s

/-! ## Set on less than, load upper immediate -/

/-- SLT (R170). -/
def execSlt (rs rt rd : Reg) (s : State) : Result State :=
  registerOp (fun a b => flagWord (signedLess a b)) rs rt rd s

/-- SLTU (R171). -/
def execSltu (rs rt rd : Reg) (s : State) : Result State :=
  registerOp (fun a b => flagWord (unsignedLess a b)) rs rt rd s

/-- SLTI (R172). -/
def execSlti (rs rt : Reg) (imm : BitVec 16) (s : State) : Result State :=
  immediateOp (fun a => flagWord (signedLess a (sext16 imm))) rs rt s

/-- SLTIU (R173). -/
def execSltiu (rs rt : Reg) (imm : BitVec 16) (s : State) : Result State :=
  immediateOp (fun a => flagWord (unsignedLess a (sext16 imm))) rs rt s

/-- LUI (R180). -/
def execLui (rt : Reg) (imm : BitVec 16) (s : State) : Result State := .next (writeReg s rt (upper16 imm))

end Sys2Proof.Machine
end

