-- ==== Sys2Proof/Machine/Control.lean ====
section
/-! DEFINITION. Jumps and branches (42_control.md, R230 to R245). The condition and the target are read before the link
register is written (R508). -/

namespace Sys2Proof.Machine

/-- The linking instructions' write of the return address (R244). -/
def linkTo (rd : Reg) (s : State) : State := writeReg s rd (linkAddress s)

/-- A conditional branch on a property of one register (R236, R237, R240, R241). -/
def branchOn (c : Word → Bool) (rs : Reg) (imm : BitVec 16) (s : State) : Result State :=
  .next (branchIf (c (readReg s rs)) (branchTarget s imm) s)

/-- A conditional branch that links x[31] whether or not it is taken (R238, R239, R244). -/
def branchAndLink (c : Word → Bool) (rs : Reg) (imm : BitVec 16) (s : State) : Result State :=
  .next (branchIf (c (readReg s rs)) (branchTarget s imm) (linkTo 31#5 s))

/-- `signed(v) < 0`. -/
def isNegative (v : Word) : Bool := decide (v.toInt < 0)

/-- `signed(v) > 0`. -/
def isPositive (v : Word) : Bool := decide (0 < v.toInt)

/-- J (R230). -/
def execJ (target : BitVec 26) (s : State) : Result State := .next (branchIf true (jumpTarget s target) s)

/-- JAL (R231). -/
def execJal (target : BitVec 26) (s : State) : Result State :=
  .next (branchIf true (jumpTarget s target) (linkTo 31#5 s))

/-- JR (R232, R245). -/
def execJr (rs : Reg) (s : State) : Result State := .next (branchIf true (readReg s rs) s)

/-- JALR (R233). -/
def execJalr (rs rd : Reg) (s : State) : Result State := .next (branchIf true (readReg s rs) (linkTo rd s))

/-- BEQ (R234). -/
def execBeq (rs rt : Reg) (imm : BitVec 16) (s : State) : Result State :=
  .next (branchIf (readReg s rs == readReg s rt) (branchTarget s imm) s)

/-- BNE (R235). -/
def execBne (rs rt : Reg) (imm : BitVec 16) (s : State) : Result State :=
  .next (branchIf (readReg s rs != readReg s rt) (branchTarget s imm) s)

/-- BLEZ (R240). -/
def execBlez (rs : Reg) (imm : BitVec 16) (s : State) : Result State := branchOn (fun v => !isPositive v) rs imm s

/-- BGTZ (R241). -/
def execBgtz (rs : Reg) (imm : BitVec 16) (s : State) : Result State := branchOn isPositive rs imm s

/-- BLTZ (R236); the selector bits rt[4:1] have no effect (R115). -/
def execBltz (rs : Reg) (imm : BitVec 16) (s : State) : Result State := branchOn isNegative rs imm s

/-- BGEZ (R237); the selector bits rt[4:1] have no effect (R115). -/
def execBgez (rs : Reg) (imm : BitVec 16) (s : State) : Result State := branchOn (fun v => !isNegative v) rs imm s

/-- BLTZAL (R238). -/
def execBltzal (rs : Reg) (imm : BitVec 16) (s : State) : Result State := branchAndLink isNegative rs imm s

/-- BGEZAL (R239). -/
def execBgezal (rs : Reg) (imm : BitVec 16) (s : State) : Result State :=
  branchAndLink (fun v => !isNegative v) rs imm s

end Sys2Proof.Machine
end

