-- ==== Sys2Proof/Machine/Gte.lean ====
section
/-! DEFINITION. The geometry engine as far as the spec settles it: the saturations, the perspective divide's frame, the
flag register, and the parameter's functions around them (R340, R346 to R348, log 20). -/

namespace Sys2Proof.Machine

/-! ## Flag bits (R346) -/

/-- One flag bit, or none. -/
def flagBit (n : Nat) (set : Bool) : Word := if set then 1#32 <<< n else 0#32

/-- Flag bits [30:0] with bit 31 = reduce-OR(flags[30:23] | flags[18:13]) (R346). -/
def withSummary (flags : Word) : Word :=
  (flags &&& 0x7FFFFFFF#32) ||| flagBit 31 ((flags &&& 0x7F87E000#32) != 0#32)

/-! ## Saturation (R347) -/

/-- A quantity forced into a range. -/
def clampTo (lo hi x : Int) : Int := max lo (min hi x)

/-- Some value lies above the range. -/
def above (hi : Int) (qs : List Int) : Bool := qs.any fun x => decide (hi < x)

/-- Some value lies below the range. -/
def below (lo : Int) (qs : List Int) : Bool := qs.any fun x => decide (x < lo)

/-- Some value lies outside the range. -/
def outside (lo hi : Int) (qs : List Int) : Bool := above hi qs || below lo qs

/-- 2^43, the bound of MAC1 to MAC3. -/
def mac43 : Int := 8796093022208

/-- `lm`, bit 10 of the command word: the lower bound of IR1 to IR3 (R347, R348). -/
def irFloor (cmd : BitVec 25) : Int := if cmd.getLsbD 10 then 0 else -0x8000

/-- `sf`, bit 19 of the command word, as a shift: 0 or 12 (R347, R348). -/
def macShift (cmd : BitVec 25) : Nat := if cmd.getLsbD 19 then 12 else 0

/-- MAC1 to MAC3: saturated at ±2^43, then shifted right by sf (R347). -/
def clampMac (cmd : BitVec 25) (x : Int) : Int := Int.shiftRight (clampTo (-mac43) (mac43 - 1) x) (macShift cmd)

/-- A command's results within the bounds of R347. -/
def saturate (cmd : BitVec 25) (r : GteRaw) : GteRaw :=
  { r with
    mac0 := r.mac0.map (clampTo (-2147483648) 2147483647)
    mac1 := r.mac1.map (clampMac cmd)
    mac2 := r.mac2.map (clampMac cmd)
    mac3 := r.mac3.map (clampMac cmd)
    ir0 := r.ir0.map (clampTo 0 0xFFF)
    ir1 := r.ir1.map (clampTo (irFloor cmd) 0x7FFF)
    ir2 := r.ir2.map (clampTo (irFloor cmd) 0x7FFF)
    ir3 := r.ir3.map (clampTo (irFloor cmd) 0x7FFF)
    screenX := r.screenX.map (clampTo (-0x400) 0x3FF)
    screenY := r.screenY.map (clampTo (-0x400) 0x3FF)
    screenZ := r.screenZ.map (clampTo 0 0xFFFF) }

/-- The flag bits the saturating helpers set (R346). -/
def saturationFlags (cmd : BitVec 25) (r : GteRaw) : Word :=
  flagBit 30 (above (mac43 - 1) r.mac1) ||| flagBit 29 (above (mac43 - 1) r.mac2) |||
  flagBit 28 (above (mac43 - 1) r.mac3) ||| flagBit 27 (below (-mac43) r.mac1) |||
  flagBit 26 (below (-mac43) r.mac2) ||| flagBit 25 (below (-mac43) r.mac3) |||
  flagBit 24 (outside (irFloor cmd) 0x7FFF r.ir1) ||| flagBit 23 (outside (irFloor cmd) 0x7FFF r.ir2) |||
  flagBit 22 (outside (irFloor cmd) 0x7FFF r.ir3) ||| ((r.colourClips.setWidth 32) <<< 19) |||
  flagBit 18 (outside 0 0xFFFF r.screenZ) |||
  flagBit 16 (above 2147483647 r.mac0) ||| flagBit 15 (below (-2147483648) r.mac0) |||
  flagBit 14 (outside (-0x400) 0x3FF r.screenX) ||| flagBit 13 (outside (-0x400) 0x3FF r.screenY) |||
  flagBit 12 (outside 0 0xFFF r.ir0)

/-! ## The perspective divide (R347) -/

/-- How far a 16-bit divisor is shifted so that its bit 15 is 1 (0 for 0). DEDUCED: R347 says "to bit 16", which R10 would
number 16; bit 15 is the reading whose table indices are 0 to 256 (log 31). -/
def leftJustify (sz3 : BitVec 16) : Nat := if sz3 = 0#16 then 0 else 15 - Nat.log2 sz3.toNat

/-- The 257-entry table: `max(0, (0x40000/(i+0x100)+1)/2 − 0x101)` (R347). -/
def unrTable (i : Nat) : Nat := (0x40000 / (i + 0x100) + 1) / 2 - 0x101

/-- The quotient of a perspective divide and whether it overflows (flag E) (R347; the operands' 16 bits are PRESUMED, log 30). -/
def gteDivide (e : GteEngine) (h sz3 : BitVec 16) : Nat × Bool :=
  if 2 * sz3.toNat ≤ h.toNat then (0x1FFFF, true)
  else
    let shift := leftJustify sz3
    let d := sz3.toNat * 2 ^ shift
    let u := unrTable ((d - 0x7FC0) / 128) + 0x101
    (min 0x1FFFF (e.refine h shift d u), false)

/-! ## Commands (R348) -/

/-- The operation number of a command word, bits [5:0] (R348). -/
def gteNumber (cmd : BitVec 25) : BitVec 6 := cmd.extractLsb' 0 6

/-- The selector fields of a command word, bits [18:13] (R348). -/
def gteSelectors (cmd : BitVec 25) : BitVec 6 := cmd.extractLsb' 13 6

/-- The operation of a command; the vectors give 0x3F as a number the engine does not know (V-P9). -/
def gteOperation (e : GteEngine) (cmd : BitVec 25) : Option GteOperation :=
  if gteNumber cmd = 0x3F#6 then none else e.operation (gteNumber cmd)

/-- How many perspective divides an operation makes: one for each vertex it transforms (R347). -/
def gteVertices : GteOperation → Nat
  | .rtps => 1
  | .rtpt => 3
  | .nclip | .dpcs | .mvmva | .ncds | .avsz3 | .other => 0

/-- MVMVA with selector fields the engine does not accept; the fields {RT, V0, TR}, all 0, it does (R348, E6). -/
def gteInvalidSelector (e : GteEngine) (op : GteOperation) (cmd : BitVec 25) : Bool :=
  op == .mvmva && gteSelectors cmd != 0#6 && !e.acceptsSelectors (gteSelectors cmd)

/-- The divides of a command, one for each vertex (R347). -/
def gteDivides (e : GteEngine) (op : GteOperation) (cmd : BitVec 25) (g : GteState) : List (Nat × Bool) :=
  (List.range (gteVertices op)).map fun k => gteDivide e (e.divideOperands cmd g k).1 (e.divideOperands cmd g k).2

/-- A known command on the engine: flags cleared, divides, arithmetic, saturation, flags (R346, R347). -/
def runGteCommand (e : GteEngine) (op : GteOperation) (cmd : BitVec 25) (g : GteState) : GteState :=
  let cleared := { g with flags := 0#32 }
  let divides := gteDivides e op cmd cleared
  let raw := e.arith cmd cleared (divides.map Prod.fst)
  let stored := e.store cmd cleared (saturate cmd raw)
  { data := stored.1
    ctrl := stored.2
    flags := withSummary (saturationFlags cmd raw ||| flagBit 17 (divides.any Prod.snd)) }

/-- `GTE.command(imm25)`: an unknown operation changes nothing, an invalid selector is fatal (R340, R348). -/
def gteCommand (e : GteEngine) (cmd : BitVec 25) (g : GteState) : Result GteState :=
  match gteOperation e cmd with
  | none => .next g
  | some op => if gteInvalidSelector e op cmd then .fault .invalidGteSelector else .next (runGteCommand e op cmd g)

/-- `GTE.readCtrl(n)`: control register 31 is the flag register (R343, R346). -/
def gteReadControl (g : GteState) (n : Reg) : Word := if n = 31#5 then g.flags else Config.gteReadCtrl g n

end Sys2Proof.Machine
end

