-- ==== Sys2Proof/Machine/Cop2.lean ====
section
/-! DEFINITION. The coprocessor-2 instructions (45_cop2.md, R341 to R350). The usability check comes before everything
else (R389). -/

namespace Sys2Proof.Machine

/-- The state with the geometry engine replaced. -/
def State.setGte (s : State) (g : GteState) : State := { s with gte := g }

/-- MFC2, delayed like a load (R342). -/
def execMfc2 (rt rd : Reg) (s : State) : Result State :=
  withCop2 s (.next (writeDelayed s rt (Config.gteReadData s.gte rd)))

/-- CFC2, delayed like a load (R343). -/
def execCfc2 (rt rd : Reg) (s : State) : Result State :=
  withCop2 s (.next (writeDelayed s rt (gteReadControl s.gte rd)))

/-- MTC2 (R344). -/
def execMtc2 (rt rd : Reg) (s : State) : Result State :=
  withCop2 s (.next (s.setGte (Config.gteWriteData s.gte rd (readReg s rt))))

/-- CTC2 (R345). -/
def execCtc2 (rt rd : Reg) (s : State) : Result State :=
  withCop2 s (.next (s.setGte (Config.gteWriteCtrl s.gte rd (readReg s rt))))

/-- COP2 command (R348). -/
def execCop2 (command : BitVec 25) (s : State) : Result State :=
  withCop2 s (mapNext s.setGte (gteCommand Config.gteEngine command s.gte))

/-- LWC2 (R349): no general register is written, so there is no load delay. -/
def execLwc2 (rs rt : Reg) (imm : BitVec 16) (s : State) : Result State :=
  let ea := effectiveAddress s rs imm
  withCop2 s
    (if misaligned .word ea then raise .adel s
     else mapNext (fun r => r.2.setGte (Config.gteWriteData r.2.gte rt r.1)) (memRead ea .word s))

/-- SWC2 (R350). -/
def execSwc2 (rs rt : Reg) (imm : BitVec 16) (s : State) : Result State :=
  let ea := effectiveAddress s rs imm
  withCop2 s
    (if misaligned .word ea then raise .ades s
     else memWrite ea .word (Config.gteReadData s.gte rt) s)

end Sys2Proof.Machine
end

