-- ==== Sys2Proof/Machine/LoadStore.lean ====
section
/-! DEFINITION. Loads and stores (43_loadstore.md, R270 to R290). Alignment is checked before any access (R275). -/

namespace Sys2Proof.Machine

/-! ## Shared forms -/

/-- An aligned load: AdEL, or the read's value, extended, into `rt` with a load delay (R275, R278). -/
def loadAligned (n : Size) (extend : Word → Word) (rs rt : Reg) (imm : BitVec 16) (s : State) : Result State :=
  let ea := effectiveAddress s rs imm
  if misaligned n ea then raise .adel s
  else mapNext (fun r => writeDelayed r.2 rt (extend r.1)) (memRead ea n s)

/-- LWL and LWR: the aligned word merged into the forwarded value of `rt` (R279, R280). -/
def loadMerged (kind : LoadKind) (merge : BitVec 2 → Word → Word → Word) (rs rt : Reg) (imm : BitVec 16) (s : State) : Result State :=
  let ea := effectiveAddress s rs imm
  mapNext (fun r => writeMerged r.2 kind rt (merge (byteOffset ea) (s.reg rt) r.1)) (memRead (wordBase ea) .word s)

/-- An aligned store: AdES, or the write of the low bits of `rt` (R290). -/
def storeAligned (n : Size) (rs rt : Reg) (imm : BitVec 16) (s : State) : Result State :=
  let ea := effectiveAddress s rs imm
  if misaligned n ea then raise .ades s
  else memWrite ea n (n.low (readReg s rt)) s

/-- SWL and SWR: the aligned word read, merged with `rt` and written back (R279, R288). -/
def storeMerged (merge : BitVec 2 → Word → Word → Word) (rs rt : Reg) (imm : BitVec 16) (s : State) : Result State :=
  let ea := effectiveAddress s rs imm
  let r := readReg s rt
  andThen (memRead (wordBase ea) .word s) fun w => memWrite (wordBase ea) .word (merge (byteOffset ea) r w.1) w.2

/-- `sext_8` of a byte read. -/
def extendByte (v : Word) : Word := (v.extractLsb' 0 8).signExtend 32

/-- `sext_16` of a halfword read. -/
def extendHalf (v : Word) : Word := (v.extractLsb' 0 16).signExtend 32

/-! ## Loads -/

/-- LB (R270). -/
def execLb (rs rt : Reg) (imm : BitVec 16) (s : State) : Result State := loadAligned .byte extendByte rs rt imm s

/-- LBU (R271). -/
def execLbu (rs rt : Reg) (imm : BitVec 16) (s : State) : Result State := loadAligned .byte id rs rt imm s

/-- LH (R272). -/
def execLh (rs rt : Reg) (imm : BitVec 16) (s : State) : Result State := loadAligned .half extendHalf rs rt imm s

/-- LHU (R273). -/
def execLhu (rs rt : Reg) (imm : BitVec 16) (s : State) : Result State := loadAligned .half id rs rt imm s

/-- LW (R274). -/
def execLw (rs rt : Reg) (imm : BitVec 16) (s : State) : Result State := loadAligned .word id rs rt imm s

/-- LWL (R276). -/
def execLwl (rs rt : Reg) (imm : BitVec 16) (s : State) : Result State := loadMerged .left mergeLwl rs rt imm s

/-- LWR (R277). -/
def execLwr (rs rt : Reg) (imm : BitVec 16) (s : State) : Result State := loadMerged .right mergeLwr rs rt imm s

/-! ## Stores -/

/-- SB (R285). -/
def execSb (rs rt : Reg) (imm : BitVec 16) (s : State) : Result State := storeAligned .byte rs rt imm s

/-- SH (R286). -/
def execSh (rs rt : Reg) (imm : BitVec 16) (s : State) : Result State := storeAligned .half rs rt imm s

/-- SW (R287). -/
def execSw (rs rt : Reg) (imm : BitVec 16) (s : State) : Result State := storeAligned .word rs rt imm s

/-- SWL (R288). -/
def execSwl (rs rt : Reg) (imm : BitVec 16) (s : State) : Result State := storeMerged mergeSwl rs rt imm s

/-- SWR (R289). -/
def execSwr (rs rt : Reg) (imm : BitVec 16) (s : State) : Result State := storeMerged mergeSwr rs rt imm s

end Sys2Proof.Machine
end

