-- ==== Sys2Proof/Machine/MulDiv.lean ====
section
/-! DEFINITION. Multiply, divide and the HI/LO moves (41_muldiv.md, R200 to R210). What a step does to the HI/LO hazard
state is `updateHazards` (R506). -/

namespace Sys2Proof.Machine

/-- The state with HI and LO replaced. -/
def State.setHiLo (s : State) (hi lo : Word) : State := { s with hi := hi, lo := lo }

/-- HI and LO from a 64-bit product (R200, R201). -/
def writeProduct (p : BitVec 64) (s : State) : Result State :=
  whenHiLoFree s (s.setHiLo (p.extractLsb' 32 32) (p.extractLsb' 0 32))

/-- HI (remainder) and LO (quotient) of DIV (R202, R205). -/
def signedDivision (a b : Word) : Word × Word :=
  let n := a.toInt
  let d := b.toInt
  if d = 0 then (a, if 0 ≤ n then 0xFFFFFFFF#32 else 0x00000001#32)
  else if n = -2147483648 ∧ d = -1 then (0#32, 0x80000000#32)
  else
    let q := Int.tdiv n d
    (BitVec.ofInt 32 (n - d * q), BitVec.ofInt 32 q)

/-- HI (remainder) and LO (quotient) of DIVU (R203, R205). -/
def unsignedDivision (a b : Word) : Word × Word :=
  if b.toNat = 0 then (a, 0xFFFFFFFF#32)
  else (BitVec.ofNat 32 (a.toNat % b.toNat), BitVec.ofNat 32 (a.toNat / b.toNat))

/-- MULT (R200). -/
def execMult (rs rt : Reg) (s : State) : Result State :=
  writeProduct (BitVec.ofInt 64 ((readReg s rs).toInt * (readReg s rt).toInt)) s

/-- MULTU (R201). -/
def execMultu (rs rt : Reg) (s : State) : Result State :=
  writeProduct (BitVec.ofNat 64 ((readReg s rs).toNat * (readReg s rt).toNat)) s

/-- DIV (R202). -/
def execDiv (rs rt : Reg) (s : State) : Result State :=
  let r := signedDivision (readReg s rs) (readReg s rt)
  whenHiLoFree s (s.setHiLo r.1 r.2)

/-- DIVU (R203). -/
def execDivu (rs rt : Reg) (s : State) : Result State :=
  let r := unsignedDivision (readReg s rs) (readReg s rt)
  whenHiLoFree s (s.setHiLo r.1 r.2)

/-- MFHI (R206). -/
def execMfhi (rd : Reg) (s : State) : Result State := .next (writeReg s rd s.hi)

/-- MFLO (R207). -/
def execMflo (rd : Reg) (s : State) : Result State := .next (writeReg s rd s.lo)

/-- The other half of an unread multiply or divide result becomes a draw (R507 (b)). -/
def otherHalf (half : Word) (s : State) : Word × State :=
  if s.hiloUnread then
    let d := drawWord s.plat
    (d.1, { s with plat := d.2 })
  else (half, s)

/-- MTHI (R208). -/
def execMthi (rs : Reg) (s : State) : Result State :=
  let o := otherHalf s.lo s
  whenHiLoFree s (o.2.setHiLo (readReg s rs) o.1)

/-- MTLO (R209). -/
def execMtlo (rs : Reg) (s : State) : Result State :=
  let o := otherHalf s.hi s
  whenHiLoFree s (o.2.setHiLo o.1 (readReg s rs))

end Sys2Proof.Machine
end

