-- ==== Sys2Proof/Machine/System.lean ====
section
/-! DEFINITION. The traps and the coprocessor-0 instructions (44_system.md, R310 to R315). -/

namespace Sys2Proof.Machine

/-- SYSCALL (R310); its code is ignored. -/
def execSyscall (s : State) : Result State := raise .sys s

/-- BREAK (R311); its code is ignored. -/
def execBreak (s : State) : Result State := raise .bp s

/-- MFC0, delayed like a load (R313). -/
def execMfc0 (rt rd : Reg) (s : State) : Result State :=
  let v := cop0Read rd s
  kernelOnly s (.next (writeDelayed v.2 rt v.1))

/-- MTC0 (R314). -/
def execMtc0 (rt rd : Reg) (s : State) : Result State :=
  kernelOnly s (.next (cop0Write rd (readReg s rt) s))

/-- RFE (R315). -/
def execRfe (s : State) : Result State := kernelOnly s (.next (leaveException s))

end Sys2Proof.Machine
end

