-- ==== Sys2Proof/Machine/Sequencing.lean ====
section
/-! DEFINITION. What a step does around the instruction: the environment's moves, the interrupt check, fetch through the
instruction cache, and the hazard state (R41, R90 to R95, R388, R411, R379, R506). -/

namespace Sys2Proof.Machine

/-! ## The environment between two steps -/

/-- What the environment does before a step: clock cycles (R411) and `DEV`'s assertions (R379). -/
structure Environment where
  cycles  : Nat
  asserts : BitVec 11
  deriving DecidableEq, Repr

/-- The environment's draw before this step (log 10). -/
def drawnEnvironment (s : State) : Environment :=
  { cycles := Config.freeCycles s.plat.draws, asserts := Config.freeAsserts s.plat.draws }

/-- `DEV` asserts some of the sources it owns (R371, R379). -/
def deviceAsserts (asserts : BitVec 11) (p : Platform) : Platform :=
  { p with iStat := assertSource (asserts &&& devSources) p.iStat }

/-- The environment's moves before a step: the clock, then `DEV`; and the next draw is due (logs 9, 10). -/
def environmentMoves (e : Environment) (s : State) : State :=
  let p := deviceAsserts e.asserts (clockCycles e.cycles s.plat)
  { s with plat := { p with draws := p.draws + 1 } }

/-! ## The beginning of a step (R41) -/

/-- The load-delay slot moves on (R30). -/
def shiftLoadSlot (s : State) : State := { s with ldNow := s.ldNext, ldNext := none }

/-- The step that takes an interrupt: the instruction at PC has not executed (R41, R388). -/
def takeInterrupt (s : State) : State :=
  enter .int { s with currentPC := s.pc, branchDelay := s.branchPending }

/-- The instruction at PC begins. -/
def beginInstruction (s : State) : State :=
  { s with currentPC := s.pc, branchDelay := s.branchPending, branchPending := false }

/-- PC and nextPC move past the fetched word (R41). -/
def advancePC (s : State) : State := { s with pc := s.nextPC, nextPC := s.nextPC + 4#32 }

/-! ## Fetch (R90 to R95) -/

/-- `FetchBus(pa)`: RAM and BIOS only (R67, R90). -/
def fetchBus (pa : Word) (s : State) : Result Word :=
  if isFetchable pa.toNat then .next (s.plat.mem.read pa.toNat .word) else .refused .fetchOutsideMemory

/-- The cache-enable latch, CCR bit 11 (R39). -/
def State.cacheEnabled (s : State) : Bool := s.plat.ccr.getLsbD 11

/-- The tag of an address, bits [30:12] (R38). -/
def lineTag (va : Word) : BitVec 19 := va.extractLsb' 12 19

/-- The line at the address's index holds it (R91). -/
def State.hits (s : State) (va : Word) : Bool :=
  (s.line (lineIndex va)).valid && (s.line (lineIndex va)).tag == lineTag va

/-- The word of a line that an address selects, by bits [3:2] (R38). -/
def CacheLine.wordAt (l : CacheLine) (va : Word) : Word :=
  match va.extractLsb' 2 2 with
  | 0#2 => l.data[0]
  | 1#2 => l.data[1]
  | 2#2 => l.data[2]
  | _ => l.data[3]

/-- The line filled from the four words of the aligned block of an address, in increasing order (R92). -/
def filledLine (va : Word) (s : State) : Result CacheLine :=
  let base := translate va &&& 0xFFFFFFF0#32
  andThen (fetchBus base s) fun w0 =>
  andThen (fetchBus (base + 4#32) s) fun w1 =>
  andThen (fetchBus (base + 8#32) s) fun w2 =>
  andThen (fetchBus (base + 12#32) s) fun w3 =>
  .next { valid := true, tag := lineTag va, data := #v[w0, w1, w2, w3] }

/-- `Fetch(va)` (R90): the word, and the state with the line a miss has filled. -/
def fetch (va : Word) (s : State) : Result (Word × State) :=
  if s.forbids va then .refused .userKernelAccess
  else if s.cacheEnabled && cached va then
    if s.hits va then .next ((s.line (lineIndex va)).wordAt va, s)
    else mapNext (fun l => (l.wordAt va, s.setLine (lineIndex va) l)) (filledLine va s)
  else mapNext (fun w => (w, s)) (fetchBus (translate va) s)

/-! ## The end of a step (R506) -/

/-- The hazard state after a step that executed none of the HI/LO instructions, or took an exception. -/
def ageHazards (s : State) : State := { s with mfAge := min 3 (s.mfAge + 1) }

/-- The hazard state after the instruction (R506). -/
def updateHazards (i : Instr) (s : State) : State :=
  match i with
  | .mfhi _ | .mflo _ => { s with mfAge := 0, hiloUnread := false }
  | .mult _ _ | .multu _ _ | .div _ _ | .divu _ _ => { ageHazards s with hiloUnread := true }
  | .mthi _ | .mtlo _ => { ageHazards s with hiloUnread := false }
  | _ => ageHazards s

/-! ## Placing an instruction where the next fetch finds it -/

/-- The state with a word at the physical address of PC, and with the cache line that would hide it invalid; unchanged
where no instruction can be fetched (log 4). -/
def placeWord (w : Word) (s : State) : State :=
  if isFetchable (translate s.pc).toNat && !misaligned .word s.pc then
    let s' := { s with plat := { s.plat with mem := s.plat.mem.write (translate s.pc).toNat .word w } }
    if s.cacheEnabled && cached s.pc then
      s'.setLine (lineIndex s.pc) { s'.line (lineIndex s.pc) with valid := false }
    else s'
  else s

end Sys2Proof.Machine
end

