-- ==== Sys2Proof/Machine/Step.lean ====
section
/-! DEFINITION. One step (R41, R389). -/

namespace Sys2Proof.Machine

/-- A fetched word runs: RI if it is no instruction, a refusal for a branch in a delay slot, else its meaning; then the
hazard state (R41, R122, R389, R506). -/
def executeWord (w : Word) (s : State) : Host.Outcome State Fault Refusal :=
  match decode w with
  | .error _ => .next (ageHazards (enter .ri s))
  | .ok i =>
    if s.branchDelay && i.isBranch then .refused .branchInDelaySlot
    else mapNext (updateHazards i) (exec i s)

/-- The CPU's part of a step, after the environment's moves (R41). -/
def cpuStep (s : State) : Host.Outcome State Fault Refusal :=
  let s := shiftLoadSlot s
  if s.interruptPending then .next (ageHazards (takeInterrupt s))
  else
    let s := beginInstruction s
    if misaligned .word s.currentPC then .next (ageHazards (enter .adel s))
    else andThen (fetch s.currentPC s) fun r => executeWord r.1 (advancePC r.2)

/-- One step under a given move of the environment. -/
def stepWith (e : Environment) (s : State) : Host.Outcome State Fault Refusal := cpuStep (environmentMoves e s)

/-- One step: the environment's move is a draw (R7, R379, R411, log 10). -/
def step (s : State) : Host.Outcome State Fault Refusal := stepWith (drawnEnvironment s) s

/-- The state with the instruction of the low `nbits` of `w` where the next fetch finds it: the load of a program from
outside the machine (log 4). -/
def State.withFetchWord (s : State) (nbits w : Nat) : State := placeWord (BitVec.ofNat 32 (w % 2 ^ nbits)) s

end Sys2Proof.Machine
end

