-- ==== Sys2Proof/Safety.lean ====
section
/-! DEFINITION. The terms the statements use: runs and their end, the state invariant, and what "only this changed"
means. -/

namespace Sys2Proof.Safety

open Sys2Proof.Machine

/-! ## Runs -/

/-- At most `n` steps, ended by the parameter `HALT` (R403, D39, log 22), a fault or a refusal. DESIGN CHOICE: `HALT` is
tested before the first step and right after each step, before the clock and `DEV` move for the next one, never between their
move and the CPU's step; R403 and D39 do not say when (log 32). -/
def runUntil (halt : State → Bool) : Nat → State → Host.Outcome State Fault Refusal
  | 0, s => .next s
  | n + 1, s => if halt s then .next s else andThen (step s) (runUntil halt n)

/-- The states a machine can come to from `s` under any moves of the environment (R7). -/
inductive Reaches (s : State) : State → Prop where
  | start : Reaches s s
  | step (e : Environment) (t u : State) : Reaches s t → stepWith e t = .next u → Reaches s u

/-! ## The invariant -/

/-- The stored bits of Cause: ExcCode, IP[1:0], CE, BT, BD (R35). -/
def causeStored : Word := 0xF000037C#32

/-- Every byte of memory that is listed lies in RAM, scratchpad or BIOS (R66). -/
def storageOnly (m : Memory) : Bool := m.all fun c => isStorage c.1

/-- Every VRAM cell that is listed lies in the 1024 × 512 cells (R460). -/
def vramOnly (v : Sparse 16) : Bool := v.all fun c => decide (c.1 < 524288)

/-- The FIFO is empty or holds the beginning of a known command (R461, R462). -/
def fifoPartial (fifo : List Word) : Bool :=
  match fifo with
  | [] => true
  | first :: _ =>
    match gpuCommand (first.extractLsb' 24 8) with
    | none => false
    | some c => decide (fifo.length < c.words)

/-- A transfer under way has its cursor inside its rectangle, which is no larger than VRAM (R475, R476, R477). -/
def cursorInside (t : Transfer) : Bool :=
  t.mode == .fifo || decide (t.tx < t.w ∧ t.ty < t.h ∧ t.w ≤ 1024 ∧ t.h ≤ 512)

/-- The prescaler is below 2100, and in pulse mode the interrupt line bit is 1 (R415, R416). -/
def timerSound (t : Timer) : Bool := decide (t.prescaler < 2100) && (t.toggles || t.mode.getLsbD 10)

/-- What every step keeps of the GPU. -/
structure GpuInv (g : Gpu) : Prop where
  vram   : Sparse.wf g.vram = true
  cells  : vramOnly g.vram = true
  fifo   : fifoPartial g.fifo = true
  cursor : cursorInside g.transfer = true

/-- What every step keeps of memory and devices. -/
structure PlatformInv (p : Platform) : Prop where
  memory  : Memory.wf p.mem = true
  storage : storageOnly p.mem = true
  gpu     : GpuInv p.gpu
  timers  : ∀ t : Fin 3, timerSound p.timers[t] = true
  chcr    : ∀ n : Fin 7, (p.dma.channels[n]).chcr &&& ~~~chcrMask = 0#32
  irq     : p.dma.irqLevel = p.dma.dicr.irq

/-- What every step keeps of the machine. -/
structure Inv (s : State) : Prop where
  zero     : s.regs[0] = 0#32
  cause    : s.cause &&& ~~~causeStored = 0#32
  mfAge    : s.mfAge ≤ 3
  platform : PlatformInv s.plat

/-! ## What changed -/

/-- The register write of an instruction as the spec gives it: `rd` holds `v`, or the value the previous instruction
loaded into it where it is in the load-delay slot (R503); x[0] reads 0; every other register is unchanged (R21). -/
def RegisterWritten (s t : State) (rd : Reg) (v : Word) : Prop :=
  t.reg 0#5 = 0#32 ∧ (∀ q, q ≠ rd → t.reg q = s.reg q) ∧
  (rd ≠ 0#5 → t.reg rd = v ∨ (s.pendingOld rd ≠ none ∧ t.reg rd = s.reg rd))

/-- Nothing but general registers changed. -/
def OnlyRegisters (s t : State) : Prop := t = { s with regs := t.regs }

/-- Nothing but general registers and the load-delay record changed. -/
def OnlyLoaded (s t : State) : Prop := t = { s with regs := t.regs, ldNext := t.ldNext }

/-- Nothing but general registers, `nextPC` and `branchPending` changed. -/
def OnlyControl (s t : State) : Prop :=
  t = { s with regs := t.regs, nextPC := t.nextPC, branchPending := t.branchPending }

/-- Nothing but the bytes of memory changed. -/
def OnlyMemory (s t : State) : Prop := t = { s with plat := { s.plat with mem := t.plat.mem } }

/-- Nothing but what exception entry writes changed (R385). -/
def OnlyEntry (s t : State) : Prop :=
  t = { s with epc := t.epc, cause := t.cause, status := t.status, pc := t.pc, nextPC := t.nextPC,
               branchPending := t.branchPending, branchDelay := t.branchDelay, ldNow := t.ldNow, ldNext := t.ldNext }

/-- The state `t` is `s` with exception `code` taken, as R385 gives it field by field. -/
def Entered (code : Nat) (s t : State) : Prop :=
  OnlyEntry s t ∧
  t.epc = (if s.branchDelay then s.currentPC - 4#32 else s.currentPC) ∧
  t.cause.getLsbD 31 = s.branchDelay ∧ t.cause.getLsbD 30 = false ∧ (t.cause.extractLsb' 28 2).toNat = 0 ∧
  (t.cause.extractLsb' 2 5).toNat = code ∧ t.cause.extractLsb' 8 2 = s.cause.extractLsb' 8 2 ∧
  t.status = ((s.status &&& ~~~0x3F#32) ||| ((s.status <<< 2) &&& 0x3F#32)) ∧
  t.pc = (if s.status.getLsbD 22 then 0xBFC00180#32 else 0x80000080#32) ∧ t.nextPC = t.pc + 4#32 ∧
  t.branchPending = false ∧ t.branchDelay = false ∧ t.ldNow = none ∧ t.ldNext = none

/-! ## What an instruction does -/

/-- `i` writes `v` to `rd` and changes nothing else. -/
def Writes (i : Instr) (s : State) (rd : Reg) (v : Word) : Prop :=
  ∃ t, exec i s = .next t ∧ OnlyRegisters s t ∧ RegisterWritten s t rd v

/-- The previous instruction was the other half of an LWL/LWR pair on `rt` (R503, log 13). -/
def PairPending (s : State) (rt : Reg) (kind : LoadKind) : Prop :=
  ∃ d, s.ldNow = some d ∧ d.reg = rt ∧ ((kind = .left ∧ d.kind = .right) ∨ (kind = .right ∧ d.kind = .left))

/-- The delayed write of a load: `rt` as any instruction's result, not raced where it completes a pair, and the load-delay
record with the value before (R30, R278, R503). -/
def LoadWritten (s t : State) (rt : Reg) (kind : LoadKind) (v : Word) : Prop :=
  RegisterWritten s t rt v ∧ (PairPending s rt kind → rt ≠ 0#5 → t.reg rt = v) ∧
  t.ldNext = some { reg := rt, old := s.reg rt, kind := kind }

/-- `i` is a delayed load of this kind of `v` into `rt`: the register and the load-delay record change, nothing else. -/
def LoadsAs (kind : LoadKind) (i : Instr) (s : State) (rt : Reg) (v : Word) : Prop :=
  ∃ t, exec i s = .next t ∧ OnlyLoaded s t ∧ LoadWritten s t rt kind v

/-- `i` is a delayed load other than LWL and LWR. -/
abbrev Loads : Instr → State → Reg → Word → Prop := LoadsAs .whole

/-- `i` takes exception `code` and does nothing else. -/
def Raises (i : Instr) (s : State) (code : Nat) : Prop := ∃ t, exec i s = .next t ∧ Entered code s t

/-- `i` writes an exact signed result to `rd` if 32 bits hold it, and takes the exception Ov if they do not (R146). -/
def TrapsOrWrites (i : Instr) (s : State) (rd : Reg) (exact : Int) : Prop :=
  if -2147483648 ≤ exact ∧ exact ≤ 2147483647 then ∃ v : Word, v.toInt = exact ∧ Writes i s rd v else Raises i s 12

/-! ## Places -/

/-- RAM (R68). -/
abbrev InRam (a : Nat) : Prop := a < 0x200000

/-- The scratchpad (R70). -/
abbrev InScratchpad (a : Nat) : Prop := 0x1F800000 ≤ a ∧ a < 0x1F800400

/-- The BIOS ROM (R71). -/
abbrev InBios (a : Nat) : Prop := 0x1FC00000 ≤ a ∧ a < 0x1FC80000

/-- What a load reads bytes from (R66). -/
abbrev InStorage (a : Nat) : Prop := InRam a ∨ InScratchpad a ∨ InBios a

/-- What a store writes bytes to (R66). -/
abbrev Writable (a : Nat) : Prop := InRam a ∨ InScratchpad a

/-- User mode may not access the address (R65). -/
abbrev Forbidden (s : State) (va : Word) : Prop := s.userMode = true ∧ va.getLsbD 31 = true

/-- A load from `va` is admitted and reaches the bus (R77). -/
abbrev LoadReachesBus (s : State) (va : Word) : Prop := ¬ Forbidden s va ∧ ¬ (s.cacheIsolated = true ∧ cached va = true)

/-- A store to `va` is admitted and reaches the bus (R78). -/
abbrev StoreReachesBus (s : State) (va : Word) : Prop := ¬ Forbidden s va ∧ s.cacheIsolated = false

/-- The physical address of a virtual one. -/
def physical (va : Word) : Nat := (Machine.translate va).toNat

/-- The byte of memory at a physical address. -/
def byteAt (s : State) (pa : Nat) : Byte := s.plat.mem.readByte pa

/-- Byte `k` of a word, the one in bits [8k+7:8k] (R60). -/
def wordByte (v : Word) (k : Nat) : Byte := v.extractLsb' (8 * k) 8

/-- `i` stores the bytes `f 0`, `f 1`, … `f (n - 1)` at the physical addresses from `pa` on; every other byte of memory,
and everything else, is unchanged. -/
def StoresBytes (i : Instr) (s : State) (pa n : Nat) (f : Nat → Byte) : Prop :=
  ∃ t, exec i s = .next t ∧ OnlyMemory s t ∧ (∀ k, k < n → byteAt t (pa + k) = f k) ∧
    ∀ b, (b < pa ∨ pa + n ≤ b) → byteAt t b = byteAt s b

/-! ## Encodings, as R122 and R123 list them -/

/-- The bits of a word that its instruction uses: all but those R123 lists. -/
def usedBits : Instr → Word
  | .sll _ _ _ | .srl _ _ _ | .sra _ _ _ | .lui _ _ => 0xFC1FFFFF#32
  | .sllv _ _ _ | .srlv _ _ _ | .srav _ _ _ | .add _ _ _ | .addu _ _ _ | .sub _ _ _ | .subu _ _ _ | .and _ _ _
  | .or _ _ _ | .xor _ _ _ | .nor _ _ _ | .slt _ _ _ | .sltu _ _ _ => 0xFFFFF83F#32
  | .jr _ | .mthi _ | .mtlo _ => 0xFFE0003F#32
  | .jalr _ _ => 0xFFE0F83F#32
  | .syscall _ | .brk _ => 0xFC00003F#32
  | .mfhi _ | .mflo _ => 0xFC00F83F#32
  | .mult _ _ | .multu _ _ | .div _ _ | .divu _ _ => 0xFFFF003F#32
  | .blez _ _ | .bgtz _ _ => 0xFFE0FFFF#32
  | .mfc0 _ _ | .mtc0 _ _ | .mfc2 _ _ | .cfc2 _ _ | .mtc2 _ _ | .ctc2 _ _ => 0xFFFFF800#32
  | .rfe => 0xFE00003F#32
  | .bltz _ _ _ | .bgez _ _ _ | .bltzal _ _ | .bgezal _ _ | .j _ | .jal _ | .beq _ _ _ | .bne _ _ _ | .addi _ _ _
  | .addiu _ _ _ | .slti _ _ _ | .sltiu _ _ _ | .andi _ _ _ | .ori _ _ _ | .xori _ _ _ | .cop2 _ | .lb _ _ _
  | .lh _ _ _ | .lwl _ _ _ | .lw _ _ _ | .lbu _ _ _ | .lhu _ _ _ | .lwr _ _ _ | .sb _ _ _ | .sh _ _ _ | .swl _ _ _
  | .sw _ _ _ | .swr _ _ _ | .lwc2 _ _ _ | .swc2 _ _ _ => 0xFFFFFFFF#32

/-- The illegal encodings, as the four items of R122 list them. -/
def Illegal (w : Word) : Prop :=
  let op := w.toNat / 0x4000000
  let rs := w.toNat / 0x200000 % 32
  let funct := w.toNat % 64
  (op = 0x11 ∨ op = 0x13 ∨ (0x14 ≤ op ∧ op ≤ 0x1F) ∨ op = 0x27 ∨ op = 0x2C ∨ op = 0x2D ∨ op = 0x2F ∨ op = 0x30 ∨
    op = 0x31 ∨ (0x33 ≤ op ∧ op ≤ 0x39) ∨ (0x3B ≤ op ∧ op ≤ 0x3F)) ∨
  (op = 0x00 ∧ (funct = 0x01 ∨ funct = 0x05 ∨ funct = 0x0A ∨ funct = 0x0B ∨ funct = 0x0E ∨ funct = 0x0F ∨
    (0x14 ≤ funct ∧ funct ≤ 0x17) ∨ (0x1C ≤ funct ∧ funct ≤ 0x1F) ∨ funct = 0x28 ∨ funct = 0x29 ∨
    (0x2C ≤ funct ∧ funct ≤ 0x3F))) ∨
  (op = 0x10 ∧ ((0x01 ≤ rs ∧ rs ≤ 0x03) ∨ (0x05 ≤ rs ∧ rs ≤ 0x0F) ∨ (0x10 ≤ rs ∧ rs ≤ 0x1F ∧ funct ≠ 0x10))) ∨
  (op = 0x12 ∧ (rs = 0x01 ∨ rs = 0x03 ∨ rs = 0x05 ∨ (0x07 ≤ rs ∧ rs ≤ 0x0F)))

/-! ## Groups of instructions -/

/-- The loads, with their widths and base operands. -/
def loadForms (rs rt : Reg) (imm : BitVec 16) : List (Instr × Size) :=
  [(.lb rs rt imm, .byte), (.lbu rs rt imm, .byte), (.lh rs rt imm, .half), (.lhu rs rt imm, .half),
   (.lw rs rt imm, .word), (.lwc2 rs rt imm, .word)]

/-- What a load makes of the zero-extended value its access reads (R270 to R274). -/
def extension : Instr → Word → Word
  | .lb _ _ _, v => (v.extractLsb' 0 8).signExtend 32
  | .lh _ _ _, v => (v.extractLsb' 0 16).signExtend 32
  | _, v => v

/-- LWL and LWR, with their kinds and their columns of the merge table (R276, R277, R279). -/
def mergeLoadForms (rs rt : Reg) (imm : BitVec 16) : List (Instr × LoadKind × (BitVec 2 → Word → Word → Word)) :=
  [(.lwl rs rt imm, .left, mergeLwl), (.lwr rs rt imm, .right, mergeLwr)]

/-- SWL and SWR, with their columns of the merge table (R279, R288, R289). -/
def mergeStoreForms (rs rt : Reg) (imm : BitVec 16) : List (Instr × (BitVec 2 → Word → Word → Word)) :=
  [(.swl rs rt imm, mergeSwl), (.swr rs rt imm, mergeSwr)]

/-- The stores, with their widths. -/
def storeForms (rs rt : Reg) (imm : BitVec 16) : List (Instr × Size) :=
  [(.sb rs rt imm, .byte), (.sh rs rt imm, .half), (.sw rs rt imm, .word), (.swc2 rs rt imm, .word)]

/-- The instructions of coprocessor 2 (R341). -/
def isCop2 : Instr → Bool
  | .mfc2 _ _ | .cfc2 _ _ | .mtc2 _ _ | .ctc2 _ _ | .cop2 _ | .lwc2 _ _ _ | .swc2 _ _ _ => true
  | _ => false

/-- The coprocessor-2 condition an instruction needs before anything else (R341). -/
abbrev Usable (i : Instr) (s : State) : Prop := isCop2 i = true → s.cop2Usable = true

/-- The address is a multiple of the access width (R73). -/
abbrev AlignedTo (n : Size) (a : Word) : Prop := a.toNat % n.bytes = 0

/-- The instruction at PC has begun: what R41 does before `execute`. -/
def begun (m : State) : State :=
  { m with currentPC := m.pc, pc := m.nextPC, nextPC := m.nextPC + 4#32, branchDelay := m.branchPending
           branchPending := false, ldNow := m.ldNext, ldNext := none }

/-- The line to the CPU is up (R372). -/
def LineUp (p : Platform) : Prop := ∃ b, b < 11 ∧ p.iStat.getLsbD b = true ∧ p.iMask.getLsbD b = true

/-- The line at the address's index holds it (R91). -/
def Hits (s : State) (va : Word) : Prop :=
  (s.line (va.extractLsb' 4 8)).valid = true ∧ (s.line (va.extractLsb' 4 8)).tag = va.extractLsb' 12 19

/-- A physical address that some row of the map of R66 names. -/
def Mapped (pa : Nat) : Prop :=
  InStorage pa ∨ (0x1F000000 ≤ pa ∧ pa < 0x1F800000) ∨
  pa ∈ [0x1F801040, 0x1F801044, 0x1F801048, 0x1F80104A, 0x1F80104E, 0x1F801070, 0x1F801074, 0x1F8010F0, 0x1F8010F4,
        0x1F801810, 0x1F801814, 0xFFFE0130] ∨
  (∃ n, n < 7 ∧ pa ∈ [0x1F801080 + 16 * n, 0x1F801084 + 16 * n, 0x1F801088 + 16 * n]) ∨
  (∃ t, t < 3 ∧ pa ∈ [0x1F801100 + 16 * t, 0x1F801104 + 16 * t, 0x1F801108 + 16 * t]) ∨
  (0x1F801800 ≤ pa ∧ pa < 0x1F801804) ∨ (0x1F801C00 ≤ pa ∧ pa < 0x1F802000)

/-- The DMA, GPU and CCR registers, which take words only (R74). -/
def WordRegister (pa : Nat) : Prop :=
  pa ∈ [0x1F8010F0, 0x1F8010F4, 0x1F801810, 0x1F801814, 0xFFFE0130] ∨
  (∃ n, n < 7 ∧ pa ∈ [0x1F801080 + 16 * n, 0x1F801084 + 16 * n, 0x1F801088 + 16 * n])

/-- The address lies in the platform's `IGNORED_WRITE_RANGES` (R72, log 21). -/
abbrev WriteIgnored (p : Platform) (pa : Nat) : Prop := ∃ r ∈ p.ignoredWrites, r.1 ≤ pa ∧ pa < r.2

/-- A store that reaches this address may start a DMA transfer (R440). -/
def StartsTransfer (pa : Nat) : Prop := ∃ n, n < 7 ∧ pa = 0x1F801088 + 16 * n

/-- The address a store stores to and its width: the bytes its frame excepts (R285 to R290, R350). -/
def storedTo (s : State) : Instr → Option (Word × Size)
  | .sb rs _ imm => some (effectiveAddress s rs imm, .byte)
  | .sh rs _ imm => some (effectiveAddress s rs imm, .half)
  | .sw rs _ imm => some (effectiveAddress s rs imm, .word)
  | .swl rs _ imm => some (wordBase (effectiveAddress s rs imm), .word)
  | .swr rs _ imm => some (wordBase (effectiveAddress s rs imm), .word)
  | .swc2 rs _ imm => some (effectiveAddress s rs imm, .word)
  | _ => none

/-- DMA channel n's triggered transfer passes the checks of R433, R434 and R432 (R441). -/
abbrev TransferAdmitted (n : Fin 7) (chcr : Word) (p : Platform) : Prop :=
  let size := (p.dma.channels[n]).size
  let count := (p.dma.channels[n]).blocks
  let sync := chcr.extractLsb' 9 2
  chcr.getLsbD 24 = true ∧ (chcr.getLsbD 28 = true ∨ sync ≠ 0#2) ∧
  (n = 6 → size ≠ 0) ∧ (n ≠ 6 → sync = 0#2 → size ≠ 0) ∧ (n ≠ 6 → sync = 1#2 → size ≠ 0 ∧ count ≠ 0) ∧
  p.dma.dpcr.getLsbD (4 * n.val + 3) = true ∧ sync ≠ 3#2

/-- The platform with channel n's CHCR stored (R431). -/
def chcrStored (n : Fin 7) (v : Word) (p : Platform) : Platform :=
  { p with dma := { p.dma with channels := p.dma.channels.set n { p.dma.channels[n] with chcr := v &&& 0x71770703#32 } } }

/-- The word address of word i of a transfer with step direction `down` from `madr` (R439). -/
def wordAddress (madr : BitVec 24) (down : Bool) (i : Nat) : Nat :=
  ((BitVec.ofInt 32 ((madr.toNat : Int) + (if down then -4 else 4) * i)) &&& 0x001FFFFC#32).toNat

/-- The cell (x, y) lies in a rectangle that wraps at 1024 and 512 (R473). -/
def InRectangle (x0 y0 w h x y : Nat) : Prop :=
  ∃ i j, i < w ∧ j < h ∧ (x0 + i) % 1024 = x ∧ (y0 + j) % 512 = y

/-! ## Device operations, as the rules list them -/

/-- The words a linked list delivers, in order, if it ends within `fuel` nodes (R442). -/
def listWords (p : Platform) : Nat → Word → Option (List Word)
  | 0, _ => none
  | fuel + 1, a =>
    let h := dmaRead a p
    let here := (List.range (h.extractLsb' 24 8).toNat).map fun i => dmaRead (a + BitVec.ofNat 32 (4 * (i + 1))) p
    if h.getLsbD 23 then some here
    else (listWords p fuel ((h.extractLsb' 0 24).setWidth 32)).map fun rest => here ++ rest

/-- The words of a list to GP0, in order. -/
def putAll : List Word → Platform → Result Platform
  | [], p => .next p
  | w :: ws, p => andThen (putGp0 w p) (putAll ws)

/-- `k` words taken from channel n's device, in order, and the platform after: GPUREAD words from channel 2, draws from the
others (R379, R438). -/
def takeWords (n : Fin 7) : Nat → Platform → List Word × Platform
  | 0, p => ([], p)
  | k + 1, p =>
    let first := if n = 2 then gpuRead p else (Config.freeWord p.draws, { p with draws := p.draws + 1 })
    let rest := takeWords n k first.2
    (first.1 :: rest.1, rest.2)

/-- The words of a list stored at the addresses `a i`, `a (i + 1)`, …, in order. -/
def storeWords (a : Nat → Nat) : Nat → List Word → Memory → Memory
  | _, [], m => m
  | i, w :: ws, m => storeWords a (i + 1) ws (m.write (a i) .word w)

/-- The two cells of each word, the low half first (R475, R476). -/
def cellsOf (ws : List Word) : List Cell16 := ws.flatMap fun w => [w.extractLsb' 0 16, w.extractLsb' 16 16]

/-- Words written by `writePixels`, in order (R475). -/
def writeWords (ws : List Word) (g : Gpu) : Gpu := ws.foldl (fun g w => writePixels w g) g

/-- Pixels written at the cursor, in order (R475). -/
def writeAll : List Cell16 → Gpu → Gpu
  | [], g => g
  | c :: cs, g => writeAll cs (writePixel c g)

/-- `n` pixels read at the cursor, in order (R476). -/
def readAll : Nat → Gpu → List Cell16
  | 0, _ => []
  | n + 1, g => (readPixel g).1 :: readAll n (readPixel g).2

end Sys2Proof.Safety
end

