-- ==== Sys2Proof/Certificates/Slice0/Obligations.lean ====
section
/-! DEFINITION. The statements for the provers. Each docstring names the rules it formalises. -/

section

open Sys2Proof Sys2Proof.Machine Sys2Proof.Safety

/-! ## Encoding -/

/-- Every instruction survives encoding and decoding, also through the byte order of R60 (R110 to R121). -/
def Obligations.DecodeOfEncodeIsIdentity : Prop :=
  ∀ i : Instr, i.wf = true → decode (encode i) = .ok i ∧ decodeTableWord 32 (encode i).toNat = some i

/-- Fields an instruction does not use are ignored: every word that agrees on the used bits decodes and means the same
(R123). What the decoder answers is well-formed and holds every used bit of the word. -/
def Obligations.UnusedFieldsAreIgnored : Prop :=
  (∀ (w w' : Word) (i : Instr), decode w = .ok i → w' &&& usedBits i = w &&& usedBits i →
    ∃ i', decode w' = .ok i' ∧ ∀ s, exec i' s = exec i s) ∧
  (∀ (w : Word) (i : Instr), decode w = .ok i → i.wf = true ∧ encode i &&& usedBits i = w &&& usedBits i)

/-- The illegal words are exactly those R122 lists, and executing one raises RI. -/
def Obligations.IllegalWordsRaiseReservedInstruction : Prop :=
  ∀ w : Word, ((∃ e, decode w = .error e) ↔ Illegal w) ∧
    (Illegal w → ∀ s, ∃ t, Entered 10 s t ∧ executeWord w s = .next (ageHazards t))

/-- Words of spec/95_test_vectors.md decode to the instructions written beside them. -/
def Obligations.WrittenWordsDecode : Prop :=
  decode 0x00221820#32 = .ok (.add 1 2 3) ∧ decode 0x2023FFFF#32 = .ok (.addi 1 3 0xFFFF) ∧
  decode 0x00411806#32 = .ok (.srlv 2 1 3) ∧ decode 0x00011903#32 = .ok (.sra 1 3 4) ∧
  decode 0x0022001A#32 = .ok (.div 1 2) ∧ decode 0x00001812#32 = .ok (.mflo 3) ∧
  decode 0x08100000#32 = .ok (.j 0x100000) ∧ decode 0x00202809#32 = .ok (.jalr 1 5) ∧
  decode 0x1422FFFF#32 = .ok (.bne 1 2 0xFFFF) ∧ decode 0x0431003F#32 = .ok (.bgezal 1 0x3F) ∧
  decode 0x04220004#32 = .ok (.bltz 1 1 4) ∧ decode 0x8C23FFFC#32 = .ok (.lw 1 3 0xFFFC) ∧
  decode 0x9822FFFD#32 = .ok (.lwr 1 2 0xFFFD) ∧ decode 0xA0220003#32 = .ok (.sb 1 2 3) ∧
  decode 0x03FFFFCC#32 = .ok (.syscall 0xFFFFF) ∧ decode 0x40816000#32 = .ok (.mtc0 1 12) ∧
  decode 0x43FFFFD0#32 = .ok .rfe ∧ decode 0x4842F800#32 = .ok (.cfc2 2 31) ∧
  decode 0x4A080012#32 = .ok (.cop2 0x0080012) ∧ decode 0xE8870004#32 = .ok (.swc2 4 7 4)

/-! ## The step -/

/-- A step with no interrupt pending and an aligned PC is the meaning of the decoded instruction, between the beginning
R41 gives it and the hazard update of R506; a branch in a delay slot is refused (R41, R242). `step` is such a step under
the drawn environment. -/
def Obligations.StepRunsDecodedInstruction : Prop :=
  (∀ s, step s = stepWith (drawnEnvironment s) s) ∧
  ∀ (e : Environment) (s u : State) (w : Word) (i : Instr),
    let m := environmentMoves e s
    m.interruptPending = false → m.pc.toNat % 4 = 0 → fetch m.pc m = .next (w, u) → decode w = .ok i →
      ((m.branchPending = false ∨ i.isBranch = false) →
        stepWith e s = mapNext (updateHazards i) (exec i (begun { m with icache := u.icache }))) ∧
      (m.branchPending = true → i.isBranch = true → stepWith e s = .refused .branchInDelaySlot)

/-- Fetch: uncached from RAM and BIOS only, a hit without a bus access, a miss filling the whole line (R67, R90 to
R93). -/
def Obligations.FetchGoesThroughTheCache : Prop :=
  ∀ (s : State) (va : Word), ¬ Forbidden s va → va.toNat % 4 = 0 →
    let on := s.plat.ccr.getLsbD 11 = true ∧ va.toNat < 0xA0000000
    let fetchable := InRam (physical va) ∨ InBios (physical va)
    (¬ on → fetchable → fetch va s = .next (s.plat.mem.read (physical va) .word, s)) ∧
    (¬ (on ∧ Hits s va) → ¬ fetchable → fetch va s = .refused .fetchOutsideMemory) ∧
    (on → Hits s va → ∃ w, fetch va s = .next (w, s) ∧
      ∀ k : Fin 4, (va.extractLsb' 2 2).toNat = k.val → w = (s.line (va.extractLsb' 4 8)).data[k]) ∧
    (on → ¬ Hits s va → fetchable → ∃ u, fetch va s = .next (s.plat.mem.read (physical va) .word, u) ∧
      u = { s with icache := u.icache } ∧ Hits u va ∧
      (∀ k : Fin 4, (u.line (va.extractLsb' 4 8)).data[k] = s.plat.mem.read (physical va / 16 * 16 + 4 * k.val) .word) ∧
      ∀ j, j ≠ va.extractLsb' 4 8 → u.line j = s.line j)

/-- When an interrupt is pending, and that the step then takes it instead of an instruction (R388). The premise is part
of `Inv`: the bits of Cause that R35 says read 0 are 0. -/
def Obligations.PendingInterruptIsTakenBeforeFetch : Prop :=
  ∀ (e : Environment) (s : State), s.cause &&& ~~~causeStored = 0#32 →
    let m := environmentMoves e s
    (m.interruptPending = true ↔ m.status.getLsbD 0 = true ∧
      ((m.status.getLsbD 8 = true ∧ m.cause.getLsbD 8 = true) ∨ (m.status.getLsbD 9 = true ∧ m.cause.getLsbD 9 = true) ∨
       (m.status.getLsbD 10 = true ∧ LineUp m.plat))) ∧
    (m.interruptPending = true → ∃ t, Entered 0 { m with currentPC := m.pc, branchDelay := m.branchPending } t ∧
      stepWith e s = .next (ageHazards t))

/-- A misaligned fetch or load raises AdEL and a misaligned store AdES, before any access (R73, R275, R381). -/
def Obligations.MisalignedAccessRaisesAddressError : Prop :=
  (∀ (e : Environment) (s : State), let m := environmentMoves e s
    m.interruptPending = false → m.pc.toNat % 4 ≠ 0 →
      ∃ t, Entered 4 { m with currentPC := m.pc, branchDelay := m.branchPending } t ∧
        stepWith e s = .next (ageHazards t)) ∧
  (∀ (s : State) (rs rt : Reg) (imm : BitVec 16) (i : Instr) (n : Size), Usable i s →
    ¬ AlignedTo n (effectiveAddress s rs imm) →
      ((i, n) ∈ loadForms rs rt imm → Raises i s 4) ∧ ((i, n) ∈ storeForms rs rt imm → Raises i s 5))

/-- The HI/LO hazard state after every step: after an instruction or an illegal word, after an interrupt, after a
misaligned fetch (R506). -/
def Obligations.HazardStateAfterEveryStep : Prop :=
  (∀ (w : Word) (s t : State), executeWord w s = .next t →
    t.mfAge = (match decode w with
      | .ok (.mfhi _) | .ok (.mflo _) => 0
      | _ => min 3 (s.mfAge + 1)) ∧
    t.hiloUnread = (match decode w with
      | .ok (.mfhi _) | .ok (.mflo _) | .ok (.mthi _) | .ok (.mtlo _) => false
      | .ok (.mult _ _) | .ok (.multu _ _) | .ok (.div _ _) | .ok (.divu _ _) => true
      | _ => s.hiloUnread)) ∧
  (∀ (e : Environment) (s t : State), let m := environmentMoves e s
    (m.interruptPending = true ∨ m.pc.toNat % 4 ≠ 0) → stepWith e s = .next t →
      t.mfAge = min 3 (s.mfAge + 1) ∧ t.hiloUnread = s.hiloUnread)

/-- What the environment may do between two steps: move the timers and raise bits of I_STAT, those of the timers and
those `DEV` owns (R371, R376, R377, R379, R411). That it acts once, at the start of a step, and uses up draws is the model's
form (logs 9, 10). -/
def Obligations.EnvironmentOnlyMovesTimersAndRaisesInterrupts : Prop :=
  ∀ (e : Environment) (s : State), let m := environmentMoves e s
    m = { s with plat := { s.plat with timers := m.plat.timers, iStat := m.plat.iStat, draws := m.plat.draws } } ∧
    (∀ b, s.plat.iStat.getLsbD b = true → m.plat.iStat.getLsbD b = true) ∧
    (∀ b, (b ∈ [0, 1, 2, 7, 8, 9, 10] → e.asserts.getLsbD b = true → m.plat.iStat.getLsbD b = true)) ∧
    (∀ b, m.plat.iStat.getLsbD b = true → s.plat.iStat.getLsbD b = true ∨
      (b ∈ [0, 1, 2, 7, 8, 9, 10] ∧ e.asserts.getLsbD b = true) ∨ b ∈ [4, 5, 6]) ∧
    s.plat.draws < m.plat.draws

/-- The reset values the spec states (R27, R30, R31, R34, R35, R39, R72, R378, R419, R445, R460, R500). The last clause is
the model's choice (logs 1 to 9, 21): a reset of any machine leaves every field but the geometry engine, memory and the
ignored ranges as State.reset has it. -/
def Obligations.ResetValuesAreTheStatedOnes : Prop :=
  let r := State.reset
  r.reg 0#5 = 0#32 ∧ r.pc = 0xBFC00000#32 ∧ r.nextPC = 0xBFC00004#32 ∧ r.branchPending = false ∧ r.branchDelay = false ∧
  r.ldNow = none ∧ r.ldNext = none ∧ r.mfAge = 3 ∧ r.hiloUnread = false ∧
  r.status.getLsbD 22 = true ∧ r.status.getLsbD 0 = false ∧ r.status.getLsbD 1 = false ∧ r.status.getLsbD 16 = false ∧
  r.cause.extractLsb' 8 2 = 0#2 ∧ (cop0Read 15#5 r).1 = 2#32 ∧ r.plat.ccr = 0#32 ∧
  r.plat.iStat = 0#11 ∧ r.plat.iMask = 0#11 ∧
  (∀ t : Fin 3, (r.plat.timers[t]).mode = 0x0400#13 ∧ (r.plat.timers[t]).armed = true ∧
    (r.plat.timers[t]).prescaler = 0) ∧
  (∀ n : Fin 7, (r.plat.dma.channels[n]).chcr = 0#32) ∧ r.plat.dma.dpcr = 0x07654321#32 ∧
  r.plat.dma.dicr.word = 0#32 ∧ r.plat.dma.irqLevel = false ∧
  r.plat.gpu.fifo = [] ∧ r.plat.gpu.transfer.mode = .fifo ∧ r.gte.flags = 0#32 ∧
  r.plat.ignoredWrites = [(0x1F801000, 0x1F801024), (0x1F801060, 0x1F801064), (0x1F802000, 0x1F803000)] ∧
  ∀ s : State, s.resetFrom.gte = { s.gte with flags := 0#32 } ∧ s.resetFrom.plat.ignoredWrites = s.plat.ignoredWrites ∧
    { s.resetFrom with
      gte := r.gte
      plat := { s.resetFrom.plat with mem := r.plat.mem, ignoredWrites := r.plat.ignoredWrites } } = r

/-- After a reset, from whatever state, the first step executes the first word of the ROM, read uncached, whatever the
environment does (R71, R500, R502). -/
def Obligations.FirstStepAfterResetRunsTheRom : Prop :=
  ∀ (e : Environment) (s : State), let r := s.resetFrom
    (∀ a, InBios a → byteAt r a = byteAt s a) ∧
    stepWith e r = executeWord (s.plat.mem.read 0x1FC00000 .word) (begun (environmentMoves e r))

/-! ## Arithmetic and logic -/

/-- ADD, SUB and ADDI write the exact signed result, or trap on overflow, whatever the destination (R140, R142, R144,
R146). -/
def Obligations.TrappingArithmetic : Prop :=
  ∀ (s : State) (rs rt rd : Reg) (imm : BitVec 16),
    TrapsOrWrites (.add rs rt rd) s rd ((readReg s rs).toInt + (readReg s rt).toInt) ∧
    TrapsOrWrites (.sub rs rt rd) s rd ((readReg s rs).toInt - (readReg s rt).toInt) ∧
    TrapsOrWrites (.addi rs rt imm) s rt ((readReg s rs).toInt + imm.toInt)

/-- ADDU, SUBU and ADDIU write the result modulo 2^32 and never trap; LUI writes imm16 times 2^16 (R141, R143, R145,
R180). -/
def Obligations.WrappingArithmetic : Prop :=
  ∀ (s : State) (rs rt rd : Reg) (imm : BitVec 16),
    Writes (.addu rs rt rd) s rd (BitVec.ofNat 32 ((readReg s rs).toNat + (readReg s rt).toNat)) ∧
    Writes (.subu rs rt rd) s rd (BitVec.ofInt 32 ((readReg s rs).toNat - (readReg s rt).toNat)) ∧
    Writes (.addiu rs rt imm) s rt (BitVec.ofInt 32 ((readReg s rs).toNat + imm.toInt)) ∧
    Writes (.lui rt imm) s rt (BitVec.ofNat 32 (imm.toNat * 65536))

/-- The logical instructions, bit by bit; the immediates are zero-extended (R150 to R156). -/
def Obligations.LogicIsBitwise : Prop :=
  ∀ (s : State) (rs rt rd : Reg) (imm : BitVec 16),
    let a := readReg s rs
    let b := readReg s rt
    (∃ v, Writes (.and rs rt rd) s rd v ∧ ∀ k, v.getLsbD k = (a.getLsbD k && b.getLsbD k)) ∧
    (∃ v, Writes (.or rs rt rd) s rd v ∧ ∀ k, v.getLsbD k = (a.getLsbD k || b.getLsbD k)) ∧
    (∃ v, Writes (.xor rs rt rd) s rd v ∧ ∀ k, v.getLsbD k = (a.getLsbD k ^^ b.getLsbD k)) ∧
    (∃ v, Writes (.nor rs rt rd) s rd v ∧ ∀ k, k < 32 → v.getLsbD k = !(a.getLsbD k || b.getLsbD k)) ∧
    (∃ v, Writes (.andi rs rt imm) s rt v ∧ ∀ k, v.getLsbD k = (a.getLsbD k && imm.getLsbD k)) ∧
    (∃ v, Writes (.ori rs rt imm) s rt v ∧ ∀ k, v.getLsbD k = (a.getLsbD k || imm.getLsbD k)) ∧
    (∃ v, Writes (.xori rs rt imm) s rt v ∧ ∀ k, v.getLsbD k = (a.getLsbD k ^^ imm.getLsbD k))

/-- The shifts, bit by bit: SLL and SRL fill with zeros, SRA with copies of bit 31; the variable amount is
x[rs] mod 32 (R160 to R166). -/
def Obligations.ShiftsMoveBits : Prop :=
  ∀ (s : State) (rs rt rd : Reg) (shamt : BitVec 5),
    let a := readReg s rt
    let left (n : Nat) (v : Word) : Prop := ∀ k, k < 32 → v.getLsbD k = (decide (n ≤ k) && a.getLsbD (k - n))
    let right (n : Nat) (v : Word) : Prop := ∀ k, k < 32 → v.getLsbD k = (decide (k + n < 32) && a.getLsbD (k + n))
    let arith (n : Nat) (v : Word) : Prop :=
      ∀ k, k < 32 → v.getLsbD k = if k + n < 32 then a.getLsbD (k + n) else a.getLsbD 31
    (∃ v, Writes (.sll rt rd shamt) s rd v ∧ left shamt.toNat v) ∧
    (∃ v, Writes (.srl rt rd shamt) s rd v ∧ right shamt.toNat v) ∧
    (∃ v, Writes (.sra rt rd shamt) s rd v ∧ arith shamt.toNat v) ∧
    (∃ v, Writes (.sllv rs rt rd) s rd v ∧ left ((readReg s rs).toNat % 32) v) ∧
    (∃ v, Writes (.srlv rs rt rd) s rd v ∧ right ((readReg s rs).toNat % 32) v) ∧
    (∃ v, Writes (.srav rs rt rd) s rd v ∧ arith ((readReg s rs).toNat % 32) v)

/-- The set instructions write 1 or 0; SLTIU compares unsigned with the sign-extended immediate (R170 to R173). -/
def Obligations.SetOnLessThanComparesExactly : Prop :=
  ∀ (s : State) (rs rt rd : Reg) (imm : BitVec 16),
    let a := readReg s rs
    let b := readReg s rt
    Writes (.slt rs rt rd) s rd (if a.toInt < b.toInt then 1#32 else 0#32) ∧
    Writes (.sltu rs rt rd) s rd (if a.toNat < b.toNat then 1#32 else 0#32) ∧
    Writes (.slti rs rt imm) s rt (if a.toInt < imm.toInt then 1#32 else 0#32) ∧
    Writes (.sltiu rs rt imm) s rt
      (if (a.toNat : Int) < (if imm.toInt < 0 then imm.toInt + 4294967296 else imm.toInt) then 1#32 else 0#32)

/-! ## Multiply, divide, HI and LO -/

/-- MULT and MULTU put the exact product in HI and LO and change nothing else (R200, R201). -/
def Obligations.MultiplyGivesTheExactProduct : Prop :=
  ∀ (s : State) (rs rt : Reg), 2 ≤ s.mfAge →
    (∃ t, exec (.mult rs rt) s = .next t ∧ t = { s with hi := t.hi, lo := t.lo } ∧
      t.hi.toInt * 4294967296 + t.lo.toNat = (readReg s rs).toInt * (readReg s rt).toInt) ∧
    (∃ t, exec (.multu rs rt) s = .next t ∧ t = { s with hi := t.hi, lo := t.lo } ∧
      t.hi.toNat * 4294967296 + t.lo.toNat = (readReg s rs).toNat * (readReg s rt).toNat)

/-- DIV and DIVU: quotient toward zero in LO, remainder with the dividend's sign in HI, the fixed results by zero and
for the one overflow, never a trap (R202, R203, R205). -/
def Obligations.DivideGivesQuotientAndRemainder : Prop :=
  ∀ (s : State) (rs rt : Reg), 2 ≤ s.mfAge →
    let a := readReg s rs
    let b := readReg s rt
    (∃ t, exec (.div rs rt) s = .next t ∧ t = { s with hi := t.hi, lo := t.lo } ∧
      (b = 0#32 → t.hi = a ∧ t.lo = if 0 ≤ a.toInt then 0xFFFFFFFF#32 else 1#32) ∧
      (a = 0x80000000#32 → b = 0xFFFFFFFF#32 → t.hi = 0#32 ∧ t.lo = 0x80000000#32) ∧
      (b ≠ 0#32 → ¬ (a = 0x80000000#32 ∧ b = 0xFFFFFFFF#32) →
        t.lo.toInt * b.toInt + t.hi.toInt = a.toInt ∧ |t.hi.toInt| < |b.toInt| ∧
        (0 ≤ a.toInt → 0 ≤ t.hi.toInt) ∧ (a.toInt ≤ 0 → t.hi.toInt ≤ 0))) ∧
    (∃ t, exec (.divu rs rt) s = .next t ∧ t = { s with hi := t.hi, lo := t.lo } ∧
      (b = 0#32 → t.hi = a ∧ t.lo = 0xFFFFFFFF#32) ∧
      (b ≠ 0#32 → t.lo.toNat * b.toNat + t.hi.toNat = a.toNat ∧ t.hi.toNat < b.toNat))

/-- MFHI and MFLO read, MTHI and MTLO write one of the pair; over an unread result the other half becomes the draw that
is due; the writers of HI and LO are refused in the two instructions after MFHI or MFLO, and only there (R206 to R209,
R507). -/
def Obligations.HiLoMovesAndHazards : Prop :=
  (∀ (s : State) (rs rd : Reg),
    Writes (.mfhi rd) s rd s.hi ∧ Writes (.mflo rd) s rd s.lo ∧
    (2 ≤ s.mfAge → s.hiloUnread = false →
      exec (.mthi rs) s = .next { s with hi := readReg s rs } ∧ exec (.mtlo rs) s = .next { s with lo := readReg s rs }) ∧
    (2 ≤ s.mfAge → s.hiloUnread = true →
      let drawn := Config.freeWord s.plat.draws
      let plat' := { s.plat with draws := s.plat.draws + 1 }
      exec (.mthi rs) s = .next { s with hi := readReg s rs, lo := drawn, plat := plat' } ∧
      exec (.mtlo rs) s = .next { s with hi := drawn, lo := readReg s rs, plat := plat' })) ∧
  (∀ (s : State) (rs rt : Reg) (i : Instr),
    i ∈ [Instr.mult rs rt, .multu rs rt, .div rs rt, .divu rs rt, .mthi rs, .mtlo rs] →
      (exec i s = .refused .hiLoHazard ↔ s.mfAge < 2))

/-! ## Jumps and branches -/

/-- The jumps: target, delay slot and link; JALR reads its target before it links (R230 to R233, R243, R244). -/
def Obligations.JumpsGoToTheirTargets : Prop :=
  ∀ (s : State) (rs rd : Reg) (target : BitVec 26),
    let region := BitVec.ofNat 32 ((s.currentPC + 4#32).toNat / 0x10000000 * 0x10000000 + 4 * target.toNat)
    exec (.j target) s = .next { s with branchPending := true, nextPC := region } ∧
    exec (.jr rs) s = .next { s with branchPending := true, nextPC := readReg s rs } ∧
    (∃ t, exec (.jal target) s = .next t ∧ OnlyControl s t ∧ RegisterWritten s t 31#5 (s.currentPC + 8#32) ∧
      t.branchPending = true ∧ t.nextPC = region) ∧
    (∃ t, exec (.jalr rs rd) s = .next t ∧ OnlyControl s t ∧ RegisterWritten s t rd (s.currentPC + 8#32) ∧
      t.branchPending = true ∧ t.nextPC = readReg s rs)

/-- The branches: the condition, the target when taken, the delay slot in either case, and the unconditional link of
BLTZAL and BGEZAL (R234 to R241, R243, R244). -/
def Obligations.BranchesGoWhereTheirConditionsSay : Prop :=
  ∀ (s : State) (rs rt : Reg) (sel : BitVec 4) (imm : BitVec 16),
    let a := readReg s rs
    let dest := BitVec.ofInt 32 (s.currentPC.toNat + 4 + 4 * imm.toInt)
    let goes (i : Instr) (c : Prop) : Prop :=
      (c → exec i s = .next { s with branchPending := true, nextPC := dest }) ∧
      (¬ c → exec i s = .next { s with branchPending := true })
    let links (i : Instr) (c : Prop) : Prop :=
      ∃ t, exec i s = .next t ∧ OnlyControl s t ∧ RegisterWritten s t 31#5 (s.currentPC + 8#32) ∧
        t.branchPending = true ∧ (c → t.nextPC = dest) ∧ (¬ c → t.nextPC = s.nextPC)
    goes (.beq rs rt imm) (a = readReg s rt) ∧ goes (.bne rs rt imm) (a ≠ readReg s rt) ∧
    goes (.blez rs imm) (a.toInt ≤ 0) ∧ goes (.bgtz rs imm) (0 < a.toInt) ∧
    goes (.bltz rs sel imm) (a.toInt < 0) ∧ goes (.bgez rs sel imm) (0 ≤ a.toInt) ∧
    links (.bltzal rs imm) (a.toInt < 0) ∧ links (.bgezal rs imm) (0 ≤ a.toInt)

/-- After a branch, the next step runs the delay slot and the one after it the target; if the slot takes an exception or
an interrupt, EPC names the branch and BD is set (R42, R242, R385, R386). -/
def Obligations.DelaySlotRunsBeforeTheTarget : Prop :=
  ∀ (e e' : Environment) (s t u : State), s.nextPC = s.pc + 4#32 → stepWith e s = .next t → t.branchPending = true →
    stepWith e' t = .next u →
      t.pc = s.pc + 4#32 ∧
      ((u.currentPC = t.pc ∧ u.branchDelay = true ∧ u.branchPending = false ∧ u.pc = t.nextPC ∧
          u.nextPC = t.nextPC + 4#32) ∨
       (u.epc = s.pc ∧ u.cause.getLsbD 31 = true ∧ u.branchPending = false ∧
          u.pc = if t.status.getLsbD 22 then 0xBFC00180#32 else 0x80000080#32))

/-! ## Memory -/

/-- The fixed segment masks and the cached segments (R62, R63, R64). -/
def Obligations.SegmentsTranslateByFixedMasks : Prop :=
  ∀ va : Word,
    physical va = (if 0x80000000 ≤ va.toNat ∧ va.toNat < 0xC0000000 then va.toNat % 0x20000000 else va.toNat) ∧
    (cached va = true ↔ va.toNat < 0xA0000000)

/-- The aligned loads from RAM, scratchpad and ROM: the little-endian bytes at EA, extended, with a load delay (R60, R270
to R275, R278). -/
def Obligations.LoadsReadLittleEndianBytes : Prop :=
  ∀ (s : State) (rs rt : Reg) (imm : BitVec 16),
    let ea := effectiveAddress s rs imm
    let b (k : Nat) : Byte := byteAt s (physical ea + k)
    ea = BitVec.ofInt 32 ((readReg s rs).toNat + imm.toInt) ∧
    (LoadReachesBus s ea → InStorage (physical ea) →
      Loads (.lb rs rt imm) s rt ((b 0).signExtend 32) ∧
      Loads (.lbu rs rt imm) s rt ((b 0).setWidth 32) ∧
      (AlignedTo .half ea →
        (∃ v, Loads (.lh rs rt imm) s rt v ∧ v.toInt = (b 1).toInt * 256 + (b 0).toNat) ∧
        (∃ v, Loads (.lhu rs rt imm) s rt v ∧ v.toNat = (b 1).toNat * 256 + (b 0).toNat)) ∧
      (AlignedTo .word ea → ∃ v, Loads (.lw rs rt imm) s rt v ∧ ∀ k, k < 4 → wordByte v k = b k))

/-- LWL loads the bytes from the word's base up to EA into the top of the register, LWR those from EA to the word's end
into the bottom; the other bytes are those of the committed register, the value just loaded if a load is pending (R276,
R277, R279, R280). The write is raced with a pending load like any load's, but for the second half of an LWL/LWR pair (R503,
log 13). -/
def Obligations.UnalignedLoadsMergeBytes : Prop :=
  ∀ (s : State) (rs rt : Reg) (imm : BitVec 16),
    let ea := effectiveAddress s rs imm
    let n := ea.toNat % 4
    let base := physical ea / 4 * 4
    LoadReachesBus s ea → InStorage (physical ea) →
      (∃ v, LoadsAs .left (.lwl rs rt imm) s rt v ∧ ∀ k, k < 4 → wordByte v k =
        if 3 - n ≤ k then byteAt s (base + (k - (3 - n))) else wordByte (s.reg rt) k) ∧
      (∃ v, LoadsAs .right (.lwr rs rt imm) s rt v ∧ ∀ k, k < 4 → wordByte v k =
        if k < 4 - n then byteAt s (base + n + k) else wordByte (s.reg rt) k)

/-- The aligned stores to RAM and scratchpad put the low bytes of x[rt] at EA and change nothing else (R60, R285 to
R287, R290). -/
def Obligations.StoresWriteLittleEndianBytes : Prop :=
  ∀ (s : State) (rs rt : Reg) (imm : BitVec 16),
    let ea := effectiveAddress s rs imm
    let v := readReg s rt
    Memory.wf s.plat.mem = true → StoreReachesBus s ea → Writable (physical ea) →
      StoresBytes (.sb rs rt imm) s (physical ea) 1 (wordByte v) ∧
      (AlignedTo .half ea → StoresBytes (.sh rs rt imm) s (physical ea) 2 (wordByte v)) ∧
      (AlignedTo .word ea → StoresBytes (.sw rs rt imm) s (physical ea) 4 (wordByte v))

/-- SWL stores the top bytes of x[rt] from the word's base up to EA, SWR the bottom bytes from EA to the word's end, and
nothing else changes (R279, R288, R289). -/
def Obligations.UnalignedStoresWritePartOfTheWord : Prop :=
  ∀ (s : State) (rs rt : Reg) (imm : BitVec 16),
    let ea := effectiveAddress s rs imm
    let v := readReg s rt
    let n := ea.toNat % 4
    Memory.wf s.plat.mem = true → StoreReachesBus s ea → Writable (physical ea) →
      StoresBytes (.swl rs rt imm) s (physical ea / 4 * 4) (n + 1) (fun k => wordByte v (3 - n + k)) ∧
      StoresBytes (.swr rs rt imm) s (physical ea) (4 - n) (wordByte v)

/-- `lwr rt, a; lwl rt, a+3` loads, and `swr rt, a; swl rt, a+3` stores, the possibly misaligned word at a (R279,
R280). An instruction begins with `ldNext` empty (R41). That the second load of the pair is not raced with the first is
log 13. With rs = rt ≠ 0 the loads are no such pair: the first replaces the base of the second. -/
def Obligations.UnalignedPairsMoveAWholeWord : Prop :=
  ∀ (s : State) (rs rt : Reg) (imm : BitVec 16),
    let ea := effectiveAddress s rs imm
    let far := imm + 3#16
    imm.toInt + 3 ≤ 32767 → s.ldNext = none → s.pendingOld rs = none → s.pendingOld rt = none →
    physical (ea + 3#32) = physical ea + 3 →
      (rs ≠ rt ∨ rt = 0#5 → (∀ k : Fin 4, LoadReachesBus s (ea + BitVec.ofNat 32 k.val)) →
        (∀ k : Fin 4, InStorage (physical ea + k.val)) →
        ∃ t u, exec (.lwr rs rt imm) s = .next t ∧ exec (.lwl rs rt far) (shiftLoadSlot t) = .next u ∧
          (rt = 0#5 → u.reg rt = 0#32) ∧ (rt ≠ 0#5 → ∀ k, k < 4 → wordByte (u.reg rt) k = byteAt s (physical ea + k))) ∧
      (Memory.wf s.plat.mem = true →
        (∀ k : Fin 4, StoreReachesBus s (ea + BitVec.ofNat 32 k.val)) → (∀ k : Fin 4, Writable (physical ea + k.val)) →
        ∃ t u, exec (.swr rs rt imm) s = .next t ∧ exec (.swl rs rt far) (shiftLoadSlot t) = .next u ∧
          (∀ k, k < 4 → byteAt u (physical ea + k) = wordByte (readReg s rt) k) ∧
          ∀ b, (b < physical ea ∨ physical ea + 4 ≤ b) → byteAt u b = byteAt s b)

/-- The bus outside storage: the expansion range reads 0 and drops writes, ROM and the ignored ranges drop writes, every
other address without a target is fatal, a narrow access to a word-only register is refused, and CCR is stored and read back
(R39, R69, R71, R72, R74). The ignored ranges are whatever the platform holds (log 21). -/
def Obligations.BusOutsideStorage : Prop :=
  ∀ (pa : Nat) (n : Size) (v : Word) (p : Platform),
    (0x1F000000 ≤ pa → pa < 0x1F800000 → busRead pa n p = .next (0#32, p) ∧ busWrite pa n v p = .next p) ∧
    (InBios pa → busWrite pa n v p = .next p) ∧
    (¬ Mapped pa → busRead pa n p = .fault .unmappedRead ∧
      (WriteIgnored p pa → busWrite pa n v p = .next p) ∧
      (¬ WriteIgnored p pa → busWrite pa n v p = .fault .unmappedWrite)) ∧
    (WordRegister pa → n ≠ .word →
      busRead pa n p = .refused .subwordDeviceAccess ∧ busWrite pa n v p = .refused .subwordDeviceAccess) ∧
    busRead 0xFFFE0130 .word p = .next (p.ccr, p) ∧ busWrite 0xFFFE0130 .word v p = .next { p with ccr := v }

/-- What a load or store does is what its bus access does, wherever it goes: a fault or refusal of the bus ends the
instruction; a load puts what the bus read, extended or merged, into `rt` (LWC2: the engine); a store hands the bus the low
bits of x[rt], the merged word or (SWC2) the engine's word (R77, R78, R270 to R279, R285 to R290, R349, R350). That the write of
LWL and LWR is not raced where it is the second half of a pair is the model's reading, log 13 (DEDUCED). -/
def Obligations.MemoryInstructionsEndAsTheirBusAccessEnds : Prop :=
  ∀ (s : State) (rs rt : Reg) (imm : BitVec 16),
    let ea := effectiveAddress s rs imm
    let base := wordBase ea
    let ends (i : Instr) (read : Result (Word × Platform)) : Prop :=
      (∀ f, read = .fault f → exec i s = .fault f) ∧ (∀ r, read = .refused r → exec i s = .refused r)
    let loads (i : Instr) (kind : LoadKind) (v : Word) (p : Platform) : Prop :=
      ∃ t, exec i s = .next t ∧ t = { s with regs := t.regs, ldNext := t.ldNext, plat := p } ∧ LoadWritten s t rt kind v
    (∀ (i : Instr) (n : Size), Usable i s → AlignedTo n ea →
      ((i, n) ∈ loadForms rs rt imm → LoadReachesBus s ea →
        ends i (busRead (physical ea) n s.plat) ∧
        ∀ q, busRead (physical ea) n s.plat = .next q →
          (i ≠ .lwc2 rs rt imm → loads i .whole (extension i q.1) q.2) ∧
          (i = .lwc2 rs rt imm → exec i s = .next { s with gte := Config.gteWriteData s.gte rt q.1, plat := q.2 })) ∧
      ((i, n) ∈ storeForms rs rt imm → StoreReachesBus s ea →
        exec i s = mapNext (fun p => { s with plat := p }) (busWrite (physical ea) n
          (if i = .swc2 rs rt imm then Config.gteReadData s.gte rt else n.low (readReg s rt)) s.plat))) ∧
    (∀ f ∈ mergeLoadForms rs rt imm, LoadReachesBus s ea →
      ends f.1 (busRead (physical base) .word s.plat) ∧
      ∀ q, busRead (physical base) .word s.plat = .next q →
        loads f.1 f.2.1 (f.2.2 (BitVec.ofNat 2 ea.toNat) (s.reg rt) q.1) q.2) ∧
    (∀ f ∈ mergeStoreForms rs rt imm, StoreReachesBus s ea →
      exec f.1 s = andThen (busRead (physical base) .word s.plat) fun q => mapNext (fun p => { s with plat := p })
        (busWrite (physical base) .word (f.2 (BitVec.ofNat 2 ea.toNat) (readReg s rt) q.1) q.2))

/-- Stores while Status.IsC = 1: a byte or halfword invalidates one line whatever its tag and segment, a word changes
nothing but CCR, and nothing reaches the bus but the read of the word that SWL and SWR merge into (R96, R288, R289). -/
def Obligations.IsolatedStoresReachOnlyTheCache : Prop :=
  ∀ (s : State) (rs rt : Reg) (imm : BitVec 16),
    let ea := effectiveAddress s rs imm
    let base := wordBase ea
    let invalidates (i : Instr) : Prop := ∃ t, exec i s = .next t ∧ t = { s with icache := t.icache } ∧
      t.line (ea.extractLsb' 4 8) = { s.line (ea.extractLsb' 4 8) with valid := false } ∧
      ∀ j, j ≠ ea.extractLsb' 4 8 → t.line j = s.line j
    let writes (i : Instr) (v : Word) : Prop :=
      exec i s = .next (if physical ea = 0xFFFE0130 then { s with plat := { s.plat with ccr := v } } else s)
    s.cacheIsolated = true → ¬ Forbidden s ea →
      invalidates (.sb rs rt imm) ∧ (AlignedTo .half ea → invalidates (.sh rs rt imm)) ∧
      (AlignedTo .word ea → writes (.sw rs rt imm) (readReg s rt)) ∧
      (AlignedTo .word ea → s.cop2Usable = true → writes (.swc2 rs rt imm) (Config.gteReadData s.gte rt)) ∧
      (∀ f ∈ mergeStoreForms rs rt imm,
        (cached base = true → exec f.1 s = .next { s with plat := { s.plat with draws := s.plat.draws + 1 } }) ∧
        (cached base = false → InStorage (physical base) → exec f.1 s = .next s) ∧
        (physical base = 0xFFFE0130 →
          let merged := f.2 (BitVec.ofNat 2 ea.toNat) (readReg s rt) s.plat.ccr
          exec f.1 s = .next { s with plat := { s.plat with ccr := merged } }))

/-- Loads while Status.IsC = 1: from a cached segment the draw that is due, cut to the access width and extended or merged
as a bus read would be, with no bus access; from an uncached one IsC has no effect (R97). The width of the draw is log 25, and
that the write of LWL and LWR is not raced where it is the second half of a pair is log 13 (both DEDUCED, the model's). -/
def Obligations.IsolatedLoadsReadADraw : Prop :=
  (∀ (s : State) (rs rt : Reg) (imm : BitVec 16),
    let ea := effectiveAddress s rs imm
    let drawn := Config.freeWord s.plat.draws
    let plat' := { s.plat with draws := s.plat.draws + 1 }
    let loads (i : Instr) (kind : LoadKind) (v : Word) : Prop :=
      ∃ t, exec i s = .next t ∧ t = { s with regs := t.regs, ldNext := t.ldNext, plat := plat' } ∧ LoadWritten s t rt kind v
    s.cacheIsolated = true → ¬ Forbidden s ea → cached ea = true →
      (∀ (i : Instr) (n : Size), (i, n) ∈ loadForms rs rt imm → Usable i s → AlignedTo n ea →
        (i ≠ .lwc2 rs rt imm → loads i .whole (extension i (n.low drawn))) ∧
        (i = .lwc2 rs rt imm → exec i s = .next { s with gte := Config.gteWriteData s.gte rt drawn, plat := plat' })) ∧
      (∀ f ∈ mergeLoadForms rs rt imm,
        loads f.1 f.2.1 (f.2.2 (BitVec.ofNat 2 ea.toNat) (s.reg rt) drawn))) ∧
  (∀ (s : State) (va : Word) (n : Size), cached va = false →
    let unisolated := fun s : State => { s with status := s.status &&& ~~~0x00010000#32 }
    memRead va n (unisolated s) = mapNext (fun r => (r.1, unisolated r.2)) (memRead va n s))

/-- What user mode and a clear CU2 refuse: data accesses and fetches of kernel addresses, the coprocessor-0
instructions, and every coprocessor-2 instruction (R65, R312, R341, R400). -/
def Obligations.PrivilegeRefusals : Prop :=
  (∀ (s : State) (rs rt : Reg) (imm : BitVec 16) (i : Instr) (n : Size), Forbidden s (effectiveAddress s rs imm) →
    ((i, n) ∈ loadForms rs rt imm ++ storeForms rs rt imm → Usable i s → AlignedTo n (effectiveAddress s rs imm) →
      exec i s = .refused .userKernelAccess) ∧
    (i ∈ [Instr.lwl rs rt imm, .lwr rs rt imm, .swl rs rt imm, .swr rs rt imm] →
      exec i s = .refused .userKernelAccess)) ∧
  (∀ (s : State) (va : Word), Forbidden s va → fetch va s = .refused .userKernelAccess) ∧
  (∀ (s : State) (rt rd : Reg) (i : Instr), i ∈ [Instr.mfc0 rt rd, .mtc0 rt rd, .rfe] →
    (exec i s = .refused .userCop0 ↔ s.userMode = true)) ∧
  (∀ (s : State) (i : Instr), isCop2 i = true → (exec i s = .refused .cop2Unusable ↔ s.cop2Usable = false))

/-- What an instruction reads from a register: the committed value; in the slot of a load of that register, that or the
value before the load; 0 from x[0] (R21, R503, log 12). -/
def Obligations.LoadDelaySlotReadsOldOrNew : Prop :=
  ∀ (s : State) (r : Reg) (d : LoadDelay),
    readReg s 0#5 = 0#32 ∧ (s.ldNow = none → readReg s r = s.reg r) ∧
    (s.ldNow = some d → d.reg ≠ r → readReg s r = s.reg r) ∧
    (s.ldNow = some d → d.reg = r → readReg s r = s.reg r ∨ readReg s r = d.old)

/-- The frame of memory: only the stores change memory or the cache or, outside the reads with side effects, a device;
a store changes no CPU state, the cache only while isolated, and, where it starts no transfer, no byte outside those it
stores to (R43, R76, R98, R290). -/
def Obligations.OnlyStoresChangeMemory : Prop :=
  ∀ (i : Instr) (s t : State), exec i s = .next t →
    (storedTo s i = none → t.icache = s.icache ∧
      t.plat = { s.plat with timers := t.plat.timers, gpu := t.plat.gpu, draws := t.plat.draws }) ∧
    (∀ a n, storedTo s i = some (a, n) →
      Entered 5 s t ∨
      (t = { s with icache := t.icache, plat := t.plat } ∧ (s.cacheIsolated = false → t.icache = s.icache) ∧
        (¬ StartsTransfer (physical a) → ∀ b, (b < physical a ∨ physical a + n.bytes ≤ b) → byteAt t b = byteAt s b)))

/-! ## System -/

/-- SYSCALL and BREAK take their exceptions, whatever their codes, as R385 describes entry field by field (R310, R311,
R385). -/
def Obligations.TrapsEnterTheirExceptions : Prop :=
  ∀ (s : State) (code : BitVec 20), Raises (.syscall code) s 8 ∧ Raises (.brk code) s 9

/-- MFC0, MTC0 and RFE, for every coprocessor-0 register in kernel mode, and refused in user mode; RFE undoes the push of
an entry (R32 to R36, R313 to R315, R390). -/
def Obligations.CoprocessorZeroMoves : Prop :=
  (∀ (s : State) (rt rd : Reg), s.userMode = true →
    ∀ i ∈ [Instr.mfc0 rt rd, .mtc0 rt rd, .rfe], exec i s = .refused .userCop0) ∧
  (∀ (s : State) (rt rd : Reg), s.userMode = false →
    (rd = 12#5 → Loads (.mfc0 rt rd) s rt s.status) ∧
    (rd = 13#5 → ∃ v, Loads (.mfc0 rt rd) s rt v ∧ (v.getLsbD 10 = true ↔ LineUp s.plat) ∧
      ∀ k, k ≠ 10 → v.getLsbD k = s.cause.getLsbD k) ∧
    (rd = 14#5 → Loads (.mfc0 rt rd) s rt s.epc) ∧
    (rd = 15#5 → Loads (.mfc0 rt rd) s rt 2#32) ∧
    (rd ∉ [12#5, 13#5, 14#5, 15#5] → ∃ t, exec (.mfc0 rt rd) s = .next t ∧
      t = { s with regs := t.regs, ldNext := t.ldNext, plat := { s.plat with draws := s.plat.draws + 1 } } ∧
      LoadWritten s t rt .whole (Config.freeWord s.plat.draws)) ∧
    (rd = 12#5 → exec (.mtc0 rt rd) s = .next { s with status := readReg s rt }) ∧
    (rd = 13#5 → ∃ t, exec (.mtc0 rt rd) s = .next t ∧ t = { s with cause := t.cause } ∧
      ∀ k, t.cause.getLsbD k = if k = 8 ∨ k = 9 then (readReg s rt).getLsbD k else s.cause.getLsbD k) ∧
    (rd ≠ 12#5 → rd ≠ 13#5 → exec (.mtc0 rt rd) s = .next s) ∧
    (∃ t, exec .rfe s = .next t ∧ t = { s with status := t.status } ∧
      ∀ k, t.status.getLsbD k = if k < 4 then s.status.getLsbD (k + 2) else s.status.getLsbD k)) ∧
  (∀ (x : Exception) (s h : State), h.status = (enter x s).status →
    ∃ t, exec .rfe h = .next t ∧ ∀ k, (k < 4 ∨ 6 ≤ k) → t.status.getLsbD k = s.status.getLsbD k)

/-! ## Coprocessor 2 -/

/-- The coprocessor-2 moves, loads and stores with CU2 set, in either mode: what passes between the CPU and the engine's
functions (R341 to R345, R349, R350). -/
def Obligations.CoprocessorTwoMovesAndTransfers : Prop :=
  ∀ (s : State) (rs rt rd : Reg) (imm : BitVec 16), s.cop2Usable = true →
    Loads (.mfc2 rt rd) s rt (Config.gteReadData s.gte rd) ∧
    Loads (.cfc2 rt rd) s rt (if rd = 31#5 then s.gte.flags else Config.gteReadCtrl s.gte rd) ∧
    exec (.mtc2 rt rd) s = .next { s with gte := Config.gteWriteData s.gte rd (readReg s rt) } ∧
    exec (.ctc2 rt rd) s = .next { s with gte := Config.gteWriteCtrl s.gte rd (readReg s rt) } ∧
    (let ea := effectiveAddress s rs imm
     AlignedTo .word ea →
      (LoadReachesBus s ea → InStorage (physical ea) →
        ∃ v, (∀ k, k < 4 → wordByte v k = byteAt s (physical ea + k)) ∧
          exec (.lwc2 rs rt imm) s = .next { s with gte := Config.gteWriteData s.gte rt v }) ∧
      (Memory.wf s.plat.mem = true → StoreReachesBus s ea → Writable (physical ea) →
        StoresBytes (.swc2 rs rt imm) s (physical ea) 4 (wordByte (Config.gteReadData s.gte rt))))

/-- A COP2 command in either mode is the engine's command function and changes nothing but the engine. Of any engine an
unknown operation changes nothing; a known one completes, with bit 31 of the flags summing up bits [30:23] and [18:13] and
bits [11:0] clear, but for an MVMVA whose selectors the engine finds invalid, which is fatal; so every command with
selectors 0 completes (R340, R346, R348; that the selectors {RT, V0, TR} are valid and 0x3F is unknown is read from E6 and
V-P9, log 20). -/
def Obligations.CoprocessorTwoCommands : Prop :=
  (∀ (s : State) (command : BitVec 25), s.cop2Usable = true →
    exec (.cop2 command) s = mapNext (fun g => { s with gte := g }) (gteCommand Config.gteEngine command s.gte) ∧
    (command.toNat / 8192 % 64 = 0 → ∃ g, exec (.cop2 command) s = .next { s with gte := g })) ∧
  (∀ (e : GteEngine) (command : BitVec 25) (g : GteState),
    let number := command.extractLsb' 0 6
    let selectors := command.extractLsb' 13 6
    let invalid := e.operation number = some .mvmva ∧ selectors ≠ 0#6 ∧ e.acceptsSelectors selectors = false
    (number = 0x3F#6 ∨ e.operation number = none → gteCommand e command g = .next g) ∧
    (number ≠ 0x3F#6 → e.operation number ≠ none → ¬ invalid → ∃ g', gteCommand e command g = .next g' ∧
      (g'.flags.getLsbD 31 = true ↔ ∃ k, ((23 ≤ k ∧ k ≤ 30) ∨ (13 ≤ k ∧ k ≤ 18)) ∧ g'.flags.getLsbD k = true) ∧
      ∀ k, k < 12 → g'.flags.getLsbD k = false) ∧
    (number ≠ 0x3F#6 → invalid → gteCommand e command g = .fault .invalidGteSelector))

/-- What any known command of any engine that completes stores is what its arithmetic passed to the saturating helpers,
forced into the bounds of R347 and unchanged where it lay within; flag bits 30 to 12 say exactly which values did not, bit
17 which divide overflowed (the colour bits 21 to 19, for which R347 gives no bound, are the engine's). A command makes one
perspective divide for each vertex; its quotient is bounded and flag E says when it overflows (R346, R347; the arithmetic
between is log 20, that the divide's operands have 16 bits is log 30, PRESUMED). -/
def Obligations.GteResultsSaturate : Prop :=
  (∀ (e : GteEngine) (command : BitVec 25) (g g' : GteState) (op : GteOperation),
    let cleared := { g with flags := 0#32 }
    let vertices := if op = .rtps then 1 else if op = .rtpt then 3 else 0
    let divides := (List.range vertices).map fun k =>
      gteDivide e (e.divideOperands command cleared k).1 (e.divideOperands command cleared k).2
    let r := e.arith command cleared (divides.map Prod.fst)
    command.extractLsb' 0 6 ≠ 0x3F#6 → e.operation (command.extractLsb' 0 6) = some op → gteCommand e command g = .next g' →
      (g'.data, g'.ctrl) = e.store command cleared (saturate command r) ∧
      ∀ k, k < 31 → (g'.flags.getLsbD k = true ↔
        (saturationFlags command r).getLsbD k = true ∨ (k = 17 ∧ ∃ d ∈ divides, d.2 = true))) ∧
  (∀ (command : BitVec 25) (r : GteRaw),
    let t := saturate command r
    let flag (k : Nat) : Prop := (saturationFlags command r).getLsbD k = true
    let shift : Int := if command.getLsbD 19 then 4096 else 1
    let floor : Int := if command.getLsbD 10 then 0 else -0x8000
    let within (lo hi : Int) (q q' : List Int) : Prop :=
      q'.length = q.length ∧ ∀ x ∈ q.zip q', lo ≤ x.2 ∧ x.2 ≤ hi ∧ (lo ≤ x.1 → x.1 ≤ hi → x.2 = x.1)
    within (-2147483648) 2147483647 r.mac0 t.mac0 ∧
    (∀ q ∈ [(r.mac1, t.mac1), (r.mac2, t.mac2), (r.mac3, t.mac3)], q.2.length = q.1.length ∧ ∀ x ∈ q.1.zip q.2,
      -8796093022208 ≤ x.2 * shift ∧ x.2 * shift ≤ 8796093022207 ∧
      (-8796093022208 ≤ x.1 → x.1 ≤ 8796093022207 → x.2 = x.1 / shift)) ∧
    within 0 0xFFF r.ir0 t.ir0 ∧ within floor 0x7FFF r.ir1 t.ir1 ∧ within floor 0x7FFF r.ir2 t.ir2 ∧
    within floor 0x7FFF r.ir3 t.ir3 ∧ within (-0x400) 0x3FF r.screenX t.screenX ∧
    within (-0x400) 0x3FF r.screenY t.screenY ∧ within 0 0xFFFF r.screenZ t.screenZ ∧
    (∀ f ∈ [(30, r.mac1), (29, r.mac2), (28, r.mac3)], flag f.1 ↔ ∃ x ∈ f.2, 8796093022207 < x) ∧
    (∀ f ∈ [(27, r.mac1), (26, r.mac2), (25, r.mac3)], flag f.1 ↔ ∃ x ∈ f.2, x < -8796093022208) ∧
    (∀ f ∈ [(24, r.ir1), (23, r.ir2), (22, r.ir3)], flag f.1 ↔ ∃ x ∈ f.2, x < floor ∨ 0x7FFF < x) ∧
    (flag 18 ↔ ∃ x ∈ r.screenZ, x < 0 ∨ 0xFFFF < x) ∧
    (flag 16 ↔ ∃ x ∈ r.mac0, 2147483647 < x) ∧ (flag 15 ↔ ∃ x ∈ r.mac0, x < -2147483648) ∧
    (flag 14 ↔ ∃ x ∈ r.screenX, x < -0x400 ∨ 0x3FF < x) ∧ (flag 13 ↔ ∃ x ∈ r.screenY, x < -0x400 ∨ 0x3FF < x) ∧
    (flag 12 ↔ ∃ x ∈ r.ir0, x < 0 ∨ 0xFFF < x) ∧ ¬ flag 17 ∧ (∀ k, k < 12 → ¬ flag k) ∧
    ∀ k, k < 3 → (flag (19 + k) ↔ r.colourClips.getLsbD k = true)) ∧
  (∀ (e : GteEngine) (h sz3 : BitVec 16), (gteDivide e h sz3).1 ≤ 0x1FFFF ∧
    ((gteDivide e h sz3).2 = true ↔ 2 * sz3.toNat ≤ h.toNat) ∧
    (2 * sz3.toNat ≤ h.toNat → (gteDivide e h sz3).1 = 0x1FFFF))

/-! ## Interrupt aggregator and timers -/

/-- I_STAT, I_MASK and the timer registers: AND-mask writes, masked writes, zero-extended reads, the read side effect and
the reset effects of `mode`, and what a narrow access means (R373 to R375, R413, R414, R74). -/
def Obligations.InterruptAndTimerRegisters : Prop :=
  ∀ (p : Platform) (n : Size) (v : Word) (t : Fin 3),
    let z := n.low v
    let tm := p.timers[t]
    let at_ (k : Nat) : Nat := 0x1F801100 + 16 * t.val + k
    let timer' (tm' : Timer) : Platform := { p with timers := p.timers.set t tm' }
    busRead 0x1F801070 n p = .next (n.low (p.iStat.setWidth 32), p) ∧
    busRead 0x1F801074 n p = .next (n.low (p.iMask.setWidth 32), p) ∧
    (∃ i, busWrite 0x1F801070 n v p = .next { p with iStat := i } ∧
      ∀ b, i.getLsbD b = (p.iStat.getLsbD b && z.getLsbD b)) ∧
    (∃ i, busWrite 0x1F801074 n v p = .next { p with iMask := i } ∧ ∀ b, b < 11 → i.getLsbD b = z.getLsbD b) ∧
    busRead (at_ 0) n p = .next (n.low (tm.count.setWidth 32), p) ∧
    busRead (at_ 8) n p = .next (n.low (tm.target.setWidth 32), p) ∧
    (∃ m, busRead (at_ 4) n p = .next (n.low (tm.mode.setWidth 32), timer' { tm with mode := m }) ∧
      ∀ b, m.getLsbD b = (decide (b ≠ 11 ∧ b ≠ 12) && tm.mode.getLsbD b)) ∧
    busWrite (at_ 0) n v p = .next (timer' { tm with count := BitVec.ofNat 16 z.toNat }) ∧
    busWrite (at_ 8) n v p = .next (timer' { tm with target := BitVec.ofNat 16 z.toNat }) ∧
    (z.getLsbD 0 = true → busWrite (at_ 4) n v p = .refused .timerSync) ∧
    (z.getLsbD 0 = false → ∃ m, busWrite (at_ 4) n v p =
        .next (timer' { tm with mode := m, count := 0#16, prescaler := 0, armed := true }) ∧
      ∀ b, m.getLsbD b = if b < 10 then z.getLsbD b else decide (b = 10) || tm.mode.getLsbD b)

/-- After any number of system-clock cycles a timer has counted every cycle, or every 2100th for timer 1 with source 1 or
3, from its count on: to `target` and back to 0 with ResetAtTarget, else modulo 2^16 (R411, R415, R417). -/
def Obligations.TimersCountAndReload : Prop :=
  ∀ (k : Nat) (p : Platform) (t : Fin 3), (p.timers[t]).prescaler < 2100 →
    let tm := p.timers[t]
    let tm' := (clockCycles k p).timers[t]
    let divides : Prop := t = 1 ∧ (tm.mode.extractLsb' 8 2 = 1#2 ∨ tm.mode.extractLsb' 8 2 = 3#2)
    let counts : Nat → Prop := fun n =>
      (tm.mode.getLsbD 3 = false → tm'.count.toNat = (tm.count.toNat + n) % 65536) ∧
      (tm.mode.getLsbD 3 = true → tm.count.toNat ≤ tm.target.toNat →
        tm'.count.toNat = (tm.count.toNat + n) % (tm.target.toNat + 1))
    tm'.target = tm.target ∧ (∀ b, b < 10 → tm'.mode.getLsbD b = tm.mode.getLsbD b) ∧
    (¬ divides → counts k ∧ tm'.prescaler = tm.prescaler) ∧
    (divides → counts ((tm.prescaler + k) / 2100) ∧ tm'.prescaler = (tm.prescaler + k) % 2100)

/-- One cycle of a timer: one that divides only advances its prescaler until 2100 cycles have passed; else it counts, and
reaching `target` or 0xFFFF sets its flag; in pulse mode it asserts the timer's source if the enable is set and the timer
is armed, and a one-shot is then no longer armed; in toggle mode each firing inverts mode bit 10 and may assert the source, and
nothing else of I_STAT moves (R415, R416). -/
def Obligations.TimerInterruptsOnReaching : Prop :=
  ∀ (t : Nat) (s : TimerStep), t < 3 →
    let r := cycleTimer t s
    let waits := t = 1 ∧ s.timer.mode.getLsbD 8 = true ∧ s.timer.prescaler + 1 < 2100
    let full := r.timer.count = 0xFFFF#16
    let hit := r.timer.count = s.timer.target
    let fires := (hit ∧ s.timer.mode.getLsbD 4 = true) ∨ (full ∧ s.timer.mode.getLsbD 5 = true)
    (waits → r = { s with timer := { s.timer with prescaler := s.timer.prescaler + 1 } }) ∧
    (¬ waits →
      (r.timer.mode.getLsbD 11 = true ↔ s.timer.mode.getLsbD 11 = true ∨ hit) ∧
      (r.timer.mode.getLsbD 12 = true ↔ s.timer.mode.getLsbD 12 = true ∨ full) ∧
      (∀ b, b ≠ 4 + t → r.iStat.getLsbD b = s.iStat.getLsbD b) ∧
      (r.timer.armed = true ↔ s.timer.armed = true ∧ (fires → s.timer.mode.getLsbD 6 = true)) ∧
      (s.timer.mode.getLsbD 7 = false →
        (∀ b, b ≤ 10 → r.timer.mode.getLsbD b = s.timer.mode.getLsbD b) ∧
        (r.iStat.getLsbD (4 + t) = true ↔ s.iStat.getLsbD (4 + t) = true ∨ (s.timer.armed = true ∧ fires))) ∧
      (s.timer.mode.getLsbD 7 = true →
        let first := s.timer.armed && decide hit && s.timer.mode.getLsbD 4
        let second := s.timer.armed && (!first || s.timer.mode.getLsbD 6) && decide full && s.timer.mode.getLsbD 5
        (∀ b, b < 10 → r.timer.mode.getLsbD b = s.timer.mode.getLsbD b) ∧
        r.timer.mode.getLsbD 10 = (s.timer.mode.getLsbD 10 ^^ first ^^ second) ∧
        (r.iStat.getLsbD (4 + t) = true → s.iStat.getLsbD (4 + t) = true ∨ (s.timer.armed = true ∧ fires))))

/-! ## DMA -/

/-- The DMA registers on the bus: MADR is cut to 24 bits, BCR and DPCR are stored, all read back as stored (R431, R434). A
CHCR write stores the masked fields and starts a transfer exactly when Enable is set with Start or a sync mode other
than manual; the triggered transfers that R433, R434, R432 and R442 refuse (R431 to R434, R440 to R442; the order of the
checks is log 17). -/
def Obligations.DmaStartsAndRefusals : Prop :=
  (∀ (n : Fin 7) (v : Word) (p : Platform),
    let c := p.dma.channels[n]
    let base := 0x1F801080 + 16 * n.val
    let channel' (c' : DmaChannel) : Platform := { p with dma := { p.dma with channels := p.dma.channels.set n c' } }
    busRead base .word p = .next (c.madr.setWidth 32, p) ∧ busRead (base + 4) .word p = .next (c.bcr, p) ∧
    busRead (base + 8) .word p = .next (c.chcr, p) ∧ busRead 0x1F8010F0 .word p = .next (p.dma.dpcr, p) ∧
    busWrite base .word v p = .next (channel' { c with madr := BitVec.ofNat 24 v.toNat }) ∧
    busWrite (base + 4) .word v p = .next (channel' { c with bcr := v }) ∧
    busWrite (base + 8) .word v p = writeChcr n v p ∧
    busWrite 0x1F8010F0 .word v p = .next { p with dma := { p.dma with dpcr := v } }) ∧
  ∀ (n : Fin 7) (v : Word) (p : Platform),
    let p' := chcrStored n v p
    let size := (p.dma.channels[n]).size
    let count := (p.dma.channels[n]).blocks
    let sync := v.extractLsb' 9 2
    let triggered := v.getLsbD 24 = true ∧ (v.getLsbD 28 = true ∨ sync ≠ 0#2)
    let empty := (n = 6 ∧ size = 0) ∨ (n ≠ 6 ∧ sync = 0#2 ∧ size = 0) ∨ (n ≠ 6 ∧ sync = 1#2 ∧ (size = 0 ∨ count = 0))
    let enabled := p.dma.dpcr.getLsbD (4 * n.val + 3) = true
    (¬ triggered → writeChcr n v p = .next p') ∧
    (triggered → empty → writeChcr n v p = .refused .dmaZeroSize) ∧
    (triggered → ¬ empty → ¬ enabled → writeChcr n v p = .refused .dmaChannelDisabled) ∧
    (triggered → ¬ empty → enabled → sync = 3#2 → writeChcr n v p = .refused .dmaSyncReserved) ∧
    (triggered → enabled → n ≠ 6 → sync = 2#2 → (n ≠ 2 ∨ v.getLsbD 0 = false) →
      writeChcr n v p = .refused .dmaLinkedListNotGpu)

/-- OTC: each word of the table points to the word below it, the last is 0x00FFFFFF, every other byte of memory is
unchanged, and the channel is idle (R443, R444). -/
def Obligations.OrderingTableIsBuilt : Prop :=
  ∀ (v : Word) (p : Platform), TransferAdmitted 6 v p → Memory.wf p.mem = true →
    let madr := (p.dma.channels[(6 : Fin 7)]).madr
    let size := (p.dma.channels[(6 : Fin 7)]).size
    ∃ q, writeChcr 6 v p = .next q ∧
      (∀ i, i < size → q.mem.read (wordAddress madr true i) .word =
        if i + 1 = size then 0x00FFFFFF#32 else BitVec.ofInt 32 ((madr.toNat : Int) - 4 * i - 4) &&& 0x001FFFFF#32) ∧
      (∀ a, (∀ i, i < size → a < wordAddress madr true i ∨ wordAddress madr true i + 4 ≤ a) →
        q.mem.readByte a = p.mem.readByte a) ∧
      (q.dma.channels[(6 : Fin 7)]).chcr = v &&& 0x60770703#32 ∧ q.gpu = p.gpu

/-- A linked list gives GP0 exactly the words it references, in order, and the transfer ends; a list that does not end
within the walk never completes (R442). -/
def Obligations.LinkedListDeliversItsWordsInOrder : Prop :=
  (∀ (fuel : Nat) (a : Word) (p : Platform),
    (∀ ws, listWords p fuel a = some ws → linkedList fuel a p = putAll ws p) ∧
    (listWords p fuel a = none → ∀ q, linkedList fuel a p ≠ .next q)) ∧
  (∀ (v : Word) (p : Platform), TransferAdmitted 2 v p → v.extractLsb' 9 2 = 2#2 → v.getLsbD 0 = true →
    ∀ ws, listWords p maxListNodes ((p.dma.channels[(2 : Fin 7)]).madr.setWidth 32) = some ws →
      writeChcr 2 v p = mapNext (completeTransfer 2) (putAll ws (chcrStored 2 v p)))

/-- A list that has not ended after as many nodes as RAM has words never ends, so the walk's bound hides no list that
does (R442, U50, log 16). -/
def Obligations.LongListsNeverEnd : Prop :=
  ∀ (p : Platform) (a : Word) (fuel : Nat), listWords p maxListNodes a = none → listWords p fuel a = none

/-- A manual or block transfer: to a device, the words at the stepped addresses in order, RAM unchanged for `DEV`; to
RAM, the device's words (GPUREAD's for channel 2, draws for the others) are stored there in order and no other byte changes
(R379, R433, R438, R439, R441). -/
def Obligations.BlockTransfersMoveWordsInOrder : Prop :=
  ∀ (n : Fin 7) (v : Word) (p : Platform), TransferAdmitted n v p → n ≠ 6 → v.extractLsb' 9 2 ≠ 2#2 →
    let c := p.dma.channels[n]
    let words := if v.extractLsb' 9 2 = 0#2 then c.size else c.size * c.blocks
    let a (i : Nat) : Nat := wordAddress c.madr (v.getLsbD 1) i
    let p' := chcrStored n v p
    (v.getLsbD 0 = true → n = 2 → writeChcr n v p =
      mapNext (completeTransfer n) (putAll ((List.range words).map fun i => p.mem.read (a i) .word) p')) ∧
    (v.getLsbD 0 = true → n ≠ 2 → writeChcr n v p = .next (completeTransfer n p')) ∧
    (v.getLsbD 0 = false → ∃ q, writeChcr n v p = .next q ∧ q.dma.channels[n].chcr = v &&& 0x60770703#32 ∧
      (n ≠ 2 → q.gpu = p.gpu) ∧
      (let taken := takeWords n words p'
       q = completeTransfer n { taken.2 with mem := storeWords a 0 taken.1 p.mem } ∧ taken.1.length = words) ∧
      ∀ b, (∀ i, i < words → b < a i ∨ a i + 4 ≤ b) → q.mem.readByte b = p.mem.readByte b)

/-- Completion and the DMA interrupt: DICR on the bus, bit 31 computed (R435, R436); CHCR's Enable and Start are cleared,
MADR is a draw, the flag is set if enabled, and a rising edge of DICR bit 31, there or after a DICR write, asserts Dma; both
start from 0 (R436, R437, R444). -/
def Obligations.DmaCompletionAndInterrupt : Prop :=
  (State.reset.plat.dma.dicr.word = 0#32 ∧ State.reset.plat.dma.irqLevel = false) ∧
  let irq (d : Dicr) : Bool := d.force || (d.master && (d.enable &&& d.flag) != 0#7)
  (∀ (v : Word) (p : Platform), busWrite 0x1F8010F4 .word v p = .next (writeDicr v p) ∧
    ∃ w : Word, busRead 0x1F8010F4 .word p = .next (w, p) ∧ w.extractLsb' 0 6 = p.dma.dicr.low ∧
      w.extractLsb' 6 9 = 0#9 ∧ w.getLsbD 15 = p.dma.dicr.force ∧ w.extractLsb' 16 7 = p.dma.dicr.enable ∧
      w.getLsbD 23 = p.dma.dicr.master ∧ w.extractLsb' 24 7 = p.dma.dicr.flag ∧ w.getLsbD 31 = irq p.dma.dicr) ∧
  let asserts (p q : Platform) : Prop :=
    q.dma.irqLevel = irq q.dma.dicr ∧
    ∀ b, q.iStat.getLsbD b = (p.iStat.getLsbD b || (decide (b = 3) && irq q.dma.dicr && !p.dma.irqLevel))
  (∀ (n : Fin 7) (p : Platform), let q := completeTransfer n p
    asserts p q ∧
    (∃ m, q.dma.channels = p.dma.channels.set n
      { p.dma.channels[n] with madr := m, chcr := (p.dma.channels[n]).chcr &&& 0xEEFFFFFF#32 }) ∧
    (∃ f, q.dma.dicr = { p.dma.dicr with flag := f } ∧
      ∀ b, f.getLsbD b = (p.dma.dicr.flag.getLsbD b || (decide (b = n.val) && p.dma.dicr.enable.getLsbD n.val))) ∧
    q = { p with iStat := q.iStat, dma := { q.dma with dpcr := p.dma.dpcr }, draws := p.draws + 1 }) ∧
  (∀ (v : Word) (p : Platform), let q := writeDicr v p
    asserts p q ∧ q = { p with iStat := q.iStat, dma := { p.dma with dicr := q.dma.dicr, irqLevel := q.dma.irqLevel } } ∧
    q.dma.dicr.low = v.extractLsb' 0 6 ∧ q.dma.dicr.force = v.getLsbD 15 ∧ q.dma.dicr.enable = v.extractLsb' 16 7 ∧
    q.dma.dicr.master = v.getLsbD 23 ∧
    ∀ b, q.dma.dicr.flag.getLsbD b = (p.dma.dicr.flag.getLsbD b && !v.getLsbD (24 + b)))

/-! ## GPU -/

/-- Fill rectangle, command 0x02 once its third word arrives, writes one colour into every cell of the rounded rectangle
and into no other (R473). -/
def Obligations.FillWritesItsRectangle : Prop :=
  ∀ (c p s : Word) (g : Gpu) (x y : Nat), Sparse.wf g.vram = true → x < 1024 → y < 512 →
    let x0 := p.toNat % 1024 / 16 * 16
    let y0 := p.toNat / 65536 % 512
    let w := (s.toNat % 1024 + 15) / 16 * 16
    let h := s.toNat / 65536 % 512
    let colour := c.toNat % 256 / 8 + c.toNat / 256 % 256 / 8 * 32 + c.toNat / 65536 % 256 / 8 * 1024
    let g' := fillRectangle c p s g
    (g.transfer.mode ≠ .write → g.fifo = [c, p] → c.toNat / 0x1000000 = 2 → gp0 s g = .next { g' with fifo := [] }) ∧
    g' = { g with vram := g'.vram } ∧
    (InRectangle x0 y0 w h x y → (g'.cell x y).toNat = colour) ∧ (¬ InRectangle x0 y0 w h x y → g'.cell x y = g.cell x y)

/-- A VRAM write of a rectangle, command 0xA0 and its words of two cells each, followed by a VRAM read of it, command 0xC0
and GPUREAD loads, returns those cells; the mode is Fifo after each, and a half-word past the rectangle counts for nothing
(R475, R476). -/
def Obligations.VramWriteThenReadReturnsThePixels : Prop :=
  (∀ (c p s v : Word) (g : Gpu),
    (g.transfer.mode = .write → gp0 v g = .next (writePixels v g)) ∧
    (g.transfer.mode ≠ .write → g.fifo = [c, p] →
      (c.toNat / 0x1000000 = 0xA0 → gp0 s g = .next { g with fifo := [], transfer := startTransfer .write p s }) ∧
      (c.toNat / 0x1000000 = 0xC0 → gp0 s g = .next { g with fifo := [], transfer := startTransfer .read p s }))) ∧
  (∀ (p s : Word), startTransfer .write p s = { startTransfer .read p s with mode := .write } ∧
    (startTransfer .write p s).x = p.toNat % 1024 ∧ (startTransfer .write p s).y = p.toNat / 65536 % 512 ∧
    (startTransfer .write p s).w = (s.toNat % 65536 + 1023) % 1024 + 1 ∧
    (startTransfer .write p s).h = (s.toNat / 65536 + 511) % 512 + 1 ∧
    (startTransfer .write p s).tx = 0 ∧ (startTransfer .write p s).ty = 0) ∧
  ∀ (p s : Word) (g : Gpu) (q : Platform), Sparse.wf g.vram = true →
    let pixels := sizeWidth s * sizeHeight s
    let started := { g with transfer := startTransfer .write p s }
    (∀ cells : List Cell16, cells.length = pixels →
      let g1 := writeAll cells started
      readAll pixels { g1 with transfer := startTransfer .read p s } = cells ∧ g1.transfer.mode = .fifo ∧
      ∀ x y, (∀ i j, i < sizeWidth s → j < sizeHeight s →
          cellKey (positionX p + i) (positionY p + j) ≠ cellKey x y) → g1.cell x y = g.cell x y) ∧
    (∀ words : List Word, words.length = (pixels + 1) / 2 →
      writeWords words started = writeAll ((cellsOf words).take pixels) started) ∧
    (q.gpu.transfer = startTransfer .read p s →
      let taken := takeWords 2 ((pixels + 1) / 2) q
      (cellsOf taken.1).take pixels = readAll pixels q.gpu ∧ taken.2.gpu.transfer.mode = .fifo ∧
        taken.2.gpu.vram = q.gpu.vram)

/-- No run overflows the command FIFO: from a state of the invariant, whatever the environment does, no step ends in that
fault (R461, R462). -/
def Obligations.CommandFifoNeverOverflows : Prop :=
  ∀ (s : State), Safety.Inv s → ∀ t, Reaches s t → ∀ e, stepWith e t ≠ .fault .gpuFifoOverflow

/-- The laws R481 (a) to (e) of the fragments of a triangle. -/
def Obligations.TriangleFragmentsObeyTheirLaws : Prop :=
  ∀ (a b c : Vertex) (area : DrawArea),
    let fs := triangleFragments a b c area
    let bounded (get : Vertex → Byte) (v : Byte) : Prop :=
      min (get a).toNat (min (get b).toNat (get c).toNat) ≤ v.toNat ∧
      v.toNat ≤ max (get a).toNat (max (get b).toNat (get c).toNat)
    (∀ f ∈ fs, ((area.x1.toNat : Int) ≤ f.x ∧ f.x ≤ area.x2.toNat ∧ (area.y1.toNat : Int) ≤ f.y ∧ f.y ≤ area.y2.toNat) ∧
      insideTriangle a b c f.x f.y = true ∧
      bounded (·.r) f.r ∧ bounded (·.g) f.g ∧ bounded (·.b) f.b ∧ bounded (·.u) f.u ∧ bounded (·.v) f.v) ∧
    fs.Pairwise (fun f g => ¬ (f.x = g.x ∧ f.y = g.y)) ∧
    ((b.x - a.x) * (c.y - a.y) = (b.y - a.y) * (c.x - a.x) → fs = [])

/-- Polygons and rectangles draw only inside the drawing area, and never over a cell with bit 15 set while checkMask is
on; with setMask every cell they change gets bit 15 (R467, R469, R482). -/
def Obligations.DrawingRespectsAreaAndMask : Prop :=
  ∀ (ws : List Word) (g g' : Gpu), Sparse.wf g.vram = true →
    ((∃ f, drawPolygon f ws g = .next g') ∨ (∃ f, drawRectangle f ws g = .next g')) →
    ∀ x y, x < 1024 → y < 512 →
      (¬ (g.draw.area.x1.toNat ≤ x ∧ x ≤ g.draw.area.x2.toNat ∧ g.draw.area.y1.toNat ≤ y ∧ y ≤ g.draw.area.y2.toNat) →
        g'.cell x y = g.cell x y) ∧
      (g.draw.checkMask = true → (g.cell x y).getLsbD 15 = true → g'.cell x y = g.cell x y) ∧
      (g.draw.setMask = true → g'.cell x y ≠ g.cell x y → (g'.cell x y).getLsbD 15 = true)

/-- The GPU on the bus: GP0 and GPUREAD at 0x1F801810, GP1 and GPUSTAT at 0x1F801814 (R461, R470 to R472). GPUSTAT: the
bits R471 names and the toggle of bit 31; GP1: the two commands that reach the modelled state, and that no other does (R471,
R472). -/
def Obligations.GpuStatusAndControl : Prop :=
  ∀ (v : Word) (p : Platform),
    busWrite 0x1F801810 .word v p = mapNext (fun g => { p with gpu := g }) (gp0 v p.gpu) ∧
    busRead 0x1F801810 .word p = .next (gpuRead p) ∧ busWrite 0x1F801814 .word v p = .next (gp1 v p) ∧
    busRead 0x1F801814 .word p = .next (gpuStat p) ∧
    (let r := gpuStat p
     (∀ b, b ≤ 10 → r.1.getLsbD b = p.gpu.draw.texpage.getLsbD b) ∧ r.1.getLsbD 11 = p.gpu.draw.setMask ∧
     r.1.getLsbD 12 = p.gpu.draw.checkMask ∧ r.1.getLsbD 26 = true ∧
     (r.1.getLsbD 27 = true ↔ p.gpu.transfer.mode = .read) ∧ r.1.getLsbD 28 = true ∧ r.1.getLsbD 31 = p.gpu.stat31 ∧
     r.2 = { p with gpu := { p.gpu with stat31 := !p.gpu.stat31 }, draws := p.draws + 1 }) ∧
    (let q := gp1 v p
     (v.toNat / 0x1000000 = 0 → q.gpu.fifo = [] ∧ q.gpu.transfer.mode = .fifo ∧
       q = { p with gpu := { p.gpu with fifo := [], transfer := q.gpu.transfer, draw := q.gpu.draw }, draws := q.draws }) ∧
     (v.toNat / 0x1000000 = 1 → q.gpu.fifo = [] ∧ q.gpu.transfer.mode = .fifo ∧
       q = { p with gpu := { p.gpu with fifo := [], transfer := q.gpu.transfer } }) ∧
     (2 ≤ v.toNat / 0x1000000 → q = p))

/-! ## The whole machine -/

/-- The invariant holds after reset, and after a reset of any machine in which it held. -/
def Obligations.InvariantHoldsAtReset : Prop := Safety.Inv State.reset ∧ ∀ s, Safety.Inv s → Safety.Inv s.resetFrom

/-- Every step keeps the invariant, whatever the environment does: memory and VRAM stay canonical and inside their
ranges, x[0] stays 0, Cause keeps its unwritable bits 0, the FIFO holds the beginning of a command, a transfer's cursor
stays inside its rectangle, the prescalers stay below 2100, CHCR keeps its unwritable bits 0, and `irqLevel` is DICR
bit 31 (R21, R35, R66, R415, R431, R437, R461, R475). -/
def Obligations.EveryStepKeepsTheInvariant : Prop :=
  ∀ (e : Environment) (s t : State), Safety.Inv s → stepWith e s = .next t → Safety.Inv t

/-- User mode ends only by an exception entry: to the vector, with the mode stack pushed and one of the codes of R380
(R380, R385, R400). -/
def Obligations.UserModeEndsOnlyByException : Prop :=
  ∀ (e : Environment) (s t : State), s.userMode = true → stepWith e s = .next t → t.userMode = false →
    t.pc = (if s.status.getLsbD 22 then 0xBFC00180#32 else 0x80000080#32) ∧
    t.status = ((s.status &&& ~~~0x3F#32) ||| ((s.status <<< 2) &&& 0x3F#32)) ∧
    (t.cause.extractLsb' 2 5).toNat ∈ [0, 4, 5, 8, 9, 10, 12]

/-- No step changes the ROM (R71) or the ignored write ranges (R9, R72). -/
def Obligations.RomNeverChanges : Prop :=
  ∀ (e : Environment) (s t : State), stepWith e s = .next t →
    (∀ a, InBios a → byteAt t a = byteAt s a) ∧ t.plat.ignoredWrites = s.plat.ignoredWrites

end
end

