-- ==== Sys2Proof/Laws/Memory.lean ====
section
/-! SUPPORT. Read-after-write and the canonical form, for the one map that holds memory and VRAM, and the bytes of an
access. -/

namespace Sys2Proof.Machine

open Sys2Proof.Safety (wordByte)

/-! ## The map -/

variable {w : Nat}

theorem Sparse.startsAbove_trans {a b : Nat} (hab : a < b) (m : Sparse w) (h : m.startsAbove b = true) :
    m.startsAbove a = true := by
  cases m with
  | nil => rfl
  | cons c rest => simp [Sparse.startsAbove] at *; omega

theorem Sparse.wf_cons (a : Nat) (v : BitVec w) (m : Sparse w) :
    Sparse.wf ((a, v) :: m) = true ↔ v ≠ unlisted w ∧ m.startsAbove a = true ∧ Sparse.wf m = true := by
  simp [Sparse.wf, and_assoc]

theorem Sparse.read_of_startsAbove {m : Sparse w} {a : Nat} (hw : m.wf = true) (h : m.startsAbove a = true) (b : Nat)
    (hb : b ≤ a) : m.read b = unlisted w := by
  induction m generalizing a with
  | nil => rfl
  | cons c rest ih =>
    obtain ⟨k, v⟩ := c
    rw [Sparse.wf_cons] at hw
    have hk : a < k := by simpa [Sparse.startsAbove] using h
    simp only [Sparse.read]
    rw [if_neg (by omega)]
    exact ih hw.2.2 hw.2.1 (by omega)

/-- A write leaves every other key alone, whatever the form of the map. -/
theorem Sparse.read_write_of_ne (m : Sparse w) {a b : Nat} (v : BitVec w) (h : b ≠ a) :
    (m.write a v).read b = m.read b := by
  induction m with
  | nil => simp only [Sparse.write]; split <;> simp [Sparse.read, h]
  | cons c rest ih =>
    obtain ⟨k, u⟩ := c
    simp only [Sparse.write]
    split
    · split
      · rfl
      · simp [Sparse.read, h]
    · split
      · rename_i hk; subst hk
        split <;> simp [Sparse.read, h]
      · simp [Sparse.read, ih]

/-- A read at the key just written gives the value written. -/
theorem Sparse.read_write_self {m : Sparse w} (hw : m.wf = true) (a : Nat) (v : BitVec w) :
    (m.write a v).read a = v := by
  induction m with
  | nil => simp only [Sparse.write]; split <;> simp_all [Sparse.read]
  | cons c rest ih =>
    obtain ⟨k, u⟩ := c
    have hw' := hw
    rw [Sparse.wf_cons] at hw'
    simp only [Sparse.write]
    split
    · rename_i hk
      split
      · rename_i hv
        rw [hv]
        exact Sparse.read_of_startsAbove hw (a := a) (by simpa [Sparse.startsAbove] using hk) a le_rfl
      · simp [Sparse.read]
    · split
      · rename_i hk; subst hk
        split
        · rename_i hv
          rw [hv]
          exact Sparse.read_of_startsAbove hw'.2.2 hw'.2.1 a le_rfl
        · simp [Sparse.read]
      · rename_i hk
        simp [Sparse.read, hk, ih hw'.2.2]

theorem Sparse.read_write {m : Sparse w} (hw : m.wf = true) (a b : Nat) (v : BitVec w) :
    (m.write a v).read b = if b = a then v else m.read b := by
  split
  · subst_vars; exact Sparse.read_write_self hw _ v
  · exact Sparse.read_write_of_ne m v ‹_›

theorem Sparse.startsAbove_write {m : Sparse w} {k a : Nat} (v : BitVec w) (hm : m.startsAbove k = true)
    (hw : m.wf = true) (hk : k < a) : (m.write a v).startsAbove k = true := by
  cases m with
  | nil => simp only [Sparse.write]; split <;> simp [Sparse.startsAbove, hk]
  | cons c rest =>
    obtain ⟨j, u⟩ := c
    rw [Sparse.wf_cons] at hw
    have hj : k < j := by simpa [Sparse.startsAbove] using hm
    simp only [Sparse.write]
    split
    · split <;> simp [Sparse.startsAbove, hj, hk]
    · split
      · split
        · exact Sparse.startsAbove_trans hj rest hw.2.1
        · simp [Sparse.startsAbove, hk]
      · simp [Sparse.startsAbove, hj]

/-- A write keeps the canonical form. -/
theorem Sparse.wf_write {m : Sparse w} (hw : m.wf = true) (a : Nat) (v : BitVec w) : (m.write a v).wf = true := by
  induction m with
  | nil => simp only [Sparse.write]; split <;> simp_all [Sparse.wf, Sparse.startsAbove]
  | cons c rest ih =>
    obtain ⟨k, u⟩ := c
    have hw' := hw
    rw [Sparse.wf_cons] at hw'
    simp only [Sparse.write]
    split
    · rename_i hk
      split
      · exact hw
      · rename_i hv
        rw [Sparse.wf_cons]
        exact ⟨hv, by simpa [Sparse.startsAbove] using hk, hw⟩
    · split
      · rename_i hk; subst hk
        split
        · exact hw'.2.2
        · rename_i hv
          rw [Sparse.wf_cons]
          exact ⟨hv, hw'.2⟩
      · rename_i h1 h2
        rw [Sparse.wf_cons]
        exact ⟨hw'.1, Sparse.startsAbove_write v hw'.2.1 hw'.2.2 (by omega), ih hw'.2.2⟩

/-- Every listed entry after a write was listed before or is the one written. -/
theorem Sparse.mem_write {m : Sparse w} {a : Nat} {v : BitVec w} {c : Nat × BitVec w} (h : c ∈ m.write a v) :
    c ∈ m ∨ c = (a, v) := by
  induction m with
  | nil => simp only [Sparse.write] at h; split at h <;> simp_all
  | cons d rest ih =>
    obtain ⟨k, u⟩ := d
    simp only [Sparse.write] at h
    split at h
    · split at h <;> simp_all; tauto
    · split at h
      · split at h <;> simp_all; tauto
      · simp only [List.mem_cons] at h ⊢
        rcases h with h | h
        · exact .inl (.inl h)
        · rcases ih h with h | h
          · exact .inl (.inr h)
          · exact .inr h

/-- A property of the listed keys that the written key has stays true of all. -/
theorem Sparse.all_write {m : Sparse w} {p : Nat → Bool} {a : Nat} (v : BitVec w)
    (hm : (m.all fun c => p c.1) = true) (ha : p a = true) : ((m.write a v).all fun c => p c.1) = true := by
  rw [List.all_eq_true] at *
  intro c hc
  rcases Sparse.mem_write hc with h | h
  · exact hm c h
  · rw [h]; exact ha

/-- Dropping keys leaves the others' values alone. -/
theorem Sparse.read_filter (m : Sparse w) (p : Nat → Bool) {a : Nat} (ha : p a = true) :
    Sparse.read (List.filter (fun c => p c.1) m) a = m.read a := by
  induction m with
  | nil => rfl
  | cons c rest ih =>
    obtain ⟨k, v⟩ := c
    by_cases hk : p k = true
    · rw [List.filter_cons_of_pos (by exact hk)]
      simp only [Sparse.read]; rw [ih]
    · rw [List.filter_cons_of_neg (by exact hk), ih]
      simp only [Sparse.read]
      rw [if_neg (by rintro rfl; exact hk ha)]

theorem Sparse.startsAbove_filter {m : Sparse w} (p : Nat → Bool) {a : Nat} (hw : m.wf = true)
    (h : m.startsAbove a = true) : Sparse.startsAbove a (List.filter (fun c => p c.1) m) = true := by
  induction m generalizing a with
  | nil => rfl
  | cons c rest ih =>
    obtain ⟨k, v⟩ := c
    rw [Sparse.wf_cons] at hw
    by_cases hk : p k = true
    · rw [List.filter_cons_of_pos (by exact hk)]; exact h
    · rw [List.filter_cons_of_neg (by exact hk)]
      exact ih hw.2.2 (Sparse.startsAbove_trans (by simpa [Sparse.startsAbove] using h) rest hw.2.1)

/-- Dropping keys keeps the canonical form. -/
theorem Sparse.wf_filter {m : Sparse w} (p : Nat → Bool) (hw : m.wf = true) :
    Sparse.wf (List.filter (fun c => p c.1) m) = true := by
  induction m with
  | nil => rfl
  | cons c rest ih =>
    obtain ⟨k, v⟩ := c
    rw [Sparse.wf_cons] at hw
    by_cases hk : p k = true
    · rw [List.filter_cons_of_pos (by exact hk), Sparse.wf_cons]
      exact ⟨hw.1, Sparse.startsAbove_filter p hw.2.2 hw.2.1, ih hw.2.2⟩
    · rw [List.filter_cons_of_neg (by exact hk)]; exact ih hw.2.2

/-! ## Memory: one byte -/

theorem Memory.readByte_writeByte {m : Memory} (hw : m.wf = true) (a b : Nat) (v : Byte) :
    (m.writeByte a v).readByte b = if b = a then v else m.readByte b := Sparse.read_write hw a b v

theorem Memory.readByte_writeByte_of_ne (m : Memory) {a b : Nat} (v : Byte) (h : b ≠ a) :
    (m.writeByte a v).readByte b = m.readByte b := Sparse.read_write_of_ne m v h

theorem Memory.wf_writeByte {m : Memory} (hw : m.wf = true) (a : Nat) (v : Byte) : (m.writeByte a v).wf = true :=
  Sparse.wf_write hw a v

/-! ## Memory: an access -/

theorem Memory.wf_write {m : Memory} (hw : m.wf = true) (a : Nat) (n : Size) (v : Word) : (m.write a n v).wf = true := by
  cases n <;> simp only [Memory.write] <;> repeat (first | exact hw | apply Memory.wf_writeByte)

/-- A store leaves every byte outside it alone. -/
theorem Memory.readByte_write_outside (m : Memory) (a : Nat) (n : Size) (v : Word) (b : Nat)
    (h : b < a ∨ a + n.bytes ≤ b) : (m.write a n v).readByte b = m.readByte b := by
  cases n <;> simp only [Memory.write, Size.bytes] at * <;>
    (repeat rw [Memory.readByte_writeByte_of_ne _ _ (by omega)])

/-- A store puts byte k of the value at address a + k. -/
theorem Memory.readByte_write_inside {m : Memory} (hw : m.wf = true) (a : Nat) (n : Size) (v : Word) (k : Nat)
    (h : k < n.bytes) : (m.write a n v).readByte (a + k) = wordByte v k := by
  have wf1 := fun x (u : Byte) => Memory.wf_writeByte hw x u
  have wf2 := fun x u y (t : Byte) => Memory.wf_writeByte (wf1 x u) y t
  have wf3 := fun x u y t z (r : Byte) => Memory.wf_writeByte (wf2 x u y t) z r
  cases n <;> simp only [Memory.write, Size.bytes] at *
  · obtain rfl : k = 0 := by omega
    rw [Memory.readByte_writeByte hw]; simp [wordByte]
  · rw [Memory.readByte_writeByte (wf1 _ _), Memory.readByte_writeByte hw]
    obtain rfl | rfl : k = 0 ∨ k = 1 := by omega
    · simp [wordByte]
    · simp [wordByte]
  · rw [Memory.readByte_writeByte (wf3 _ _ _ _ _ _), Memory.readByte_writeByte (wf2 _ _ _ _),
      Memory.readByte_writeByte (wf1 _ _), Memory.readByte_writeByte hw]
    obtain rfl | rfl | rfl | rfl : k = 0 ∨ k = 1 ∨ k = 2 ∨ k = 3 := by omega
    all_goals simp [wordByte]

/-- The bits of a halfword made of two bytes. -/
theorem getLsbD_bytes2 (b1 b0 : Byte) (i : Nat) :
    BitVec.getLsbD (w := 16) (b1 ++ b0) i = if i < 8 then b0.getLsbD i else b1.getLsbD (i - 8) :=
  BitVec.getLsbD_append

/-- The bits of a word made of four bytes. -/
theorem getLsbD_bytes4 (b3 b2 b1 b0 : Byte) (i : Nat) :
    BitVec.getLsbD (w := 32) (b3 ++ b2 ++ b1 ++ b0) i =
      if i < 8 then b0.getLsbD i else if i < 16 then b1.getLsbD (i - 8)
      else if i < 24 then b2.getLsbD (i - 16) else b3.getLsbD (i - 24) := by
  have h := BitVec.getLsbD_append (x := b3 ++ b2 ++ b1) (y := b0) (i := i)
  have h' := BitVec.getLsbD_append (x := b3 ++ b2) (y := b1) (i := i - 8)
  have h'' := BitVec.getLsbD_append (x := b3) (y := b2) (i := i - 8 - 8)
  rw [h'', Nat.sub_sub, Nat.sub_sub] at h'
  refine h.trans ?_
  split
  · rfl
  · refine h'.trans ?_
    repeat' split
    all_goals first | rfl | omega

/-- Byte k of a value read is the byte of memory at a + k (R60). -/
theorem Memory.wordByte_read (m : Memory) (a : Nat) (n : Size) (k : Nat) (h : k < n.bytes) :
    wordByte (m.read a n) k = m.readByte (a + k) := by
  apply BitVec.eq_of_getLsbD_eq
  intro i hi
  have h8 : decide (i < 8) = true := decide_eq_true hi
  cases n <;> simp only [Memory.read, Size.bytes, wordByte, BitVec.getLsbD_extractLsb', BitVec.getLsbD_setWidth,
    getLsbD_bytes2, getLsbD_bytes4, h8, Bool.true_and] at *
  · obtain rfl : k = 0 := by omega
    rw [decide_eq_true (by omega)]; simp
  · rw [decide_eq_true (by omega)]
    obtain rfl | rfl : k = 0 ∨ k = 1 := by omega
    · rw [if_pos (by omega)]; simp
    · rw [if_neg (by omega)]; simp
  · obtain rfl | rfl | rfl | rfl : k = 0 ∨ k = 1 ∨ k = 2 ∨ k = 3 := by omega
    · rw [if_pos (by omega)]; simp
    · rw [if_neg (by omega), if_pos (by omega)]; simp
    · rw [if_neg (by omega), if_neg (by omega), if_pos (by omega)]; simp
    · rw [if_neg (by omega), if_neg (by omega), if_neg (by omega)]; simp

/-- A word is its four bytes. -/
theorem word_ext {v u : Word} (h : ∀ k, k < 4 → wordByte v k = wordByte u k) : v = u := by
  apply BitVec.eq_of_getLsbD_eq
  intro i hi
  have hk := congrArg (fun b => BitVec.getLsbD b (i % 8)) (h (i / 8) (by omega))
  simp only [wordByte, BitVec.getLsbD_extractLsb', Nat.mod_lt i (by decide : 8 > 0), decide_true, Bool.true_and,
    Nat.div_add_mod] at hk
  exact hk

/-- A word read gives back a word stored at the same address. -/
theorem Memory.read_write_word {m : Memory} (hw : m.wf = true) (a : Nat) (v : Word) :
    (m.write a .word v).read a .word = v :=
  word_ext fun k hk => (Memory.wordByte_read _ a .word k hk).trans (Memory.readByte_write_inside hw a .word v k hk)

/-- Two reads of bytes that agree are equal. -/
theorem Memory.read_congr {m m' : Memory} (a : Nat) (n : Size)
    (h : ∀ k, k < n.bytes → m'.readByte (a + k) = m.readByte (a + k)) : m'.read a n = m.read a n := by
  cases n <;> simp only [Memory.read, Size.bytes] at *
  · rw [← Nat.add_zero a, h 0 (by omega)]
  · rw [h 1 (by omega), ← Nat.add_zero a, h 0 (by omega)]
  · rw [h 3 (by omega), h 2 (by omega), h 1 (by omega), ← Nat.add_zero a, h 0 (by omega)]

theorem storageOnly_write {m : Memory} (hm : Safety.storageOnly m = true) (a : Nat) (n : Size) (v : Word)
    (h : ∀ k, k < n.bytes → isStorage (a + k) = true) : Safety.storageOnly (m.write a n v) = true := by
  have step := fun (m : Memory) (b : Nat) (u : Byte) (hm : Safety.storageOnly m = true) (hb : isStorage b = true) =>
    (Sparse.all_write (w := 8) (p := isStorage) (a := b) u hm hb)
  cases n <;> simp only [Memory.write, Size.bytes] at *
  · exact step _ _ _ hm (h 0 (by omega))
  · exact step _ _ _ (step _ _ _ hm (h 0 (by omega))) (h 1 (by omega))
  · exact step _ _ _ (step _ _ _ (step _ _ _ (step _ _ _ hm (h 0 (by omega))) (h 1 (by omega))) (h 2 (by omega)))
      (h 3 (by omega))

end Sys2Proof.Machine
end

