-- ==== Sys2Proof/Laws/State.lean ====
section
/-! SUPPORT. One lemma per field per update, so that no proof unfolds a record update. -/

namespace Sys2Proof.Machine

variable (s : State)

/-! ### `State.setReg` -/

@[simp] theorem State.setReg_hi (r : Reg) (v : Word) : (s.setReg r v).hi = s.hi := by unfold State.setReg; split <;> rfl
@[simp] theorem State.setReg_lo (r : Reg) (v : Word) : (s.setReg r v).lo = s.lo := by unfold State.setReg; split <;> rfl
@[simp] theorem State.setReg_pc (r : Reg) (v : Word) : (s.setReg r v).pc = s.pc := by unfold State.setReg; split <;> rfl
@[simp] theorem State.setReg_nextPC (r : Reg) (v : Word) : (s.setReg r v).nextPC = s.nextPC := by unfold State.setReg; split <;> rfl
@[simp] theorem State.setReg_currentPC (r : Reg) (v : Word) : (s.setReg r v).currentPC = s.currentPC := by unfold State.setReg; split <;> rfl
@[simp] theorem State.setReg_branchPending (r : Reg) (v : Word) : (s.setReg r v).branchPending = s.branchPending := by unfold State.setReg; split <;> rfl
@[simp] theorem State.setReg_branchDelay (r : Reg) (v : Word) : (s.setReg r v).branchDelay = s.branchDelay := by unfold State.setReg; split <;> rfl
@[simp] theorem State.setReg_ldNow (r : Reg) (v : Word) : (s.setReg r v).ldNow = s.ldNow := by unfold State.setReg; split <;> rfl
@[simp] theorem State.setReg_ldNext (r : Reg) (v : Word) : (s.setReg r v).ldNext = s.ldNext := by unfold State.setReg; split <;> rfl
@[simp] theorem State.setReg_mfAge (r : Reg) (v : Word) : (s.setReg r v).mfAge = s.mfAge := by unfold State.setReg; split <;> rfl
@[simp] theorem State.setReg_hiloUnread (r : Reg) (v : Word) : (s.setReg r v).hiloUnread = s.hiloUnread := by unfold State.setReg; split <;> rfl
@[simp] theorem State.setReg_status (r : Reg) (v : Word) : (s.setReg r v).status = s.status := by unfold State.setReg; split <;> rfl
@[simp] theorem State.setReg_cause (r : Reg) (v : Word) : (s.setReg r v).cause = s.cause := by unfold State.setReg; split <;> rfl
@[simp] theorem State.setReg_epc (r : Reg) (v : Word) : (s.setReg r v).epc = s.epc := by unfold State.setReg; split <;> rfl
@[simp] theorem State.setReg_icache (r : Reg) (v : Word) : (s.setReg r v).icache = s.icache := by unfold State.setReg; split <;> rfl
@[simp] theorem State.setReg_gte (r : Reg) (v : Word) : (s.setReg r v).gte = s.gte := by unfold State.setReg; split <;> rfl
@[simp] theorem State.setReg_plat (r : Reg) (v : Word) : (s.setReg r v).plat = s.plat := by unfold State.setReg; split <;> rfl

/-! ### `writeReg` -/

@[simp] theorem writeReg_hi (r : Reg) (v : Word) : (writeReg s r v).hi = s.hi := by unfold writeReg; split <;> (try split) <;> simp
@[simp] theorem writeReg_lo (r : Reg) (v : Word) : (writeReg s r v).lo = s.lo := by unfold writeReg; split <;> (try split) <;> simp
@[simp] theorem writeReg_pc (r : Reg) (v : Word) : (writeReg s r v).pc = s.pc := by unfold writeReg; split <;> (try split) <;> simp
@[simp] theorem writeReg_nextPC (r : Reg) (v : Word) : (writeReg s r v).nextPC = s.nextPC := by unfold writeReg; split <;> (try split) <;> simp
@[simp] theorem writeReg_currentPC (r : Reg) (v : Word) : (writeReg s r v).currentPC = s.currentPC := by unfold writeReg; split <;> (try split) <;> simp
@[simp] theorem writeReg_branchPending (r : Reg) (v : Word) : (writeReg s r v).branchPending = s.branchPending := by unfold writeReg; split <;> (try split) <;> simp
@[simp] theorem writeReg_branchDelay (r : Reg) (v : Word) : (writeReg s r v).branchDelay = s.branchDelay := by unfold writeReg; split <;> (try split) <;> simp
@[simp] theorem writeReg_ldNow (r : Reg) (v : Word) : (writeReg s r v).ldNow = s.ldNow := by unfold writeReg; split <;> (try split) <;> simp
@[simp] theorem writeReg_ldNext (r : Reg) (v : Word) : (writeReg s r v).ldNext = s.ldNext := by unfold writeReg; split <;> (try split) <;> simp
@[simp] theorem writeReg_mfAge (r : Reg) (v : Word) : (writeReg s r v).mfAge = s.mfAge := by unfold writeReg; split <;> (try split) <;> simp
@[simp] theorem writeReg_hiloUnread (r : Reg) (v : Word) : (writeReg s r v).hiloUnread = s.hiloUnread := by unfold writeReg; split <;> (try split) <;> simp
@[simp] theorem writeReg_status (r : Reg) (v : Word) : (writeReg s r v).status = s.status := by unfold writeReg; split <;> (try split) <;> simp
@[simp] theorem writeReg_cause (r : Reg) (v : Word) : (writeReg s r v).cause = s.cause := by unfold writeReg; split <;> (try split) <;> simp
@[simp] theorem writeReg_epc (r : Reg) (v : Word) : (writeReg s r v).epc = s.epc := by unfold writeReg; split <;> (try split) <;> simp
@[simp] theorem writeReg_icache (r : Reg) (v : Word) : (writeReg s r v).icache = s.icache := by unfold writeReg; split <;> (try split) <;> simp
@[simp] theorem writeReg_gte (r : Reg) (v : Word) : (writeReg s r v).gte = s.gte := by unfold writeReg; split <;> (try split) <;> simp
@[simp] theorem writeReg_plat (r : Reg) (v : Word) : (writeReg s r v).plat = s.plat := by unfold writeReg; split <;> (try split) <;> simp

/-! ### `writeDelayed` -/

@[simp] theorem writeDelayed_hi (r : Reg) (v : Word) : (writeDelayed s r v).hi = s.hi := by simp [writeDelayed]
@[simp] theorem writeDelayed_lo (r : Reg) (v : Word) : (writeDelayed s r v).lo = s.lo := by simp [writeDelayed]
@[simp] theorem writeDelayed_pc (r : Reg) (v : Word) : (writeDelayed s r v).pc = s.pc := by simp [writeDelayed]
@[simp] theorem writeDelayed_nextPC (r : Reg) (v : Word) : (writeDelayed s r v).nextPC = s.nextPC := by simp [writeDelayed]
@[simp] theorem writeDelayed_currentPC (r : Reg) (v : Word) : (writeDelayed s r v).currentPC = s.currentPC := by simp [writeDelayed]
@[simp] theorem writeDelayed_branchPending (r : Reg) (v : Word) : (writeDelayed s r v).branchPending = s.branchPending := by simp [writeDelayed]
@[simp] theorem writeDelayed_branchDelay (r : Reg) (v : Word) : (writeDelayed s r v).branchDelay = s.branchDelay := by simp [writeDelayed]
@[simp] theorem writeDelayed_ldNow (r : Reg) (v : Word) : (writeDelayed s r v).ldNow = s.ldNow := by simp [writeDelayed]
@[simp] theorem writeDelayed_mfAge (r : Reg) (v : Word) : (writeDelayed s r v).mfAge = s.mfAge := by simp [writeDelayed]
@[simp] theorem writeDelayed_hiloUnread (r : Reg) (v : Word) : (writeDelayed s r v).hiloUnread = s.hiloUnread := by simp [writeDelayed]
@[simp] theorem writeDelayed_status (r : Reg) (v : Word) : (writeDelayed s r v).status = s.status := by simp [writeDelayed]
@[simp] theorem writeDelayed_cause (r : Reg) (v : Word) : (writeDelayed s r v).cause = s.cause := by simp [writeDelayed]
@[simp] theorem writeDelayed_epc (r : Reg) (v : Word) : (writeDelayed s r v).epc = s.epc := by simp [writeDelayed]
@[simp] theorem writeDelayed_icache (r : Reg) (v : Word) : (writeDelayed s r v).icache = s.icache := by simp [writeDelayed]
@[simp] theorem writeDelayed_gte (r : Reg) (v : Word) : (writeDelayed s r v).gte = s.gte := by simp [writeDelayed]
@[simp] theorem writeDelayed_plat (r : Reg) (v : Word) : (writeDelayed s r v).plat = s.plat := by simp [writeDelayed]

@[simp] theorem writeDelayed_regs (r : Reg) (v : Word) : (writeDelayed s r v).regs = (writeReg s r v).regs := rfl
@[simp] theorem writeDelayed_ldNext (r : Reg) (v : Word) : (writeDelayed s r v).ldNext =
    some { reg := r, old := s.reg r, kind := .whole } := rfl

/-! ### `writeMerged` -/

@[simp] theorem writeMerged_hi (k : LoadKind) (r : Reg) (v : Word) : (writeMerged s k r v).hi = s.hi := by unfold writeMerged; simp only; split <;> simp
@[simp] theorem writeMerged_lo (k : LoadKind) (r : Reg) (v : Word) : (writeMerged s k r v).lo = s.lo := by unfold writeMerged; simp only; split <;> simp
@[simp] theorem writeMerged_pc (k : LoadKind) (r : Reg) (v : Word) : (writeMerged s k r v).pc = s.pc := by unfold writeMerged; simp only; split <;> simp
@[simp] theorem writeMerged_nextPC (k : LoadKind) (r : Reg) (v : Word) : (writeMerged s k r v).nextPC = s.nextPC := by unfold writeMerged; simp only; split <;> simp
@[simp] theorem writeMerged_currentPC (k : LoadKind) (r : Reg) (v : Word) : (writeMerged s k r v).currentPC = s.currentPC := by unfold writeMerged; simp only; split <;> simp
@[simp] theorem writeMerged_branchPending (k : LoadKind) (r : Reg) (v : Word) : (writeMerged s k r v).branchPending = s.branchPending := by unfold writeMerged; simp only; split <;> simp
@[simp] theorem writeMerged_branchDelay (k : LoadKind) (r : Reg) (v : Word) : (writeMerged s k r v).branchDelay = s.branchDelay := by unfold writeMerged; simp only; split <;> simp
@[simp] theorem writeMerged_ldNow (k : LoadKind) (r : Reg) (v : Word) : (writeMerged s k r v).ldNow = s.ldNow := by unfold writeMerged; simp only; split <;> simp
@[simp] theorem writeMerged_mfAge (k : LoadKind) (r : Reg) (v : Word) : (writeMerged s k r v).mfAge = s.mfAge := by unfold writeMerged; simp only; split <;> simp
@[simp] theorem writeMerged_hiloUnread (k : LoadKind) (r : Reg) (v : Word) : (writeMerged s k r v).hiloUnread = s.hiloUnread := by unfold writeMerged; simp only; split <;> simp
@[simp] theorem writeMerged_status (k : LoadKind) (r : Reg) (v : Word) : (writeMerged s k r v).status = s.status := by unfold writeMerged; simp only; split <;> simp
@[simp] theorem writeMerged_cause (k : LoadKind) (r : Reg) (v : Word) : (writeMerged s k r v).cause = s.cause := by unfold writeMerged; simp only; split <;> simp
@[simp] theorem writeMerged_epc (k : LoadKind) (r : Reg) (v : Word) : (writeMerged s k r v).epc = s.epc := by unfold writeMerged; simp only; split <;> simp
@[simp] theorem writeMerged_icache (k : LoadKind) (r : Reg) (v : Word) : (writeMerged s k r v).icache = s.icache := by unfold writeMerged; simp only; split <;> simp
@[simp] theorem writeMerged_gte (k : LoadKind) (r : Reg) (v : Word) : (writeMerged s k r v).gte = s.gte := by unfold writeMerged; simp only; split <;> simp
@[simp] theorem writeMerged_plat (k : LoadKind) (r : Reg) (v : Word) : (writeMerged s k r v).plat = s.plat := by unfold writeMerged; simp only; split <;> simp

@[simp] theorem writeMerged_regs (k : LoadKind) (r : Reg) (v : Word) : (writeMerged s k r v).regs =
    (if s.completesPair k r then s.setReg r v else writeReg s r v).regs := rfl
@[simp] theorem writeMerged_ldNext (k : LoadKind) (r : Reg) (v : Word) : (writeMerged s k r v).ldNext =
    some { reg := r, old := s.reg r, kind := k } := rfl

/-! ### `State.setHiLo` -/

@[simp] theorem State.setHiLo_regs (h l : Word) : (s.setHiLo h l).regs = s.regs := rfl
@[simp] theorem State.setHiLo_pc (h l : Word) : (s.setHiLo h l).pc = s.pc := rfl
@[simp] theorem State.setHiLo_nextPC (h l : Word) : (s.setHiLo h l).nextPC = s.nextPC := rfl
@[simp] theorem State.setHiLo_currentPC (h l : Word) : (s.setHiLo h l).currentPC = s.currentPC := rfl
@[simp] theorem State.setHiLo_branchPending (h l : Word) : (s.setHiLo h l).branchPending = s.branchPending := rfl
@[simp] theorem State.setHiLo_branchDelay (h l : Word) : (s.setHiLo h l).branchDelay = s.branchDelay := rfl
@[simp] theorem State.setHiLo_ldNow (h l : Word) : (s.setHiLo h l).ldNow = s.ldNow := rfl
@[simp] theorem State.setHiLo_ldNext (h l : Word) : (s.setHiLo h l).ldNext = s.ldNext := rfl
@[simp] theorem State.setHiLo_mfAge (h l : Word) : (s.setHiLo h l).mfAge = s.mfAge := rfl
@[simp] theorem State.setHiLo_hiloUnread (h l : Word) : (s.setHiLo h l).hiloUnread = s.hiloUnread := rfl
@[simp] theorem State.setHiLo_status (h l : Word) : (s.setHiLo h l).status = s.status := rfl
@[simp] theorem State.setHiLo_cause (h l : Word) : (s.setHiLo h l).cause = s.cause := rfl
@[simp] theorem State.setHiLo_epc (h l : Word) : (s.setHiLo h l).epc = s.epc := rfl
@[simp] theorem State.setHiLo_icache (h l : Word) : (s.setHiLo h l).icache = s.icache := rfl
@[simp] theorem State.setHiLo_gte (h l : Word) : (s.setHiLo h l).gte = s.gte := rfl
@[simp] theorem State.setHiLo_plat (h l : Word) : (s.setHiLo h l).plat = s.plat := rfl

@[simp] theorem State.setHiLo_hi (h l : Word) : (s.setHiLo h l).hi = h := rfl
@[simp] theorem State.setHiLo_lo (h l : Word) : (s.setHiLo h l).lo = l := rfl

/-! ### `State.setGte` -/

@[simp] theorem State.setGte_regs (g : GteState) : (s.setGte g).regs = s.regs := rfl
@[simp] theorem State.setGte_hi (g : GteState) : (s.setGte g).hi = s.hi := rfl
@[simp] theorem State.setGte_lo (g : GteState) : (s.setGte g).lo = s.lo := rfl
@[simp] theorem State.setGte_pc (g : GteState) : (s.setGte g).pc = s.pc := rfl
@[simp] theorem State.setGte_nextPC (g : GteState) : (s.setGte g).nextPC = s.nextPC := rfl
@[simp] theorem State.setGte_currentPC (g : GteState) : (s.setGte g).currentPC = s.currentPC := rfl
@[simp] theorem State.setGte_branchPending (g : GteState) : (s.setGte g).branchPending = s.branchPending := rfl
@[simp] theorem State.setGte_branchDelay (g : GteState) : (s.setGte g).branchDelay = s.branchDelay := rfl
@[simp] theorem State.setGte_ldNow (g : GteState) : (s.setGte g).ldNow = s.ldNow := rfl
@[simp] theorem State.setGte_ldNext (g : GteState) : (s.setGte g).ldNext = s.ldNext := rfl
@[simp] theorem State.setGte_mfAge (g : GteState) : (s.setGte g).mfAge = s.mfAge := rfl
@[simp] theorem State.setGte_hiloUnread (g : GteState) : (s.setGte g).hiloUnread = s.hiloUnread := rfl
@[simp] theorem State.setGte_status (g : GteState) : (s.setGte g).status = s.status := rfl
@[simp] theorem State.setGte_cause (g : GteState) : (s.setGte g).cause = s.cause := rfl
@[simp] theorem State.setGte_epc (g : GteState) : (s.setGte g).epc = s.epc := rfl
@[simp] theorem State.setGte_icache (g : GteState) : (s.setGte g).icache = s.icache := rfl
@[simp] theorem State.setGte_plat (g : GteState) : (s.setGte g).plat = s.plat := rfl

@[simp] theorem State.setGte_gte (g : GteState) : (s.setGte g).gte = g := rfl

/-! ### `State.setLine` -/

@[simp] theorem State.setLine_regs (i : BitVec 8) (l : CacheLine) : (s.setLine i l).regs = s.regs := rfl
@[simp] theorem State.setLine_hi (i : BitVec 8) (l : CacheLine) : (s.setLine i l).hi = s.hi := rfl
@[simp] theorem State.setLine_lo (i : BitVec 8) (l : CacheLine) : (s.setLine i l).lo = s.lo := rfl
@[simp] theorem State.setLine_pc (i : BitVec 8) (l : CacheLine) : (s.setLine i l).pc = s.pc := rfl
@[simp] theorem State.setLine_nextPC (i : BitVec 8) (l : CacheLine) : (s.setLine i l).nextPC = s.nextPC := rfl
@[simp] theorem State.setLine_currentPC (i : BitVec 8) (l : CacheLine) : (s.setLine i l).currentPC = s.currentPC := rfl
@[simp] theorem State.setLine_branchPending (i : BitVec 8) (l : CacheLine) : (s.setLine i l).branchPending = s.branchPending := rfl
@[simp] theorem State.setLine_branchDelay (i : BitVec 8) (l : CacheLine) : (s.setLine i l).branchDelay = s.branchDelay := rfl
@[simp] theorem State.setLine_ldNow (i : BitVec 8) (l : CacheLine) : (s.setLine i l).ldNow = s.ldNow := rfl
@[simp] theorem State.setLine_ldNext (i : BitVec 8) (l : CacheLine) : (s.setLine i l).ldNext = s.ldNext := rfl
@[simp] theorem State.setLine_mfAge (i : BitVec 8) (l : CacheLine) : (s.setLine i l).mfAge = s.mfAge := rfl
@[simp] theorem State.setLine_hiloUnread (i : BitVec 8) (l : CacheLine) : (s.setLine i l).hiloUnread = s.hiloUnread := rfl
@[simp] theorem State.setLine_status (i : BitVec 8) (l : CacheLine) : (s.setLine i l).status = s.status := rfl
@[simp] theorem State.setLine_cause (i : BitVec 8) (l : CacheLine) : (s.setLine i l).cause = s.cause := rfl
@[simp] theorem State.setLine_epc (i : BitVec 8) (l : CacheLine) : (s.setLine i l).epc = s.epc := rfl
@[simp] theorem State.setLine_gte (i : BitVec 8) (l : CacheLine) : (s.setLine i l).gte = s.gte := rfl
@[simp] theorem State.setLine_plat (i : BitVec 8) (l : CacheLine) : (s.setLine i l).plat = s.plat := rfl

@[simp] theorem State.setLine_icache (i : BitVec 8) (l : CacheLine) : (s.setLine i l).icache = s.icache.set i.toNat l := rfl

/-! ### `enter` -/

@[simp] theorem enter_regs (e : Exception) : (enter e s).regs = s.regs := rfl
@[simp] theorem enter_hi (e : Exception) : (enter e s).hi = s.hi := rfl
@[simp] theorem enter_lo (e : Exception) : (enter e s).lo = s.lo := rfl
@[simp] theorem enter_currentPC (e : Exception) : (enter e s).currentPC = s.currentPC := rfl
@[simp] theorem enter_mfAge (e : Exception) : (enter e s).mfAge = s.mfAge := rfl
@[simp] theorem enter_hiloUnread (e : Exception) : (enter e s).hiloUnread = s.hiloUnread := rfl
@[simp] theorem enter_icache (e : Exception) : (enter e s).icache = s.icache := rfl
@[simp] theorem enter_gte (e : Exception) : (enter e s).gte = s.gte := rfl
@[simp] theorem enter_plat (e : Exception) : (enter e s).plat = s.plat := rfl

@[simp] theorem enter_epc (e : Exception) : (enter e s).epc = s.restartPC := rfl
@[simp] theorem enter_cause (e : Exception) : (enter e s).cause = enteredCause s.branchDelay e.code s.cause := rfl
@[simp] theorem enter_status (e : Exception) : (enter e s).status = pushStatus s.status := rfl
@[simp] theorem enter_pc (e : Exception) : (enter e s).pc = s.exceptionVector := rfl
@[simp] theorem enter_nextPC (e : Exception) : (enter e s).nextPC = s.exceptionVector + 4#32 := rfl
@[simp] theorem enter_branchPending (e : Exception) : (enter e s).branchPending = false := rfl
@[simp] theorem enter_branchDelay (e : Exception) : (enter e s).branchDelay = false := rfl
@[simp] theorem enter_ldNow (e : Exception) : (enter e s).ldNow = none := rfl
@[simp] theorem enter_ldNext (e : Exception) : (enter e s).ldNext = none := rfl

/-! ### `leaveException` -/

@[simp] theorem leaveException_regs  : (leaveException s).regs = s.regs := rfl
@[simp] theorem leaveException_hi  : (leaveException s).hi = s.hi := rfl
@[simp] theorem leaveException_lo  : (leaveException s).lo = s.lo := rfl
@[simp] theorem leaveException_pc  : (leaveException s).pc = s.pc := rfl
@[simp] theorem leaveException_nextPC  : (leaveException s).nextPC = s.nextPC := rfl
@[simp] theorem leaveException_currentPC  : (leaveException s).currentPC = s.currentPC := rfl
@[simp] theorem leaveException_branchPending  : (leaveException s).branchPending = s.branchPending := rfl
@[simp] theorem leaveException_branchDelay  : (leaveException s).branchDelay = s.branchDelay := rfl
@[simp] theorem leaveException_ldNow  : (leaveException s).ldNow = s.ldNow := rfl
@[simp] theorem leaveException_ldNext  : (leaveException s).ldNext = s.ldNext := rfl
@[simp] theorem leaveException_mfAge  : (leaveException s).mfAge = s.mfAge := rfl
@[simp] theorem leaveException_hiloUnread  : (leaveException s).hiloUnread = s.hiloUnread := rfl
@[simp] theorem leaveException_cause  : (leaveException s).cause = s.cause := rfl
@[simp] theorem leaveException_epc  : (leaveException s).epc = s.epc := rfl
@[simp] theorem leaveException_icache  : (leaveException s).icache = s.icache := rfl
@[simp] theorem leaveException_gte  : (leaveException s).gte = s.gte := rfl
@[simp] theorem leaveException_plat  : (leaveException s).plat = s.plat := rfl

@[simp] theorem leaveException_status  : (leaveException s).status = popStatus s.status := rfl

/-! ### `branchIf` -/

@[simp] theorem branchIf_regs (b : Bool) (a : Word) : (branchIf b a s).regs = s.regs := rfl
@[simp] theorem branchIf_hi (b : Bool) (a : Word) : (branchIf b a s).hi = s.hi := rfl
@[simp] theorem branchIf_lo (b : Bool) (a : Word) : (branchIf b a s).lo = s.lo := rfl
@[simp] theorem branchIf_pc (b : Bool) (a : Word) : (branchIf b a s).pc = s.pc := rfl
@[simp] theorem branchIf_currentPC (b : Bool) (a : Word) : (branchIf b a s).currentPC = s.currentPC := rfl
@[simp] theorem branchIf_branchDelay (b : Bool) (a : Word) : (branchIf b a s).branchDelay = s.branchDelay := rfl
@[simp] theorem branchIf_ldNow (b : Bool) (a : Word) : (branchIf b a s).ldNow = s.ldNow := rfl
@[simp] theorem branchIf_ldNext (b : Bool) (a : Word) : (branchIf b a s).ldNext = s.ldNext := rfl
@[simp] theorem branchIf_mfAge (b : Bool) (a : Word) : (branchIf b a s).mfAge = s.mfAge := rfl
@[simp] theorem branchIf_hiloUnread (b : Bool) (a : Word) : (branchIf b a s).hiloUnread = s.hiloUnread := rfl
@[simp] theorem branchIf_status (b : Bool) (a : Word) : (branchIf b a s).status = s.status := rfl
@[simp] theorem branchIf_cause (b : Bool) (a : Word) : (branchIf b a s).cause = s.cause := rfl
@[simp] theorem branchIf_epc (b : Bool) (a : Word) : (branchIf b a s).epc = s.epc := rfl
@[simp] theorem branchIf_icache (b : Bool) (a : Word) : (branchIf b a s).icache = s.icache := rfl
@[simp] theorem branchIf_gte (b : Bool) (a : Word) : (branchIf b a s).gte = s.gte := rfl
@[simp] theorem branchIf_plat (b : Bool) (a : Word) : (branchIf b a s).plat = s.plat := rfl

@[simp] theorem branchIf_branchPending (b : Bool) (a : Word) : (branchIf b a s).branchPending = true := rfl
@[simp] theorem branchIf_nextPC (b : Bool) (a : Word) : (branchIf b a s).nextPC = if b then a else s.nextPC := rfl

/-! ### `shiftLoadSlot` -/

@[simp] theorem shiftLoadSlot_regs  : (shiftLoadSlot s).regs = s.regs := rfl
@[simp] theorem shiftLoadSlot_hi  : (shiftLoadSlot s).hi = s.hi := rfl
@[simp] theorem shiftLoadSlot_lo  : (shiftLoadSlot s).lo = s.lo := rfl
@[simp] theorem shiftLoadSlot_pc  : (shiftLoadSlot s).pc = s.pc := rfl
@[simp] theorem shiftLoadSlot_nextPC  : (shiftLoadSlot s).nextPC = s.nextPC := rfl
@[simp] theorem shiftLoadSlot_currentPC  : (shiftLoadSlot s).currentPC = s.currentPC := rfl
@[simp] theorem shiftLoadSlot_branchPending  : (shiftLoadSlot s).branchPending = s.branchPending := rfl
@[simp] theorem shiftLoadSlot_branchDelay  : (shiftLoadSlot s).branchDelay = s.branchDelay := rfl
@[simp] theorem shiftLoadSlot_mfAge  : (shiftLoadSlot s).mfAge = s.mfAge := rfl
@[simp] theorem shiftLoadSlot_hiloUnread  : (shiftLoadSlot s).hiloUnread = s.hiloUnread := rfl
@[simp] theorem shiftLoadSlot_status  : (shiftLoadSlot s).status = s.status := rfl
@[simp] theorem shiftLoadSlot_cause  : (shiftLoadSlot s).cause = s.cause := rfl
@[simp] theorem shiftLoadSlot_epc  : (shiftLoadSlot s).epc = s.epc := rfl
@[simp] theorem shiftLoadSlot_icache  : (shiftLoadSlot s).icache = s.icache := rfl
@[simp] theorem shiftLoadSlot_gte  : (shiftLoadSlot s).gte = s.gte := rfl
@[simp] theorem shiftLoadSlot_plat  : (shiftLoadSlot s).plat = s.plat := rfl

@[simp] theorem shiftLoadSlot_ldNow  : (shiftLoadSlot s).ldNow = s.ldNext := rfl
@[simp] theorem shiftLoadSlot_ldNext  : (shiftLoadSlot s).ldNext = none := rfl

/-! ### `beginInstruction` -/

@[simp] theorem beginInstruction_regs  : (beginInstruction s).regs = s.regs := rfl
@[simp] theorem beginInstruction_hi  : (beginInstruction s).hi = s.hi := rfl
@[simp] theorem beginInstruction_lo  : (beginInstruction s).lo = s.lo := rfl
@[simp] theorem beginInstruction_pc  : (beginInstruction s).pc = s.pc := rfl
@[simp] theorem beginInstruction_nextPC  : (beginInstruction s).nextPC = s.nextPC := rfl
@[simp] theorem beginInstruction_ldNow  : (beginInstruction s).ldNow = s.ldNow := rfl
@[simp] theorem beginInstruction_ldNext  : (beginInstruction s).ldNext = s.ldNext := rfl
@[simp] theorem beginInstruction_mfAge  : (beginInstruction s).mfAge = s.mfAge := rfl
@[simp] theorem beginInstruction_hiloUnread  : (beginInstruction s).hiloUnread = s.hiloUnread := rfl
@[simp] theorem beginInstruction_status  : (beginInstruction s).status = s.status := rfl
@[simp] theorem beginInstruction_cause  : (beginInstruction s).cause = s.cause := rfl
@[simp] theorem beginInstruction_epc  : (beginInstruction s).epc = s.epc := rfl
@[simp] theorem beginInstruction_icache  : (beginInstruction s).icache = s.icache := rfl
@[simp] theorem beginInstruction_gte  : (beginInstruction s).gte = s.gte := rfl
@[simp] theorem beginInstruction_plat  : (beginInstruction s).plat = s.plat := rfl

@[simp] theorem beginInstruction_currentPC  : (beginInstruction s).currentPC = s.pc := rfl
@[simp] theorem beginInstruction_branchDelay  : (beginInstruction s).branchDelay = s.branchPending := rfl
@[simp] theorem beginInstruction_branchPending  : (beginInstruction s).branchPending = false := rfl

/-! ### `advancePC` -/

@[simp] theorem advancePC_regs  : (advancePC s).regs = s.regs := rfl
@[simp] theorem advancePC_hi  : (advancePC s).hi = s.hi := rfl
@[simp] theorem advancePC_lo  : (advancePC s).lo = s.lo := rfl
@[simp] theorem advancePC_currentPC  : (advancePC s).currentPC = s.currentPC := rfl
@[simp] theorem advancePC_branchPending  : (advancePC s).branchPending = s.branchPending := rfl
@[simp] theorem advancePC_branchDelay  : (advancePC s).branchDelay = s.branchDelay := rfl
@[simp] theorem advancePC_ldNow  : (advancePC s).ldNow = s.ldNow := rfl
@[simp] theorem advancePC_ldNext  : (advancePC s).ldNext = s.ldNext := rfl
@[simp] theorem advancePC_mfAge  : (advancePC s).mfAge = s.mfAge := rfl
@[simp] theorem advancePC_hiloUnread  : (advancePC s).hiloUnread = s.hiloUnread := rfl
@[simp] theorem advancePC_status  : (advancePC s).status = s.status := rfl
@[simp] theorem advancePC_cause  : (advancePC s).cause = s.cause := rfl
@[simp] theorem advancePC_epc  : (advancePC s).epc = s.epc := rfl
@[simp] theorem advancePC_icache  : (advancePC s).icache = s.icache := rfl
@[simp] theorem advancePC_gte  : (advancePC s).gte = s.gte := rfl
@[simp] theorem advancePC_plat  : (advancePC s).plat = s.plat := rfl

@[simp] theorem advancePC_pc  : (advancePC s).pc = s.nextPC := rfl
@[simp] theorem advancePC_nextPC  : (advancePC s).nextPC = s.nextPC + 4#32 := rfl

/-! ### `ageHazards` -/

@[simp] theorem ageHazards_regs  : (ageHazards s).regs = s.regs := rfl
@[simp] theorem ageHazards_hi  : (ageHazards s).hi = s.hi := rfl
@[simp] theorem ageHazards_lo  : (ageHazards s).lo = s.lo := rfl
@[simp] theorem ageHazards_pc  : (ageHazards s).pc = s.pc := rfl
@[simp] theorem ageHazards_nextPC  : (ageHazards s).nextPC = s.nextPC := rfl
@[simp] theorem ageHazards_currentPC  : (ageHazards s).currentPC = s.currentPC := rfl
@[simp] theorem ageHazards_branchPending  : (ageHazards s).branchPending = s.branchPending := rfl
@[simp] theorem ageHazards_branchDelay  : (ageHazards s).branchDelay = s.branchDelay := rfl
@[simp] theorem ageHazards_ldNow  : (ageHazards s).ldNow = s.ldNow := rfl
@[simp] theorem ageHazards_ldNext  : (ageHazards s).ldNext = s.ldNext := rfl
@[simp] theorem ageHazards_hiloUnread  : (ageHazards s).hiloUnread = s.hiloUnread := rfl
@[simp] theorem ageHazards_status  : (ageHazards s).status = s.status := rfl
@[simp] theorem ageHazards_cause  : (ageHazards s).cause = s.cause := rfl
@[simp] theorem ageHazards_epc  : (ageHazards s).epc = s.epc := rfl
@[simp] theorem ageHazards_icache  : (ageHazards s).icache = s.icache := rfl
@[simp] theorem ageHazards_gte  : (ageHazards s).gte = s.gte := rfl
@[simp] theorem ageHazards_plat  : (ageHazards s).plat = s.plat := rfl

@[simp] theorem ageHazards_mfAge  : (ageHazards s).mfAge = min 3 (s.mfAge + 1) := rfl

/-! ### `updateHazards` -/

@[simp] theorem updateHazards_regs (i : Instr) : (updateHazards i s).regs = s.regs := by cases i <;> rfl
@[simp] theorem updateHazards_hi (i : Instr) : (updateHazards i s).hi = s.hi := by cases i <;> rfl
@[simp] theorem updateHazards_lo (i : Instr) : (updateHazards i s).lo = s.lo := by cases i <;> rfl
@[simp] theorem updateHazards_pc (i : Instr) : (updateHazards i s).pc = s.pc := by cases i <;> rfl
@[simp] theorem updateHazards_nextPC (i : Instr) : (updateHazards i s).nextPC = s.nextPC := by cases i <;> rfl
@[simp] theorem updateHazards_currentPC (i : Instr) : (updateHazards i s).currentPC = s.currentPC := by cases i <;> rfl
@[simp] theorem updateHazards_branchPending (i : Instr) : (updateHazards i s).branchPending = s.branchPending := by cases i <;> rfl
@[simp] theorem updateHazards_branchDelay (i : Instr) : (updateHazards i s).branchDelay = s.branchDelay := by cases i <;> rfl
@[simp] theorem updateHazards_ldNow (i : Instr) : (updateHazards i s).ldNow = s.ldNow := by cases i <;> rfl
@[simp] theorem updateHazards_ldNext (i : Instr) : (updateHazards i s).ldNext = s.ldNext := by cases i <;> rfl
@[simp] theorem updateHazards_status (i : Instr) : (updateHazards i s).status = s.status := by cases i <;> rfl
@[simp] theorem updateHazards_cause (i : Instr) : (updateHazards i s).cause = s.cause := by cases i <;> rfl
@[simp] theorem updateHazards_epc (i : Instr) : (updateHazards i s).epc = s.epc := by cases i <;> rfl
@[simp] theorem updateHazards_icache (i : Instr) : (updateHazards i s).icache = s.icache := by cases i <;> rfl
@[simp] theorem updateHazards_gte (i : Instr) : (updateHazards i s).gte = s.gte := by cases i <;> rfl
@[simp] theorem updateHazards_plat (i : Instr) : (updateHazards i s).plat = s.plat := by cases i <;> rfl

/-! ### `environmentMoves` -/

@[simp] theorem environmentMoves_regs (e : Environment) : (environmentMoves e s).regs = s.regs := rfl
@[simp] theorem environmentMoves_hi (e : Environment) : (environmentMoves e s).hi = s.hi := rfl
@[simp] theorem environmentMoves_lo (e : Environment) : (environmentMoves e s).lo = s.lo := rfl
@[simp] theorem environmentMoves_pc (e : Environment) : (environmentMoves e s).pc = s.pc := rfl
@[simp] theorem environmentMoves_nextPC (e : Environment) : (environmentMoves e s).nextPC = s.nextPC := rfl
@[simp] theorem environmentMoves_currentPC (e : Environment) : (environmentMoves e s).currentPC = s.currentPC := rfl
@[simp] theorem environmentMoves_branchPending (e : Environment) : (environmentMoves e s).branchPending = s.branchPending := rfl
@[simp] theorem environmentMoves_branchDelay (e : Environment) : (environmentMoves e s).branchDelay = s.branchDelay := rfl
@[simp] theorem environmentMoves_ldNow (e : Environment) : (environmentMoves e s).ldNow = s.ldNow := rfl
@[simp] theorem environmentMoves_ldNext (e : Environment) : (environmentMoves e s).ldNext = s.ldNext := rfl
@[simp] theorem environmentMoves_mfAge (e : Environment) : (environmentMoves e s).mfAge = s.mfAge := rfl
@[simp] theorem environmentMoves_hiloUnread (e : Environment) : (environmentMoves e s).hiloUnread = s.hiloUnread := rfl
@[simp] theorem environmentMoves_status (e : Environment) : (environmentMoves e s).status = s.status := rfl
@[simp] theorem environmentMoves_cause (e : Environment) : (environmentMoves e s).cause = s.cause := rfl
@[simp] theorem environmentMoves_epc (e : Environment) : (environmentMoves e s).epc = s.epc := rfl
@[simp] theorem environmentMoves_icache (e : Environment) : (environmentMoves e s).icache = s.icache := rfl
@[simp] theorem environmentMoves_gte (e : Environment) : (environmentMoves e s).gte = s.gte := rfl

/-! ### `cop0Write` -/

@[simp] theorem cop0Write_regs (n : Reg) (v : Word) : (cop0Write n v s).regs = s.regs := by unfold cop0Write; split <;> rfl
@[simp] theorem cop0Write_hi (n : Reg) (v : Word) : (cop0Write n v s).hi = s.hi := by unfold cop0Write; split <;> rfl
@[simp] theorem cop0Write_lo (n : Reg) (v : Word) : (cop0Write n v s).lo = s.lo := by unfold cop0Write; split <;> rfl
@[simp] theorem cop0Write_pc (n : Reg) (v : Word) : (cop0Write n v s).pc = s.pc := by unfold cop0Write; split <;> rfl
@[simp] theorem cop0Write_nextPC (n : Reg) (v : Word) : (cop0Write n v s).nextPC = s.nextPC := by unfold cop0Write; split <;> rfl
@[simp] theorem cop0Write_currentPC (n : Reg) (v : Word) : (cop0Write n v s).currentPC = s.currentPC := by unfold cop0Write; split <;> rfl
@[simp] theorem cop0Write_branchPending (n : Reg) (v : Word) : (cop0Write n v s).branchPending = s.branchPending := by unfold cop0Write; split <;> rfl
@[simp] theorem cop0Write_branchDelay (n : Reg) (v : Word) : (cop0Write n v s).branchDelay = s.branchDelay := by unfold cop0Write; split <;> rfl
@[simp] theorem cop0Write_ldNow (n : Reg) (v : Word) : (cop0Write n v s).ldNow = s.ldNow := by unfold cop0Write; split <;> rfl
@[simp] theorem cop0Write_ldNext (n : Reg) (v : Word) : (cop0Write n v s).ldNext = s.ldNext := by unfold cop0Write; split <;> rfl
@[simp] theorem cop0Write_mfAge (n : Reg) (v : Word) : (cop0Write n v s).mfAge = s.mfAge := by unfold cop0Write; split <;> rfl
@[simp] theorem cop0Write_hiloUnread (n : Reg) (v : Word) : (cop0Write n v s).hiloUnread = s.hiloUnread := by unfold cop0Write; split <;> rfl
@[simp] theorem cop0Write_epc (n : Reg) (v : Word) : (cop0Write n v s).epc = s.epc := by unfold cop0Write; split <;> rfl
@[simp] theorem cop0Write_icache (n : Reg) (v : Word) : (cop0Write n v s).icache = s.icache := by unfold cop0Write; split <;> rfl
@[simp] theorem cop0Write_gte (n : Reg) (v : Word) : (cop0Write n v s).gte = s.gte := by unfold cop0Write; split <;> rfl
@[simp] theorem cop0Write_plat (n : Reg) (v : Word) : (cop0Write n v s).plat = s.plat := by unfold cop0Write; split <;> rfl

/-! ### `isolatedStore` -/

@[simp] theorem isolatedStore_regs (va : Word) (n : Size) (v : Word) : (isolatedStore va n v s).regs = s.regs := by cases n <;> simp only [isolatedStore] <;> (try split) <;> rfl
@[simp] theorem isolatedStore_hi (va : Word) (n : Size) (v : Word) : (isolatedStore va n v s).hi = s.hi := by cases n <;> simp only [isolatedStore] <;> (try split) <;> rfl
@[simp] theorem isolatedStore_lo (va : Word) (n : Size) (v : Word) : (isolatedStore va n v s).lo = s.lo := by cases n <;> simp only [isolatedStore] <;> (try split) <;> rfl
@[simp] theorem isolatedStore_pc (va : Word) (n : Size) (v : Word) : (isolatedStore va n v s).pc = s.pc := by cases n <;> simp only [isolatedStore] <;> (try split) <;> rfl
@[simp] theorem isolatedStore_nextPC (va : Word) (n : Size) (v : Word) : (isolatedStore va n v s).nextPC = s.nextPC := by cases n <;> simp only [isolatedStore] <;> (try split) <;> rfl
@[simp] theorem isolatedStore_currentPC (va : Word) (n : Size) (v : Word) : (isolatedStore va n v s).currentPC = s.currentPC := by cases n <;> simp only [isolatedStore] <;> (try split) <;> rfl
@[simp] theorem isolatedStore_branchPending (va : Word) (n : Size) (v : Word) : (isolatedStore va n v s).branchPending = s.branchPending := by cases n <;> simp only [isolatedStore] <;> (try split) <;> rfl
@[simp] theorem isolatedStore_branchDelay (va : Word) (n : Size) (v : Word) : (isolatedStore va n v s).branchDelay = s.branchDelay := by cases n <;> simp only [isolatedStore] <;> (try split) <;> rfl
@[simp] theorem isolatedStore_ldNow (va : Word) (n : Size) (v : Word) : (isolatedStore va n v s).ldNow = s.ldNow := by cases n <;> simp only [isolatedStore] <;> (try split) <;> rfl
@[simp] theorem isolatedStore_ldNext (va : Word) (n : Size) (v : Word) : (isolatedStore va n v s).ldNext = s.ldNext := by cases n <;> simp only [isolatedStore] <;> (try split) <;> rfl
@[simp] theorem isolatedStore_mfAge (va : Word) (n : Size) (v : Word) : (isolatedStore va n v s).mfAge = s.mfAge := by cases n <;> simp only [isolatedStore] <;> (try split) <;> rfl
@[simp] theorem isolatedStore_hiloUnread (va : Word) (n : Size) (v : Word) : (isolatedStore va n v s).hiloUnread = s.hiloUnread := by cases n <;> simp only [isolatedStore] <;> (try split) <;> rfl
@[simp] theorem isolatedStore_status (va : Word) (n : Size) (v : Word) : (isolatedStore va n v s).status = s.status := by cases n <;> simp only [isolatedStore] <;> (try split) <;> rfl
@[simp] theorem isolatedStore_cause (va : Word) (n : Size) (v : Word) : (isolatedStore va n v s).cause = s.cause := by cases n <;> simp only [isolatedStore] <;> (try split) <;> rfl
@[simp] theorem isolatedStore_epc (va : Word) (n : Size) (v : Word) : (isolatedStore va n v s).epc = s.epc := by cases n <;> simp only [isolatedStore] <;> (try split) <;> rfl
@[simp] theorem isolatedStore_gte (va : Word) (n : Size) (v : Word) : (isolatedStore va n v s).gte = s.gte := by cases n <;> simp only [isolatedStore] <;> (try split) <;> rfl

end Sys2Proof.Machine
end

