-- ==== Sys2Proof/Laws/Registers.lean ====
section
/-! SUPPORT. Outcomes, and the register file with the load-delay slot: what a write does, once. -/

namespace Sys2Proof.Machine

open Sys2Proof.Safety

/-! ## Outcomes -/

section
variable {α β : Type}

@[simp] theorem andThen_next (a : α) (f : α → Result β) : andThen (.next a) f = f a := rfl
@[simp] theorem andThen_fault (e : Fault) (f : α → Result β) : andThen (.fault e) f = .fault e := rfl
@[simp] theorem andThen_refused (e : Refusal) (f : α → Result β) : andThen (.refused e) f = .refused e := rfl
@[simp] theorem mapNext_next (f : α → β) (a : α) : mapNext f (.next a) = .next (f a) := rfl
@[simp] theorem mapNext_fault (f : α → β) (e : Fault) : mapNext f (.fault e) = .fault e := rfl
@[simp] theorem mapNext_refused (f : α → β) (e : Refusal) : mapNext f (.refused e) = .refused e := rfl

theorem andThen_eq_next {r : Result α} {f : α → Result β} {b : β} :
    andThen r f = .next b ↔ ∃ a, r = .next a ∧ f a = .next b := by
  cases r <;> simp

theorem mapNext_eq_next {r : Result α} {f : α → β} {b : β} : mapNext f r = .next b ↔ ∃ a, r = .next a ∧ f a = b := by
  cases r <;> simp

theorem andThen_eq_fault {r : Result α} {f : α → Result β} {e : Fault} :
    andThen r f = .fault e ↔ r = .fault e ∨ ∃ a, r = .next a ∧ f a = .fault e := by
  cases r <;> simp

theorem mapNext_eq_fault {r : Result α} {f : α → β} {e : Fault} : mapNext f r = .fault e ↔ r = .fault e := by
  cases r <;> simp

theorem andThen_eq_refused {r : Result α} {f : α → Result β} {e : Refusal} :
    andThen r f = .refused e ↔ r = .refused e ∨ ∃ a, r = .next a ∧ f a = .refused e := by
  cases r <;> simp

theorem mapNext_eq_refused {r : Result α} {f : α → β} {e : Refusal} : mapNext f r = .refused e ↔ r = .refused e := by
  cases r <;> simp

/-- A loop refuses only as a round does. -/
theorem loopResult_refused {e : Refusal} (n : Nat) (f : Nat → α → Result α) (a : α) (h : loopResult n f a = .refused e) :
    ∃ i b, f i b = .refused e := by
  induction n with
  | zero => cases h
  | succ n ih =>
    rcases andThen_eq_refused.mp h with h | ⟨b, _, h⟩
    · exact ih h
    · exact ⟨n, b, h⟩

/-- A property of the start that the body keeps is one of the end. -/
theorem loop_keeps {P : α → Prop} (n : Nat) (f : Nat → α → α) (a : α) (h0 : P a) (hf : ∀ i a, i < n → P a → P (f i a)) :
    P (loop n f a) := by
  induction n with
  | zero => exact h0
  | succ n ih => exact hf n _ (by omega) (ih fun i a hi => hf i a (by omega))

/-- An indexed property that each round carries on. -/
theorem loop_induction {P : Nat → α → Prop} (n : Nat) (f : Nat → α → α) (a : α) (h0 : P 0 a)
    (hf : ∀ i a, i < n → P i a → P (i + 1) (f i a)) : P n (loop n f a) := by
  induction n with
  | zero => exact h0
  | succ n ih => exact hf n _ (by omega) (ih fun i a hi => hf i a (by omega))

/-- A property of the start that the body keeps is one of every end reached. -/
theorem loopResult_keeps {P : α → Prop} (n : Nat) (f : Nat → α → Result α) (a : α) (h0 : P a)
    (hf : ∀ i a b, i < n → P a → f i a = .next b → P b) : ∀ b, loopResult n f a = .next b → P b := by
  induction n with
  | zero => intro b h; cases h; exact h0
  | succ n ih =>
    intro b h
    obtain ⟨c, hc, hb⟩ := andThen_eq_next.mp h
    exact hf n c b (by omega) (ih (fun i a b hi => hf i a b (by omega)) c hc) hb

/-- A loop ends in a fault only if a round does, from a state that has the property. -/
theorem loopResult_fault {P : α → Prop} {e : Fault} (n : Nat) (f : Nat → α → Result α) (a : α) (h0 : P a)
    (hf : ∀ i a b, i < n → P a → f i a = .next b → P b) (hn : ∀ i a, i < n → P a → f i a ≠ .fault e) :
    loopResult n f a ≠ .fault e := by
  induction n with
  | zero => simp [loopResult]
  | succ n ih =>
    intro h
    rcases andThen_eq_fault.mp h with h | ⟨c, hc, h⟩
    · exact ih (fun i a b hi => hf i a b (by omega)) (fun i a hi => hn i a (by omega)) h
    · exact hn n c (by omega) (loopResult_keeps n f a h0 (fun i a b hi => hf i a b (by omega)) c hc) h

end

/-! ## Registers -/

variable (s : State)

@[simp] theorem State.reg_zero : s.reg 0#5 = 0#32 := rfl

theorem State.reg_of_ne {r : Reg} (h : r ≠ 0#5) : s.reg r = s.regs[r.toNat] := if_neg h

/-- Equal register files read equal. -/
theorem reg_congr {s t : State} (h : t.regs = s.regs) (q : Reg) : t.reg q = s.reg q := by
  unfold State.reg; rw [h]

theorem reg_setReg (r q : Reg) (v : Word) :
    (s.setReg r v).reg q = if q = r ∧ r ≠ 0#5 then v else s.reg q := by
  unfold State.setReg
  split
  · simp_all
  · rename_i hr
    by_cases hq : q = 0#5
    · subst hq; simp [Ne.symm hr]
    · rw [State.reg_of_ne _ hq, State.reg_of_ne _ hq, Vector.getElem_set]
      by_cases h : q = r
      · simp [h, hr]
      · rw [if_neg (fun hn => h (BitVec.eq_of_toNat_eq hn.symm)), if_neg (by simp [h])]

@[simp] theorem pendingOld_zero : s.pendingOld 0#5 = none := by
  unfold State.pendingOld; split <;> simp

theorem pendingOld_of_ldNow_none {r : Reg} (h : s.ldNow = none) : s.pendingOld r = none := by
  simp [State.pendingOld, h]

theorem pendingOld_eq_some {r : Reg} {v : Word} :
    s.pendingOld r = some v ↔ r ≠ 0#5 ∧ ∃ d, s.ldNow = some d ∧ d.reg = r ∧ d.old = v := by
  unfold State.pendingOld
  split
  · rename_i d h
    rw [h]
    by_cases hq : d.reg = r ∧ r ≠ 0#5
    · rw [if_pos hq]; simp [hq]
    · rw [if_neg hq]; simp; rintro hr rfl; exact absurd ⟨rfl, hr⟩ hq
  · rename_i h; simp [h]

@[simp] theorem readReg_zero : readReg s 0#5 = 0#32 := by simp [readReg]

theorem readReg_of_not_pending {r : Reg} (h : s.pendingOld r = none) : readReg s r = s.reg r := by simp [readReg, h]

/-- In the slot of a load of that register, an instruction reads the loaded or the old value (R503). -/
theorem readReg_of_pending {r : Reg} {old : Word} (h : s.pendingOld r = some old) :
    readReg s r = s.reg r ∨ readReg s r = old := by
  simp only [readReg, h]; split <;> simp

/-- What a result write does to every register (R21, R503). -/
theorem registerWritten_writeReg (rd : Reg) (v : Word) : RegisterWritten s (writeReg s rd v) rd v := by
  refine ⟨rfl, fun q hq => ?_, fun hr => ?_⟩ <;> unfold writeReg
  · split
    · split
      · rfl
      · rw [reg_setReg, if_neg (by simp [hq])]
    · rw [reg_setReg, if_neg (by simp [hq])]
  · split
    · rename_i old h
      split
      · exact .inr ⟨by simp [h], rfl⟩
      · exact .inl (by rw [reg_setReg, if_pos ⟨rfl, hr⟩])
    · exact .inl (by rw [reg_setReg, if_pos ⟨rfl, hr⟩])

/-- A state is determined by its fields. -/
theorem onlyRegisters_writeReg (rd : Reg) (v : Word) : OnlyRegisters s (writeReg s rd v) := by
  unfold OnlyRegisters writeReg State.setReg; split <;> (try split) <;> (try split) <;> rfl

theorem onlyLoaded_writeDelayed (rt : Reg) (v : Word) : OnlyLoaded s (writeDelayed s rt v) := by
  unfold OnlyLoaded writeDelayed; conv_lhs => rw [onlyRegisters_writeReg s rt v]

theorem onlyLoaded_writeMerged (k : LoadKind) (rt : Reg) (v : Word) : OnlyLoaded s (writeMerged s k rt v) := by
  unfold OnlyLoaded writeMerged
  split
  · unfold State.setReg; split <;> rfl
  · conv_lhs => rw [onlyRegisters_writeReg s rt v]

theorem registerWritten_of_regs {s s' t t' : State} {rd : Reg} {v : Word} (h : RegisterWritten s t rd v)
    (hs : s'.regs = s.regs) (hl : s'.ldNow = s.ldNow) (ht : t'.regs = t.regs) : RegisterWritten s' t' rd v := by
  have hr := reg_congr hs; have htr := reg_congr ht
  have hp : ∀ q, s'.pendingOld q = s.pendingOld q := fun q => by simp [State.pendingOld, hl]
  obtain ⟨h0, h1, h2⟩ := h
  exact ⟨by rw [htr]; exact h0, fun q hq => by rw [htr, hr]; exact h1 q hq, fun hq => by rw [htr, hr, hp]; exact h2 hq⟩

theorem registerWritten_writeDelayed (rt : Reg) (v : Word) : RegisterWritten s (writeDelayed s rt v) rt v :=
  registerWritten_of_regs (registerWritten_writeReg s rt v) rfl rfl rfl

theorem registerWritten_setReg (rt : Reg) (v : Word) : RegisterWritten s (s.setReg rt v) rt v :=
  ⟨rfl, fun q hq => by rw [reg_setReg, if_neg (by simp [hq])],
    fun hr => .inl (by rw [reg_setReg, if_pos ⟨rfl, hr⟩])⟩

/-- What LWL and LWR do to every register (R21, R503). -/
theorem registerWritten_writeMerged (k : LoadKind) (rt : Reg) (v : Word) :
    RegisterWritten s (writeMerged s k rt v) rt v := by
  by_cases h : s.completesPair k rt = true
  · exact registerWritten_of_regs (registerWritten_setReg s rt v) rfl rfl (by simp [h])
  · exact registerWritten_of_regs (registerWritten_writeReg s rt v) rfl rfl (by simp [h])

/-- The second half of a pair is not raced (R503, log 13). -/
theorem reg_writeMerged_pair {k : LoadKind} {rt : Reg} (h : s.completesPair k rt = true) (v : Word) (hr : rt ≠ 0#5) :
    (writeMerged s k rt v).reg rt = v := by
  rw [reg_congr (s := s.setReg rt v) (by simp [h]), reg_setReg, if_pos ⟨rfl, hr⟩]

/-! ## The three forms of a result -/

/-- An instruction that ends in a result write. -/
theorem writes_of_exec {i : Instr} {rd : Reg} {v : Word} (h : exec i s = .next (writeReg s rd v)) : Writes i s rd v :=
  ⟨_, h, onlyRegisters_writeReg s rd v, registerWritten_writeReg s rd v⟩

/-- An instruction that ends in a delayed write. -/
theorem loads_of_exec {i : Instr} {rt : Reg} {v : Word} (h : exec i s = .next (writeDelayed s rt v)) : Loads i s rt v :=
  ⟨_, h, onlyLoaded_writeDelayed s rt v, registerWritten_writeDelayed s rt v, fun ⟨_, _, _, hk⟩ => by simp at hk, rfl⟩

theorem completesPair_iff {k : LoadKind} {rt : Reg} : s.completesPair k rt = true ↔ PairPending s rt k := by
  unfold State.completesPair PairPending
  split
  · rename_i d h; simp only [h, Option.some.injEq, exists_eq_left', Bool.and_eq_true, beq_iff_eq]
    cases k <;> cases d.kind <;> simp [LoadKind.completes]
  · rename_i h; simp [h]

/-- What the delayed write of LWL and LWR leaves (R280, R503, log 13). -/
theorem loadWritten_writeMerged (k : LoadKind) (rt : Reg) (v : Word) : LoadWritten s (writeMerged s k rt v) rt k v :=
  ⟨registerWritten_writeMerged s k rt v, fun h hr => reg_writeMerged_pair s ((completesPair_iff s).mpr h) v hr, rfl⟩

/-- An instruction that ends in the delayed write of LWL or LWR. -/
theorem loadsAs_of_exec {k : LoadKind} {i : Instr} {rt : Reg} {v : Word} (h : exec i s = .next (writeMerged s k rt v)) :
    LoadsAs k i s rt v :=
  ⟨_, h, onlyLoaded_writeMerged s k rt v, loadWritten_writeMerged s k rt v⟩

end Sys2Proof.Machine
end

