-- ==== Sys2Proof/Laws/Gpu.lean ====
section
/-! SUPPORT. What drawing and the command engine can do to the GPU, said once: every command changes VRAM by cell writes
only, and the engine's invariant is kept. -/

namespace Sys2Proof.Machine

open Sys2Proof.Safety

/-! ## Cells -/

theorem cellKey_lt (x y : Nat) : cellKey x y < 524288 := by unfold cellKey; omega

/-- Two cells share a key only if their coordinates agree modulo 1024 and 512. -/
theorem cellKey_eq_iff (x y a b : Nat) : cellKey x y = cellKey a b ↔ x % 1024 = a % 1024 ∧ y % 512 = b % 512 := by
  unfold cellKey; omega

theorem cell_setCell {g : Gpu} (hw : Sparse.wf g.vram = true) (x y a b : Nat) (c : Cell16) :
    (g.setCell x y c).cell a b = if cellKey a b = cellKey x y then c else g.cell a b := Sparse.read_write hw _ _ _

theorem cell_setCell_of_ne (g : Gpu) {x y a b : Nat} (c : Cell16) (h : cellKey a b ≠ cellKey x y) :
    (g.setCell x y c).cell a b = g.cell a b := Sparse.read_write_of_ne _ _ h

theorem wf_setCell {g : Gpu} (hw : Sparse.wf g.vram = true) (x y : Nat) (c : Cell16) :
    Sparse.wf (g.setCell x y c).vram = true := Sparse.wf_write hw _ _

theorem vramOnly_setCell {g : Gpu} (hw : vramOnly g.vram = true) (x y : Nat) (c : Cell16) :
    vramOnly (g.setCell x y c).vram = true :=
  Sparse.all_write (p := fun k => decide (k < 524288)) c hw (decide_eq_true (cellKey_lt x y))

@[simp] theorem setCell_fifo (g : Gpu) (x y : Nat) (c : Cell16) : (g.setCell x y c).fifo = g.fifo := rfl
@[simp] theorem setCell_transfer (g : Gpu) (x y : Nat) (c : Cell16) : (g.setCell x y c).transfer = g.transfer := rfl
@[simp] theorem setCell_draw (g : Gpu) (x y : Nat) (c : Cell16) : (g.setCell x y c).draw = g.draw := rfl
@[simp] theorem setCell_stat31 (g : Gpu) (x y : Nat) (c : Cell16) : (g.setCell x y c).stat31 = g.stat31 := rfl

@[simp] theorem maskBit_withMask (m : Bool) (c : BitVec 15) : maskBit (withMask m c) = m := by
  unfold maskBit withMask
  show BitVec.getLsbD (w := 1 + 15) _ 15 = _
  rw [BitVec.getLsbD_append]; simp

/-! ## Drawing -/

/-- A fragment leaves VRAM alone or writes its own cell, never over a set mask bit while that is checked, and with the
mask bit set while that is forced (R469, R482). -/
theorem drawFragment_cases {pr : Primitive} {f : Fragment} {g g' : Gpu} (h : drawFragment pr f g = .next g') :
    g' = g ∨ ∃ c, g' = g.setCell f.x.toNat f.y.toNat c ∧
      ¬ (g.draw.checkMask = true ∧ maskBit (g.cell f.x.toNat f.y.toNat) = true) ∧
      (g.draw.setMask = true → maskBit c = true) := by
  have hs : ∀ (b : Bool) (c : BitVec 15), ∃ c', storeFragment pr f.x.toNat f.y.toNat b c g =
      g.setCell f.x.toNat f.y.toNat c' ∧ (g.draw.setMask = true → maskBit c' = true) := fun b c =>
    ⟨_, rfl, fun hm => by rw [maskBit_withMask, hm]; rfl⟩
  unfold drawFragment at h
  simp only at h
  split at h
  · cases h; exact .inl rfl
  · rename_i hm
    have hm' : ¬ (g.draw.checkMask = true ∧ maskBit (g.cell f.x.toNat f.y.toNat) = true) := by simpa using hm
    split at h
    · obtain ⟨t, -, h⟩ := andThen_eq_next.mp h
      split at h
      · cases h; exact .inl rfl
      · split at h <;> cases h
        · obtain ⟨c, hc, hb⟩ := hs (maskBit t) (t.extractLsb' 0 15); exact .inr ⟨c, hc, hm', hb⟩
        · obtain ⟨c, hc, hb⟩ := hs (maskBit t) (modulate pr.dither f.x.toNat f.y.toNat t f)
          exact .inr ⟨c, hc, hm', hb⟩
    · cases h
      obtain ⟨c, hc, hb⟩ := hs false (flatColour pr.dither f.x.toNat f.y.toNat f); exact .inr ⟨c, hc, hm', hb⟩

/-- A property that the fragments keep is kept by a list of them. -/
theorem drawFragments_keeps {P : Gpu → Prop} {pr : Primitive} {fs : List Fragment} {g g' : Gpu} (h0 : P g)
    (hf : ∀ f ∈ fs, ∀ g g', P g → drawFragment pr f g = .next g' → P g') (h : drawFragments pr fs g = .next g') :
    P g' := by
  induction fs generalizing g with
  | nil => cases h; exact h0
  | cons f fs ih =>
    obtain ⟨a, ha, h⟩ := andThen_eq_next.mp h
    exact ih (hf f (by simp) _ _ h0 ha) (fun f hf' => hf f (by simp [hf'])) h

/-- A triangle's fragments lie in the drawing area (R467, R481). -/
theorem insideArea_of_mem {a b c : Vertex} {area : DrawArea} {f : Fragment} (h : f ∈ triangleFragments a b c area) :
    insideArea area f.x f.y = true ∧ insideTriangle a b c f.x f.y = true := by
  unfold triangleFragments at h
  split at h
  · simp at h
  · obtain ⟨f0, hf0, rfl⟩ := List.mem_map.mp h
    have hsub : ∀ l : List Fragment, ∀ x ∈ onePerCell l, x ∈ l := by
      intro l
      induction l with
      | nil => simp [onePerCell]
      | cons y ys ih => intro x hx; simp only [onePerCell, List.mem_cons, List.mem_filter] at hx ⊢; tauto
    have := hsub _ _ hf0
    simp only [List.mem_filter, Bool.and_eq_true] at this
    exact this.2

/-- What one fragment of a primitive may do, for fragments inside the area. -/
def DrawnInside (g g' : Gpu) : Prop :=
  ∃ x y c, insideArea g.draw.area (x : Nat) (y : Nat) = true ∧ g' = g.setCell x y c ∧
    ¬ (g.draw.checkMask = true ∧ maskBit (g.cell x y) = true) ∧ (g.draw.setMask = true → maskBit c = true)

theorem drawnInside_of_drawFragment {pr : Primitive} {f : Fragment} {g g' : Gpu}
    (ha : insideArea g.draw.area f.x f.y = true) (h : drawFragment pr f g = .next g') : g' = g ∨ DrawnInside g g' := by
  rcases drawFragment_cases h with h | ⟨c, h1, h2, h3⟩
  · exact .inl h
  · refine .inr ⟨_, _, c, ?_, h1, h2, h3⟩
    unfold insideArea at *
    simp only [decide_eq_true_eq] at *
    omega

/-- A triangle keeps what each write inside the area keeps (the area does not change meanwhile). -/
theorem drawTriangle_keeps {P : Gpu → Prop} {pr : Primitive} {a b c : Vertex} {g g' : Gpu} (h0 : P g)
    (hP : ∀ g g', P g → DrawnInside g g' → P g') (h : drawTriangle pr a b c g = .next g') :
    P g' ∧ g'.draw = g.draw := by
  refine drawFragments_keeps (P := fun x => P x ∧ x.draw = g.draw) ⟨h0, rfl⟩ ?_ h
  rintro f hf x x' ⟨hx, hd⟩ hxx
  have ha := (insideArea_of_mem hf).1
  rw [← hd] at ha
  rcases drawnInside_of_drawFragment ha hxx with rfl | h'
  · exact ⟨hx, hd⟩
  · exact ⟨hP _ _ hx h', by obtain ⟨_, _, _, _, rfl, _⟩ := h'; exact hd⟩

/-- A polygon keeps what each write inside the area keeps, from the state with its own texture page. -/
theorem drawPolygon_keeps {P : Gpu → Prop} {f : PolygonFlags} {ws : List Word} {g g' : Gpu} (h0 : P g)
    (hpage : ∀ page, P { g with draw := withPolygonPage page g.draw })
    (hP : ∀ g g', P g → DrawnInside g g' → P g') (h : drawPolygon f ws g = .next g') : P g' := by
  unfold drawPolygon at h
  simp only at h
  generalize hg : (if f.textured = true then
    { g with draw := withPolygonPage ((ws.getD (f.stride + 2) 0#32).extractLsb' 16 9) g.draw } else g) = g1 at h
  have h1 : P g1 := by rw [← hg]; split; exact hpage _; exact h0
  obtain ⟨g2, h2, h⟩ := andThen_eq_next.mp h
  have h2' := (drawTriangle_keeps h1 hP h2).1
  split at h
  · exact (drawTriangle_keeps h2' hP h).1
  · cases h; exact h2'

/-- A rectangle keeps what each write inside the area keeps. -/
theorem drawRectangle_keeps {P : Gpu → Prop} {f : RectangleFlags} {ws : List Word} {g g' : Gpu} (h0 : P g)
    (hP : ∀ g g', P g → DrawnInside g g' → P g') (h : drawRectangle f ws g = .next g') : P g' := by
  unfold drawRectangle at h
  simp only at h
  refine loopResult_keeps _ _ _ h0 (fun j a b _ ha hb => ?_) _ h
  refine loopResult_keeps _ _ _ ha (fun i x y _ hx hy => ?_) _ hb
  split at hy
  · rename_i hin
    rcases drawnInside_of_drawFragment hin hy with rfl | h'
    · exact hx
    · exact hP _ _ hx h'
  · cases hy; exact hx

/-! ## The engine -/

/-- A command keeps what cell writes, new drawing states and new transfers keep (R462). -/
theorem runCommand_keeps {P : Gpu → Prop} {c : GpuCommand} {ws : List Word} {g g' : Gpu} (h0 : P g)
    (hcell : ∀ x y c g, P g → P (g.setCell x y c)) (hdraw : ∀ d g, P g → P { g with draw := d })
    (htransfer : ∀ m p s, P { g with transfer := startTransfer m p s }) (h : runCommand c ws g = .next g') : P g' := by
  have hin : ∀ g g', P g → DrawnInside g g' → P g' := by
    rintro g g' hg ⟨x, y, c, -, rfl, -⟩; exact hcell x y c g hg
  cases c <;> simp only [runCommand] at h
  case polygon f => exact drawPolygon_keeps h0 (fun page => hdraw _ _ h0) hin h
  case rectangle f => exact drawRectangle_keeps h0 hin h
  case fill =>
    cases h
    exact loop_keeps _ _ _ h0 fun j a _ ha => loop_keeps _ _ _ ha fun i a _ ha => hcell _ _ _ _ ha
  case blit =>
    cases h
    refine loop_keeps _ _ _ h0 fun j a _ ha => loop_keeps _ _ _ ha fun i a _ ha => ?_
    unfold storeMasked; split
    · exact ha
    · exact hcell _ _ _ _ ha
  all_goals cases h
  all_goals first | exact h0 | exact hdraw _ _ h0 | exact htransfer _ _ _

/-- A command ends in a next state or in the refusal of texture depth 3 (R464). -/
theorem drawFragment_outcome (pr : Primitive) (f : Fragment) (g : Gpu) :
    (∃ g', drawFragment pr f g = .next g') ∨ drawFragment pr f g = .refused .gpuTextureDepth := by
  have hs : (∃ t, sample pr f.u f.v g = .next t) ∨ sample pr f.u f.v g = .refused .gpuTextureDepth := by
    unfold sample; simp only; split <;> simp
  unfold drawFragment
  simp only
  split
  · exact .inl ⟨_, rfl⟩
  · split
    · rcases hs with ⟨t, h⟩ | h <;> rw [h]
      · simp only [andThen_next]; split
        · exact .inl ⟨_, rfl⟩
        · split <;> exact .inl ⟨_, rfl⟩
      · exact .inr rfl
    · exact .inl ⟨_, rfl⟩

theorem drawFragments_outcome (pr : Primitive) (fs : List Fragment) (g : Gpu) :
    (∃ g', drawFragments pr fs g = .next g') ∨ drawFragments pr fs g = .refused .gpuTextureDepth := by
  induction fs generalizing g with
  | nil => exact .inl ⟨_, rfl⟩
  | cons f fs ih =>
    unfold drawFragments
    rcases drawFragment_outcome pr f g with ⟨g', h⟩ | h <;> rw [h]
    · exact ih g'
    · exact .inr rfl

/-- A loop over total-or-refusing rounds is total or refuses. -/
theorem loopResult_outcome {α : Type} {r : Refusal} (n : Nat) (f : Nat → α → Result α)
    (hf : ∀ i a, (∃ b, f i a = .next b) ∨ f i a = .refused r) (a : α) :
    (∃ b, loopResult n f a = .next b) ∨ loopResult n f a = .refused r := by
  induction n with
  | zero => exact .inl ⟨a, rfl⟩
  | succ n ih =>
    unfold loopResult
    rcases ih with ⟨b, h⟩ | h <;> rw [h]
    · exact hf n b
    · exact .inr rfl

theorem runCommand_outcome (c : GpuCommand) (ws : List Word) (g : Gpu) :
    (∃ g', runCommand c ws g = .next g') ∨ runCommand c ws g = .refused .gpuTextureDepth := by
  cases c <;> simp only [runCommand]
  case polygon f =>
    unfold drawPolygon
    simp only
    generalize (if f.textured = true then
      { g with draw := withPolygonPage ((ws.getD (f.stride + 2) 0#32).extractLsb' 16 9) g.draw } else g) = g1
    rcases drawFragments_outcome _ _ g1 with ⟨g2, h⟩ | h
    · unfold drawTriangle; rw [h]
      simp only [andThen_next]; split
      · exact drawFragments_outcome _ _ _
      · exact .inl ⟨_, rfl⟩
    · unfold drawTriangle; rw [h]; exact .inr rfl
  case rectangle f =>
    unfold drawRectangle
    refine loopResult_outcome _ _ (fun j a => loopResult_outcome _ _ (fun i b => ?_) a) g
    split
    · exact drawFragment_outcome _ _ _
    · exact .inl ⟨_, rfl⟩
  all_goals exact .inl ⟨_, rfl⟩

/-- Every command has from 1 to 12 words (R462). -/
theorem words_bounds (c : GpuCommand) : 1 ≤ c.words ∧ c.words ≤ 12 := by
  cases c with
  | polygon f =>
    obtain ⟨s, q, t, _, _⟩ := f
    cases s <;> cases q <;> cases t <;> simp [GpuCommand.words, PolygonFlags.vertices]
  | rectangle f =>
    obtain ⟨z, t, _, _⟩ := f
    cases t <;> simp only [GpuCommand.words] <;> split <;> simp
  | _ => simp [GpuCommand.words]

theorem sizeWidth_bounds (s : Word) : 1 ≤ sizeWidth s ∧ sizeWidth s ≤ 1024 := by
  unfold sizeWidth
  have := ((s.extractLsb' 0 16 - 1#16).extractLsb' 0 10).isLt
  omega

theorem sizeHeight_bounds (s : Word) : 1 ≤ sizeHeight s ∧ sizeHeight s ≤ 512 := by
  unfold sizeHeight
  have := ((s.extractLsb' 16 16 - 1#16).extractLsb' 0 9).isLt
  omega

theorem cursorInside_startTransfer (m : TransferMode) (p s : Word) : cursorInside (startTransfer m p s) = true := by
  have h1 := sizeWidth_bounds s; have h2 := sizeHeight_bounds s
  unfold cursorInside startTransfer
  simp only [Bool.or_eq_true, decide_eq_true_eq]
  exact .inr ⟨by omega, by omega, by omega, by omega⟩

theorem cursorInside_advance {t : Transfer} (h : cursorInside t = true) (hm : t.mode ≠ .fifo) :
    cursorInside t.advance = true := by
  unfold cursorInside at *
  have h' : t.tx < t.w ∧ t.ty < t.h ∧ t.w ≤ 1024 ∧ t.h ≤ 512 := by simpa [hm] using h
  unfold Transfer.advance
  split
  · simp only; split
    · simp
    · simp only [Bool.or_eq_true, decide_eq_true_eq]; right; omega
  · simp only [Bool.or_eq_true, decide_eq_true_eq]; right; omega

/-- The pixels still to move in a transfer. -/
def Transfer.remaining (t : Transfer) : Nat := if t.mode = .fifo then 0 else (t.h - t.ty) * t.w - t.tx

theorem remaining_startTransfer {m : TransferMode} (hm : m ≠ .fifo) (p s : Word) :
    (startTransfer m p s).remaining = sizeWidth s * sizeHeight s := by
  simp [Transfer.remaining, startTransfer, hm, Nat.mul_comm]

/-- Every pixel leaves one less; the mode is Fifo when none is left. -/
theorem remaining_advance {t : Transfer} (h : cursorInside t = true) (hm : t.mode ≠ .fifo) :
    0 < t.remaining ∧ t.advance.remaining + 1 = t.remaining ∧ (t.advance.mode = .fifo ↔ t.remaining = 1) ∧
    (t.remaining ≠ 1 → t.advance.mode = t.mode) := by
  unfold cursorInside at h
  simp only [Bool.or_eq_true, beq_iff_eq, hm, false_or, decide_eq_true_eq] at h
  obtain ⟨hx, hy, _, _⟩ := h
  have hr : t.remaining = (t.h - t.ty) * t.w - t.tx := by simp [Transfer.remaining, hm]
  obtain ⟨d, hd⟩ : ∃ d, t.h - t.ty = d + 1 := ⟨t.h - t.ty - 1, by omega⟩
  rw [hd, Nat.add_mul, Nat.one_mul] at hr
  rw [hr]
  unfold Transfer.advance
  split
  · rename_i hw
    simp only
    split
    · rename_i hh
      have : d = 0 := by omega
      subst this
      simp [Transfer.remaining]; omega
    · rename_i hh
      have h1 : t.h - (t.ty + 1) = d := by omega
      have h2 : 0 < d := by omega
      have h3 : t.w ≤ d * t.w := Nat.le_mul_of_pos_left _ h2
      simp only [Transfer.remaining, hm, if_false, h1, false_iff, implies_true, and_true]
      omega
  · rename_i hw
    simp only [Transfer.remaining, hm, if_false, hd, Nat.add_mul, Nat.one_mul, false_iff, implies_true, and_true]
    omega

/-- The two half-words of a word put together. -/
theorem low_append (hi lo : BitVec 16) : (hi ++ lo).extractLsb' 0 16 = lo := by
  ext i h
  rw [BitVec.getElem_extractLsb', BitVec.getLsbD_append]; simp [h]
theorem high_append (hi lo : BitVec 16) : (hi ++ lo).extractLsb' 16 16 = hi := by
  ext i h
  rw [BitVec.getElem_extractLsb', BitVec.getLsbD_append]; simp [BitVec.getLsbD_eq_getElem h]

/-- A word written while a second cell is due writes both its half-words (R475). -/
theorem writePixels_two {w : Word} {g : Gpu} (h : g.transfer.advance.mode = .write) :
    writePixels w g = writePixel (w.extractLsb' 16 16) (writePixel (w.extractLsb' 0 16) g) := if_pos h

/-- A word written when its first cell ends the rectangle writes no other (R475). -/
theorem writePixels_last {w : Word} {g : Gpu} (h : g.transfer.advance.mode ≠ .write) :
    writePixels w g = writePixel (w.extractLsb' 0 16) g := if_neg h

/-- A load of GPUREAD while a second cell is due returns both (R476). -/
theorem gpuRead_two {p : Platform} (hm : p.gpu.transfer.mode = .read) (h : p.gpu.transfer.advance.mode = .read) :
    gpuRead p = ((readPixel (readPixel p.gpu).2).1 ++ (readPixel p.gpu).1,
      { p with gpu := (readPixel (readPixel p.gpu).2).2 }) := by
  unfold gpuRead; rw [if_pos hm]; exact if_pos h

/-- A load of GPUREAD whose first cell ends the rectangle returns a draw above it (R476). -/
theorem gpuRead_last {p : Platform} (hm : p.gpu.transfer.mode = .read) (h : p.gpu.transfer.advance.mode ≠ .read) :
    gpuRead p = ((drawWord p).1.extractLsb' 16 16 ++ (readPixel p.gpu).1,
      { (drawWord p).2 with gpu := (readPixel p.gpu).2 }) := by
  unfold gpuRead; rw [if_pos hm]; exact if_neg h

theorem gpuInv_writePixel {g : Gpu} (h : GpuInv g) (hm : g.transfer.mode = .write) (c : Cell16) :
    GpuInv (writePixel c g) :=
  ⟨wf_setCell h.vram _ _ c, vramOnly_setCell h.cells _ _ c, h.fifo, cursorInside_advance h.cursor (by simp [hm])⟩

theorem gpuInv_readPixel {g : Gpu} (h : GpuInv g) (hm : g.transfer.mode = .read) : GpuInv (readPixel g).2 :=
  ⟨h.vram, h.cells, h.fifo, cursorInside_advance h.cursor (by simp [hm])⟩

/-- A known command's beginning, one word longer, is complete or again a beginning (R461). -/
theorem fifoPartial_snoc {fifo : List Word} (h : fifoPartial fifo = true) (v : Word) {c : GpuCommand}
    (hc : gpuCommand (((fifo ++ [v]).getD 0 0#32).extractLsb' 24 8) = some c) (hl : (fifo ++ [v]).length ≠ c.words) :
    fifoPartial (fifo ++ [v]) = true := by
  have hb := words_bounds c
  cases fifo with
  | nil =>
    have hc' : gpuCommand (v.extractLsb' 24 8) = some c := by simpa using hc
    simp only [List.nil_append, fifoPartial, hc', decide_eq_true_eq, List.length_singleton] at hl ⊢
    omega
  | cons w ws =>
    have hc' : gpuCommand (w.extractLsb' 24 8) = some c := by simpa using hc
    simp only [List.cons_append, fifoPartial, hc', decide_eq_true_eq, List.length_cons, List.length_append] at h hl ⊢
    simp at *
    omega

/-- The FIFO of the invariant always has room (R461, R462). -/
theorem fifoPartial_room {fifo : List Word} (h : fifoPartial fifo = true) (v : Word) : (fifo ++ [v]).length ≤ 12 := by
  cases fifo with
  | nil => simp
  | cons w ws =>
    unfold fifoPartial at h
    simp only at h
    split at h
    · simp at h
    · rename_i c _
      have hb := words_bounds c
      simp at *; omega

/-- A word to GP0 keeps the GPU's invariant. -/
theorem gpuInv_gp0 {v : Word} {g g' : Gpu} (h : GpuInv g) (hg : gp0 v g = .next g') : GpuInv g' := by
  unfold gp0 at hg
  split at hg
  · rename_i hm
    cases hg
    unfold writePixels
    simp only
    have h1 := gpuInv_writePixel h hm (v.extractLsb' 0 16)
    split
    · rename_i hm'; exact gpuInv_writePixel h1 hm' _
    · exact h1
  · simp only at hg
    split at hg
    · cases hg
    · split at hg
      · cases hg
      · rename_i c hc
        split at hg
        · obtain ⟨g2, h2, rfl⟩ := mapNext_eq_next.mp hg
          have key := runCommand_keeps (g := { g with fifo := g.fifo ++ [v] })
            (P := fun x => Sparse.wf x.vram = true ∧ vramOnly x.vram = true ∧ cursorInside x.transfer = true)
            ⟨h.vram, h.cells, h.cursor⟩
            (fun x y c g hg => ⟨wf_setCell hg.1 x y c, vramOnly_setCell hg.2.1 x y c, hg.2.2⟩)
            (fun d g hg => hg) (fun m p s => ⟨h.vram, h.cells, cursorInside_startTransfer m p s⟩) h2
          exact ⟨key.1, key.2.1, rfl, key.2.2⟩
        · cases hg
          rename_i hl
          exact ⟨h.vram, h.cells, fifoPartial_snoc h.fifo v hc hl, h.cursor⟩

/-- A word to GP0 completes, or is refused; from a state of the invariant it does not overflow the FIFO (R461). -/
theorem gp0_outcome {g : Gpu} (h : GpuInv g) (v : Word) : ∀ f, gp0 v g ≠ .fault f := by
  intro f
  unfold gp0
  split
  · simp
  · simp only
    have := fifoPartial_room h.fifo v
    rw [if_neg (by omega)]
    split
    · simp
    · split
      · rename_i c _ _
        rcases runCommand_outcome c (g.fifo ++ [v]) { g with fifo := g.fifo ++ [v] } with ⟨g', hg⟩ | hg <;> rw [hg] <;> simp
      · simp

/-- The refusals of a word to GP0 (R462, R464). -/
theorem gp0_refused {v : Word} {g : Gpu} {r : Refusal} (h : gp0 v g = .refused r) :
    r ∈ [Refusal.gpuUnknownCommand, .gpuTextureDepth] := by
  unfold gp0 at h
  split at h
  · cases h
  · simp only at h
    split at h
    · cases h
    · split at h
      · cases h; simp
      · rename_i c _
        split at h
        · rcases runCommand_outcome c (g.fifo ++ [v]) { g with fifo := g.fifo ++ [v] } with ⟨g', hg⟩ | hg <;>
            rw [hg] at h <;> cases h
          simp
        · cases h

theorem gpuRead_frame (p : Platform) :
    (gpuRead p).2 = { p with gpu := (gpuRead p).2.gpu, draws := (gpuRead p).2.draws } := by
  unfold gpuRead drawWord; simp only; split
  · split <;> rfl
  · rfl

theorem gpuInv_gpuRead {p : Platform} (h : GpuInv p.gpu) : GpuInv (gpuRead p).2.gpu := by
  unfold gpuRead drawWord; simp only; split
  · rename_i hm
    have h1 := gpuInv_readPixel h hm
    split
    · rename_i hm'; exact gpuInv_readPixel h1 hm'
    · exact h1
  · exact h

theorem gpuStat_frame (p : Platform) :
    (gpuStat p).2 = { p with gpu := { p.gpu with stat31 := !p.gpu.stat31 }, draws := p.draws + 1 } := rfl

theorem gp1_frame (v : Word) (p : Platform) : gp1 v p = { p with gpu := (gp1 v p).gpu, draws := (gp1 v p).draws } := by
  unfold gp1; split <;> rfl

theorem gpuInv_gp1 {p : Platform} (h : GpuInv p.gpu) (v : Word) : GpuInv (gp1 v p).gpu := by
  unfold gp1; split
  · exact ⟨h.vram, h.cells, rfl, rfl⟩
  · exact ⟨h.vram, h.cells, rfl, rfl⟩
  · exact h

end Sys2Proof.Machine
end

