-- ==== Sys2Proof/Laws/Dma.lean ====
section
/-! SUPPORT. What a DMA transfer can do, once: RAM, the GPU, the controller, one I_STAT bit and the draw counter; and the
platform's invariant is kept (R438 to R445). -/

namespace Sys2Proof.Machine

open Sys2Proof.Safety

/-! ## Addresses -/

theorem dmaAddress_lt (a : Word) : dmaAddress a < 0x200000 := by
  unfold dmaAddress
  rw [BitVec.toNat_and]
  exact lt_of_le_of_lt Nat.and_le_right (by decide)

/-- A DMA address as arithmetic: the 2 MiB of RAM, aligned (R439). -/
theorem dmaAddress_eq (a : Word) : dmaAddress a = a.toNat % 0x200000 / 4 * 4 := by
  unfold dmaAddress
  have h : a &&& 0x001FFFFC#32 = (0#11 ++ a.extractLsb' 2 19 ++ 0#2 : BitVec 32) := by
    apply BitVec.eq_of_getLsbD_eq; intro k hk
    have : BitVec.getLsbD (w := 32) (0#11 ++ a.extractLsb' 2 19 ++ 0#2 : BitVec 32) k =
        if k < 2 then false else if k < 21 then a.getLsbD k else false := by
      show BitVec.getLsbD (w := 11 + 19 + 2) _ k = _
      simp only [BitVec.getLsbD_append, BitVec.getLsbD_extractLsb', BitVec.getLsbD_zero]
      interval_cases k <;> simp
    rw [this, BitVec.getLsbD_and]
    interval_cases k <;> simp
  rw [h]
  show BitVec.toNat (w := 11 + 19 + 2) _ = _
  rw [BitVec.toNat_append, BitVec.toNat_append, ← Nat.shiftLeft_add_eq_or_of_lt (by decide),
    ← Nat.shiftLeft_add_eq_or_of_lt (a.extractLsb' 2 19).isLt]
  simp [BitVec.extractLsb'_toNat, Nat.shiftRight_eq_div_pow, Nat.shiftLeft_eq]
  omega

theorem isStorage_dmaAddress (a : Word) (k : Nat) (h : k < 4) : isStorage (dmaAddress a + k) = true := by
  have : dmaAddress a + k < 0x200000 := by rw [dmaAddress_eq]; omega
  unfold isStorage target; rw [if_pos this]

/-! ## What changes -/

/-- Nothing outside RAM, the GPU, the DMA controller, I_STAT and the draw counter differs. -/
def DmaFrame (p q : Platform) : Prop :=
  q = { p with mem := q.mem, gpu := q.gpu, dma := q.dma, iStat := q.iStat, draws := q.draws } ∧
  (∀ b, 0x200000 ≤ b → q.mem.readByte b = p.mem.readByte b) ∧
  ∀ b, b ≠ 3 → q.iStat.getLsbD b = p.iStat.getLsbD b

theorem DmaFrame.rfl' (p : Platform) : DmaFrame p p := ⟨rfl, fun _ _ => rfl, fun _ _ => rfl⟩

theorem DmaFrame.trans {p q r : Platform} (h1 : DmaFrame p q) (h2 : DmaFrame q r) : DmaFrame p r := by
  obtain ⟨a1, a2, a3⟩ := h1; obtain ⟨b1, b2, b3⟩ := h2
  refine ⟨?_, fun b hb => (b2 b hb).trans (a2 b hb), fun b hb => (b3 b hb).trans (a3 b hb)⟩
  rw [b1, a1]

theorem DmaFrame.ignoredWrites {p q : Platform} (h : DmaFrame p q) : q.ignoredWrites = p.ignoredWrites := by rw [h.1]

/-- A round of a transfer keeps the frame and the invariant. -/
def Keeps (p q : Platform) : Prop := DmaFrame p q ∧ (PlatformInv p → PlatformInv q)

theorem Keeps.rfl' (p : Platform) : Keeps p p := ⟨.rfl' p, id⟩

theorem Keeps.trans {p q r : Platform} (h1 : Keeps p q) (h2 : Keeps q r) : Keeps p r :=
  ⟨h1.1.trans h2.1, h2.2 ∘ h1.2⟩

theorem platformInv_mem {p : Platform} (h : PlatformInv p) {m : Memory} (hw : Memory.wf m = true)
    (hs : storageOnly m = true) : PlatformInv { p with mem := m } := ⟨hw, hs, h.gpu, h.timers, h.chcr, h.irq⟩

theorem platformInv_gpu {p : Platform} (h : PlatformInv p) {g : Gpu} (hg : GpuInv g) (n : Nat) :
    PlatformInv { p with gpu := g, draws := n } := ⟨h.memory, h.storage, hg, h.timers, h.chcr, h.irq⟩

theorem platformInv_draws {p : Platform} (h : PlatformInv p) (n : Nat) : PlatformInv { p with draws := n } :=
  platformInv_gpu h h.gpu n

theorem keeps_dmaWrite (a v : Word) (p : Platform) : Keeps p (dmaWrite a v p) := by
  refine ⟨⟨rfl, fun b hb => ?_, fun _ _ => rfl⟩, fun h => platformInv_mem h ?_ ?_⟩
  · have := dmaAddress_lt a
    refine Memory.readByte_write_outside p.mem (dmaAddress a) .word v b (.inr ?_)
    rw [dmaAddress_eq] at *; show _ + 4 ≤ _; omega
  · exact Memory.wf_write h.memory _ _ _
  · exact storageOnly_write h.storage _ _ _ fun k hk => isStorage_dmaAddress a k hk

theorem keeps_drawWord (p : Platform) : Keeps p (drawWord p).2 :=
  ⟨⟨rfl, fun _ _ => rfl, fun _ _ => rfl⟩, fun h => platformInv_draws h _⟩

theorem putGp0_frame {v : Word} {p q : Platform} (h : putGp0 v p = .next q) : q = { p with gpu := q.gpu } := by
  obtain ⟨g, _, rfl⟩ := mapNext_eq_next.mp h; rfl

theorem keeps_putGp0 {v : Word} {p q : Platform} (h : putGp0 v p = .next q) : Keeps p q := by
  obtain ⟨g, hg, rfl⟩ := mapNext_eq_next.mp h
  exact ⟨⟨rfl, fun _ _ => rfl, fun _ _ => rfl⟩, fun h => platformInv_gpu h (gpuInv_gp0 h.gpu hg) _⟩

theorem keeps_deviceGet (n : Fin 7) (p : Platform) : Keeps p (deviceGet n p).2 := by
  unfold deviceGet
  split
  · have hf := gpuRead_frame p
    have hi := fun h : PlatformInv p => platformInv_gpu h (gpuInv_gpuRead h.gpu) (gpuRead p).2.draws
    rw [← hf] at hi
    refine ⟨⟨?_, fun b _ => ?_, fun b _ => ?_⟩, hi⟩ <;> rw [hf]
  · exact keeps_drawWord p

theorem keeps_devicePut {n : Fin 7} {v : Word} {p q : Platform} (h : devicePut n v p = .next q) : Keeps p q := by
  unfold devicePut at h
  split at h
  · exact keeps_putGp0 h
  · cases h; exact .rfl' p

theorem keeps_transferWord {n : Fin 7} {c : DmaChannel} {i : Nat} {p q : Platform}
    (h : transferWord n c i p = .next q) : Keeps p q := by
  unfold transferWord at h
  simp only at h
  split at h
  · exact keeps_devicePut h
  · cases h; exact (keeps_deviceGet n p).trans (keeps_dmaWrite _ _ _)

theorem keeps_linkedList {fuel : Nat} {a : Word} {p q : Platform} (h : linkedList fuel a p = .next q) : Keeps p q := by
  induction fuel generalizing a p with
  | zero => cases h
  | succ fuel ih =>
    unfold linkedList at h
    simp only at h
    obtain ⟨r, hr, h⟩ := andThen_eq_next.mp h
    have h1 : Keeps p r := loopResult_keeps (P := Keeps p) _ _ _ (.rfl' p)
      (fun i x y _ hx hy => hx.trans (keeps_putGp0 hy)) _ hr
    split at h
    · cases h; exact h1
    · exact h1.trans (ih h)

theorem keeps_orderingTable (c : DmaChannel) (p : Platform) : Keeps p (orderingTable c p) :=
  loop_keeps (P := Keeps p) _ _ _ (.rfl' p) fun _ x _ h => h.trans (keeps_dmaWrite _ _ x)

/-! ## Completion and the registers -/

theorem getLsbD_dmaSource (b : Nat) : dmaSource.getLsbD b = decide (b = 3) := by
  unfold dmaSource sourceBit
  by_cases hb : b < 11
  · interval_cases b <;> rfl
  · rw [BitVec.getLsbD_of_ge _ _ (by omega), decide_eq_false (by omega)]

/-- Recomputing the interrupt asserts Dma on a rising edge and does nothing else (R437). -/
theorem updateDmaIrq_spec (p : Platform) :
    updateDmaIrq p = { p with iStat := (updateDmaIrq p).iStat, dma := { p.dma with irqLevel := p.dma.dicr.irq } } ∧
    ∀ b, (updateDmaIrq p).iStat.getLsbD b =
      (p.iStat.getLsbD b || (decide (b = 3) && p.dma.dicr.irq && !p.dma.irqLevel)) := by
  refine ⟨rfl, fun b => ?_⟩
  unfold updateDmaIrq
  simp only
  split
  · rename_i h
    rw [assertSource, BitVec.getLsbD_or, getLsbD_dmaSource]
    simp only [Bool.and_eq_true] at h
    simp [h]
  · rename_i h
    revert h; cases p.dma.dicr.irq <;> cases p.dma.irqLevel <;> simp

/-- The interrupt part of the invariant holds whatever it was before a recomputation. -/
theorem keeps_updateDmaIrq {p q : Platform} (hf : DmaFrame p q)
    (hi : PlatformInv p → Memory.wf q.mem = true ∧ storageOnly q.mem = true ∧ GpuInv q.gpu ∧
      (∀ t : Fin 3, timerSound q.timers[t] = true) ∧ ∀ n : Fin 7, (q.dma.channels[n]).chcr &&& ~~~chcrMask = 0#32) :
    Keeps p (updateDmaIrq q) := by
  obtain ⟨u1, u2⟩ := updateDmaIrq_spec q
  refine ⟨hf.trans ⟨?_, fun b _ => ?_, fun b hb => ?_⟩, fun h => ?_⟩
  · rw [u1]
  · rw [u1]
  · rw [u2]; simp [hb]
  · obtain ⟨a1, a2, a3, a4, a5⟩ := hi h
    exact ⟨a1, a2, a3, a4, a5, rfl⟩

theorem channels_setChannel (n : Fin 7) (c : DmaChannel) (p : Platform) (m : Fin 7) :
    (setChannel n c p).dma.channels[m] = if m = n then c else p.dma.channels[m] := by
  show (p.dma.channels.set n c)[m.val] = _
  rw [Vector.getElem_set]
  by_cases h : m = n
  · subst h; simp
  · rw [if_neg (fun h' => h (Fin.ext h'.symm)), if_neg h]; rfl

theorem chcr_setChannel {p : Platform} (h : ∀ n : Fin 7, (p.dma.channels[n]).chcr &&& ~~~chcrMask = 0#32) (n : Fin 7)
    {c : DmaChannel} (hc : c.chcr &&& ~~~chcrMask = 0#32) (m : Fin 7) :
    ((setChannel n c p).dma.channels[m]).chcr &&& ~~~chcrMask = 0#32 := by
  rw [channels_setChannel]; split
  · exact hc
  · exact h m

theorem keeps_setChannel (n : Fin 7) {c : DmaChannel} (p : Platform)
    (hc : PlatformInv p → c.chcr &&& ~~~chcrMask = 0#32) : Keeps p (setChannel n c p) :=
  ⟨⟨rfl, fun _ _ => rfl, fun _ _ => rfl⟩, fun h =>
    ⟨h.memory, h.storage, h.gpu, h.timers, chcr_setChannel h.chcr n (hc h), h.irq⟩⟩

/-- The platform as `complete(n)` leaves it, before the interrupt is recomputed (R444). -/
def completed (n : Fin 7) (p : Platform) : Platform :=
  let c := p.dma.channels[n]
  let q := setChannel n { c with chcr := c.chcr &&& ~~~0x11000000#32, madr := (Config.freeWord p.draws).extractLsb' 0 24 }
    { p with draws := p.draws + 1 }
  { q with dma := { q.dma with dicr := { p.dma.dicr with
      flag := if p.dma.dicr.enable.getLsbD n then p.dma.dicr.flag ||| 1#7 <<< n.val else p.dma.dicr.flag } } }

theorem completeTransfer_eq (n : Fin 7) (p : Platform) : completeTransfer n p = updateDmaIrq (completed n p) := by
  unfold completeTransfer completed
  simp only
  by_cases h : p.dma.dicr.enable.getLsbD n.val = true
  · rw [if_pos, if_pos h]; rfl; exact h
  · rw [if_neg, if_neg h]; rfl; exact h

theorem keeps_completeTransfer (n : Fin 7) (p : Platform) : Keeps p (completeTransfer n p) := by
  rw [completeTransfer_eq]
  refine keeps_updateDmaIrq ⟨rfl, fun _ _ => rfl, fun _ _ => rfl⟩ fun h => ⟨h.memory, h.storage, h.gpu, h.timers, ?_⟩
  refine chcr_setChannel (p := { p with draws := p.draws + 1 }) h.chcr n ?_
  show (p.dma.channels[n]).chcr &&& ~~~0x11000000#32 &&& ~~~chcrMask = 0#32
  rw [BitVec.and_assoc, BitVec.and_comm (~~~0x11000000#32), ← BitVec.and_assoc, h.chcr n]; simp

theorem keeps_writeDicr (v : Word) (p : Platform) : Keeps p (writeDicr v p) :=
  keeps_updateDmaIrq ⟨rfl, fun _ _ => rfl, fun _ _ => rfl⟩ fun h => ⟨h.memory, h.storage, h.gpu, h.timers, h.chcr⟩

theorem keeps_runTransfer {n : Fin 7} {p q : Platform} (h : runTransfer n p = .next q) : Keeps p q := by
  unfold runTransfer at h
  simp only at h
  split at h
  · cases h
  · split at h
    · cases h
    · split at h
      · cases h
      · split at h
        · cases h; exact (keeps_orderingTable _ p).trans (keeps_completeTransfer n _)
        · split at h
          · split at h
            · obtain ⟨r, hr, rfl⟩ := mapNext_eq_next.mp h
              exact (keeps_linkedList hr).trans (keeps_completeTransfer n r)
            · cases h
          · obtain ⟨r, hr, rfl⟩ := mapNext_eq_next.mp h
            exact (loopResult_keeps (P := Keeps p) _ _ _ (.rfl' p)
              (fun i x y _ hx hy => hx.trans (keeps_transferWord hy)) _ hr).trans (keeps_completeTransfer n r)

theorem and_chcrMask (v : Word) : v &&& chcrMask &&& ~~~chcrMask = 0#32 := by
  rw [BitVec.and_assoc]; simp

theorem keeps_writeChcr {n : Fin 7} {v : Word} {p q : Platform} (h : writeChcr n v p = .next q) : Keeps p q := by
  unfold writeChcr at h
  simp only at h
  have h1 : Keeps p (setChannel n { p.dma.channels[n] with chcr := v &&& chcrMask } p) :=
    keeps_setChannel n p fun _ => and_chcrMask v
  split at h
  · exact h1.trans (keeps_runTransfer h)
  · cases h; exact h1

/-! ## How a transfer can stop -/

theorem putGp0_no_fault {v : Word} {p : Platform} (h : PlatformInv p) (f : Fault) : putGp0 v p ≠ .fault f := by
  intro hf; exact gp0_outcome h.gpu v f (mapNext_eq_fault.mp hf)

theorem linkedList_fault {fuel : Nat} {a : Word} {p : Platform} (h : PlatformInv p) {f : Fault}
    (hf : linkedList fuel a p = .fault f) : f = .dmaListNeverEnds := by
  induction fuel generalizing a p with
  | zero => cases hf; rfl
  | succ fuel ih =>
    unfold linkedList at hf
    simp only at hf
    rcases andThen_eq_fault.mp hf with hf | ⟨r, hr, hf⟩
    · exact absurd hf (loopResult_fault (P := PlatformInv) _ _ _ h (fun i x y _ hx hy => (keeps_putGp0 hy).2 hx)
        (fun i x _ hx => putGp0_no_fault hx f))
    · split at hf
      · cases hf
      · exact ih ((loopResult_keeps (P := Keeps p) _ _ _ (.rfl' p)
          (fun i x y _ hx hy => hx.trans (keeps_putGp0 hy)) _ hr).2 h) hf

/-- From a state of the invariant the one fault of a CHCR write is the list that never ends (R442). -/
theorem writeChcr_fault {n : Fin 7} {v : Word} {p : Platform} (h : PlatformInv p) {f : Fault}
    (hf : writeChcr n v p = .fault f) : f = .dmaListNeverEnds := by
  unfold writeChcr at hf
  simp only at hf
  have h1 := (keeps_setChannel n (c := { p.dma.channels[n] with chcr := v &&& chcrMask }) p fun _ => and_chcrMask v).2 h
  generalize setChannel n { p.dma.channels[n] with chcr := v &&& chcrMask } p = q at *
  split at hf
  · unfold runTransfer at hf
    simp only at hf
    split at hf
    · cases hf
    · split at hf
      · cases hf
      · split at hf
        · cases hf
        · split at hf
          · cases hf
          · split at hf
            · split at hf
              · exact linkedList_fault h1 (mapNext_eq_fault.mp hf)
              · cases hf
            · refine absurd (mapNext_eq_fault.mp hf) (loopResult_fault (P := PlatformInv) _ _ _ h1
                (fun i x y _ hx hy => (keeps_transferWord hy).2 hx) fun i x _ hx => ?_)
              unfold transferWord
              simp only
              split
              · unfold devicePut; split
                · exact putGp0_no_fault hx f
                · simp
              · simp
  · cases hf

/-! ## How a transfer is refused -/

theorem linkedList_refused {fuel : Nat} {a : Word} {p : Platform} {r : Refusal} (h : linkedList fuel a p = .refused r) :
    r ∈ [Refusal.gpuUnknownCommand, .gpuTextureDepth] := by
  induction fuel generalizing a p with
  | zero => cases h
  | succ fuel ih =>
    unfold linkedList at h
    simp only at h
    rcases andThen_eq_refused.mp h with h | ⟨q, _, h⟩
    · obtain ⟨i, b, h⟩ := loopResult_refused _ _ _ h
      exact gp0_refused (mapNext_eq_refused.mp h)
    · split at h
      · cases h
      · exact ih h

/-- The refusals of a CHCR write (R432, R433, R434, R442, R462, R464). -/
theorem writeChcr_refused {n : Fin 7} {v : Word} {p : Platform} {r : Refusal} (h : writeChcr n v p = .refused r) :
    r ∈ [Refusal.dmaZeroSize, .dmaChannelDisabled, .dmaSyncReserved, .dmaLinkedListNotGpu, .gpuUnknownCommand,
      .gpuTextureDepth] := by
  have gpu : r ∈ [Refusal.gpuUnknownCommand, .gpuTextureDepth] → r ∈ [Refusal.dmaZeroSize, .dmaChannelDisabled,
      .dmaSyncReserved, .dmaLinkedListNotGpu, .gpuUnknownCommand, .gpuTextureDepth] := by
    intro h; simp at h ⊢; tauto
  unfold writeChcr at h
  simp only at h
  split at h
  · unfold runTransfer at h
    simp only at h
    split at h
    · cases h; simp
    · split at h
      · cases h; simp
      · split at h
        · cases h; simp
        · split at h
          · cases h
          · split at h
            · split at h
              · exact gpu (linkedList_refused (mapNext_eq_refused.mp h))
              · cases h; simp
            · obtain ⟨i, b, h⟩ := loopResult_refused _ _ _ (mapNext_eq_refused.mp h)
              unfold transferWord at h
              simp only at h
              split at h
              · unfold devicePut at h
                split at h
                · exact gpu (gp0_refused (mapNext_eq_refused.mp h))
                · cases h
              · cases h
  · cases h

/-! ## Words from a device -/

/-- Taking one word more takes it after the others. -/
theorem takeWords_succ (n : Fin 7) (k : Nat) (p : Platform) :
    takeWords n (k + 1) p =
      ((takeWords n k p).1 ++ [(deviceGet n (takeWords n k p).2).1], (deviceGet n (takeWords n k p).2).2) := by
  have step : ∀ k p, takeWords n (k + 1) p = ((deviceGet n p).1 :: (takeWords n k (deviceGet n p).2).1,
      (takeWords n k (deviceGet n p).2).2) := fun k p => by
    unfold deviceGet; rw [takeWords]; split <;> rfl
  induction k generalizing p with
  | zero => rw [step]; rfl
  | succ k ih => rw [step, ih, step k p]; rfl

theorem length_takeWords (n : Fin 7) (k : Nat) (p : Platform) : (takeWords n k p).1.length = k := by
  induction k with
  | zero => rfl
  | succ k ih => rw [takeWords_succ]; simp [ih]

theorem mem_gpuRead (p : Platform) (m : Memory) :
    gpuRead { p with mem := m } = ((gpuRead p).1, { (gpuRead p).2 with mem := m }) := by
  unfold gpuRead; simp only
  split
  · split <;> rfl
  · rfl

/-- A device's words do not depend on RAM. -/
theorem mem_deviceGet (n : Fin 7) (p : Platform) (m : Memory) :
    deviceGet n { p with mem := m } = ((deviceGet n p).1, { (deviceGet n p).2 with mem := m }) := by
  unfold deviceGet; split
  · exact mem_gpuRead p m
  · rfl

theorem storeWords_append (a : Nat → Nat) (i : Nat) (ws : List Word) (w : Word) (m : Memory) :
    storeWords a i (ws ++ [w]) m = (storeWords a i ws m).write (a (i + ws.length)) .word w := by
  induction ws generalizing i m with
  | nil => rfl
  | cons v ws ih =>
    rw [List.cons_append, storeWords, storeWords, ih, List.length_cons]
    rw [show i + 1 + ws.length = i + (ws.length + 1) by omega]

/-- A transfer from a device to RAM: its words, in order, at the stepped addresses (R438, R439, R441). -/
theorem transfer_toRam {n : Fin 7} {c : DmaChannel} (h : c.toDevice = false) (k : Nat) (p : Platform) :
    loopResult k (transferWord n c) p = .next { (takeWords n k p).2 with
      mem := storeWords (fun i => dmaAddress (transferAddress c i)) 0 (takeWords n k p).1 p.mem } := by
  induction k with
  | zero => rfl
  | succ k ih =>
    rw [loopResult, ih]
    show transferWord n c k _ = _
    unfold transferWord
    rw [takeWords_succ, storeWords_append, length_takeWords]
    simp only [h, Bool.false_eq_true, if_false, mem_deviceGet, dmaWrite, Nat.zero_add]

end Sys2Proof.Machine
end

