-- ==== Sys2Proof/Laws/Timers.lean ====
section
/-! SUPPORT. What one timer cycle and the timer clock do, once (R411, R415 to R417). -/

namespace Sys2Proof.Machine

open Sys2Proof.Safety

/-! ## Flag bits -/

theorem getLsbD_or_reachedTarget (m : BitVec 13) (b : Nat) :
    (m ||| reachedTarget).getLsbD b = (m.getLsbD b || decide (b = 11)) := by
  rw [BitVec.getLsbD_or]; congr 1
  by_cases h : b < 13
  · interval_cases b <;> rfl
  · rw [BitVec.getLsbD_of_ge _ _ (by omega), decide_eq_false (by omega)]

theorem getLsbD_or_reachedFFFF (m : BitVec 13) (b : Nat) :
    (m ||| reachedFFFF).getLsbD b = (m.getLsbD b || decide (b = 12)) := by
  rw [BitVec.getLsbD_or]; congr 1
  by_cases h : b < 13
  · interval_cases b <;> rfl
  · rw [BitVec.getLsbD_of_ge _ _ (by omega), decide_eq_false (by omega)]

theorem getLsbD_xor_irqLine (m : BitVec 13) (b : Nat) :
    (m ^^^ irqLineBit).getLsbD b = (m.getLsbD b ^^ decide (b = 10)) := by
  rw [BitVec.getLsbD_xor]; congr 1
  by_cases h : b < 13
  · interval_cases b <;> rfl
  · rw [BitVec.getLsbD_of_ge _ _ (by omega), decide_eq_false (by omega)]

theorem getLsbD_sourceBit (n b : Nat) (h : n < 11) : (sourceBit n).getLsbD b = decide (b = n) := by
  unfold sourceBit
  rw [BitVec.getLsbD_shiftLeft]
  by_cases hb : b < 11
  · interval_cases n <;> interval_cases b <;> rfl
  · simp only [hb, decide_false, Bool.false_and]; rw [decide_eq_false (by omega)]

theorem getLsbD_assertSource (n : Nat) (h : n < 11) (i : BitVec 11) (b : Nat) :
    (assertSource (sourceBit n) i).getLsbD b = (i.getLsbD b || decide (b = n)) := by
  rw [assertSource, BitVec.getLsbD_or, getLsbD_sourceBit n b h]

/-! ## One cycle -/

/-- What a firing changes: the mode's interrupt line bit in toggle mode, the armed latch, the timer's own source, the
draw counter (R416). -/
theorem fireTimer_spec (t : Nat) (ht : t < 3) (s : TimerStep) :
    let r := fireTimer t s
    r.timer = { s.timer with mode := r.timer.mode, armed := r.timer.armed } ∧
    (∀ b, b ≠ 10 → r.timer.mode.getLsbD b = s.timer.mode.getLsbD b) ∧
    r.timer.mode.getLsbD 10 = (s.timer.mode.getLsbD 10 ^^ (s.timer.armed && s.timer.toggles)) ∧
    r.timer.armed = (s.timer.armed && s.timer.repeats) ∧
    (∀ b, b ≠ 4 + t → r.iStat.getLsbD b = s.iStat.getLsbD b) ∧
    (s.iStat.getLsbD (4 + t) = true → r.iStat.getLsbD (4 + t) = true) ∧
    (s.timer.armed = false → r.iStat = s.iStat) ∧
    (s.timer.armed = true → s.timer.toggles = false → r.iStat.getLsbD (4 + t) = true) ∧
    s.draws ≤ r.draws := by
  intro r
  have hs : ∀ i b, (assertSource (timerSource t) i).getLsbD b = (i.getLsbD b || decide (b = 4 + t)) :=
    getLsbD_assertSource (4 + t) (by omega)
  have hx : ∀ b, b ≠ 10 → (s.timer.mode ^^^ irqLineBit).getLsbD b = s.timer.mode.getLsbD b := by
    intro b hb; rw [getLsbD_xor_irqLine]; simp [hb]
  cases ha : s.timer.armed with
  | false =>
    have hr : r = s := by simp [r, fireTimer, ha]
    rw [hr]
    exact ⟨rfl, fun _ _ => rfl, by simp, by simp [ha], fun _ _ => rfl, id, fun _ => rfl, by simp, le_rfl⟩
  | true =>
    cases hg : s.timer.toggles with
    | false =>
      have hr : r = { s with
          iStat := assertSource (timerSource t) s.iStat, timer := { s.timer with armed := s.timer.repeats } } := by
        simp [r, fireTimer, ha, hg]
      rw [hr]
      refine ⟨rfl, fun b _ => rfl, by simp, by simp, fun b hb => ?_, fun h => ?_, by simp, fun _ _ => ?_, le_rfl⟩
      · rw [hs]; simp [hb]
      · rw [hs]; simp
      · rw [hs]; simp
    | true =>
      have hr : r = {
          timer := { s.timer with mode := s.timer.mode ^^^ irqLineBit, armed := s.timer.repeats },
          iStat := if Config.freeToggleRequests s.draws then assertSource (timerSource t) s.iStat else s.iStat,
          draws := s.draws + 1 } := by
        simp only [r, fireTimer, ha, hg, if_true, Timer.repeats, hx 6 (by decide)]
      rw [hr]
      refine ⟨rfl, hx, (getLsbD_xor_irqLine _ 10).trans (by simp), by simp, fun b hb => ?_, fun h => ?_, by simp, by simp, Nat.le_succ _⟩
      · simp only; split
        · rw [hs]; simp [hb]
        · rfl
      · simp only; split
        · rw [hs]; simp
        · exact h

/-- A comparison after a count: `hit` sets flag bit `n`, and with the enable it fires. -/
theorem compare_spec (t : Nat) (ht : t < 3) (s r : TimerStep) (hit enable : Bool) (n : Nat) (flag : BitVec 13)
    (hn : n = 11 ∨ n = 12) (hflag : ∀ (m : BitVec 13) b, (m ||| flag).getLsbD b = (m.getLsbD b || decide (b = n)))
    (hr : r = if hit then
        (if enable then fireTimer t { s with timer := { s.timer with mode := s.timer.mode ||| flag } }
         else { s with timer := { s.timer with mode := s.timer.mode ||| flag } })
      else s) :
    r.timer = { s.timer with mode := r.timer.mode, armed := r.timer.armed } ∧
    (∀ b, b ≠ 10 → r.timer.mode.getLsbD b = (s.timer.mode.getLsbD b || (hit && decide (b = n)))) ∧
    r.timer.mode.getLsbD 10 = (s.timer.mode.getLsbD 10 ^^ (s.timer.armed && s.timer.toggles && hit && enable)) ∧
    r.timer.armed = (s.timer.armed && (!(hit && enable) || s.timer.repeats)) ∧
    (∀ b, b ≠ 4 + t → r.iStat.getLsbD b = s.iStat.getLsbD b) ∧
    (s.iStat.getLsbD (4 + t) = true → r.iStat.getLsbD (4 + t) = true) ∧
    ((s.timer.armed && hit && enable) = false → r.iStat = s.iStat) ∧
    ((s.timer.armed && hit && enable) = true → s.timer.toggles = false → r.iStat.getLsbD (4 + t) = true) ∧
    s.draws ≤ r.draws := by
  have hne : ∀ b, b < 11 → (s.timer.mode ||| flag).getLsbD b = s.timer.mode.getLsbD b := by
    intro b hb; rw [hflag]; simp; omega
  cases hit with
  | false => simp at hr; subst hr; simp
  | true =>
    cases enable with
    | false =>
      simp at hr; subst hr
      refine ⟨rfl, fun b _ => by simp [hflag], by simpa using hne 10 (by decide), by simp, fun _ _ => rfl, id, fun _ => rfl,
        by simp, le_rfl⟩
    | true =>
      simp only [if_true] at hr
      obtain ⟨h1, h2, h3, h4, h5, h6, h7, h8, h9⟩ :=
        fireTimer_spec t ht { s with timer := { s.timer with mode := s.timer.mode ||| flag } }
      rw [← hr] at h1 h2 h3 h4 h5 h6 h7 h8 h9
      have htog : ({ s.timer with mode := s.timer.mode ||| flag } : Timer).toggles = s.timer.toggles := hne 7 (by decide)
      have hrep : ({ s.timer with mode := s.timer.mode ||| flag } : Timer).repeats = s.timer.repeats := hne 6 (by decide)
      rw [htog] at h3 h8; rw [hne 10 (by decide)] at h3; rw [hrep] at h4
      refine ⟨h1, fun b hb => by rw [h2 b hb]; simp [hflag], by simpa using h3, by simpa using h4, h5, h6,
        fun h => h7 (by simpa using h), fun h => h8 (by simpa using h), h9⟩

theorem compareTarget_eq (t : Nat) (s : TimerStep) :
    compareTarget t s = if s.timer.count == s.timer.target then
        (if s.timer.irqAtTarget then fireTimer t { s with timer := { s.timer with mode := s.timer.mode ||| reachedTarget } }
         else { s with timer := { s.timer with mode := s.timer.mode ||| reachedTarget } })
      else s := by
  have : ({ s.timer with mode := s.timer.mode ||| reachedTarget } : Timer).irqAtTarget = s.timer.irqAtTarget := by
    unfold Timer.irqAtTarget; rw [getLsbD_or_reachedTarget]; simp
  unfold compareTarget; simp only [this, beq_iff_eq]

theorem compareFFFF_eq (t : Nat) (s : TimerStep) :
    compareFFFF t s = if s.timer.count == 0xFFFF#16 then
        (if s.timer.irqAtFFFF then fireTimer t { s with timer := { s.timer with mode := s.timer.mode ||| reachedFFFF } }
         else { s with timer := { s.timer with mode := s.timer.mode ||| reachedFFFF } })
      else s := by
  have : ({ s.timer with mode := s.timer.mode ||| reachedFFFF } : Timer).irqAtFFFF = s.timer.irqAtFFFF := by
    unfold Timer.irqAtFFFF; rw [getLsbD_or_reachedFFFF]; simp
  unfold compareFFFF; simp only [this, beq_iff_eq]

/-- A count and its two comparisons (R415, R416). -/
theorem count_spec (t : Nat) (ht : t < 3) (s : TimerStep) :
    let r := compareFFFF t (compareTarget t s)
    let hit := s.timer.count == s.timer.target
    let full := s.timer.count == 0xFFFF#16
    let fires := (hit && s.timer.irqAtTarget) || (full && s.timer.irqAtFFFF)
    let first := s.timer.armed && hit && s.timer.irqAtTarget
    let second := s.timer.armed && (!first || s.timer.repeats) && full && s.timer.irqAtFFFF
    r.timer = { s.timer with mode := r.timer.mode, armed := r.timer.armed } ∧
    (∀ b, b ≠ 10 → r.timer.mode.getLsbD b =
      (s.timer.mode.getLsbD b || (hit && decide (b = 11)) || (full && decide (b = 12)))) ∧
    r.timer.mode.getLsbD 10 =
      (s.timer.mode.getLsbD 10 ^^ (s.timer.toggles && first) ^^ (s.timer.toggles && second)) ∧
    r.timer.armed = (s.timer.armed && (!fires || s.timer.repeats)) ∧
    (∀ b, b ≠ 4 + t → r.iStat.getLsbD b = s.iStat.getLsbD b) ∧
    (s.iStat.getLsbD (4 + t) = true → r.iStat.getLsbD (4 + t) = true) ∧
    ((s.timer.armed && fires) = false → r.iStat = s.iStat) ∧
    ((s.timer.armed && fires) = true → s.timer.toggles = false → r.iStat.getLsbD (4 + t) = true) ∧
    s.draws ≤ r.draws := by
  intro r hit full fires first second
  obtain ⟨a1, a2, a3, a4, a5, a6, a7, a8, a9⟩ := compare_spec t ht s (compareTarget t s) hit s.timer.irqAtTarget 11
    reachedTarget (by simp) getLsbD_or_reachedTarget (compareTarget_eq t s)
  have hr : r = compareFFFF t (compareTarget t s) := rfl
  clear_value r
  generalize compareTarget t s = m at *
  have hc : m.timer.count = s.timer.count := by rw [a1]
  have hlow : ∀ b, b < 10 → m.timer.mode.getLsbD b = s.timer.mode.getLsbD b := by
    intro b hb; rw [a2 b (by omega)]; simp; omega
  have h5 : m.timer.irqAtFFFF = s.timer.irqAtFFFF := hlow 5 (by decide)
  have h6 : m.timer.repeats = s.timer.repeats := hlow 6 (by decide)
  have h7 : m.timer.toggles = s.timer.toggles := hlow 7 (by decide)
  obtain ⟨b1, b2, b3, b4, b5, b6, b7, b8, b9⟩ := compare_spec t ht m r full s.timer.irqAtFFFF 12
    reachedFFFF (by simp) getLsbD_or_reachedFFFF (by rw [hr, compareFFFF_eq, hc, h5])
  refine ⟨?_, fun b hb => by rw [b2 b hb, a2 b hb], ?_, ?_, fun b hb => (b5 b hb).trans (a5 b hb),
    fun h => b6 (a6 h), fun h => ?_, fun h hp => ?_, a9.trans b9⟩
  · conv_lhs => rw [b1]
    simp only; rw [a1]
  · rw [b3, a3, a4, h7]; simp only [first, second]
    cases s.timer.armed <;> cases hit <;> cases s.timer.irqAtTarget <;> cases full <;> cases s.timer.irqAtFFFF <;>
      cases s.timer.repeats <;> cases s.timer.toggles <;> simp
  · rw [b4, a4, h6]; simp only [fires]
    cases s.timer.armed <;> cases hit <;> cases s.timer.irqAtTarget <;> cases full <;> cases s.timer.irqAtFFFF <;>
      cases s.timer.repeats <;> rfl
  · rw [b7, a7]
    · simp only [fires] at h; revert h
      cases s.timer.armed <;> cases hit <;> cases s.timer.irqAtTarget <;> simp
    · rw [a4]; simp only [fires] at h; revert h
      cases s.timer.armed <;> cases hit <;> cases s.timer.irqAtTarget <;> cases full <;> cases s.timer.irqAtFFFF <;>
        cases s.timer.repeats <;> simp
  · by_cases hfirst : (s.timer.armed && hit && s.timer.irqAtTarget) = true
    · exact b6 (a8 hfirst hp)
    · refine b8 ?_ (h7.trans hp)
      rw [a4]; simp only [fires] at h; revert h hfirst
      cases s.timer.armed <;> cases hit <;> cases s.timer.irqAtTarget <;> cases full <;> cases s.timer.irqAtFFFF <;>
        cases s.timer.repeats <;> simp

/-- A timer counts one system-clock cycle unless it divides and 2100 of them have not passed (R415). -/
def Timer.skips (t : Nat) (tm : Timer) : Bool := tm.divides t && decide (tm.prescaler + 1 < 2100)

theorem cycleTimer_of_skips {t : Nat} {s : TimerStep} (h : s.timer.skips t = true) :
    cycleTimer t s = { s with timer := { s.timer with prescaler := s.timer.prescaler + 1 } } := by
  unfold Timer.skips at h; unfold cycleTimer; rw [if_pos h]

/-- The timer as its count begins: prescaler started over, counter moved. -/
def Timer.counted (t : Nat) (tm : Timer) : Timer :=
  { tm with
    prescaler := if tm.divides t then 0 else tm.prescaler
    count := if tm.resetAtTarget && tm.count == tm.target then 0#16 else tm.count + 1#16 }

theorem cycleTimer_of_counts {t : Nat} {s : TimerStep} (h : s.timer.skips t = false) :
    cycleTimer t s = compareFFFF t (compareTarget t { s with timer := s.timer.counted t }) := by
  unfold cycleTimer; rw [if_neg (by simpa [Timer.skips] using h)]
  unfold Timer.counted Timer.countUp
  simp only; split <;> rfl

/-- What any cycle of a timer keeps or moves (R411, R415, R416). -/
theorem cycleTimer_frame (t : Nat) (ht : t < 3) (s : TimerStep) :
    let r := cycleTimer t s
    r.timer.target = s.timer.target ∧
    (∀ b, b < 10 → r.timer.mode.getLsbD b = s.timer.mode.getLsbD b) ∧
    (s.timer.toggles = false → r.timer.mode.getLsbD 10 = s.timer.mode.getLsbD 10) ∧
    (s.timer.prescaler < 2100 → r.timer.prescaler < 2100) ∧
    (∀ b, b ≠ 4 + t → r.iStat.getLsbD b = s.iStat.getLsbD b) ∧
    (s.iStat.getLsbD (4 + t) = true → r.iStat.getLsbD (4 + t) = true) ∧
    s.draws ≤ r.draws := by
  intro r
  cases h : s.timer.skips t with
  | true =>
    have hp : s.timer.prescaler + 1 < 2100 := by simp [Timer.skips] at h; exact h.2
    simp only [r, cycleTimer_of_skips h]
    refine ⟨trivial, fun _ _ => trivial, fun _ => trivial, fun _ => hp, fun _ _ => trivial, id, le_rfl⟩
  | false =>
    obtain ⟨a1, a2, a3, a4, a5, a6, a7, a8, a9⟩ := count_spec t ht { s with timer := s.timer.counted t }
    simp only [r, cycleTimer_of_counts h]
    refine ⟨by rw [a1]; rfl, fun b hb => ?_, fun ht => ?_, fun hp => ?_, a5, a6, a9⟩
    · rw [a2 b (by omega), decide_eq_false (by omega), decide_eq_false (by omega)]
      simp [Timer.counted]
    · rw [a3, show (s.timer.counted t).toggles = false from ht]; simp only [Bool.false_and, Bool.bne_false]; rfl
    · rw [a1]; simp only [Timer.counted]; split <;> omega

theorem timerSound_cycleTimer {t : Nat} (ht : t < 3) {s : TimerStep} (h : timerSound s.timer = true) :
    timerSound (cycleTimer t s).timer = true := by
  obtain ⟨_, h2, h3, h4, _⟩ := cycleTimer_frame t ht s
  unfold timerSound at *
  simp only [Bool.and_eq_true, decide_eq_true_eq, Bool.or_eq_true] at *
  refine ⟨h4 h.1, ?_⟩
  have h7 : (cycleTimer t s).timer.toggles = s.timer.toggles := h2 7 (by decide)
  rw [h7]
  cases ht : s.timer.toggles with
  | true => exact .inl rfl
  | false => rw [h3 ht]; right; simpa [ht] using h.2

/-! ## The clock -/

/-- In one system-clock cycle each timer makes its own cycle (R411). -/
theorem timers_cycle (c : Clock) (t : Fin 3) : ∃ s : TimerStep, s.timer = c.timers[t] ∧
    c.cycle.timers[t] = (cycleTimer t s).timer := by
  have h1 : ∀ (c : Clock) (t u : Fin 3), t ≠ u → (c.cycleOne t).timers[u] = c.timers[u] := by
    intro c t u htu
    have h : t.val ≠ u.val := fun h => htu (Fin.ext h)
    show (c.timers.set t _)[u.val] = c.timers[u.val]
    rw [Vector.getElem_set_ne _ _ h]
  have h2 : ∀ (c : Clock) (t : Fin 3), (c.cycleOne t).timers[t] =
      (cycleTimer t { timer := c.timers[t], iStat := c.iStat, draws := c.draws }).timer := by
    intro c t
    show (c.timers.set t _)[t.val] = _
    rw [Vector.getElem_set_self]
  unfold Clock.cycle
  match t with
  | 0 => exact ⟨_, rfl, ((h1 _ 2 0 (by decide)).trans (h1 _ 1 0 (by decide))).trans (h2 c 0)⟩
  | 1 => exact ⟨_, h1 c 0 1 (by decide), (h1 _ 2 1 (by decide)).trans (h2 _ 1)⟩
  | 2 => exact ⟨_, (h1 _ 1 2 (by decide)).trans (h1 c 0 2 (by decide)), h2 _ 2⟩

theorem cycleOne_iStat (c : Clock) (t : Fin 3) (b : Nat) :
    (c.iStat.getLsbD b = true → (c.cycleOne t).iStat.getLsbD b = true) ∧
    ((c.cycleOne t).iStat.getLsbD b = true → c.iStat.getLsbD b = true ∨ b ∈ [4, 5, 6]) ∧
    c.draws ≤ (c.cycleOne t).draws := by
  obtain ⟨_, _, _, _, h5, h6, h7⟩ :=
    cycleTimer_frame t.val t.isLt { timer := c.timers[t], iStat := c.iStat, draws := c.draws }
  refine ⟨fun h => ?_, fun h => ?_, h7⟩
  · by_cases hb : b = 4 + t.val
    · subst hb; exact h6 h
    · exact (h5 b hb).trans h
  · by_cases hb : b = 4 + t.val
    · right; have := t.isLt; simp; omega
    · left; exact (h5 b hb).symm.trans h

theorem cycle_iStat (c : Clock) (b : Nat) :
    (c.iStat.getLsbD b = true → c.cycle.iStat.getLsbD b = true) ∧
    (c.cycle.iStat.getLsbD b = true → c.iStat.getLsbD b = true ∨ b ∈ [4, 5, 6]) ∧ c.draws ≤ c.cycle.draws := by
  obtain ⟨a1, a2, a3⟩ := cycleOne_iStat c 0 b
  obtain ⟨b1, b2, b3⟩ := cycleOne_iStat (c.cycleOne 0) 1 b
  obtain ⟨c1, c2, c3⟩ := cycleOne_iStat ((c.cycleOne 0).cycleOne 1) 2 b
  refine ⟨fun h => c1 (b1 (a1 h)), fun h => ?_, a3.trans (b3.trans c3)⟩
  rcases c2 h with h | h
  · rcases b2 h with h | h
    · exact a2 h
    · exact .inr h
  · exact .inr h

/-- What any number of clock cycles does to I_STAT and the draw counter (R376, R411). -/
theorem clockCycles_iStat (k : Nat) (p : Platform) (b : Nat) :
    (p.iStat.getLsbD b = true → (clockCycles k p).iStat.getLsbD b = true) ∧
    ((clockCycles k p).iStat.getLsbD b = true → p.iStat.getLsbD b = true ∨ b ∈ [4, 5, 6]) ∧
    p.draws ≤ (clockCycles k p).draws := by
  refine loop_keeps (P := fun c : Clock => (p.iStat.getLsbD b = true → c.iStat.getLsbD b = true) ∧
    (c.iStat.getLsbD b = true → p.iStat.getLsbD b = true ∨ b ∈ [4, 5, 6]) ∧ p.draws ≤ c.draws) k _ _
    ⟨id, .inl, le_rfl⟩ fun i c _ h => ?_
  obtain ⟨h1, h2, h3⟩ := h
  obtain ⟨a1, a2, a3⟩ := cycle_iStat c b
  refine ⟨fun h => a1 (h1 h), fun h => ?_, h3.trans a3⟩
  rcases a2 h with h | h
  · exact h2 h
  · exact .inr h

theorem clockCycles_frame (k : Nat) (p : Platform) :
    clockCycles k p = { p with timers := (clockCycles k p).timers, iStat := (clockCycles k p).iStat,
                               draws := (clockCycles k p).draws } := rfl

/-- What a property of a timer that its own cycles keep does under the clock: it is kept. -/
theorem clockCycles_timers (k : Nat) (p : Platform) (t : Fin 3) {P : Nat → Timer → Prop} (h0 : P 0 p.timers[t])
    (hP : ∀ i s, P i s.timer → P (i + 1) (cycleTimer t s).timer) : P k (clockCycles k p).timers[t] := by
  refine loop_induction (P := fun i (c : Clock) => P i c.timers[t]) k _ _ h0 fun i c _ h => ?_
  obtain ⟨s, hs, hc⟩ := timers_cycle c t
  rw [hc]
  exact hP i s (hs ▸ h)

end Sys2Proof.Machine
end

