-- ==== Sys2Proof/Laws/Bus.lean ====
section
/-! SUPPORT. The address map, and what a bus access can do, once (R66 to R74). -/

namespace Sys2Proof.Machine

open Sys2Proof.Safety

/-! ## The map -/

theorem target_of_ram {pa : Nat} (h : InRam pa) : target pa = .ram := if_pos h

theorem target_of_expansion {pa : Nat} (h : 0x1F000000 ≤ pa ∧ pa < 0x1F800000) : target pa = .expansion := by
  unfold target; rw [if_neg (by omega), if_pos h]

theorem target_of_scratchpad {pa : Nat} (h : InScratchpad pa) : target pa = .scratchpad := by
  obtain ⟨h1, h2⟩ := h
  unfold target; rw [if_neg (by omega), if_neg (by omega), if_pos ⟨h1, h2⟩]

theorem target_of_bios {pa : Nat} (h : InBios pa) : target pa = .bios := by
  obtain ⟨h1, h2⟩ := h
  unfold target
  rw [if_neg (by omega), if_neg (by omega), if_neg (by omega), dif_neg (by omega), dif_neg (by omega), if_neg (by omega),
    if_neg (by omega), if_pos ⟨h1, h2⟩]

/-- The registers of a DMA channel, by offset (R431). -/
theorem target_channel (n : Fin 7) (k : Nat) (hk : k < 16) :
    target (0x1F801080 + 16 * n.val + k) = channelTarget n k := by
  have := n.isLt
  unfold target
  rw [if_neg (by omega), if_neg (by omega), if_neg (by omega), dif_pos (by omega)]
  exact congrArg₂ channelTarget (Fin.ext (by simp only; omega)) (by omega)

/-- The registers of a timer, by offset (R410). -/
theorem target_timer (t : Fin 3) (k : Nat) (hk : k < 16) :
    target (0x1F801100 + 16 * t.val + k) = timerRegister t k := by
  have := t.isLt
  unfold target
  rw [if_neg (by omega), if_neg (by omega), if_neg (by omega), dif_neg (by omega), dif_pos (by omega)]
  exact congrArg₂ timerRegister (Fin.ext (by simp only; omega)) (by omega)

theorem channelTarget_cases (n : Fin 7) (k : Nat) :
    (k = 0 ∧ channelTarget n k = .madr n) ∨ (k = 4 ∧ channelTarget n k = .bcr n) ∨
    (k = 8 ∧ channelTarget n k = .chcr n) ∨ (k ≠ 0 ∧ k ≠ 4 ∧ k ≠ 8 ∧ channelTarget n k = .unmapped) := by
  unfold channelTarget; split <;> simp_all

theorem timerRegister_cases (t : Fin 3) (k : Nat) :
    (k = 0 ∧ timerRegister t k = .timerCount t) ∨ (k = 4 ∧ timerRegister t k = .timerMode t) ∨
    (k = 8 ∧ timerRegister t k = .timerTarget t) ∨ (k ≠ 0 ∧ k ≠ 4 ∧ k ≠ 8 ∧ timerRegister t k = .unmapped) := by
  unfold timerRegister; split <;> simp_all

/-- Every address falls under exactly one line of the map (R66). -/
theorem target_cases (pa : Nat) :
    (InRam pa ∧ target pa = .ram) ∨ ((0x1F000000 ≤ pa ∧ pa < 0x1F800000) ∧ target pa = .expansion) ∨
    (InScratchpad pa ∧ target pa = .scratchpad) ∨ (InBios pa ∧ target pa = .bios) ∨
    (∃ (n : Fin 7) (k : Nat), k < 16 ∧ pa = 0x1F801080 + 16 * n.val + k ∧ target pa = channelTarget n k) ∨
    (∃ (t : Fin 3) (k : Nat), k < 16 ∧ pa = 0x1F801100 + 16 * t.val + k ∧ target pa = timerRegister t k) ∨
    ((0x1F801800 ≤ pa ∧ pa < 0x1F801804) ∧ target pa = .dev) ∨
    ((0x1F801C00 ≤ pa ∧ pa < 0x1F802000) ∧ target pa = .dev) ∨
    (¬ InStorage pa ∧ ¬ (0x1F000000 ≤ pa ∧ pa < 0x1F800000) ∧ ¬ (0x1F801080 ≤ pa ∧ pa < 0x1F8010F0) ∧
      ¬ (0x1F801100 ≤ pa ∧ pa < 0x1F801130) ∧ ¬ (0x1F801800 ≤ pa ∧ pa < 0x1F801804) ∧
      ¬ (0x1F801C00 ≤ pa ∧ pa < 0x1F802000) ∧ target pa = registerTarget pa) := by
  by_cases h1 : InRam pa
  · exact .inl ⟨h1, target_of_ram h1⟩
  by_cases h2 : 0x1F000000 ≤ pa ∧ pa < 0x1F800000
  · exact .inr (.inl ⟨h2, target_of_expansion h2⟩)
  by_cases h3 : InScratchpad pa
  · exact .inr (.inr (.inl ⟨h3, target_of_scratchpad h3⟩))
  by_cases h4 : InBios pa
  · exact .inr (.inr (.inr (.inl ⟨h4, target_of_bios h4⟩)))
  by_cases h5 : 0x1F801080 ≤ pa ∧ pa < 0x1F8010F0
  · refine .inr (.inr (.inr (.inr (.inl ⟨⟨(pa - 0x1F801080) / 16, by omega⟩, (pa - 0x1F801080) % 16, by omega,
      by simp only; omega, ?_⟩))))
    unfold target
    rw [if_neg (by omega), if_neg (by omega), if_neg (by omega), dif_pos (by omega)]
  by_cases h6 : 0x1F801100 ≤ pa ∧ pa < 0x1F801130
  · refine .inr (.inr (.inr (.inr (.inr (.inl ⟨⟨(pa - 0x1F801100) / 16, by omega⟩, (pa - 0x1F801100) % 16, by omega,
      by simp only; omega, ?_⟩)))))
    unfold target
    rw [if_neg (by omega), if_neg (by omega), if_neg (by omega), dif_neg (by omega), dif_pos (by omega)]
  by_cases h7 : 0x1F801800 ≤ pa ∧ pa < 0x1F801804
  · refine .inr (.inr (.inr (.inr (.inr (.inr (.inl ⟨h7, ?_⟩))))))
    unfold target
    rw [if_neg h1, if_neg h2, if_neg h3, dif_neg h5, dif_neg h6, if_pos h7]
  by_cases h8 : 0x1F801C00 ≤ pa ∧ pa < 0x1F802000
  · refine .inr (.inr (.inr (.inr (.inr (.inr (.inr (.inl ⟨h8, ?_⟩)))))))
    unfold target
    rw [if_neg h1, if_neg h2, if_neg h3, dif_neg h5, dif_neg h6, if_neg h7, if_pos h8]
  · refine .inr (.inr (.inr (.inr (.inr (.inr (.inr (.inr ⟨?_, h2, h5, h6, h7, h8, ?_⟩)))))))
    · unfold InStorage; tauto
    · unfold target
      rw [if_neg h1, if_neg h2, if_neg h3, dif_neg h5, dif_neg h6, if_neg h7, if_neg h8, if_neg h4]

/-- The registers at single addresses are no storage and no CHCR. -/
theorem registerTarget_cases (pa : Nat) :
    registerTarget pa ∉ [Target.ram, .expansion, .scratchpad, .bios] ∧ (∀ n, registerTarget pa ≠ .chcr n) ∧
    (registerTarget pa ≠ .unmapped ↔
      pa ∈ [0x1F801040, 0x1F801044, 0x1F801048, 0x1F80104A, 0x1F80104E, 0x1F801070, 0x1F801074, 0x1F8010F0, 0x1F8010F4,
        0x1F801810, 0x1F801814, 0xFFFE0130]) := by
  unfold registerTarget; split <;> simp_all

theorem target_eq_storage {pa : Nat} (h : target pa = .ram ∨ target pa = .scratchpad ∨ target pa = .bios) :
    (target pa = .ram ∧ InRam pa) ∨ (target pa = .scratchpad ∧ InScratchpad pa) ∨ (target pa = .bios ∧ InBios pa) := by
  rcases target_cases pa with ⟨h1, h2⟩ | ⟨h1, h2⟩ | ⟨h1, h2⟩ | ⟨h1, h2⟩ | ⟨n, k, hk, h1, h2⟩ | ⟨n, k, hk, h1, h2⟩ |
    ⟨h1, h2⟩ | ⟨h1, h2⟩ | ⟨-, -, -, -, -, -, h2⟩
  · exact .inl ⟨h2, h1⟩
  · rw [h2] at h; simp at h
  · exact .inr (.inl ⟨h2, h1⟩)
  · exact .inr (.inr ⟨h2, h1⟩)
  · rw [h2] at h
    rcases channelTarget_cases n k with ⟨_, hc⟩ | ⟨_, hc⟩ | ⟨_, hc⟩ | ⟨_, _, _, hc⟩ <;> rw [hc] at h <;> simp at h
  · rw [h2] at h
    rcases timerRegister_cases n k with ⟨_, hc⟩ | ⟨_, hc⟩ | ⟨_, hc⟩ | ⟨_, _, _, hc⟩ <;> rw [hc] at h <;> simp at h
  · rw [h2] at h; simp at h
  · rw [h2] at h; simp at h
  · rw [h2] at h
    have hr := (registerTarget_cases pa).1
    simp only [List.mem_cons, List.not_mem_nil] at hr; tauto

theorem isStorage_iff (pa : Nat) : isStorage pa = true ↔ InStorage pa := by
  unfold isStorage
  constructor
  · intro h
    have : target pa = .ram ∨ target pa = .scratchpad ∨ target pa = .bios := by
      revert h; cases target pa <;> simp
    rcases target_eq_storage this with h | h | h
    · exact .inl h.2
    · exact .inr (.inl h.2)
    · exact .inr (.inr h.2)
  · rintro (h | h | h)
    · rw [target_of_ram h]
    · rw [target_of_scratchpad h]
    · rw [target_of_bios h]

theorem isFetchable_iff (pa : Nat) : isFetchable pa = true ↔ InRam pa ∨ InBios pa := by
  unfold isFetchable
  constructor
  · intro h
    have : target pa = .ram ∨ target pa = .scratchpad ∨ target pa = .bios := by
      revert h; cases target pa <;> simp
    rcases target_eq_storage this with h' | h' | h'
    · exact .inl h'.2
    · rw [h'.1] at h; simp at h
    · exact .inr h'.2
  · rintro (h | h)
    · rw [target_of_ram h]
    · rw [target_of_bios h]

theorem target_chcr {pa : Nat} {n : Fin 7} (h : target pa = .chcr n) : pa = 0x1F801088 + 16 * n.val := by
  rcases target_cases pa with ⟨h1, h2⟩ | ⟨h1, h2⟩ | ⟨h1, h2⟩ | ⟨h1, h2⟩ | ⟨m, k, hk, h1, h2⟩ | ⟨m, k, hk, h1, h2⟩ |
    ⟨h1, h2⟩ | ⟨h1, h2⟩ | ⟨-, -, -, -, -, -, h2⟩
  case inr.inr.inr.inr.inl =>
    rw [h2] at h
    rcases channelTarget_cases m k with ⟨_, hc⟩ | ⟨_, hc⟩ | ⟨hk8, hc⟩ | ⟨_, _, _, hc⟩ <;> rw [hc] at h <;> simp at h
    subst h; omega
  case inr.inr.inr.inr.inr.inl =>
    rw [h2] at h
    rcases timerRegister_cases m k with ⟨_, hc⟩ | ⟨_, hc⟩ | ⟨_, hc⟩ | ⟨_, _, _, hc⟩ <;> rw [hc] at h <;> simp at h
  case inr.inr.inr.inr.inr.inr.inr.inr => exact absurd (h2 ▸ h) ((registerTarget_cases pa).2.1 n)
  all_goals rw [h2] at h; simp at h

/-- An address no line of the map names has no target (R66, R72). -/
theorem target_unmapped_iff (pa : Nat) : target pa = .unmapped ↔ ¬ Mapped pa := by
  have hN : ∀ n k : Nat, (∃ m, m < n ∧ pa = k + 16 * m) → ∃ m : Fin n, pa = k + 16 * m.val :=
    fun n k ⟨m, hm, h⟩ => ⟨⟨m, hm⟩, h⟩
  constructor
  · intro h hm
    rcases hm with (hs | hs | hs) | hs | hs | ⟨n, hn, hs⟩ | ⟨t, ht, hs⟩ | hs | hs
    · rw [target_of_ram hs] at h; simp at h
    · rw [target_of_scratchpad hs] at h; simp at h
    · rw [target_of_bios hs] at h; simp at h
    · rw [target_of_expansion hs] at h; simp at h
    · simp only [List.mem_cons, List.not_mem_nil, or_false] at hs
      rcases hs with rfl | rfl | rfl | rfl | rfl | rfl | rfl | rfl | rfl | rfl | rfl | rfl <;> revert h <;> decide
    · have hc := target_channel ⟨n, hn⟩
      simp only [List.mem_cons, List.not_mem_nil, or_false] at hs
      rcases hs with rfl | rfl | rfl
      · have := hc 0 (by decide); rw [Nat.add_zero] at this; rw [this] at h; simp [channelTarget] at h
      · have := hc 4 (by decide)
        rw [show 0x1F801080 + 16 * n + 4 = 0x1F801084 + 16 * n by omega] at this
        rw [this] at h; simp [channelTarget] at h
      · have := hc 8 (by decide)
        rw [show 0x1F801080 + 16 * n + 8 = 0x1F801088 + 16 * n by omega] at this
        rw [this] at h; simp [channelTarget] at h
    · have hc := target_timer ⟨t, ht⟩
      simp only [List.mem_cons, List.not_mem_nil, or_false] at hs
      rcases hs with rfl | rfl | rfl
      · have := hc 0 (by decide); rw [Nat.add_zero] at this; rw [this] at h; simp [timerRegister] at h
      · have := hc 4 (by decide)
        rw [show 0x1F801100 + 16 * t + 4 = 0x1F801104 + 16 * t by omega] at this
        rw [this] at h; simp [timerRegister] at h
      · have := hc 8 (by decide)
        rw [show 0x1F801100 + 16 * t + 8 = 0x1F801108 + 16 * t by omega] at this
        rw [this] at h; simp [timerRegister] at h
    · rcases target_cases pa with ⟨h1, h2⟩ | ⟨h1, h2⟩ | ⟨h1, h2⟩ | ⟨h1, h2⟩ | ⟨n, k, hk, h1, h2⟩ | ⟨t, k, hk, h1, h2⟩ |
        ⟨h1, h2⟩ | ⟨h1, h2⟩ | ⟨_, _, _, _, h7, _, h2⟩ <;> first | omega | (rw [h2] at h; simp at h)
    · rcases target_cases pa with ⟨h1, h2⟩ | ⟨h1, h2⟩ | ⟨h1, h2⟩ | ⟨h1, h2⟩ | ⟨n, k, hk, h1, h2⟩ | ⟨t, k, hk, h1, h2⟩ |
        ⟨h1, h2⟩ | ⟨h1, h2⟩ | ⟨_, _, _, _, _, h8, h2⟩ <;> first | omega | (rw [h2] at h; simp at h)
  · intro hm
    rcases target_cases pa with ⟨h1, h2⟩ | ⟨h1, h2⟩ | ⟨h1, h2⟩ | ⟨h1, h2⟩ | ⟨n, k, hk, h1, h2⟩ | ⟨t, k, hk, h1, h2⟩ |
      ⟨h1, h2⟩ | ⟨h1, h2⟩ | ⟨-, -, -, -, -, -, h2⟩
    · exact absurd (.inl (.inl h1)) hm
    · exact absurd (.inr (.inl h1)) hm
    · exact absurd (.inl (.inr (.inl h1))) hm
    · exact absurd (.inl (.inr (.inr h1))) hm
    · rw [h2]
      rcases channelTarget_cases n k with ⟨rfl, _⟩ | ⟨rfl, _⟩ | ⟨rfl, _⟩ | ⟨_, _, _, hc⟩
      · exact absurd (.inr (.inr (.inr (.inl ⟨n, n.isLt, by simp; omega⟩)))) hm
      · exact absurd (.inr (.inr (.inr (.inl ⟨n, n.isLt, by simp; omega⟩)))) hm
      · exact absurd (.inr (.inr (.inr (.inl ⟨n, n.isLt, by simp; omega⟩)))) hm
      · exact hc
    · rw [h2]
      rcases timerRegister_cases t k with ⟨rfl, _⟩ | ⟨rfl, _⟩ | ⟨rfl, _⟩ | ⟨_, _, _, hc⟩
      · exact absurd (.inr (.inr (.inr (.inr (.inl ⟨t, t.isLt, by simp; omega⟩))))) hm
      · exact absurd (.inr (.inr (.inr (.inr (.inl ⟨t, t.isLt, by simp; omega⟩))))) hm
      · exact absurd (.inr (.inr (.inr (.inr (.inl ⟨t, t.isLt, by simp; omega⟩))))) hm
      · exact hc
    · exact absurd (.inr (.inr (.inr (.inr (.inr (.inl h1)))))) hm
    · exact absurd (.inr (.inr (.inr (.inr (.inr (.inr h1)))))) hm
    · rw [h2]
      by_contra hne
      exact hm (.inr (.inr (.inl ((registerTarget_cases pa).2.2.mp hne))))

/-! ## Reads -/

theorem busRead_of_storage {pa : Nat} (h : InStorage pa) (n : Size) (p : Platform) :
    busRead pa n p = .next (p.mem.read pa n, p) := by
  unfold busRead
  rcases h with h | h | h
  · rw [target_of_ram h]
  · rw [target_of_scratchpad h]
  · rw [target_of_bios h]

theorem busRead_of_unmapped {pa : Nat} (h : ¬ Mapped pa) (n : Size) (p : Platform) :
    busRead pa n p = .fault .unmappedRead := by
  unfold busRead; rw [(target_unmapped_iff pa).mpr h]

theorem readTimerMode_frame (t : Fin 3) (p : Platform) :
    (readTimerMode t p).2 = { p with timers := (readTimerMode t p).2.timers } := rfl

theorem wordOnly_eq_next {n : Size} {r q : Word × Platform} (h : wordOnly n r = .next q) : q = r := by
  unfold wordOnly at h; split at h <;> cases h; rfl

theorem wordOnlyWrite_eq_next {n : Size} {r : Result Platform} {q : Platform} (h : wordOnlyWrite n r = .next q) :
    r = .next q := by
  unfold wordOnlyWrite at h; split at h
  · exact h
  · cases h

/-- A read changes nothing but timers, GPU and draw counter, and keeps the invariant (R76, R413, R471, R476). -/
theorem busRead_keeps {pa : Nat} {n : Size} {p : Platform} {q : Word × Platform} (h : busRead pa n p = .next q) :
    q.2 = { p with timers := q.2.timers, gpu := q.2.gpu, draws := q.2.draws } ∧
    (PlatformInv p → PlatformInv q.2) := by
  have same : ∀ v : Word, q = (v, p) → q.2 = { p with timers := q.2.timers, gpu := q.2.gpu, draws := q.2.draws } ∧
      (PlatformInv p → PlatformInv q.2) := by rintro v rfl; exact ⟨rfl, id⟩
  unfold busRead at h
  split at h
  case h_3 | h_2 | h_1 => cases h; exact same _ rfl
  case h_4 => cases h; exact same _ rfl
  case h_5 => cases h; exact ⟨rfl, fun h => platformInv_draws h _⟩
  case h_6 | h_7 => cases h; exact same _ rfl
  case h_8 | h_9 | h_10 => exact same _ (wordOnly_eq_next h)
  case h_11 | h_12 => exact same _ (wordOnly_eq_next h)
  case h_13 => cases h; exact same _ rfl
  case h_14 t _ =>
    cases h
    refine ⟨rfl, fun h => ⟨h.memory, h.storage, h.gpu, fun u => ?_, h.chcr, h.irq⟩⟩
    show timerSound ((p.timers.set t _)[u.val]) = true
    rw [Vector.getElem_set]
    have hu := h.timers u
    by_cases htu : t.val = u.val
    · rw [if_pos htu]
      have ht := h.timers t
      unfold timerSound Timer.toggles at ht ⊢
      simp only [BitVec.getLsbD_and, BitVec.getLsbD_not]
      simpa [reachedTarget, reachedFFFF] using ht
    · rw [if_neg htu]; exact hu
  case h_15 => cases h; exact same _ rfl
  case h_16 =>
    cases wordOnly_eq_next h
    have hf := gpuRead_frame p
    refine ⟨by rw [hf], fun h => ?_⟩
    have := platformInv_gpu h (gpuInv_gpuRead h.gpu) (gpuRead p).2.draws
    rw [← hf] at this; exact this
  case h_17 =>
    cases wordOnly_eq_next h
    refine ⟨rfl, fun h => ?_⟩
    exact platformInv_gpu (g := { p.gpu with stat31 := !p.gpu.stat31 }) h
      ⟨h.gpu.vram, h.gpu.cells, h.gpu.fifo, h.gpu.cursor⟩ (p.draws + 1)
  case h_18 => exact same _ (wordOnly_eq_next h)
  case h_19 => cases h

/-- The only fault of a read is a read of nothing (R72). -/
theorem busRead_fault {pa : Nat} {n : Size} {p : Platform} {f : Fault} (h : busRead pa n p = .fault f) :
    f = .unmappedRead := by
  have hw : ∀ r, wordOnly n r ≠ .fault f := by intro r; unfold wordOnly; split <;> simp
  unfold busRead at h
  split at h <;> first | (cases h; rfl) | exact absurd h (hw _) | (simp [anyWidth] at h)

/-! ## Writes -/

/-- Every timer keeps its invariant when one is replaced by one that has it. -/
theorem timers_set {p : Platform} (h : ∀ t : Fin 3, timerSound p.timers[t] = true) (t : Fin 3) {tm : Timer}
    (ht : timerSound tm = true) (u : Fin 3) : timerSound (p.timers.set t tm)[u] = true := by
  show timerSound ((p.timers.set t tm)[u.val]) = true
  rw [Vector.getElem_set]; split
  · exact ht
  · exact h u

theorem getLsbD_modeWritten (m : BitVec 13) (v : Word) (b : Nat) :
    BitVec.getLsbD (w := 13) (m.extractLsb' 11 2 ++ 1#1 ++ v.extractLsb' 0 10) b =
      if b < 10 then v.getLsbD b else decide (b = 10) || m.getLsbD b := by
  by_cases hb : b < 13
  · show BitVec.getLsbD (w := 2 + 1 + 10) _ b = _
    simp only [BitVec.getLsbD_append, BitVec.getLsbD_extractLsb']
    interval_cases b <;> simp
  · rw [BitVec.getLsbD_of_ge _ _ (by omega), if_neg (by omega), BitVec.getLsbD_of_ge _ _ (by omega),
      decide_eq_false (by omega)]; rfl

/-- A store to a place that is not aligned to its width never comes to the bus; an aligned one stays within RAM or
scratchpad. -/
theorem storage_of_aligned {pa k : Nat} {n : Size} (h : Writable pa) (ha : pa % n.bytes = 0) (hk : k < n.bytes) :
    Writable (pa + k) := by
  unfold Writable InRam InScratchpad at *
  cases n <;> simp only [Size.bytes] at * <;> omega

/-- What a write changes: bytes of RAM and scratchpad only, and but for a CHCR write only those it stores to (R69 to
R74); and the invariant is kept. -/
theorem busWrite_keeps {pa : Nat} {n : Size} {v : Word} {p q : Platform} (h : busWrite pa n v p = .next q) :
    (¬ StartsTransfer pa → ∀ b, (b < pa ∨ pa + n.bytes ≤ b) → q.mem.readByte b = p.mem.readByte b) ∧
    (pa % n.bytes = 0 → (∀ b, InBios b → q.mem.readByte b = p.mem.readByte b) ∧ (PlatformInv p → PlatformInv q)) := by
  have ofKeeps : (¬ StartsTransfer pa → q.mem = p.mem) → Keeps p q →
      (¬ StartsTransfer pa → ∀ b, (b < pa ∨ pa + n.bytes ≤ b) → q.mem.readByte b = p.mem.readByte b) ∧
      (pa % n.bytes = 0 → (∀ b, InBios b → q.mem.readByte b = p.mem.readByte b) ∧ (PlatformInv p → PlatformInv q)) :=
    fun hm hk => ⟨fun hs b _ => by rw [hm hs], fun _ => ⟨fun b hb => hk.1.2.1 b (by
      obtain ⟨h1, _⟩ := hb; omega), hk.2⟩⟩
  have same : q.mem = p.mem → (PlatformInv p → PlatformInv q) →
      (¬ StartsTransfer pa → ∀ b, (b < pa ∨ pa + n.bytes ≤ b) → q.mem.readByte b = p.mem.readByte b) ∧
      (pa % n.bytes = 0 → (∀ b, InBios b → q.mem.readByte b = p.mem.readByte b) ∧ (PlatformInv p → PlatformInv q)) :=
    fun hm hi => ⟨fun _ b _ => by rw [hm], fun _ => ⟨fun b _ => by rw [hm], hi⟩⟩
  have store : Writable pa → q = { p with mem := p.mem.write pa n v } →
      (¬ StartsTransfer pa → ∀ b, (b < pa ∨ pa + n.bytes ≤ b) → q.mem.readByte b = p.mem.readByte b) ∧
      (pa % n.bytes = 0 → (∀ b, InBios b → q.mem.readByte b = p.mem.readByte b) ∧ (PlatformInv p → PlatformInv q)) := by
    rintro hw rfl
    have out := fun b hb => Memory.readByte_write_outside p.mem pa n v b hb
    refine ⟨fun _ => out, fun ha => ⟨fun b hb => out b ?_, fun hi => platformInv_mem hi (Memory.wf_write hi.memory _ _ _)
      (storageOnly_write hi.storage _ _ _ fun k hk => ?_)⟩⟩
    · by_contra hc
      have := storage_of_aligned (k := b - pa) hw ha (by omega)
      rw [show pa + (b - pa) = b by omega] at this
      obtain ⟨b1, b2⟩ := hb
      rcases this with h | ⟨h1, h2⟩
      · unfold InRam at h; omega
      · omega
    · rw [isStorage_iff]
      rcases storage_of_aligned hw ha hk with h | h
      · exact .inl h
      · exact .inr (.inl h)
  unfold busWrite at h
  split at h
  case h_1 ht =>
    cases h
    rcases target_eq_storage (.inl ht) with h | h | h
    · exact store (.inl h.2) rfl
    all_goals rw [ht] at h; simp at h
  case h_2 ht =>
    cases h
    rcases target_eq_storage (.inr (.inl ht)) with h | h | h
    · rw [ht] at h; simp at h
    · exact store (.inr h.2) rfl
    · rw [ht] at h; simp at h
  case h_3 | h_4 | h_5 => cases h; exact same rfl id
  case h_6 | h_7 => cases h; exact same rfl fun h => ⟨h.memory, h.storage, h.gpu, h.timers, h.chcr, h.irq⟩
  case h_8 c _ =>
    cases wordOnlyWrite_eq_next h
    exact ofKeeps (fun _ => rfl) (keeps_setChannel c p fun h => h.chcr c)
  case h_9 c _ =>
    cases wordOnlyWrite_eq_next h
    exact ofKeeps (fun _ => rfl) (keeps_setChannel c p fun h => h.chcr c)
  case h_10 c ht =>
    exact ofKeeps (fun hs => absurd ⟨c, c.isLt, target_chcr ht⟩ hs) (keeps_writeChcr (wordOnlyWrite_eq_next h))
  case h_11 =>
    cases wordOnlyWrite_eq_next h
    exact same rfl fun h => ⟨h.memory, h.storage, h.gpu, h.timers, h.chcr, h.irq⟩
  case h_12 => cases wordOnlyWrite_eq_next h; exact ofKeeps (fun _ => rfl) (keeps_writeDicr v p)
  case h_13 t _ =>
    cases h
    exact same rfl fun h => ⟨h.memory, h.storage, h.gpu, timers_set h.timers t (h.timers t), h.chcr, h.irq⟩
  case h_14 t _ =>
    unfold writeTimerMode at h
    split at h
    · cases h
    · cases h
      refine same rfl fun h => ⟨h.memory, h.storage, h.gpu, timers_set h.timers t ?_, h.chcr, h.irq⟩
      unfold timerSound
      simp only
      rw [getLsbD_modeWritten]; simp
  case h_15 t _ =>
    cases h
    exact same rfl fun h => ⟨h.memory, h.storage, h.gpu, timers_set h.timers t (h.timers t), h.chcr, h.irq⟩
  case h_16 =>
    have h := wordOnlyWrite_eq_next h
    obtain ⟨g, hg, rfl⟩ := mapNext_eq_next.mp h
    exact same rfl fun h => ⟨h.memory, h.storage, gpuInv_gp0 h.gpu hg, h.timers, h.chcr, h.irq⟩
  case h_17 =>
    cases wordOnlyWrite_eq_next h
    have hf := gp1_frame v p
    refine same (by rw [hf]) fun h => ?_
    have := platformInv_gpu h (gpuInv_gp1 h.gpu v) (gp1 v p).draws
    rw [← hf] at this; exact this
  case h_18 =>
    cases wordOnlyWrite_eq_next h
    exact same rfl fun h => ⟨h.memory, h.storage, h.gpu, h.timers, h.chcr, h.irq⟩
  case h_19 =>
    split at h
    · cases h; exact same rfl id
    · cases h

/-- No write moves the ignored ranges (R9, R72). -/
theorem busWrite_ignoredWrites {pa : Nat} {n : Size} {v : Word} {p q : Platform} (h : busWrite pa n v p = .next q) :
    q.ignoredWrites = p.ignoredWrites := by
  unfold busWrite at h
  split at h
  case h_10 => exact (keeps_writeChcr (wordOnlyWrite_eq_next h)).1.ignoredWrites
  case h_12 => cases wordOnlyWrite_eq_next h; exact (keeps_writeDicr v p).1.ignoredWrites
  case h_14 => unfold writeTimerMode at h; split at h <;> cases h; rfl
  case h_16 => obtain ⟨g, _, rfl⟩ := mapNext_eq_next.mp (wordOnlyWrite_eq_next h); rfl
  case h_17 => cases wordOnlyWrite_eq_next h; rw [gp1_frame]
  case h_19 => split at h <;> cases h; rfl
  all_goals first
    | (cases h; rfl)
    | (cases wordOnlyWrite_eq_next h; rfl)

/-- From a state of the invariant a write's faults are a write to nothing and a list that never ends (R72, R442). -/
theorem busWrite_fault {pa : Nat} {n : Size} {v : Word} {p : Platform} (hp : PlatformInv p) {f : Fault}
    (h : busWrite pa n v p = .fault f) : f = .unmappedWrite ∨ f = .dmaListNeverEnds := by
  have hw : ∀ r, wordOnlyWrite n r = .fault f → r = .fault f := by
    intro r hr; unfold wordOnlyWrite at hr; split at hr
    · exact hr
    · cases hr
  unfold busWrite at h
  split at h
  case h_10 => exact .inr (writeChcr_fault hp (hw _ h))
  case h_14 => unfold writeTimerMode at h; split at h <;> cases h
  case h_16 => exact absurd (mapNext_eq_fault.mp (hw _ h)) (gp0_outcome hp.gpu v f)
  case h_19 => split at h <;> cases h; exact .inl rfl
  all_goals first | (have := hw _ h; cases this) | cases h

/-- The one refusal of a read (R74). -/
theorem busRead_refused {pa : Nat} {n : Size} {p : Platform} {r : Refusal} (h : busRead pa n p = .refused r) :
    r = .subwordDeviceAccess := by
  have hw : ∀ q, wordOnly n q = .refused r → r = .subwordDeviceAccess := by
    intro q hq; unfold wordOnly at hq; split at hq <;> cases hq; rfl
  unfold busRead at h
  split at h <;> first | exact hw _ h | cases h

/-- The refusals of a write are those of a device (R74, R418, R432 to R434, R442, R462, R464). -/
theorem busWrite_refused {pa : Nat} {n : Size} {v : Word} {p : Platform} {r : Refusal}
    (h : busWrite pa n v p = .refused r) :
    r ∈ [Refusal.subwordDeviceAccess, .timerSync, .dmaZeroSize, .dmaChannelDisabled, .dmaSyncReserved,
      .dmaLinkedListNotGpu, .gpuUnknownCommand, .gpuTextureDepth] := by
  have hw : ∀ q, wordOnlyWrite n q = .refused r → r = .subwordDeviceAccess ∨ q = .refused r := by
    intro q hq; unfold wordOnlyWrite at hq; split at hq
    · exact .inr hq
    · cases hq; exact .inl rfl
  unfold busWrite at h
  split at h
  case h_10 =>
    rcases hw _ h with rfl | h
    · simp
    · have := writeChcr_refused h; simp at this ⊢; tauto
  case h_14 => unfold writeTimerMode at h; split at h <;> cases h; simp
  case h_16 =>
    rcases hw _ h with rfl | h
    · simp
    · have := gp0_refused (mapNext_eq_refused.mp h); simp at this ⊢; tauto
  case h_19 => split at h <;> cases h
  all_goals first
    | cases h
    | (rcases hw _ h with rfl | h
       · simp
       · cases h)

end Sys2Proof.Machine
end

