-- ==== Sys2Proof/Laws/Exceptions.lean ====
section
/-! SUPPORT. Taking an exception and returning from one: what entry does to Cause, Status and everything else, once. -/

namespace Sys2Proof.Machine

open Sys2Proof.Safety

/-- Cause after an entry, bit by bit (R35, R385). -/
theorem getLsbD_enteredCause (bd : Bool) (code : BitVec 5) (cause : Word) (k : Nat) :
    (enteredCause bd code cause).getLsbD k =
      if k < 2 then false else if k < 7 then code.getLsbD (k - 2) else if k < 8 then false
      else if k < 10 then cause.getLsbD k else if k < 31 then false else decide (k = 31) && bd := by
  by_cases h : k < 32
  · unfold enteredCause
    show BitVec.getLsbD (w := 1 + 21 + 2 + 1 + 5 + 2) _ k = _
    simp only [BitVec.getLsbD_append, BitVec.getLsbD_extractLsb', BitVec.getLsbD_zero, BitVec.getLsbD_ofBool]
    interval_cases k <;> simp
  · rw [BitVec.getLsbD_of_ge _ _ (by omega)]
    repeat rw [if_neg (by omega)]
    rw [decide_eq_false (by omega)]; rfl

/-- The pushed stack, bit by bit (R385). -/
theorem getLsbD_pushStatus (status : Word) (k : Nat) :
    (pushStatus status).getLsbD k =
      if k < 2 then false else if k < 6 then status.getLsbD (k - 2) else status.getLsbD k := by
  by_cases h : k < 32
  · unfold pushStatus
    show BitVec.getLsbD (w := 26 + 4 + 2) _ k = _
    simp only [BitVec.getLsbD_append, BitVec.getLsbD_extractLsb', BitVec.getLsbD_zero]
    interval_cases k <;> simp
  · rw [BitVec.getLsbD_of_ge _ _ (by omega)]
    repeat rw [if_neg (by omega)]
    rw [BitVec.getLsbD_of_ge _ _ (by omega)]

/-- The popped stack, bit by bit (R315). -/
theorem getLsbD_popStatus (status : Word) (k : Nat) :
    (popStatus status).getLsbD k = if k < 4 then status.getLsbD (k + 2) else status.getLsbD k := by
  by_cases h : k < 32
  · unfold popStatus
    show BitVec.getLsbD (w := 28 + 4) _ k = _
    simp only [BitVec.getLsbD_append, BitVec.getLsbD_extractLsb']
    interval_cases k <;> simp
  · rw [BitVec.getLsbD_of_ge _ _ (by omega)]
    repeat rw [if_neg (by omega)]
    rw [BitVec.getLsbD_of_ge _ _ (by omega)]

/-- The mode and interrupt stack as R385 step 2 writes it. -/
theorem pushStatus_eq (status : Word) :
    pushStatus status = ((status &&& ~~~0x3F#32) ||| ((status <<< 2) &&& 0x3F#32)) := by
  apply BitVec.eq_of_getLsbD_eq
  intro k hk
  rw [getLsbD_pushStatus]
  simp only [BitVec.getLsbD_or, BitVec.getLsbD_and, BitVec.getLsbD_not, BitVec.getLsbD_shiftLeft]
  interval_cases k <;> simp

/-- Exception entry does what R385 lists, field by field. -/
theorem entered_enter (x : Exception) (s : State) : Entered x.code.toNat s (enter x s) := by
  have hc : ∀ k, (enter x s).cause.getLsbD k = _ := getLsbD_enteredCause s.branchDelay x.code s.cause
  refine ⟨rfl, rfl, by rw [hc]; simp, by rw [hc]; simp, ?_, ?_, ?_, pushStatus_eq _, rfl, rfl, rfl, rfl, rfl, rfl⟩
  · have : (enter x s).cause.extractLsb' 28 2 = 0#2 := by
      apply BitVec.eq_of_getLsbD_eq; intro i hi
      rw [BitVec.getLsbD_extractLsb', hc]; interval_cases i <;> simp
    rw [this]; rfl
  · congr 1
    apply BitVec.eq_of_getLsbD_eq; intro i hi
    rw [BitVec.getLsbD_extractLsb', hc]; interval_cases i <;> simp
  · apply BitVec.eq_of_getLsbD_eq; intro i hi
    rw [BitVec.getLsbD_extractLsb', BitVec.getLsbD_extractLsb', hc]; interval_cases i <;> simp

/-- An instruction that raises takes its exception. -/
theorem raises_of_exec {i : Instr} {s : State} (x : Exception) (h : exec i s = raise x s) : Raises i s x.code.toNat :=
  ⟨_, h, entered_enter x s⟩

end Sys2Proof.Machine
end

