-- ==== Sys2Proof/Laws/Operands.lean ====
section
/-! SUPPORT. The operand forms of R112 as arithmetic, and the form of the trapping instructions. -/

namespace Sys2Proof.Machine

open Sys2Proof.Safety

theorem toInt_ofInt_of_range {x : Int} (h : -2147483648 ≤ x ∧ x ≤ 2147483647) : (BitVec.ofInt 32 x).toInt = x := by
  rw [BitVec.toInt_ofInt]
  apply Int.bmod_eq_of_le <;> omega

/-- An instruction of the trapping form traps or writes (R146). -/
theorem trapsOrWrites_of_exec {i : Instr} {s : State} {rd : Reg} {x : Int} (h : exec i s = trapOrWrite x rd s) :
    TrapsOrWrites i s rd x := by
  unfold TrapsOrWrites
  split
  · rename_i hx
    refine ⟨_, toInt_ofInt_of_range hx, writes_of_exec s ?_⟩
    rw [h, trapOrWrite, if_neg]; simp [overflows]; omega
  · rename_i hx
    refine raises_of_exec .ov ?_
    rw [h, trapOrWrite, if_pos]; simp [overflows]; omega

theorem toInt_sext16 (imm : BitVec 16) : (sext16 imm).toInt = imm.toInt := by
  rw [sext16, BitVec.toInt_signExtend_of_le (by decide)]

theorem sext16_eq_ofInt (imm : BitVec 16) : sext16 imm = BitVec.ofInt 32 imm.toInt := by
  rw [← toInt_sext16, BitVec.ofInt_toInt]

theorem ofInt_toNat (a : Word) : BitVec.ofInt 32 (a.toNat : Int) = a := by
  apply BitVec.eq_of_toNat_eq; simp

/-- The sum of a word and a sign-extended immediate (R112, R275). -/
theorem add_sext16 (a : Word) (imm : BitVec 16) : a + sext16 imm = BitVec.ofInt 32 (a.toNat + imm.toInt) := by
  rw [BitVec.ofInt_add, ofInt_toNat, sext16_eq_ofInt]

theorem sub_eq_ofInt (a b : Word) : BitVec.ofInt 32 ((a.toNat : Int) - b.toNat) = a - b := by
  apply BitVec.eq_of_toInt_eq
  rw [BitVec.toInt_ofInt, BitVec.toInt_sub, BitVec.toInt_eq_toNat_bmod, BitVec.toInt_eq_toNat_bmod, Int.sub_bmod_bmod,
    Int.bmod_sub_bmod]

theorem getLsbD_zext16 (imm : BitVec 16) (k : Nat) : (zext16 imm).getLsbD k = imm.getLsbD k := by
  rw [zext16, BitVec.getLsbD_setWidth]
  by_cases h : k < 32
  · simp [h]
  · rw [BitVec.getLsbD_of_ge imm k (by omega)]; simp

theorem shiftAmount_eq (a : Word) : shiftAmount a = a.toNat % 32 := by
  simp [shiftAmount, BitVec.extractLsb'_toNat]

theorem flagWord_decide (p : Prop) [Decidable p] : flagWord (decide p) = if p then 1#32 else 0#32 := by
  simp [flagWord]

theorem toNat_sext16 (imm : BitVec 16) :
    ((sext16 imm).toNat : Int) = if imm.toInt < 0 then imm.toInt + 4294967296 else imm.toInt := by
  have h := toInt_sext16 imm
  rw [BitVec.toInt_eq_toNat_cond] at h
  have := (sext16 imm).isLt
  have := imm.toInt_lt; have := imm.le_toInt
  split at h <;> split <;> omega

end Sys2Proof.Machine
end

