-- ==== Sys2Proof/Laws/Control.lean ====
section
/-! SUPPORT. Branch targets as arithmetic, and the linking form (R243, R244). -/

namespace Sys2Proof.Machine

open Sys2Proof.Safety

/-- A link and a branch change nothing else. -/
theorem onlyControl_link (s : State) (b : Bool) (a : Word) (rd : Reg) (v : Word) :
    OnlyControl s (branchIf b a (writeReg s rd v)) := by
  unfold OnlyControl branchIf; conv_lhs => rw [onlyRegisters_writeReg s rd v]
  simp

theorem registerWritten_link (s : State) (b : Bool) (a : Word) (rd : Reg) (v : Word) :
    RegisterWritten s (branchIf b a (writeReg s rd v)) rd v :=
  registerWritten_of_regs (registerWritten_writeReg s rd v) rfl rfl rfl

/-- The bits of a jump target (R243). -/
theorem jumpTarget_append (s : State) (target : BitVec 26) :
    jumpTarget s target = ((s.currentPC + 4#32).extractLsb' 28 4 ++ target ++ 0#2 : BitVec 32) := by
  unfold jumpTarget
  generalize s.currentPC + 4#32 = x
  apply BitVec.eq_of_getLsbD_eq; intro k hk
  have : BitVec.getLsbD (w := 32) (x.extractLsb' 28 4 ++ target ++ 0#2 : BitVec 32) k =
      if k < 2 then false else if k < 28 then target.getLsbD (k - 2) else x.getLsbD k := by
    show BitVec.getLsbD (w := 4 + 26 + 2) _ k = _
    simp only [BitVec.getLsbD_append, BitVec.getLsbD_extractLsb', BitVec.getLsbD_zero]
    interval_cases k <;> simp
  rw [this]
  simp only [BitVec.getLsbD_or, BitVec.getLsbD_and, BitVec.getLsbD_shiftLeft, BitVec.getLsbD_setWidth]
  interval_cases k <;> simp

/-- A jump target as arithmetic: the 256 MiB region of the delay slot, and four times the field (R243). -/
theorem jumpTarget_eq (s : State) (target : BitVec 26) :
    jumpTarget s target =
      BitVec.ofNat 32 ((s.currentPC + 4#32).toNat / 0x10000000 * 0x10000000 + 4 * target.toNat) := by
  rw [jumpTarget_append]
  generalize s.currentPC + 4#32 = x
  apply BitVec.eq_of_toNat_eq
  have h2 : (x.extractLsb' 28 4 ++ target ++ 0#2 : BitVec 32).toNat =
      (x.toNat / 0x10000000) * 0x10000000 + 4 * target.toNat := by
    show BitVec.toNat (w := 4 + 26 + 2) _ = _
    rw [BitVec.toNat_append, BitVec.toNat_append, ← Nat.shiftLeft_add_eq_or_of_lt (by decide),
      ← Nat.shiftLeft_add_eq_or_of_lt target.isLt]
    simp [BitVec.extractLsb'_toNat, Nat.shiftRight_eq_div_pow, Nat.shiftLeft_eq]
    have := x.isLt
    omega
  rw [h2, BitVec.toNat_ofNat, Nat.mod_eq_of_lt]
  rw [← h2]; exact (x.extractLsb' 28 4 ++ target ++ 0#2 : BitVec 32).isLt

/-- A branch target as arithmetic (R243). -/
theorem branchTarget_eq (s : State) (imm : BitVec 16) :
    branchTarget s imm = BitVec.ofInt 32 (s.currentPC.toNat + 4 + 4 * imm.toInt) := by
  unfold branchTarget displacement
  have h : sext16 imm <<< 2 = BitVec.ofInt 32 (4 * imm.toInt) := by
    rw [BitVec.shiftLeft_eq_mul_twoPow, sext16_eq_ofInt, mul_comm, BitVec.ofInt_mul]; rfl
  rw [h, BitVec.ofInt_add, BitVec.ofInt_add, ofInt_toNat]; rfl

end Sys2Proof.Machine
end

