-- ==== Sys2Proof/Laws/MulDiv.lean ====
section
/-! SUPPORT. Products, quotients and the HI/LO hazard, once (R200 to R205, R507). -/

namespace Sys2Proof.Machine

/-- A writer of HI and LO completes two instructions or more after MFHI or MFLO (R507). -/
theorem whenHiLoFree_next {s t : State} (h : 2 ≤ s.mfAge) : whenHiLoFree s t = .next t := by
  simp [whenHiLoFree]; omega

theorem whenHiLoFree_eq_next {s t u : State} (h : whenHiLoFree s t = .next u) : u = t := by
  unfold whenHiLoFree at h; split at h <;> cases h; rfl

/-- The two halves of an unsigned product are the product (R201). -/
theorem product_halves_nat (p : BitVec 64) :
    (p.extractLsb' 32 32).toNat * 4294967296 + (p.extractLsb' 0 32).toNat = p.toNat := by
  simp [BitVec.extractLsb'_toNat, Nat.shiftRight_eq_div_pow]; omega

/-- The two halves of a signed product are the product (R200). -/
theorem product_halves_int (p : BitVec 64) :
    (p.extractLsb' 32 32).toInt * 4294967296 + (p.extractLsb' 0 32).toNat = p.toInt := by
  have h := product_halves_nat p
  have h1 := (p.extractLsb' 32 32).isLt
  have h0 := (p.extractLsb' 0 32).isLt
  rw [BitVec.toInt_eq_toNat_cond, BitVec.toInt_eq_toNat_cond]
  split <;> split <;> omega

theorem toInt_bounds (a : Word) : -2147483648 ≤ a.toInt ∧ a.toInt ≤ 2147483647 := by
  have := a.toInt_lt; have := a.le_toInt; simp at *; omega

/-- 64 bits hold every signed product (R200). -/
theorem mul_bounds (a b : Word) :
    -4611686018427387904 ≤ a.toInt * b.toInt ∧ a.toInt * b.toInt ≤ 4611686018427387904 := by
  obtain ⟨h1, h2⟩ := toInt_bounds a
  obtain ⟨h3, h4⟩ := toInt_bounds b
  constructor <;> nlinarith

theorem eq_of_toInt {a : Word} {x : Int} (h : a.toInt = x) : a = BitVec.ofInt 32 x := by rw [← h, BitVec.ofInt_toInt]

/-- Signed division by anything but zero, away from the one overflow: the quotient truncates and the remainder has the
dividend's sign (R202). -/
theorem signedDivision_exact {a b : Word} (hb : b ≠ 0#32) (hab : ¬ (a = 0x80000000#32 ∧ b = 0xFFFFFFFF#32)) :
    (signedDivision a b).1.toInt = a.toInt.tmod b.toInt ∧ (signedDivision a b).2.toInt = a.toInt.tdiv b.toInt := by
  have hb' : b.toInt ≠ 0 := fun h => hb (by simpa using eq_of_toInt h)
  have hab' : ¬ (a.toInt = -2147483648 ∧ b.toInt = -1) := fun h => hab ⟨eq_of_toInt h.1, eq_of_toInt h.2⟩
  have ha := toInt_bounds a
  have hbb := toInt_bounds b
  unfold signedDivision
  simp only [if_neg hb', if_neg hab']
  have hq := Int.tmod_add_mul_tdiv a.toInt b.toInt
  have hr : a.toInt - b.toInt * a.toInt.tdiv b.toInt = a.toInt.tmod b.toInt := by omega
  have hrb : |a.toInt.tmod b.toInt| < |b.toInt| := by
    rw [Int.abs_eq_natAbs, Int.abs_eq_natAbs, Int.natAbs_tmod]
    exact_mod_cast Nat.mod_lt _ (by omega)
  have hqr : -2147483648 ≤ a.toInt.tdiv b.toInt ∧ a.toInt.tdiv b.toInt ≤ 2147483647 := by
    have h1 : (a.toInt.tdiv b.toInt).natAbs = a.toInt.natAbs / b.toInt.natAbs := Int.natAbs_tdiv ..
    have h2 : a.toInt.natAbs / b.toInt.natAbs ≤ a.toInt.natAbs := Nat.div_le_self ..
    by_cases hm : a.toInt = -2147483648
    · have hb1 : b.toInt ≠ -1 := fun h => hab' ⟨hm, h⟩
      by_cases hb2 : b.toInt = 1
      · rw [hb2, hm]; decide
      · have : a.toInt.natAbs / b.toInt.natAbs ≤ a.toInt.natAbs / 2 := Nat.div_le_div_left (by omega) (by decide)
        omega
    · omega
  have hrr : -2147483648 ≤ a.toInt.tmod b.toInt ∧ a.toInt.tmod b.toInt ≤ 2147483647 := by
    rcases abs_lt.mp hrb with ⟨h1, h2⟩
    have : |b.toInt| ≤ 2147483648 := abs_le.mpr ⟨by omega, by omega⟩
    omega
  rw [hr, toInt_ofInt_of_range hqr, toInt_ofInt_of_range hrr]
  exact ⟨rfl, rfl⟩

/-- Unsigned division by anything but zero (R203). -/
theorem unsignedDivision_exact {a b : Word} (hb : b ≠ 0#32) :
    (unsignedDivision a b).1.toNat = a.toNat % b.toNat ∧ (unsignedDivision a b).2.toNat = a.toNat / b.toNat := by
  have hb' : b.toNat ≠ 0 := fun h => hb (BitVec.eq_of_toNat_eq h)
  have h1 : a.toNat % b.toNat < b.toNat := Nat.mod_lt _ (by omega)
  have h2 : a.toNat / b.toNat ≤ a.toNat := Nat.div_le_self ..
  have := a.isLt; have := b.isLt
  simp only [unsignedDivision, if_neg hb', BitVec.toNat_ofNat]
  exact ⟨Nat.mod_eq_of_lt (by omega), Nat.mod_eq_of_lt (by omega)⟩

end Sys2Proof.Machine
end

