-- ==== Sys2Proof/Laws/System.lean ====
section
/-! SUPPORT. Cause as it is read, the interrupt line and the coprocessor-0 operations (R35, R313, R314, R372). -/

namespace Sys2Proof.Machine

open Sys2Proof.Safety

/-- The line is up when a pending source is enabled (R372). -/
theorem lineUp_iff (p : Platform) : interruptLine p = true ↔ LineUp p := by
  unfold interruptLine LineUp
  rw [bne_iff_ne, ne_eq, BitVec.eq_of_getLsbD_eq_iff]
  simp

/-- Cause as a read returns it: bit 10 is the live line (R35). -/
theorem getLsbD_causeRead (s : State) (k : Nat) :
    s.causeRead.getLsbD k = if k = 10 then interruptLine s.plat else s.cause.getLsbD k := by
  by_cases h : k < 32
  · unfold State.causeRead
    show BitVec.getLsbD (w := 21 + 1 + 10) _ k = _
    simp only [BitVec.getLsbD_append, BitVec.getLsbD_extractLsb', BitVec.getLsbD_ofBool]
    interval_cases k <;> simp
  · rw [BitVec.getLsbD_of_ge _ _ (by omega), if_neg (by omega), BitVec.getLsbD_of_ge _ _ (by omega)]

/-- A read of a coprocessor-0 register changes nothing but the draw counter. -/
theorem cop0Read_frame (n : Reg) (s : State) :
    (cop0Read n s).2 = { s with plat := { s.plat with draws := (cop0Read n s).2.plat.draws } } := by
  unfold cop0Read; split <;> rfl

/-- A write of Cause changes only the two software interrupt bits (R314). -/
theorem getLsbD_causeWrite (cause v : Word) (k : Nat) :
    ((cause &&& ~~~0x00000300#32) ||| (v &&& 0x00000300#32)).getLsbD k =
      if k = 8 ∨ k = 9 then v.getLsbD k else cause.getLsbD k := by
  simp only [BitVec.getLsbD_or, BitVec.getLsbD_and, BitVec.getLsbD_not]
  by_cases h : k < 32
  · interval_cases k <;> simp
  · rw [if_neg (by omega), BitVec.getLsbD_of_ge _ _ (by omega), BitVec.getLsbD_of_ge _ _ (by omega)]; simp

/-- A write of a coprocessor-0 register changes nothing but Status and Cause. -/
theorem cop0Write_frame (n : Reg) (v : Word) (s : State) :
    cop0Write n v s = { s with status := (cop0Write n v s).status, cause := (cop0Write n v s).cause } := by
  unfold cop0Write; split <;> rfl

end Sys2Proof.Machine
end

