-- ==== Sys2Proof/Laws/Access.lean ====
section
/-! SUPPORT. Translation, alignment, and what a load's or a store's access can do, once (R62 to R65, R73, R77, R78,
R96). -/

namespace Sys2Proof.Machine

open Sys2Proof.Safety

/-! ## Translation -/

theorem toNat_segment (va : Word) : (va.extractLsb' 29 3).toNat = va.toNat / 0x20000000 := by
  have := va.isLt
  rw [BitVec.extractLsb'_toNat, Nat.shiftRight_eq_div_pow]; omega

/-- KSEG0 and KSEG1 translate to the low 512 MiB, the other segments to themselves (R63). -/
theorem physical_eq (va : Word) :
    physical va = if 0x80000000 ≤ va.toNat ∧ va.toNat < 0xC0000000 then va.toNat % 0x20000000 else va.toNat := by
  have hs := toNat_segment va
  have hm : (va &&& 0x1FFFFFFF#32).toNat = va.toNat % 0x20000000 := by
    rw [BitVec.toNat_and]; exact Nat.and_two_pow_sub_one_eq_mod va.toNat 29
  unfold physical translate
  split
  · rename_i h; rw [h] at hs; rw [hm, if_pos]; change 4 = _ at hs; omega
  · rename_i h; rw [h] at hs; rw [hm, if_pos]; change 5 = _ at hs; omega
  · rename_i h4 h5
    rw [if_neg]
    intro h
    have : va.toNat / 0x20000000 = 4 ∨ va.toNat / 0x20000000 = 5 := by omega
    rcases this with h | h <;> rw [h] at hs
    · exact h4 (BitVec.eq_of_toNat_eq hs)
    · exact h5 (BitVec.eq_of_toNat_eq hs)

/-- KUSEG and KSEG0 are cached (R64). -/
theorem cached_iff (va : Word) : cached va = true ↔ va.toNat < 0xA0000000 := by
  unfold cached; rw [decide_eq_true_eq, toNat_segment]; omega

theorem physical_mod (va : Word) {m : Nat} (h : m ∣ 0x20000000) : physical va % m = va.toNat % m := by
  rw [physical_eq]; split
  · exact Nat.mod_mod_of_dvd _ h
  · rfl

theorem misaligned_eq_false (n : Size) (a : Word) : misaligned n a = false ↔ AlignedTo n a := by
  have := a.isLt
  unfold misaligned AlignedTo Size.bytes
  cases n
  · simp; omega
  · simp only [← BitVec.testBit_toNat, Nat.testBit, Nat.shiftRight_zero, Nat.one_and_eq_mod_two]
    rcases Nat.mod_two_eq_zero_or_one a.toNat with h | h <;> simp [h]
  · simp only [bne_eq_false_iff_eq]
    rw [← BitVec.toNat_inj, BitVec.extractLsb'_toNat]; simp

theorem misaligned_eq_true (n : Size) (a : Word) : misaligned n a = true ↔ ¬ AlignedTo n a := by
  rw [← misaligned_eq_false]; simp

theorem physical_aligned {n : Size} {va : Word} (h : AlignedTo n va) : physical va % n.bytes = 0 := by
  rw [physical_mod va (by cases n <;> decide)]; exact h

theorem toNat_wordBase (ea : Word) : (wordBase ea).toNat = ea.toNat / 4 * 4 := by
  unfold wordBase
  have h : ea &&& 0xFFFFFFFC#32 = (ea.extractLsb' 2 30 ++ 0#2 : BitVec 32) := by
    apply BitVec.eq_of_getLsbD_eq; intro k hk
    have : BitVec.getLsbD (w := 32) (ea.extractLsb' 2 30 ++ 0#2 : BitVec 32) k =
        if k < 2 then false else ea.getLsbD k := by
      show BitVec.getLsbD (w := 30 + 2) _ k = _
      simp only [BitVec.getLsbD_append, BitVec.getLsbD_extractLsb', BitVec.getLsbD_zero]
      interval_cases k <;> simp
    rw [this, BitVec.getLsbD_and]
    interval_cases k <;> simp
  rw [h]
  show BitVec.toNat (w := 30 + 2) _ = _
  have := ea.isLt
  rw [BitVec.toNat_append, ← Nat.shiftLeft_add_eq_or_of_lt (by decide)]
  simp [BitVec.extractLsb'_toNat, Nat.shiftRight_eq_div_pow, Nat.shiftLeft_eq]
  omega

theorem aligned_wordBase (ea : Word) : AlignedTo .word (wordBase ea) := by
  unfold AlignedTo Size.bytes; rw [toNat_wordBase]; simp

/-- The word around an address lies in the same segment (R279). -/
theorem physical_wordBase (ea : Word) : physical (wordBase ea) = physical ea / 4 * 4 := by
  have := ea.isLt
  rw [physical_eq, physical_eq, toNat_wordBase]
  split <;> split <;> omega

theorem toNat_byteOffset (ea : Word) : (byteOffset ea).toNat = ea.toNat % 4 := by
  unfold byteOffset; simp [BitVec.extractLsb'_toNat]

theorem getLsbD_31 (a : Word) : a.getLsbD 31 = true ↔ 0x80000000 ≤ a.toNat := by
  have := a.isLt
  rw [← BitVec.testBit_toNat, Nat.testBit, Nat.shiftRight_eq_div_pow, Nat.one_and_eq_mod_two]
  simp; omega

theorem wordBase_31 (ea : Word) : (wordBase ea).getLsbD 31 = ea.getLsbD 31 := by
  rw [Bool.eq_iff_iff, getLsbD_31, getLsbD_31, toNat_wordBase]; omega

theorem cached_wordBase (ea : Word) : cached (wordBase ea) = cached ea := by
  rw [Bool.eq_iff_iff, cached_iff, cached_iff, toNat_wordBase]; omega

theorem forbids_iff (s : State) (va : Word) : s.forbids va = true ↔ Forbidden s va := by
  unfold State.forbids Forbidden; simp

theorem forbids_false {s : State} {va : Word} (h : ¬ Forbidden s va) : s.forbids va = false := by
  rw [← forbids_iff] at h; simpa using h

/-! ## Reads -/

theorem memRead_of_forbidden {s : State} {va : Word} (h : Forbidden s va) (n : Size) :
    memRead va n s = .refused .userKernelAccess := by
  unfold memRead; rw [if_pos ((forbids_iff s va).mpr h)]

/-- An admitted read is its bus access (R77). -/
theorem memRead_of_bus {s : State} {va : Word} (h : LoadReachesBus s va) (n : Size) :
    memRead va n s = mapNext (fun r => (r.1, { s with plat := r.2 })) (busRead (physical va) n s.plat) := by
  unfold memRead
  rw [if_neg (by rw [forbids_false h.1]; simp), if_neg (by simpa using h.2)]; rfl

theorem memRead_of_storage {s : State} {va : Word} (h : LoadReachesBus s va) (hs : InStorage (physical va)) (n : Size) :
    memRead va n s = .next (s.plat.mem.read (physical va) n, s) := by
  rw [memRead_of_bus h, busRead_of_storage hs]; rfl

/-- An isolated read of a cached segment is a draw (R97). -/
theorem memRead_isolated {s : State} {va : Word} (hf : ¬ Forbidden s va) (hi : s.cacheIsolated = true)
    (hc : cached va = true) (n : Size) :
    memRead va n s =
      .next (n.low (Config.freeWord s.plat.draws), { s with plat := { s.plat with draws := s.plat.draws + 1 } }) := by
  unfold memRead
  rw [if_neg (by rw [forbids_false hf]; simp), if_pos (by simp [hi, hc])]; rfl

/-- What a read can do: nothing but the timers, the GPU and the draw counter moves. -/
theorem memRead_keeps {va : Word} {n : Size} {s : State} {q : Word × State} (h : memRead va n s = .next q) :
    q.2 = { s with plat := { s.plat with timers := q.2.plat.timers, gpu := q.2.plat.gpu, draws := q.2.plat.draws } } ∧
    (PlatformInv s.plat → PlatformInv q.2.plat) := by
  unfold memRead at h
  split at h
  · cases h
  · split at h
    · cases h; exact ⟨rfl, fun h => platformInv_draws h _⟩
    · obtain ⟨r, hr, rfl⟩ := mapNext_eq_next.mp h
      obtain ⟨h1, h2⟩ := busRead_keeps hr
      exact ⟨by simp only; rw [← h1], h2⟩

theorem memRead_fault {va : Word} {n : Size} {s : State} {f : Fault} (h : memRead va n s = .fault f) :
    f = .unmappedRead := by
  unfold memRead at h
  split at h
  · cases h
  · split at h
    · cases h
    · exact busRead_fault (mapNext_eq_fault.mp h)

/-! ## Writes -/

theorem memWrite_of_forbidden {s : State} {va : Word} (h : Forbidden s va) (n : Size) (v : Word) :
    memWrite va n v s = .refused .userKernelAccess := by
  unfold memWrite; rw [if_pos ((forbids_iff s va).mpr h)]

/-- An admitted write is its bus access (R78). -/
theorem memWrite_of_bus {s : State} {va : Word} (h : StoreReachesBus s va) (n : Size) (v : Word) :
    memWrite va n v s = mapNext (fun p => { s with plat := p }) (busWrite (physical va) n v s.plat) := by
  unfold memWrite
  rw [if_neg (by rw [forbids_false h.1]; simp), if_neg (by simp [h.2])]; rfl

theorem busWrite_of_writable {pa : Nat} (h : Writable pa) (n : Size) (v : Word) (p : Platform) :
    busWrite pa n v p = .next { p with mem := p.mem.write pa n v } := by
  unfold busWrite
  rcases h with h | h
  · rw [target_of_ram h]
  · rw [target_of_scratchpad h]

theorem memWrite_of_writable {s : State} {va : Word} (h : StoreReachesBus s va) (hw : Writable (physical va)) (n : Size)
    (v : Word) :
    memWrite va n v s = .next { s with plat := { s.plat with mem := s.plat.mem.write (physical va) n v } } := by
  rw [memWrite_of_bus h, busWrite_of_writable hw]; rfl

theorem memWrite_isolated {s : State} {va : Word} (hf : ¬ Forbidden s va) (hi : s.cacheIsolated = true) (n : Size)
    (v : Word) : memWrite va n v s = .next (isolatedStore va n v s) := by
  unfold memWrite
  rw [if_neg (by rw [forbids_false hf]; simp), if_pos hi]

/-- An isolated store reaches one cache line or CCR (R96). -/
theorem isolatedStore_frame (va : Word) (n : Size) (v : Word) (s : State) :
    let t := isolatedStore va n v s
    t = { s with icache := t.icache, plat := { s.plat with ccr := t.plat.ccr } } := by
  intro t
  cases n
  · rfl
  · rfl
  · by_cases h : translate va = 0xFFFE0130#32
    · have : t = { s with plat := { s.plat with ccr := v } } := if_pos h
      rw [this]
    · have : t = s := if_neg h
      rw [this]

/-- What a write can do: the cache only while isolated, else the platform; bytes only where it stores, unless it starts
a transfer; never the ROM. -/
theorem memWrite_keeps {va : Word} {n : Size} {v : Word} {s t : State} (ha : AlignedTo n va)
    (h : memWrite va n v s = .next t) :
    t = { s with icache := t.icache, plat := t.plat } ∧ (s.cacheIsolated = false → t.icache = s.icache) ∧
    (¬ StartsTransfer (physical va) → ∀ b, (b < physical va ∨ physical va + n.bytes ≤ b) → byteAt t b = byteAt s b) ∧
    (∀ b, InBios b → byteAt t b = byteAt s b) ∧ (PlatformInv s.plat → PlatformInv t.plat) := by
  unfold memWrite at h
  split at h
  · cases h
  · split at h
    · rename_i hi
      cases h
      have hf := isolatedStore_frame va n v s
      have hm : (isolatedStore va n v s).plat = { s.plat with ccr := (isolatedStore va n v s).plat.ccr } := by rw [hf]
      refine ⟨by rw [hf], fun h => absurd h (by simp [hi]), fun _ b _ => ?_, fun b _ => ?_, fun h => ?_⟩
      · unfold byteAt; rw [hm]
      · unfold byteAt; rw [hm]
      · rw [hm]; exact ⟨h.memory, h.storage, h.gpu, h.timers, h.chcr, h.irq⟩
    · obtain ⟨p, hp, rfl⟩ := mapNext_eq_next.mp h
      obtain ⟨h1, h2⟩ := busWrite_keeps hp
      obtain ⟨h3, h4⟩ := h2 (physical_aligned ha)
      exact ⟨rfl, fun _ => rfl, h1, h3, h4⟩

/-- No store moves the ignored ranges (R9, R72). -/
theorem memWrite_ignoredWrites {va : Word} {n : Size} {v : Word} {s t : State} (h : memWrite va n v s = .next t) :
    t.plat.ignoredWrites = s.plat.ignoredWrites := by
  unfold memWrite at h
  split at h
  · cases h
  · split at h
    · cases h; rw [isolatedStore_frame]
    · obtain ⟨p, hp, rfl⟩ := mapNext_eq_next.mp h
      exact busWrite_ignoredWrites hp

theorem memWrite_fault {va : Word} {n : Size} {v : Word} {s : State} (hp : PlatformInv s.plat) {f : Fault}
    (h : memWrite va n v s = .fault f) : f = .unmappedWrite ∨ f = .dmaListNeverEnds := by
  unfold memWrite at h
  split at h
  · cases h
  · split at h
    · cases h
    · exact busWrite_fault hp (mapNext_eq_fault.mp h)

/-! ## Refusals -/

theorem memRead_refused {va : Word} {n : Size} {s : State} {r : Refusal} (h : memRead va n s = .refused r) :
    r = .userKernelAccess ∨ r = .subwordDeviceAccess := by
  unfold memRead at h
  split at h
  · cases h; exact .inl rfl
  · split at h
    · cases h
    · exact .inr (busRead_refused (mapNext_eq_refused.mp h))

theorem memWrite_refused {va : Word} {n : Size} {v : Word} {s : State} {r : Refusal}
    (h : memWrite va n v s = .refused r) :
    r ∈ [Refusal.userKernelAccess, .subwordDeviceAccess, .timerSync, .dmaZeroSize, .dmaChannelDisabled,
      .dmaSyncReserved, .dmaLinkedListNotGpu, .gpuUnknownCommand, .gpuTextureDepth] := by
  unfold memWrite at h
  split at h
  · cases h; simp
  · split at h
    · cases h
    · exact List.mem_cons_of_mem _ (busWrite_refused (mapNext_eq_refused.mp h))

end Sys2Proof.Machine
end

