-- ==== Sys2Proof/Laws/Encoding.lean ====
section
/-! SUPPORT. The fields of an encoded word (R110, R111): what the decoder reads back of each format, and the bits of the
used fields of any word (R123). -/

namespace Sys2Proof

theorem getLsbD_formatR (rs rt rd : Reg) (shamt : BitVec 5) (funct : BitVec 6) (k : Nat) :
    (formatR rs rt rd shamt funct).getLsbD k =
      if k < 6 then funct.getLsbD k else if k < 11 then shamt.getLsbD (k - 6) else
      if k < 16 then rd.getLsbD (k - 11) else if k < 21 then rt.getLsbD (k - 16) else
      if k < 26 then rs.getLsbD (k - 21) else (0x00#6).getLsbD (k - 26) := by
  unfold formatR
  show BitVec.getLsbD (w := 6 + 5 + 5 + 5 + 5 + 6) _ k = _
  simp only [BitVec.getLsbD_append]
  repeat' split
  all_goals first | rfl | omega

@[simp] theorem opField_formatR (rs rt rd : Reg) (shamt : BitVec 5) (funct : BitVec 6) : opField (formatR rs rt rd shamt funct) = 0x00#6 := by
  apply BitVec.eq_of_getLsbD_eq
  intro k hk
  rw [opField, BitVec.getLsbD_extractLsb', getLsbD_formatR]
  interval_cases k <;> simp

@[simp] theorem rsField_formatR (rs rt rd : Reg) (shamt : BitVec 5) (funct : BitVec 6) : rsField (formatR rs rt rd shamt funct) = rs := by
  apply BitVec.eq_of_getLsbD_eq
  intro k hk
  rw [rsField, BitVec.getLsbD_extractLsb', getLsbD_formatR]
  interval_cases k <;> simp

@[simp] theorem rtField_formatR (rs rt rd : Reg) (shamt : BitVec 5) (funct : BitVec 6) : rtField (formatR rs rt rd shamt funct) = rt := by
  apply BitVec.eq_of_getLsbD_eq
  intro k hk
  rw [rtField, BitVec.getLsbD_extractLsb', getLsbD_formatR]
  interval_cases k <;> simp

@[simp] theorem rdField_formatR (rs rt rd : Reg) (shamt : BitVec 5) (funct : BitVec 6) : rdField (formatR rs rt rd shamt funct) = rd := by
  apply BitVec.eq_of_getLsbD_eq
  intro k hk
  rw [rdField, BitVec.getLsbD_extractLsb', getLsbD_formatR]
  interval_cases k <;> simp

@[simp] theorem shamtField_formatR (rs rt rd : Reg) (shamt : BitVec 5) (funct : BitVec 6) : shamtField (formatR rs rt rd shamt funct) = shamt := by
  apply BitVec.eq_of_getLsbD_eq
  intro k hk
  rw [shamtField, BitVec.getLsbD_extractLsb', getLsbD_formatR]
  interval_cases k <;> simp

@[simp] theorem functField_formatR (rs rt rd : Reg) (shamt : BitVec 5) (funct : BitVec 6) : functField (formatR rs rt rd shamt funct) = funct := by
  apply BitVec.eq_of_getLsbD_eq
  intro k hk
  rw [functField, BitVec.getLsbD_extractLsb', getLsbD_formatR]
  interval_cases k <;> simp

theorem getLsbD_formatI (op : BitVec 6) (rs rt : Reg) (imm : BitVec 16) (k : Nat) :
    (formatI op rs rt imm).getLsbD k =
      if k < 16 then imm.getLsbD k else if k < 21 then rt.getLsbD (k - 16) else
      if k < 26 then rs.getLsbD (k - 21) else op.getLsbD (k - 26) := by
  unfold formatI
  show BitVec.getLsbD (w := 6 + 5 + 5 + 16) _ k = _
  simp only [BitVec.getLsbD_append]
  repeat' split
  all_goals first | rfl | omega

@[simp] theorem opField_formatI (op : BitVec 6) (rs rt : Reg) (imm : BitVec 16) : opField (formatI op rs rt imm) = op := by
  apply BitVec.eq_of_getLsbD_eq
  intro k hk
  rw [opField, BitVec.getLsbD_extractLsb', getLsbD_formatI]
  interval_cases k <;> simp

@[simp] theorem rsField_formatI (op : BitVec 6) (rs rt : Reg) (imm : BitVec 16) : rsField (formatI op rs rt imm) = rs := by
  apply BitVec.eq_of_getLsbD_eq
  intro k hk
  rw [rsField, BitVec.getLsbD_extractLsb', getLsbD_formatI]
  interval_cases k <;> simp

@[simp] theorem rtField_formatI (op : BitVec 6) (rs rt : Reg) (imm : BitVec 16) : rtField (formatI op rs rt imm) = rt := by
  apply BitVec.eq_of_getLsbD_eq
  intro k hk
  rw [rtField, BitVec.getLsbD_extractLsb', getLsbD_formatI]
  interval_cases k <;> simp

@[simp] theorem imm16Field_formatI (op : BitVec 6) (rs rt : Reg) (imm : BitVec 16) : imm16Field (formatI op rs rt imm) = imm := by
  apply BitVec.eq_of_getLsbD_eq
  intro k hk
  rw [imm16Field, BitVec.getLsbD_extractLsb', getLsbD_formatI]
  interval_cases k <;> simp

theorem getLsbD_formatJ (op : BitVec 6) (target : BitVec 26) (k : Nat) :
    (formatJ op target).getLsbD k =
      if k < 26 then target.getLsbD k else op.getLsbD (k - 26) := by
  unfold formatJ
  show BitVec.getLsbD (w := 6 + 26) _ k = _
  simp only [BitVec.getLsbD_append]

@[simp] theorem opField_formatJ (op : BitVec 6) (target : BitVec 26) : opField (formatJ op target) = op := by
  apply BitVec.eq_of_getLsbD_eq
  intro k hk
  rw [opField, BitVec.getLsbD_extractLsb', getLsbD_formatJ]
  interval_cases k <;> simp

@[simp] theorem target26Field_formatJ (op : BitVec 6) (target : BitVec 26) : target26Field (formatJ op target) = target := by
  apply BitVec.eq_of_getLsbD_eq
  intro k hk
  rw [target26Field, BitVec.getLsbD_extractLsb', getLsbD_formatJ]
  interval_cases k <;> simp

theorem getLsbD_formatCode (code : BitVec 20) (funct : BitVec 6) (k : Nat) :
    (formatCode code funct).getLsbD k =
      if k < 6 then funct.getLsbD k else if k < 26 then code.getLsbD (k - 6) else
      (0x00#6).getLsbD (k - 26) := by
  unfold formatCode
  show BitVec.getLsbD (w := 6 + 20 + 6) _ k = _
  simp only [BitVec.getLsbD_append]
  repeat' split
  all_goals first | rfl | omega

@[simp] theorem opField_formatCode (code : BitVec 20) (funct : BitVec 6) : opField (formatCode code funct) = 0x00#6 := by
  apply BitVec.eq_of_getLsbD_eq
  intro k hk
  rw [opField, BitVec.getLsbD_extractLsb', getLsbD_formatCode]
  interval_cases k <;> simp

@[simp] theorem functField_formatCode (code : BitVec 20) (funct : BitVec 6) : functField (formatCode code funct) = funct := by
  apply BitVec.eq_of_getLsbD_eq
  intro k hk
  rw [functField, BitVec.getLsbD_extractLsb', getLsbD_formatCode]
  interval_cases k <;> simp

@[simp] theorem code20Field_formatCode (code : BitVec 20) (funct : BitVec 6) : code20Field (formatCode code funct) = code := by
  apply BitVec.eq_of_getLsbD_eq
  intro k hk
  rw [code20Field, BitVec.getLsbD_extractLsb', getLsbD_formatCode]
  interval_cases k <;> simp

theorem getLsbD_formatMove (op : BitVec 6) (sub rt rd : Reg) (k : Nat) :
    (formatMove op sub rt rd).getLsbD k =
      if k < 11 then (0#11).getLsbD k else if k < 16 then rd.getLsbD (k - 11) else
      if k < 21 then rt.getLsbD (k - 16) else if k < 26 then sub.getLsbD (k - 21) else op.getLsbD (k - 26) := by
  unfold formatMove
  show BitVec.getLsbD (w := 6 + 5 + 5 + 5 + 11) _ k = _
  simp only [BitVec.getLsbD_append]
  repeat' split
  all_goals first | rfl | omega

@[simp] theorem opField_formatMove (op : BitVec 6) (sub rt rd : Reg) : opField (formatMove op sub rt rd) = op := by
  apply BitVec.eq_of_getLsbD_eq
  intro k hk
  rw [opField, BitVec.getLsbD_extractLsb', getLsbD_formatMove]
  interval_cases k <;> simp

@[simp] theorem rsField_formatMove (op : BitVec 6) (sub rt rd : Reg) : rsField (formatMove op sub rt rd) = sub := by
  apply BitVec.eq_of_getLsbD_eq
  intro k hk
  rw [rsField, BitVec.getLsbD_extractLsb', getLsbD_formatMove]
  interval_cases k <;> simp

@[simp] theorem rtField_formatMove (op : BitVec 6) (sub rt rd : Reg) : rtField (formatMove op sub rt rd) = rt := by
  apply BitVec.eq_of_getLsbD_eq
  intro k hk
  rw [rtField, BitVec.getLsbD_extractLsb', getLsbD_formatMove]
  interval_cases k <;> simp

@[simp] theorem rdField_formatMove (op : BitVec 6) (sub rt rd : Reg) : rdField (formatMove op sub rt rd) = rd := by
  apply BitVec.eq_of_getLsbD_eq
  intro k hk
  rw [rdField, BitVec.getLsbD_extractLsb', getLsbD_formatMove]
  interval_cases k <;> simp

theorem getLsbD_formatCommand (imm25 : BitVec 25) (k : Nat) :
    (formatCommand imm25).getLsbD k =
      if k < 25 then imm25.getLsbD k else if k < 26 then (1#1).getLsbD (k - 25) else
      (0x12#6).getLsbD (k - 26) := by
  unfold formatCommand
  show BitVec.getLsbD (w := 6 + 1 + 25) _ k = _
  simp only [BitVec.getLsbD_append]
  repeat' split
  all_goals first | rfl | omega

@[simp] theorem opField_formatCommand (imm25 : BitVec 25) : opField (formatCommand imm25) = 0x12#6 := by
  apply BitVec.eq_of_getLsbD_eq
  intro k hk
  rw [opField, BitVec.getLsbD_extractLsb', getLsbD_formatCommand]
  interval_cases k <;> simp

@[simp] theorem imm25Field_formatCommand (imm25 : BitVec 25) : imm25Field (formatCommand imm25) = imm25 := by
  apply BitVec.eq_of_getLsbD_eq
  intro k hk
  rw [imm25Field, BitVec.getLsbD_extractLsb', getLsbD_formatCommand]
  interval_cases k <;> simp

end Sys2Proof
end

