-- ==== Sys2Proof/Laws/Exec.lean ====
section
/-! SUPPORT. What any instruction can do when it gives a next state, said once: it enters one of the exceptions
instructions raise, or it has run within the frame `Ran`. -/

namespace Sys2Proof.Machine

open Sys2Proof.Safety

/-- What an instruction that raised nothing may have changed. -/
structure Ran (i : Instr) (s t : State) : Prop where
  /-- pc, currentPC, branchDelay, ldNow, mfAge, hiloUnread and epc stand. -/
  frame : t = { s with
    regs := t.regs, hi := t.hi, lo := t.lo, nextPC := t.nextPC, branchPending := t.branchPending, ldNext := t.ldNext
    status := t.status, cause := t.cause, icache := t.icache, gte := t.gte, plat := t.plat }
  branch : i.isBranch = true → t.branchPending = true
  other  : i.isBranch = false → t.branchPending = s.branchPending ∧ t.nextPC = s.nextPC
  user   : s.userMode = true → t.status = s.status ∧ t.cause = s.cause
  cause  : ∀ k, k ≠ 8 → k ≠ 9 → t.cause.getLsbD k = s.cause.getLsbD k
  zero   : t.regs[0] = s.regs[0]
  quiet  : storedTo s i = none → t.icache = s.icache ∧
    t.plat = { s.plat with timers := t.plat.timers, gpu := t.plat.gpu, draws := t.plat.draws }
  store  : ∀ a n, storedTo s i = some (a, n) →
    t = { s with icache := t.icache, plat := t.plat } ∧ (s.cacheIsolated = false → t.icache = s.icache) ∧
    (¬ StartsTransfer (physical a) → ∀ b, (b < physical a ∨ physical a + n.bytes ≤ b) → byteAt t b = byteAt s b)
  rom    : ∀ b, InBios b → byteAt t b = byteAt s b
  inv    : PlatformInv s.plat → PlatformInv t.plat

/-- The exceptions an instruction itself raises: the stores AdES, the others never (R380, R381). -/
def RaisedBy (i : Instr) (s : State) (x : Exception) : Prop :=
  (storedTo s i = none ∧ (x = .adel ∨ x = .sys ∨ x = .bp ∨ x = .ov)) ∨
  ((∃ a n, storedTo s i = some (a, n)) ∧ x = .ades)

section
variable {i : Instr} {s t : State}

theorem setReg_zero (r : Reg) (v : Word) : (s.setReg r v).regs[0] = s.regs[0] := by
  unfold State.setReg
  split
  · rfl
  · rename_i h
    have : r.toNat ≠ 0 := fun h' => h (BitVec.eq_of_toNat_eq h')
    simp only
    rw [Vector.getElem_set_ne _ _ this]

theorem writeReg_zero (r : Reg) (v : Word) : (writeReg s r v).regs[0] = s.regs[0] := by
  unfold writeReg
  split
  · split
    · rfl
    · exact setReg_zero r v
  · exact setReg_zero r v

/-- An instruction that changes only registers, HI, LO, the load record and the engine, and no branch or store. -/
theorem ran_of_inner (hb : i.isBranch = false) (hst : storedTo s i = none)
    (ht : t = { s with regs := t.regs, hi := t.hi, lo := t.lo, ldNext := t.ldNext, gte := t.gte, plat := t.plat })
    (hz : t.regs[0] = s.regs[0])
    (hp : t.plat = { s.plat with timers := t.plat.timers, gpu := t.plat.gpu, draws := t.plat.draws })
    (hi : PlatformInv s.plat → PlatformInv t.plat) : Ran i s t := by
  have hm : t.plat.mem = s.plat.mem := by rw [hp]
  have e : ∀ {α : Type} (f : State → α), f t = f { s with
      regs := t.regs, hi := t.hi, lo := t.lo, ldNext := t.ldNext, gte := t.gte, plat := t.plat } :=
    fun f => congrArg f ht
  refine ⟨?_, fun h => ?_, fun _ => ⟨e (·.branchPending), e (·.nextPC)⟩, fun _ => ⟨e (·.status), e (·.cause)⟩,
    fun k _ _ => e (·.cause.getLsbD k), hz, fun _ => ⟨e (·.icache), hp⟩, fun a n h => ?_,
    fun b _ => by unfold byteAt; rw [hm], hi⟩
  · conv_lhs => rw [ht]
    congr 1
    · exact (e (·.nextPC)).symm
    · exact (e (·.branchPending)).symm
    · exact (e (·.status)).symm
    · exact (e (·.cause)).symm
    · exact (e (·.icache)).symm
  · rw [hb] at h; cases h
  · rw [hst] at h; cases h

theorem ran_writeReg (hb : i.isBranch = false) (hst : storedTo s i = none) (r : Reg) (v : Word) :
    Ran i s (writeReg s r v) := by
  refine ran_of_inner hb hst ?_ (writeReg_zero r v) (by simp) (by simp)
  conv_lhs => rw [onlyRegisters_writeReg s r v]
  simp

/-- A delayed write after a read that moved only the platform. -/
theorem ran_writeDelayed (hb : i.isBranch = false) (hst : storedTo s i = none) {u : State} (hu : u = { s with plat := u.plat })
    (hp : u.plat = { s.plat with timers := u.plat.timers, gpu := u.plat.gpu, draws := u.plat.draws })
    (hi : PlatformInv s.plat → PlatformInv u.plat) (r : Reg) (v : Word) : Ran i s (writeDelayed u r v) := by
  refine ran_of_inner hb hst ?_ ?_ (by simpa using hp) (by simpa using hi)
  · conv_lhs => rw [onlyLoaded_writeDelayed u r v]
    rw [hu]; simp
  · rw [writeDelayed_regs, writeReg_zero, hu]

theorem ran_writeMerged (hb : i.isBranch = false) (hst : storedTo s i = none) {u : State}
    (hu : u = { s with plat := u.plat })
    (hp : u.plat = { s.plat with timers := u.plat.timers, gpu := u.plat.gpu, draws := u.plat.draws })
    (hi : PlatformInv s.plat → PlatformInv u.plat) (k : LoadKind) (r : Reg) (v : Word) :
    Ran i s (writeMerged u k r v) := by
  refine ran_of_inner hb hst ?_ ?_ (by simpa using hp) (by simpa using hi)
  · conv_lhs => rw [onlyLoaded_writeMerged u k r v]
    rw [hu]; simp
  · rw [writeMerged_regs]; split
    · rw [setReg_zero, hu]
    · rw [writeReg_zero, hu]

theorem ran_branch (hb : i.isBranch = true) (hst : storedTo s i = none) (b : Bool) (a : Word) {u : State}
    (hu : u = { s with regs := u.regs }) (hz : u.regs[0] = s.regs[0]) : Ran i s (branchIf b a u) := by
  have hp : u.plat = s.plat := by rw [hu]
  have hc : u.cause = s.cause := by rw [hu]
  have hs : u.status = s.status := by rw [hu]
  have hi : u.icache = s.icache := by rw [hu]
  refine ⟨?_, fun _ => rfl, fun h => ?_, fun _ => ⟨hs, hc⟩, fun k _ _ => by rw [branchIf_cause, hc], hz, fun _ => ⟨hi, ?_⟩,
    fun a n h => ?_, fun b _ => by unfold byteAt; rw [branchIf_plat, hp], fun h => by rw [branchIf_plat, hp]; exact h⟩
  · unfold branchIf; rw [hu]
  · rw [hb] at h; cases h
  · rw [branchIf_plat, hp]
  · rw [hst] at h; cases h

theorem ran_link (hb : i.isBranch = true) (hst : storedTo s i = none) (b : Bool) (a : Word) (r : Reg) (v : Word) :
    Ran i s (branchIf b a (writeReg s r v)) :=
  ran_branch hb hst b a (onlyRegisters_writeReg s r v) (writeReg_zero r v)

theorem ran_hiLo (hb : i.isBranch = false) (hst : storedTo s i = none) {u : State}
    (hu : u = { s with plat := { s.plat with draws := u.plat.draws } }) (h l : Word) : Ran i s (u.setHiLo h l) := by
  have hp : u.plat = { s.plat with draws := u.plat.draws } := congrArg (·.plat) hu
  refine ran_of_inner hb hst ?_ ?_ ?_ ?_
  · unfold State.setHiLo; rw [hu]
  · rw [State.setHiLo_regs, hu]
  · rw [State.setHiLo_plat, hp]
  · rw [State.setHiLo_plat, hp]; exact fun h => platformInv_draws h _

theorem ran_gte (hb : i.isBranch = false) (hst : storedTo s i = none) {u : State} (hu : u = { s with plat := u.plat })
    (hp : u.plat = { s.plat with timers := u.plat.timers, gpu := u.plat.gpu, draws := u.plat.draws })
    (hi : PlatformInv s.plat → PlatformInv u.plat) (g : GteState) : Ran i s (u.setGte g) := by
  refine ran_of_inner hb hst ?_ ?_ (by simpa using hp) (by simpa using hi)
  · unfold State.setGte; rw [hu]
  · rw [State.setGte_regs, hu]

theorem ran_store {a : Word} {n : Size} (hb : i.isBranch = false) (hst : storedTo s i = some (a, n))
    (ht : t = { s with icache := t.icache, plat := t.plat }) (hiso : s.cacheIsolated = false → t.icache = s.icache)
    (hm : ¬ StartsTransfer (physical a) → ∀ b, (b < physical a ∨ physical a + n.bytes ≤ b) → byteAt t b = byteAt s b)
    (hr : ∀ b, InBios b → byteAt t b = byteAt s b) (hi : PlatformInv s.plat → PlatformInv t.plat) : Ran i s t := by
  have e : ∀ {α : Type} (f : State → α), f t = f { s with icache := t.icache, plat := t.plat } := fun f => congrArg f ht
  refine ⟨?_, fun h => ?_, fun _ => ⟨e (·.branchPending), e (·.nextPC)⟩, fun _ => ⟨e (·.status), e (·.cause)⟩,
    fun k _ _ => e (·.cause.getLsbD k), e (·.regs[0]), fun h => ?_, fun a' n' h => ?_, hr, hi⟩
  · conv_lhs => rw [ht]
    congr 1
    · exact (e (·.regs)).symm
    · exact (e (·.hi)).symm
    · exact (e (·.lo)).symm
    · exact (e (·.nextPC)).symm
    · exact (e (·.branchPending)).symm
    · exact (e (·.ldNext)).symm
    · exact (e (·.status)).symm
    · exact (e (·.cause)).symm
    · exact (e (·.gte)).symm
  · rw [hb] at h; cases h
  · rw [hst] at h; cases h
  · rw [hst] at h; cases h; exact ⟨ht, hiso, hm⟩

theorem otherHalf_frame (half : Word) (s : State) :
    (otherHalf half s).2 = { s with plat := { s.plat with draws := (otherHalf half s).2.plat.draws } } := by
  unfold otherHalf; split <;> rfl

/-! ## The shared forms -/

theorem trapOrWrite_cases {x : Int} {rd : Reg} (hb : i.isBranch = false) (hst : storedTo s i = none)
    (h : trapOrWrite x rd s = .next t) : t = enter .ov s ∨ Ran i s t := by
  unfold trapOrWrite at h
  split at h <;> cases h
  · exact .inl rfl
  · exact .inr (ran_writeReg hb hst _ _)

theorem loadAligned_cases {n : Size} {ext : Word → Word} {rs rt : Reg} {imm : BitVec 16} (hb : i.isBranch = false)
    (hst : storedTo s i = none) (h : loadAligned n ext rs rt imm s = .next t) : t = enter .adel s ∨ Ran i s t := by
  unfold loadAligned at h
  simp only at h
  split at h
  · cases h; exact .inl rfl
  · obtain ⟨q, hq, rfl⟩ := mapNext_eq_next.mp h
    obtain ⟨h1, h2⟩ := memRead_keeps hq
    refine .inr (ran_writeDelayed hb hst (by rw [h1]) (by rw [h1]) h2 _ _)

theorem loadMerged_cases {kind : LoadKind} {merge : BitVec 2 → Word → Word → Word} {rs rt : Reg} {imm : BitVec 16}
    (hb : i.isBranch = false) (hst : storedTo s i = none) (h : loadMerged kind merge rs rt imm s = .next t) :
    Ran i s t := by
  obtain ⟨q, hq, rfl⟩ := mapNext_eq_next.mp h
  obtain ⟨h1, h2⟩ := memRead_keeps hq
  exact ran_writeMerged hb hst (by rw [h1]) (by rw [h1]) h2 _ _ _

theorem storeAligned_cases {n : Size} {rs rt : Reg} {imm : BitVec 16} (hb : i.isBranch = false)
    (hst : storedTo s i = some (effectiveAddress s rs imm, n)) (h : storeAligned n rs rt imm s = .next t) :
    t = enter .ades s ∨ Ran i s t := by
  unfold storeAligned at h
  simp only at h
  split at h
  · cases h; exact .inl rfl
  · rename_i ha
    obtain ⟨h1, h2, h3, h4, h5⟩ := memWrite_keeps ((misaligned_eq_false _ _).mp (by simpa using ha)) h
    exact .inr (ran_store hb hst h1 h2 h3 h4 h5)

theorem storeMerged_cases {merge : BitVec 2 → Word → Word → Word} {rs rt : Reg} {imm : BitVec 16}
    (hb : i.isBranch = false) (hst : storedTo s i = some (wordBase (effectiveAddress s rs imm), .word))
    (h : storeMerged merge rs rt imm s = .next t) : Ran i s t := by
  obtain ⟨q, hq, h⟩ := andThen_eq_next.mp h
  obtain ⟨r1, r2⟩ := memRead_keeps hq
  obtain ⟨h1, h2, h3, h4, h5⟩ := memWrite_keeps (aligned_wordBase _) h
  have hic : q.2.icache = s.icache := by rw [r1]
  have hiso : q.2.cacheIsolated = s.cacheIsolated := by unfold State.cacheIsolated; rw [r1]
  have hby : ∀ b, byteAt q.2 b = byteAt s b := fun b => by unfold byteAt; rw [r1]
  refine ran_store hb hst ?_ (fun h => (h2 (hiso.trans h)).trans hic) (fun hs b hb => (h3 hs b hb).trans (hby b))
    (fun b hb => (h4 b hb).trans (hby b)) (fun h => h5 (r2 h))
  conv_lhs => rw [h1]
  rw [r1]

/-- What an instruction does when it gives a next state (R146, R275, R310, R311, R381). -/
theorem exec_cases (h : exec i s = .next t) : (∃ x, t = enter x s ∧ RaisedBy i s x) ∨ Ran i s t := by
  have ov : t = enter .ov s ∨ Ran i s t → storedTo s i = none → (∃ x, t = enter x s ∧ RaisedBy i s x) ∨ Ran i s t :=
    fun h hs => h.imp (fun h => ⟨_, h, .inl ⟨hs, .inr (.inr (.inr rfl))⟩⟩) id
  have adel : t = enter .adel s ∨ Ran i s t → storedTo s i = none →
      (∃ x, t = enter x s ∧ RaisedBy i s x) ∨ Ran i s t :=
    fun h hs => h.imp (fun h => ⟨_, h, .inl ⟨hs, .inl rfl⟩⟩) id
  have ades : ∀ {a : Word} {n : Size}, t = enter .ades s ∨ Ran i s t → storedTo s i = some (a, n) →
      (∃ x, t = enter x s ∧ RaisedBy i s x) ∨ Ran i s t :=
    fun h hs => h.imp (fun h => ⟨_, h, .inr ⟨⟨_, _, hs⟩, rfl⟩⟩) id
  have cop2 : ∀ {r : Result State}, withCop2 s r = .next t → r = .next t := by
    intro r hr; unfold withCop2 at hr; split at hr
    · exact hr
    · cases hr
  have kern : ∀ {r : Result State}, kernelOnly s r = .next t → r = .next t ∧ s.userMode = false := by
    intro r hr; unfold kernelOnly at hr; split at hr
    · cases hr
    · exact ⟨hr, by rename_i hu; simpa using hu⟩
  cases i <;> simp only [exec] at h
  case add | sub | addi => exact ov (trapOrWrite_cases rfl rfl h) rfl
  case syscall => cases h; exact .inl ⟨.sys, rfl, .inl ⟨rfl, .inr (.inl rfl)⟩⟩
  case brk => cases h; exact .inl ⟨.bp, rfl, .inl ⟨rfl, .inr (.inr (.inl rfl))⟩⟩
  case lb | lbu | lh | lhu | lw => exact adel (loadAligned_cases rfl rfl h) rfl
  case lwl | lwr => exact .inr (loadMerged_cases rfl rfl h)
  case sb | sh | sw => exact ades (storeAligned_cases rfl rfl h) rfl
  case swl | swr => exact .inr (storeMerged_cases rfl rfl h)
  case j | jr | beq | bne | blez | bgtz | bltz | bgez =>
    cases h; exact .inr (ran_branch rfl rfl _ _ rfl rfl)
  case jal | jalr | bltzal | bgezal => cases h; exact .inr (ran_link rfl rfl _ _ _ _)
  case mult | multu | div | divu =>
    rw [whenHiLoFree_eq_next h]; exact .inr (ran_hiLo rfl rfl rfl _ _)
  case mthi | mtlo => rw [whenHiLoFree_eq_next h]; exact .inr (ran_hiLo rfl rfl (otherHalf_frame _ _) _ _)
  case mfc0 =>
    obtain ⟨h, _⟩ := kern h
    cases h
    have hf := cop0Read_frame ‹Reg› s
    refine .inr (ran_writeDelayed rfl rfl (by rw [cop0Read_frame]) (by rw [cop0Read_frame]) (fun h => ?_) _ _)
    rw [cop0Read_frame]; exact platformInv_draws h _
  case mtc0 rt rd =>
    obtain ⟨h, hu⟩ := kern h
    cases h
    refine .inr ⟨?_, by simp [Instr.isBranch], fun _ => ⟨by simp, by simp⟩, fun h => absurd h (by simp [hu]),
      fun k h8 h9 => ?_, by simp, fun _ => ⟨by simp, by simp⟩, fun a n h => (by cases h), fun b _ => by simp [byteAt],
      by simp⟩
    · conv_lhs => rw [cop0Write_frame]
      simp
    · unfold cop0Write; split
      · rfl
      · rw [getLsbD_causeWrite, if_neg (by omega)]
      · rfl
  case rfe =>
    obtain ⟨h, hu⟩ := kern h
    cases h
    exact .inr ⟨rfl, by simp [Instr.isBranch], fun _ => ⟨rfl, rfl⟩, fun h => absurd h (by simp [hu]), fun _ _ _ => rfl, rfl,
      fun _ => ⟨rfl, rfl⟩, fun a n h => (by cases h), fun b _ => rfl, id⟩
  case mfc2 | cfc2 => have h := cop2 h; cases h; exact .inr (ran_writeDelayed rfl rfl rfl rfl id _ _)
  case mtc2 | ctc2 => have h := cop2 h; cases h; exact .inr (ran_gte rfl rfl rfl rfl id _)
  case cop2 =>
    obtain ⟨g, _, rfl⟩ := mapNext_eq_next.mp (cop2 h)
    exact .inr (ran_gte rfl rfl rfl rfl id g)
  case lwc2 =>
    have h := cop2 h
    split at h
    · cases h; exact adel (.inl rfl) rfl
    · obtain ⟨q, hq, rfl⟩ := mapNext_eq_next.mp h
      obtain ⟨h1, h2⟩ := memRead_keeps hq
      exact .inr (ran_gte rfl rfl (by rw [h1]) (by rw [h1]) h2 _)
  case swc2 =>
    have h := cop2 h
    split at h
    · cases h; exact ades (.inl rfl) rfl
    · rename_i ha
      obtain ⟨h1, h2, h3, h4, h5⟩ := memWrite_keeps ((misaligned_eq_false _ _).mp (by simpa using ha)) h
      exact .inr (ran_store rfl rfl h1 h2 h3 h4 h5)
  all_goals cases h; exact .inr (ran_writeReg rfl rfl _ _)

/-- No instruction moves the ignored ranges (R9, R72). -/
theorem exec_ignoredWrites (h : exec i s = .next t) : t.plat.ignoredWrites = s.plat.ignoredWrites := by
  rcases exec_cases h with ⟨x, rfl, _⟩ | hr
  · rfl
  · cases hst : storedTo s i with
    | none => rw [(hr.quiet hst).2]
    | some _ =>
      cases i <;> simp only [storedTo, reduceCtorEq] at hst <;> simp only [exec] at h
      case sb | sh | sw =>
        change storeAligned _ _ _ _ s = _ at h
        unfold storeAligned at h; simp only at h
        split at h
        · cases h; rfl
        · exact memWrite_ignoredWrites h
      case swl | swr =>
        obtain ⟨q, hq, h⟩ := andThen_eq_next.mp h
        rw [memWrite_ignoredWrites h, (memRead_keeps hq).1]
      case swc2 =>
        change withCop2 s _ = _ at h
        unfold withCop2 at h; split at h
        · split at h
          · cases h; rfl
          · exact memWrite_ignoredWrites h
        · cases h

/-- The faults an instruction can end in, from a platform of the invariant (R72, R348, R442). -/
theorem exec_fault (hp : PlatformInv s.plat) {f : Fault} (h : exec i s = .fault f) :
    f = .unmappedRead ∨ f = .unmappedWrite ∨ f = .dmaListNeverEnds ∨ f = .invalidGteSelector := by
  have read : ∀ {va : Word} {n : Size} {s : State}, memRead va n s = .fault f →
      f = .unmappedRead ∨ f = .unmappedWrite ∨ f = .dmaListNeverEnds ∨ f = .invalidGteSelector :=
    fun h => .inl (memRead_fault h)
  have write : ∀ {va : Word} {n : Size} {v : Word} {s : State}, PlatformInv s.plat → memWrite va n v s = .fault f →
      f = .unmappedRead ∨ f = .unmappedWrite ∨ f = .dmaListNeverEnds ∨ f = .invalidGteSelector :=
    fun hp h => .inr ((memWrite_fault hp h).imp id .inl)
  have cop2 : ∀ {r : Result State}, withCop2 s r = .fault f → r = .fault f := by
    intro r hr; unfold withCop2 at hr; split at hr
    · exact hr
    · cases hr
  have kern : ∀ {t : State}, kernelOnly s (.next t) ≠ .fault f := by
    intro t; unfold kernelOnly; split <;> simp
  have hl : ∀ {t : State}, whenHiLoFree s t ≠ .fault f := by
    intro t; unfold whenHiLoFree; split <;> simp
  cases i <;> simp only [exec] at h
  case add | sub | addi => change trapOrWrite _ _ s = _ at h; unfold trapOrWrite at h; split at h <;> cases h
  case lb | lbu | lh | lhu | lw =>
    change loadAligned _ _ _ _ _ s = _ at h
    unfold loadAligned at h; simp only at h
    split at h
    · cases h
    · exact read (mapNext_eq_fault.mp h)
  case lwl | lwr => exact read (mapNext_eq_fault.mp h)
  case sb | sh | sw =>
    change storeAligned _ _ _ _ s = _ at h
    unfold storeAligned at h; simp only at h
    split at h
    · cases h
    · exact write hp h
  case swl | swr =>
    rcases andThen_eq_fault.mp h with h | ⟨q, hq, h⟩
    · exact read h
    · exact write ((memRead_keeps hq).2 hp) h
  case mult | multu | div | divu | mthi | mtlo => exact absurd h hl
  case mfc0 | mtc0 | rfe => exact absurd h kern
  case mfc2 | cfc2 | mtc2 | ctc2 => have h := cop2 h; cases h
  case cop2 =>
    have h := mapNext_eq_fault.mp (cop2 h)
    unfold gteCommand at h
    split at h
    · cases h
    · split at h <;> cases h
      exact .inr (.inr (.inr rfl))
  case lwc2 =>
    have h := cop2 h
    split at h
    · cases h
    · exact read (mapNext_eq_fault.mp h)
  case swc2 =>
    have h := cop2 h
    split at h
    · cases h
    · exact write hp h
  all_goals cases h

end

end Sys2Proof.Machine
end

