-- ==== Sys2Proof/Laws/LoadStore.lean ====
section
/-! SUPPORT. The forms of loads and stores where their access is plain memory, and the merge table byte by byte (R270 to
R290). -/

namespace Sys2Proof.Machine

open Sys2Proof.Safety

/-! ## The merge table (R279) -/

theorem getLsbD_wordByte (v : Word) (k j : Nat) (hj : j < 8) : (wordByte v k).getLsbD j = v.getLsbD (8 * k + j) := by
  unfold wordByte; rw [BitVec.getLsbD_extractLsb']; simp [hj]

theorem offset_cases (n : BitVec 2) : n = 0#2 ∨ n = 1#2 ∨ n = 2#2 ∨ n = 3#2 := by revert n; decide

/-- LWL fills the register's bytes from the top down to 3 − n. -/
theorem wordByte_mergeLwl (n : BitVec 2) (r w : Word) (k : Nat) (hk : k < 4) :
    wordByte (mergeLwl n r w) k = if 3 - n.toNat ≤ k then wordByte w (k - (3 - n.toNat)) else wordByte r k := by
  apply BitVec.eq_of_getLsbD_eq; intro j hj
  rcases offset_cases n with rfl | rfl | rfl | rfl <;> interval_cases k <;>
    simp [getLsbD_wordByte _ _ _ hj, mergeLwl] <;> interval_cases j <;> simp

/-- LWR fills the register's lowest 4 − n bytes. -/
theorem wordByte_mergeLwr (n : BitVec 2) (r w : Word) (k : Nat) (hk : k < 4) :
    wordByte (mergeLwr n r w) k = if k < 4 - n.toNat then wordByte w (n.toNat + k) else wordByte r k := by
  apply BitVec.eq_of_getLsbD_eq; intro j hj
  rcases offset_cases n with rfl | rfl | rfl | rfl <;> interval_cases k <;>
    simp [getLsbD_wordByte _ _ _ hj, mergeLwr] <;> interval_cases j <;> simp

/-- SWL replaces the word's bytes up to n. -/
theorem wordByte_mergeSwl (n : BitVec 2) (r w : Word) (k : Nat) (hk : k < 4) :
    wordByte (mergeSwl n r w) k = if k ≤ n.toNat then wordByte r (3 - n.toNat + k) else wordByte w k := by
  apply BitVec.eq_of_getLsbD_eq; intro j hj
  rcases offset_cases n with rfl | rfl | rfl | rfl <;> interval_cases k <;>
    simp [getLsbD_wordByte _ _ _ hj, mergeSwl] <;> interval_cases j <;> simp

/-- SWR replaces the word's bytes from n on. -/
theorem wordByte_mergeSwr (n : BitVec 2) (r w : Word) (k : Nat) (hk : k < 4) :
    wordByte (mergeSwr n r w) k = if n.toNat ≤ k then wordByte r (k - n.toNat) else wordByte w k := by
  apply BitVec.eq_of_getLsbD_eq; intro j hj
  rcases offset_cases n with rfl | rfl | rfl | rfl <;> interval_cases k <;>
    simp [getLsbD_wordByte _ _ _ hj, mergeSwr] <;> interval_cases j <;> simp

/-! ## Values -/

/-- A halfword of two bytes as a signed number (R60). -/
theorem toInt_bytes2 (b1 b0 : Byte) : (b1 ++ b0 : BitVec 16).toInt = b1.toInt * 256 + b0.toNat := by
  rw [BitVec.toInt_eq_toNat_cond, BitVec.toInt_eq_toNat_cond, BitVec.toNat_append,
    ← Nat.shiftLeft_add_eq_or_of_lt b0.isLt, Nat.shiftLeft_eq]
  have := b1.isLt; have := b0.isLt
  split <;> split <;> omega

theorem toNat_bytes2 (b1 b0 : Byte) : (b1 ++ b0 : BitVec 16).toNat = b1.toNat * 256 + b0.toNat := by
  rw [BitVec.toNat_append, ← Nat.shiftLeft_add_eq_or_of_lt b0.isLt, Nat.shiftLeft_eq]

theorem extendByte_read (b : Byte) : extendByte (b.setWidth 32) = b.signExtend 32 := by
  unfold extendByte; congr 1
  apply BitVec.eq_of_getLsbD_eq; intro i hi
  rw [BitVec.getLsbD_extractLsb', BitVec.getLsbD_setWidth]; simp [hi]; intros; omega

theorem extendHalf_read (h : BitVec 16) : extendHalf (h.setWidth 32) = h.signExtend 32 := by
  unfold extendHalf; congr 1
  apply BitVec.eq_of_getLsbD_eq; intro i hi
  rw [BitVec.getLsbD_extractLsb', BitVec.getLsbD_setWidth]; simp [hi]; intros; omega

/-! ## The forms on plain memory -/

section
variable {s : State} {n : Size} {rs rt : Reg} {imm : BitVec 16}

theorem aligned_byte (a : Word) : AlignedTo .byte a := Nat.mod_one _

/-- An aligned load from storage (R275, R278). -/
theorem loadAligned_storage {ext : Word → Word} (ha : AlignedTo n (effectiveAddress s rs imm))
    (hb : LoadReachesBus s (effectiveAddress s rs imm)) (hs : InStorage (physical (effectiveAddress s rs imm))) :
    loadAligned n ext rs rt imm s =
      .next (writeDelayed s rt (ext (s.plat.mem.read (physical (effectiveAddress s rs imm)) n))) := by
  unfold loadAligned; simp only
  rw [(misaligned_eq_false _ _).mpr ha, memRead_of_storage hb hs]; rfl

theorem reaches_wordBase_load {ea : Word} (h : LoadReachesBus s ea) : LoadReachesBus s (wordBase ea) :=
  ⟨fun hf => h.1 ⟨hf.1, (wordBase_31 ea).symm.trans hf.2⟩, fun hc => h.2 ⟨hc.1, (cached_wordBase ea).symm.trans hc.2⟩⟩

theorem reaches_wordBase_store {ea : Word} (h : StoreReachesBus s ea) : StoreReachesBus s (wordBase ea) :=
  ⟨fun hf => h.1 ⟨hf.1, (wordBase_31 ea).symm.trans hf.2⟩, h.2⟩

theorem load_of_store {ea : Word} (h : StoreReachesBus s ea) : LoadReachesBus s ea :=
  ⟨h.1, fun hc => by rw [h.2] at hc; cases hc.1⟩

theorem storage_wordBase {ea : Word} (h : InStorage (physical ea)) : InStorage (physical (wordBase ea)) := by
  rw [physical_wordBase]; unfold InStorage InRam InScratchpad InBios at *; omega

theorem writable_wordBase {ea : Word} (h : Writable (physical ea)) : Writable (physical (wordBase ea)) := by
  rw [physical_wordBase]; unfold Writable InRam InScratchpad at *; omega

theorem storage_of_writable {pa : Nat} (h : Writable pa) : InStorage pa := h.elim .inl fun h => .inr (.inl h)

/-- LWL and LWR from storage (R279, R280). -/
theorem loadMerged_storage {kind : LoadKind} {merge : BitVec 2 → Word → Word → Word} (hb : LoadReachesBus s (effectiveAddress s rs imm))
    (hs : InStorage (physical (effectiveAddress s rs imm))) :
    loadMerged kind merge rs rt imm s = .next (writeMerged s kind rt (merge (byteOffset (effectiveAddress s rs imm))
      (s.reg rt) (s.plat.mem.read (physical (effectiveAddress s rs imm) / 4 * 4) .word))) := by
  unfold loadMerged; simp only
  rw [memRead_of_storage (reaches_wordBase_load hb) (storage_wordBase hs), physical_wordBase]; rfl

/-- An aligned store to RAM or scratchpad (R290). -/
theorem storeAligned_writable (ha : AlignedTo n (effectiveAddress s rs imm))
    (hb : StoreReachesBus s (effectiveAddress s rs imm)) (hw : Writable (physical (effectiveAddress s rs imm))) :
    storeAligned n rs rt imm s = .next { s with plat := { s.plat with
      mem := s.plat.mem.write (physical (effectiveAddress s rs imm)) n (n.low (readReg s rt)) } } := by
  unfold storeAligned; simp only
  rw [(misaligned_eq_false _ _).mpr ha, memWrite_of_writable hb hw]; rfl

/-- SWL and SWR to RAM or scratchpad (R288, R289). -/
theorem storeMerged_writable {merge : BitVec 2 → Word → Word → Word} (hb : StoreReachesBus s (effectiveAddress s rs imm))
    (hw : Writable (physical (effectiveAddress s rs imm))) :
    storeMerged merge rs rt imm s = .next { s with plat := { s.plat with
      mem := s.plat.mem.write (physical (effectiveAddress s rs imm) / 4 * 4) .word
        (merge (byteOffset (effectiveAddress s rs imm)) (readReg s rt)
          (s.plat.mem.read (physical (effectiveAddress s rs imm) / 4 * 4) .word)) } } := by
  unfold storeMerged; simp only
  have hb' := reaches_wordBase_store hb
  rw [memRead_of_storage (load_of_store hb') (storage_wordBase (storage_of_writable hw)), andThen_next,
    memWrite_of_writable hb' (writable_wordBase hw), physical_wordBase]

/-! ## The forms wherever their access goes -/

/-- An aligned load is its bus read, then the delayed write (R77, R278). -/
theorem loadAligned_of_bus {ext : Word → Word} (ha : AlignedTo n (effectiveAddress s rs imm))
    (hb : LoadReachesBus s (effectiveAddress s rs imm)) :
    loadAligned n ext rs rt imm s = mapNext (fun q => writeDelayed { s with plat := q.2 } rt (ext q.1))
      (busRead (physical (effectiveAddress s rs imm)) n s.plat) := by
  unfold loadAligned; simp only
  rw [(misaligned_eq_false _ _).mpr ha, memRead_of_bus hb]
  unfold physical; cases busRead _ n s.plat <;> rfl

/-- LWL and LWR are the bus read of the aligned word, then the merged write (R276, R277, R279). -/
theorem loadMerged_of_bus {kind : LoadKind} {merge : BitVec 2 → Word → Word → Word}
    (hb : LoadReachesBus s (effectiveAddress s rs imm)) :
    loadMerged kind merge rs rt imm s = mapNext
      (fun q => writeMerged { s with plat := q.2 } kind rt
        (merge (byteOffset (effectiveAddress s rs imm)) (s.reg rt) q.1))
      (busRead (physical (wordBase (effectiveAddress s rs imm))) .word s.plat) := by
  unfold loadMerged; simp only
  rw [memRead_of_bus (reaches_wordBase_load hb)]
  unfold physical; cases busRead _ _ s.plat <;> rfl

/-- An aligned store is its bus write (R78, R290). -/
theorem storeAligned_of_bus (ha : AlignedTo n (effectiveAddress s rs imm))
    (hb : StoreReachesBus s (effectiveAddress s rs imm)) :
    storeAligned n rs rt imm s = mapNext (fun p => { s with plat := p })
      (busWrite (physical (effectiveAddress s rs imm)) n (n.low (readReg s rt)) s.plat) := by
  unfold storeAligned; simp only
  rw [(misaligned_eq_false _ _).mpr ha, memWrite_of_bus hb]; rfl

/-- SWL and SWR are the bus read and the bus write of the aligned word (R279, R288, R289). -/
theorem storeMerged_of_bus {merge : BitVec 2 → Word → Word → Word}
    (hb : StoreReachesBus s (effectiveAddress s rs imm)) :
    storeMerged merge rs rt imm s =
      andThen (busRead (physical (wordBase (effectiveAddress s rs imm))) .word s.plat) fun q =>
        mapNext (fun p => { s with plat := p }) (busWrite (physical (wordBase (effectiveAddress s rs imm))) .word
          (merge (byteOffset (effectiveAddress s rs imm)) (readReg s rt) q.1) q.2) := by
  have hb' := reaches_wordBase_store hb
  unfold storeMerged; simp only
  rw [memRead_of_bus (reaches_wordBase_load (load_of_store hb))]
  unfold physical
  cases busRead _ Size.word s.plat with
  | next q => exact memWrite_of_bus (s := { s with plat := q.2 }) hb' _ _
  | fault f => rfl
  | refused f => rfl

/-- An aligned load while isolated from a cached segment (R97). -/
theorem loadAligned_isolated {ext : Word → Word} (ha : AlignedTo n (effectiveAddress s rs imm))
    (hf : ¬ Forbidden s (effectiveAddress s rs imm)) (hi : s.cacheIsolated = true)
    (hc : cached (effectiveAddress s rs imm) = true) :
    loadAligned n ext rs rt imm s = .next (writeDelayed { s with plat := (drawWord s.plat).2 } rt
      (ext (n.low (drawWord s.plat).1))) := by
  unfold loadAligned; simp only
  rw [(misaligned_eq_false _ _).mpr ha, memRead_isolated hf hi hc]; rfl

/-- LWL and LWR while isolated from a cached segment (R97). -/
theorem loadMerged_isolated {kind : LoadKind} {merge : BitVec 2 → Word → Word → Word}
    (hf : ¬ Forbidden s (effectiveAddress s rs imm)) (hi : s.cacheIsolated = true)
    (hc : cached (effectiveAddress s rs imm) = true) :
    loadMerged kind merge rs rt imm s = .next (writeMerged { s with plat := (drawWord s.plat).2 } kind rt
      (merge (byteOffset (effectiveAddress s rs imm)) (s.reg rt) (drawWord s.plat).1)) := by
  unfold loadMerged; simp only
  rw [memRead_isolated (fun h => hf ⟨h.1, (wordBase_31 _).symm.trans h.2⟩) hi ((cached_wordBase _).trans hc)]; rfl

/-- The delayed write of an aligned load after a read that moved only the platform (R278). -/
theorem loadWritten_writeDelayed (p : Platform) (rt : Reg) (v : Word) :
    LoadWritten s (writeDelayed { s with plat := p } rt v) rt .whole v :=
  ⟨registerWritten_of_regs (registerWritten_writeDelayed { s with plat := p } rt v) rfl rfl rfl,
    fun ⟨_, _, _, h⟩ => by simp at h, rfl⟩

/-- The delayed write of LWL and LWR after a read that moved only the platform (R278, R503). -/
theorem loadWritten_afterRead (p : Platform) (kind : LoadKind) (rt : Reg) (v : Word) :
    LoadWritten s (writeMerged { s with plat := p } kind rt v) rt kind v :=
  have h := loadWritten_writeMerged { s with plat := p } kind rt v
  ⟨registerWritten_of_regs h.1 rfl rfl rfl, h.2.1, rfl⟩

/-- The low bytes of a value are its bytes (R74). -/
theorem wordByte_low (v : Word) (k : Nat) (hk : k < n.bytes) : wordByte (n.low v) k = wordByte v k := by
  apply BitVec.eq_of_getLsbD_eq; intro j hj
  rw [getLsbD_wordByte _ _ _ hj, getLsbD_wordByte _ _ _ hj]
  cases n <;> simp only [Size.low, Size.bytes] at *
  · rw [BitVec.getLsbD_setWidth, BitVec.getLsbD_extractLsb', decide_eq_true (by omega), decide_eq_true (by omega)]; simp
  · rw [BitVec.getLsbD_setWidth, BitVec.getLsbD_extractLsb', decide_eq_true (by omega), decide_eq_true (by omega)]; simp

/-- A store into canonical memory stores its bytes and changes nothing else. -/
theorem stores_of_exec {i : Instr} {pa : Nat} {v : Word} (hw : Memory.wf s.plat.mem = true)
    (h : exec i s = .next { s with plat := { s.plat with mem := s.plat.mem.write pa n v } }) {f : Nat → Byte}
    (hf : ∀ k, k < n.bytes → wordByte v k = f k) : StoresBytes i s pa n.bytes f :=
  ⟨_, h, rfl, fun k hk => (Memory.readByte_write_inside hw _ _ _ k hk).trans (hf k hk),
    fun b hb => Memory.readByte_write_outside _ _ _ _ b hb⟩

end

end Sys2Proof.Machine
end

