-- ==== Sys2Proof/Laws/PerInstr.lean ====
section
/-! SUPPORT. Per instruction: the encoded word carries the fixed bits that the instruction's row of
spec/opcode_table.json gives. -/

namespace Sys2Proof.Laws.Encodes

/-- The mask of an instruction's row in the opcode table. -/
def rowMask : Instr → Word
  | .sll _ _ _ | .srl _ _ _ | .sra _ _ _ | .sllv _ _ _ | .srlv _ _ _ | .srav _ _ _ | .jr _ | .jalr _ _
  | .syscall _ | .brk _ | .mfhi _ | .mthi _ | .mflo _ | .mtlo _ | .mult _ _ | .multu _ _ | .div _ _
  | .divu _ _ | .add _ _ _ | .addu _ _ _ | .sub _ _ _ | .subu _ _ _ | .and _ _ _ | .or _ _ _ | .xor _ _ _
  | .nor _ _ _ | .slt _ _ _ | .sltu _ _ _ => 0xFC00003F#32
  | .bltz _ _ _ | .bgez _ _ _ => 0xFC010000#32
  | .bltzal _ _ | .bgezal _ _ => 0xFC1F0000#32
  | .j _ | .jal _ | .beq _ _ _ | .bne _ _ _ | .blez _ _ | .bgtz _ _ | .addi _ _ _ | .addiu _ _ _ | .slti _ _ _
  | .sltiu _ _ _ | .andi _ _ _ | .ori _ _ _ | .xori _ _ _ | .lui _ _ | .lb _ _ _ | .lh _ _ _ | .lwl _ _ _
  | .lw _ _ _ | .lbu _ _ _ | .lhu _ _ _ | .lwr _ _ _ | .sb _ _ _ | .sh _ _ _ | .swl _ _ _ | .sw _ _ _
  | .swr _ _ _ | .lwc2 _ _ _ | .swc2 _ _ _ => 0xFC000000#32
  | .mfc0 _ _ | .mtc0 _ _ | .mfc2 _ _ | .cfc2 _ _ | .mtc2 _ _ | .ctc2 _ _ => 0xFFE00000#32
  | .rfe => 0xFE00003F#32
  | .cop2 _ => 0xFE000000#32

/-- The fixed bits of an instruction's row in the opcode table. -/
def rowMatch : Instr → Word
  | .sll _ _ _ => 0x00000000#32
  | .srl _ _ _ => 0x00000002#32
  | .sra _ _ _ => 0x00000003#32
  | .sllv _ _ _ => 0x00000004#32
  | .srlv _ _ _ => 0x00000006#32
  | .srav _ _ _ => 0x00000007#32
  | .jr _ => 0x00000008#32
  | .jalr _ _ => 0x00000009#32
  | .syscall _ => 0x0000000C#32
  | .brk _ => 0x0000000D#32
  | .mfhi _ => 0x00000010#32
  | .mthi _ => 0x00000011#32
  | .mflo _ => 0x00000012#32
  | .mtlo _ => 0x00000013#32
  | .mult _ _ => 0x00000018#32
  | .multu _ _ => 0x00000019#32
  | .div _ _ => 0x0000001A#32
  | .divu _ _ => 0x0000001B#32
  | .add _ _ _ => 0x00000020#32
  | .addu _ _ _ => 0x00000021#32
  | .sub _ _ _ => 0x00000022#32
  | .subu _ _ _ => 0x00000023#32
  | .and _ _ _ => 0x00000024#32
  | .or _ _ _ => 0x00000025#32
  | .xor _ _ _ => 0x00000026#32
  | .nor _ _ _ => 0x00000027#32
  | .slt _ _ _ => 0x0000002A#32
  | .sltu _ _ _ => 0x0000002B#32
  | .bltz _ _ _ => 0x04000000#32
  | .bgez _ _ _ => 0x04010000#32
  | .bltzal _ _ => 0x04100000#32
  | .bgezal _ _ => 0x04110000#32
  | .j _ => 0x08000000#32
  | .jal _ => 0x0C000000#32
  | .beq _ _ _ => 0x10000000#32
  | .bne _ _ _ => 0x14000000#32
  | .blez _ _ => 0x18000000#32
  | .bgtz _ _ => 0x1C000000#32
  | .addi _ _ _ => 0x20000000#32
  | .addiu _ _ _ => 0x24000000#32
  | .slti _ _ _ => 0x28000000#32
  | .sltiu _ _ _ => 0x2C000000#32
  | .andi _ _ _ => 0x30000000#32
  | .ori _ _ _ => 0x34000000#32
  | .xori _ _ _ => 0x38000000#32
  | .lui _ _ => 0x3C000000#32
  | .mfc0 _ _ => 0x40000000#32
  | .mtc0 _ _ => 0x40800000#32
  | .rfe => 0x42000010#32
  | .mfc2 _ _ => 0x48000000#32
  | .cfc2 _ _ => 0x48400000#32
  | .mtc2 _ _ => 0x48800000#32
  | .ctc2 _ _ => 0x48C00000#32
  | .cop2 _ => 0x4A000000#32
  | .lb _ _ _ => 0x80000000#32
  | .lh _ _ _ => 0x84000000#32
  | .lwl _ _ _ => 0x88000000#32
  | .lw _ _ _ => 0x8C000000#32
  | .lbu _ _ _ => 0x90000000#32
  | .lhu _ _ _ => 0x94000000#32
  | .lwr _ _ _ => 0x98000000#32
  | .sb _ _ _ => 0xA0000000#32
  | .sh _ _ _ => 0xA4000000#32
  | .swl _ _ _ => 0xA8000000#32
  | .sw _ _ _ => 0xAC000000#32
  | .swr _ _ _ => 0xB8000000#32
  | .lwc2 _ _ _ => 0xC8000000#32
  | .swc2 _ _ _ => 0xE8000000#32

/-- The word of an instruction carries its row's fixed bits (R111). -/
def Statement (i : Instr) : Prop := encode i &&& rowMask i = rowMatch i

theorem word_eq {v u : Word} (h : ∀ k, k < 32 → v.getLsbD k = u.getLsbD k) : v = u := BitVec.eq_of_getLsbD_eq h

theorem formatR_fixed (rs rt rd : Reg) (shamt : BitVec 5) (funct : BitVec 6) :
    formatR rs rt rd shamt funct &&& 0xFC00003F#32 = funct.setWidth 32 := by
  apply word_eq
  intro k hk
  rw [BitVec.getLsbD_and, getLsbD_formatR, BitVec.getLsbD_setWidth]
  interval_cases k <;> simp

theorem formatCode_fixed (code : BitVec 20) (funct : BitVec 6) :
    formatCode code funct &&& 0xFC00003F#32 = funct.setWidth 32 := by
  apply word_eq
  intro k hk
  rw [BitVec.getLsbD_and, getLsbD_formatCode, BitVec.getLsbD_setWidth]
  interval_cases k <;> simp

theorem formatI_fixed (op : BitVec 6) (rs rt : Reg) (imm : BitVec 16) :
    formatI op rs rt imm &&& 0xFC000000#32 = op.setWidth 32 <<< 26 := by
  apply word_eq
  intro k hk
  rw [BitVec.getLsbD_and, getLsbD_formatI, BitVec.getLsbD_shiftLeft, BitVec.getLsbD_setWidth]
  interval_cases k <;> simp

theorem formatI_selected (op : BitVec 6) (rs rt : Reg) (imm : BitVec 16) :
    formatI op rs rt imm &&& 0xFC1F0000#32 = op.setWidth 32 <<< 26 ||| rt.setWidth 32 <<< 16 := by
  apply word_eq
  intro k hk
  rw [BitVec.getLsbD_and, getLsbD_formatI, BitVec.getLsbD_or, BitVec.getLsbD_shiftLeft, BitVec.getLsbD_shiftLeft,
    BitVec.getLsbD_setWidth, BitVec.getLsbD_setWidth]
  interval_cases k <;> simp

theorem formatI_condition (op : BitVec 6) (rs : Reg) (sel : BitVec 4) (b : BitVec 1) (imm : BitVec 16) :
    formatI op rs (sel ++ b) imm &&& 0xFC010000#32 = op.setWidth 32 <<< 26 ||| b.setWidth 32 <<< 16 := by
  apply word_eq
  intro k hk
  rw [BitVec.getLsbD_and, getLsbD_formatI, BitVec.getLsbD_or, BitVec.getLsbD_shiftLeft, BitVec.getLsbD_shiftLeft,
    BitVec.getLsbD_setWidth, BitVec.getLsbD_setWidth]
  have h : (sel ++ b)[0] = b[0] := by simpa using BitVec.getLsbD_append (x := sel) (y := b) (i := 0)
  interval_cases k <;> simp [h]

theorem formatJ_fixed (op : BitVec 6) (target : BitVec 26) :
    formatJ op target &&& 0xFC000000#32 = op.setWidth 32 <<< 26 := by
  apply word_eq
  intro k hk
  rw [BitVec.getLsbD_and, getLsbD_formatJ, BitVec.getLsbD_shiftLeft, BitVec.getLsbD_setWidth]
  interval_cases k <;> simp

theorem formatMove_fixed (op : BitVec 6) (sub rt rd : Reg) :
    formatMove op sub rt rd &&& 0xFFE00000#32 = op.setWidth 32 <<< 26 ||| sub.setWidth 32 <<< 21 := by
  apply word_eq
  intro k hk
  rw [BitVec.getLsbD_and, getLsbD_formatMove, BitVec.getLsbD_or, BitVec.getLsbD_shiftLeft, BitVec.getLsbD_shiftLeft,
    BitVec.getLsbD_setWidth, BitVec.getLsbD_setWidth]
  interval_cases k <;> simp

theorem formatCommand_fixed (imm25 : BitVec 25) : formatCommand imm25 &&& 0xFE000000#32 = 0x4A000000#32 := by
  apply word_eq
  intro k hk
  rw [BitVec.getLsbD_and, getLsbD_formatCommand]
  interval_cases k <;> simp

theorem sll (rt rd : Reg) (shamt : BitVec 5) : Statement (.sll rt rd shamt) := formatR_fixed _ _ _ _ _
theorem srl (rt rd : Reg) (shamt : BitVec 5) : Statement (.srl rt rd shamt) := formatR_fixed _ _ _ _ _
theorem sra (rt rd : Reg) (shamt : BitVec 5) : Statement (.sra rt rd shamt) := formatR_fixed _ _ _ _ _
theorem sllv (rs rt rd : Reg) : Statement (.sllv rs rt rd) := formatR_fixed _ _ _ _ _
theorem srlv (rs rt rd : Reg) : Statement (.srlv rs rt rd) := formatR_fixed _ _ _ _ _
theorem srav (rs rt rd : Reg) : Statement (.srav rs rt rd) := formatR_fixed _ _ _ _ _
theorem jr (rs : Reg) : Statement (.jr rs) := formatR_fixed _ _ _ _ _
theorem jalr (rs rd : Reg) : Statement (.jalr rs rd) := formatR_fixed _ _ _ _ _
theorem syscall (code : BitVec 20) : Statement (.syscall code) := formatCode_fixed _ _
theorem brk (code : BitVec 20) : Statement (.brk code) := formatCode_fixed _ _
theorem mfhi (rd : Reg) : Statement (.mfhi rd) := formatR_fixed _ _ _ _ _
theorem mthi (rs : Reg) : Statement (.mthi rs) := formatR_fixed _ _ _ _ _
theorem mflo (rd : Reg) : Statement (.mflo rd) := formatR_fixed _ _ _ _ _
theorem mtlo (rs : Reg) : Statement (.mtlo rs) := formatR_fixed _ _ _ _ _
theorem mult (rs rt : Reg) : Statement (.mult rs rt) := formatR_fixed _ _ _ _ _
theorem multu (rs rt : Reg) : Statement (.multu rs rt) := formatR_fixed _ _ _ _ _
theorem div (rs rt : Reg) : Statement (.div rs rt) := formatR_fixed _ _ _ _ _
theorem divu (rs rt : Reg) : Statement (.divu rs rt) := formatR_fixed _ _ _ _ _
theorem add (rs rt rd : Reg) : Statement (.add rs rt rd) := formatR_fixed _ _ _ _ _
theorem addu (rs rt rd : Reg) : Statement (.addu rs rt rd) := formatR_fixed _ _ _ _ _
theorem sub (rs rt rd : Reg) : Statement (.sub rs rt rd) := formatR_fixed _ _ _ _ _
theorem subu (rs rt rd : Reg) : Statement (.subu rs rt rd) := formatR_fixed _ _ _ _ _
theorem and (rs rt rd : Reg) : Statement (.and rs rt rd) := formatR_fixed _ _ _ _ _
theorem or (rs rt rd : Reg) : Statement (.or rs rt rd) := formatR_fixed _ _ _ _ _
theorem xor (rs rt rd : Reg) : Statement (.xor rs rt rd) := formatR_fixed _ _ _ _ _
theorem nor (rs rt rd : Reg) : Statement (.nor rs rt rd) := formatR_fixed _ _ _ _ _
theorem slt (rs rt rd : Reg) : Statement (.slt rs rt rd) := formatR_fixed _ _ _ _ _
theorem sltu (rs rt rd : Reg) : Statement (.sltu rs rt rd) := formatR_fixed _ _ _ _ _
theorem bltz (rs : Reg) (sel : BitVec 4) (imm : BitVec 16) : Statement (.bltz rs sel imm) := formatI_condition _ _ _ _ _
theorem bgez (rs : Reg) (sel : BitVec 4) (imm : BitVec 16) : Statement (.bgez rs sel imm) := formatI_condition _ _ _ _ _
theorem bltzal (rs : Reg) (imm : BitVec 16) : Statement (.bltzal rs imm) := formatI_selected _ _ _ _
theorem bgezal (rs : Reg) (imm : BitVec 16) : Statement (.bgezal rs imm) := formatI_selected _ _ _ _
theorem j (target : BitVec 26) : Statement (.j target) := formatJ_fixed _ _
theorem jal (target : BitVec 26) : Statement (.jal target) := formatJ_fixed _ _
theorem beq (rs rt : Reg) (imm : BitVec 16) : Statement (.beq rs rt imm) := formatI_fixed _ _ _ _
theorem bne (rs rt : Reg) (imm : BitVec 16) : Statement (.bne rs rt imm) := formatI_fixed _ _ _ _
theorem blez (rs : Reg) (imm : BitVec 16) : Statement (.blez rs imm) := formatI_fixed _ _ _ _
theorem bgtz (rs : Reg) (imm : BitVec 16) : Statement (.bgtz rs imm) := formatI_fixed _ _ _ _
theorem addi (rs rt : Reg) (imm : BitVec 16) : Statement (.addi rs rt imm) := formatI_fixed _ _ _ _
theorem addiu (rs rt : Reg) (imm : BitVec 16) : Statement (.addiu rs rt imm) := formatI_fixed _ _ _ _
theorem slti (rs rt : Reg) (imm : BitVec 16) : Statement (.slti rs rt imm) := formatI_fixed _ _ _ _
theorem sltiu (rs rt : Reg) (imm : BitVec 16) : Statement (.sltiu rs rt imm) := formatI_fixed _ _ _ _
theorem andi (rs rt : Reg) (imm : BitVec 16) : Statement (.andi rs rt imm) := formatI_fixed _ _ _ _
theorem ori (rs rt : Reg) (imm : BitVec 16) : Statement (.ori rs rt imm) := formatI_fixed _ _ _ _
theorem xori (rs rt : Reg) (imm : BitVec 16) : Statement (.xori rs rt imm) := formatI_fixed _ _ _ _
theorem lui (rt : Reg) (imm : BitVec 16) : Statement (.lui rt imm) := formatI_fixed _ _ _ _
theorem mfc0 (rt rd : Reg) : Statement (.mfc0 rt rd) := formatMove_fixed _ _ _ _
theorem mtc0 (rt rd : Reg) : Statement (.mtc0 rt rd) := formatMove_fixed _ _ _ _
theorem rfe : Statement .rfe := by unfold Statement; decide
theorem mfc2 (rt rd : Reg) : Statement (.mfc2 rt rd) := formatMove_fixed _ _ _ _
theorem cfc2 (rt rd : Reg) : Statement (.cfc2 rt rd) := formatMove_fixed _ _ _ _
theorem mtc2 (rt rd : Reg) : Statement (.mtc2 rt rd) := formatMove_fixed _ _ _ _
theorem ctc2 (rt rd : Reg) : Statement (.ctc2 rt rd) := formatMove_fixed _ _ _ _
theorem cop2 (command : BitVec 25) : Statement (.cop2 command) := formatCommand_fixed _
theorem lb (rs rt : Reg) (imm : BitVec 16) : Statement (.lb rs rt imm) := formatI_fixed _ _ _ _
theorem lh (rs rt : Reg) (imm : BitVec 16) : Statement (.lh rs rt imm) := formatI_fixed _ _ _ _
theorem lwl (rs rt : Reg) (imm : BitVec 16) : Statement (.lwl rs rt imm) := formatI_fixed _ _ _ _
theorem lw (rs rt : Reg) (imm : BitVec 16) : Statement (.lw rs rt imm) := formatI_fixed _ _ _ _
theorem lbu (rs rt : Reg) (imm : BitVec 16) : Statement (.lbu rs rt imm) := formatI_fixed _ _ _ _
theorem lhu (rs rt : Reg) (imm : BitVec 16) : Statement (.lhu rs rt imm) := formatI_fixed _ _ _ _
theorem lwr (rs rt : Reg) (imm : BitVec 16) : Statement (.lwr rs rt imm) := formatI_fixed _ _ _ _
theorem sb (rs rt : Reg) (imm : BitVec 16) : Statement (.sb rs rt imm) := formatI_fixed _ _ _ _
theorem sh (rs rt : Reg) (imm : BitVec 16) : Statement (.sh rs rt imm) := formatI_fixed _ _ _ _
theorem swl (rs rt : Reg) (imm : BitVec 16) : Statement (.swl rs rt imm) := formatI_fixed _ _ _ _
theorem sw (rs rt : Reg) (imm : BitVec 16) : Statement (.sw rs rt imm) := formatI_fixed _ _ _ _
theorem swr (rs rt : Reg) (imm : BitVec 16) : Statement (.swr rs rt imm) := formatI_fixed _ _ _ _
theorem lwc2 (rs rt : Reg) (imm : BitVec 16) : Statement (.lwc2 rs rt imm) := formatI_fixed _ _ _ _
theorem swc2 (rs rt : Reg) (imm : BitVec 16) : Statement (.swc2 rs rt imm) := formatI_fixed _ _ _ _

end Sys2Proof.Laws.Encodes
end

