-- ==== Sys2Proof/Laws/Step.lean ====
section
/-! SUPPORT. The ways a step can go, said once (R41, R90 to R95, R388, R389). -/

namespace Sys2Proof.Machine

open Sys2Proof.Safety

/-! ## Fetch -/

/-- A fetch changes the cache only. -/
theorem fetch_frame {va w : Word} {s u : State} (h : fetch va s = .next (w, u)) : u = { s with icache := u.icache } := by
  unfold fetch at h
  split at h
  · cases h
  · split at h
    · split at h
      · cases h; rfl
      · obtain ⟨l, _, hl⟩ := mapNext_eq_next.mp h; cases hl; rfl
    · obtain ⟨l, _, hl⟩ := mapNext_eq_next.mp h; cases hl; rfl

theorem fetchBus_of_fetchable {pa : Word} {s : State} (h : InRam pa.toNat ∨ InBios pa.toNat) :
    fetchBus pa s = .next (s.plat.mem.read pa.toNat .word) := if_pos ((isFetchable_iff _).mpr h)

theorem fetchBus_of_not {pa : Word} {s : State} (h : ¬ (InRam pa.toNat ∨ InBios pa.toNat)) :
    fetchBus pa s = .refused .fetchOutsideMemory := if_neg (by rwa [isFetchable_iff])

theorem fetchBus_no_fault {pa : Word} {s : State} (f : Fault) : fetchBus pa s ≠ .fault f := by
  unfold fetchBus; split <;> simp

theorem fetch_no_fault {va : Word} {s : State} (f : Fault) : fetch va s ≠ .fault f := by
  intro h
  unfold fetch at h
  split at h
  · cases h
  · split at h
    · split at h
      · cases h
      · have h := mapNext_eq_fault.mp h
        unfold filledLine at h
        simp only [andThen_eq_fault, fetchBus_no_fault, false_or] at h
        obtain ⟨_, _, _, _, _, _, _, _, h⟩ := h
        cases h
    · exact fetchBus_no_fault f (mapNext_eq_fault.mp h)

/-! ## The step -/

theorem begun_eq (m : State) (ic : Vector CacheLine 256) :
    advancePC { beginInstruction (shiftLoadSlot m) with icache := ic } = begun { m with icache := ic } := rfl

/-- An interrupt is recognized before anything else of the step (R388). -/
theorem stepWith_of_interrupt {e : Environment} {s : State} (h : (environmentMoves e s).interruptPending = true) :
    stepWith e s = .next (ageHazards (takeInterrupt (shiftLoadSlot (environmentMoves e s)))) := if_pos h

/-- A misaligned fetch raises AdEL (R41, R389). -/
theorem stepWith_of_misaligned {e : Environment} {s : State} (hi : (environmentMoves e s).interruptPending = false)
    (h : ¬ AlignedTo .word (environmentMoves e s).pc) :
    stepWith e s = .next (ageHazards (enter .adel (beginInstruction (shiftLoadSlot (environmentMoves e s))))) := by
  unfold stepWith cpuStep
  simp only
  rw [if_neg (by rw [show (shiftLoadSlot (environmentMoves e s)).interruptPending = _ from hi]; simp), if_pos]
  exact (misaligned_eq_true .word (environmentMoves e s).pc).mpr h

/-- Otherwise the fetched word runs (R41). -/
theorem stepWith_of_aligned {e : Environment} {s : State} (hi : (environmentMoves e s).interruptPending = false)
    (h : AlignedTo .word (environmentMoves e s).pc) :
    stepWith e s = andThen (fetch (environmentMoves e s).pc (beginInstruction (shiftLoadSlot (environmentMoves e s))))
      fun r => executeWord r.1 (advancePC r.2) := by
  unfold stepWith cpuStep
  simp only
  rw [if_neg (by rw [show (shiftLoadSlot (environmentMoves e s)).interruptPending = _ from hi]; simp), if_neg]
  · rfl
  · rw [show misaligned .word (beginInstruction (shiftLoadSlot (environmentMoves e s))).currentPC = false from
      (misaligned_eq_false .word (environmentMoves e s).pc).mpr h]
    simp

/-- The fetch of a step sees only what the fetch of the state before it sees (R90). -/
theorem fetch_begin (va : Word) (m : State) :
    fetch va (beginInstruction (shiftLoadSlot m)) =
      mapNext (fun r => (r.1, { beginInstruction (shiftLoadSlot m) with icache := r.2.icache })) (fetch va m) := by
  have hb : ∀ pa, fetchBus pa (beginInstruction (shiftLoadSlot m)) = fetchBus pa m := fun _ => rfl
  have hl : filledLine va (beginInstruction (shiftLoadSlot m)) = filledLine va m := rfl
  unfold fetch
  rw [hl]
  have e1 : (beginInstruction (shiftLoadSlot m)).forbids va = m.forbids va := rfl
  have e2 : (beginInstruction (shiftLoadSlot m)).cacheEnabled = m.cacheEnabled := rfl
  have e3 : (beginInstruction (shiftLoadSlot m)).hits va = m.hits va := rfl
  have e4 : ∀ i, (beginInstruction (shiftLoadSlot m)).line i = m.line i := fun _ => rfl
  rw [e1, e2, e3, e4, hb]
  split
  · rfl
  · split
    · split
      · rfl
      · cases filledLine va m <;> rfl
    · cases fetchBus (translate va) m <;> rfl

/-- A word that is no instruction raises RI (R122). -/
theorem executeWord_of_error {w : Word} {e : DecodeReject} (h : decode w = .error e) (s : State) :
    executeWord w s = .next (ageHazards (enter .ri s)) := by unfold executeWord; rw [h]

theorem executeWord_of_ok {w : Word} {i : Instr} (h : decode w = .ok i) (s : State)
    (hd : (s.branchDelay && i.isBranch) = false) : executeWord w s = mapNext (updateHazards i) (exec i s) := by
  unfold executeWord; rw [h]; simp only; rw [if_neg (by simp [hd])]

/-- How a step that gives a next state went. -/
theorem stepWith_cases {e : Environment} {s t : State} (h : stepWith e s = .next t) :
    let m := environmentMoves e s
    (m.interruptPending = true ∧ t = ageHazards (takeInterrupt (shiftLoadSlot m))) ∨
    (m.interruptPending = false ∧ ¬ AlignedTo .word m.pc ∧
      t = ageHazards (enter .adel (beginInstruction (shiftLoadSlot m)))) ∨
    (m.interruptPending = false ∧ AlignedTo .word m.pc ∧ ∃ w u, fetch m.pc m = .next (w, u) ∧
      let b := begun { m with icache := u.icache }
      ((∃ r, decode w = .error r ∧ t = ageHazards (enter .ri b)) ∨
       (∃ i r, decode w = .ok i ∧ (m.branchPending && i.isBranch) = false ∧ exec i b = .next r ∧
          t = updateHazards i r))) := by
  intro m
  cases hi : m.interruptPending with
  | true =>
    rw [stepWith_of_interrupt hi] at h; cases h; exact .inl ⟨rfl, rfl⟩
  | false =>
    by_cases ha : AlignedTo .word m.pc
    · rw [stepWith_of_aligned hi ha, fetch_begin] at h
      obtain ⟨r, hr, h⟩ := andThen_eq_next.mp h
      obtain ⟨⟨w, u⟩, hu, rfl⟩ := mapNext_eq_next.mp hr
      refine .inr (.inr ⟨rfl, ha, w, u, hu, ?_⟩)
      simp only [begun_eq] at h ⊢
      unfold executeWord at h
      split at h
      · cases h; exact .inl ⟨_, by assumption, rfl⟩
      · rename_i i hd
        split at h
        · cases h
        · rename_i hb
          obtain ⟨r, hr, rfl⟩ := mapNext_eq_next.mp h
          exact .inr ⟨i, r, hd, Bool.eq_false_iff.mpr hb, hr, rfl⟩
    · rw [stepWith_of_misaligned hi ha] at h; cases h; exact .inr (.inl ⟨rfl, ha, rfl⟩)

/-- A step's faults are its instruction's. -/
theorem stepWith_fault {e : Environment} {s : State} {f : Fault} (h : stepWith e s = .fault f) :
    ∃ i b, exec i b = .fault f ∧ b.plat = (environmentMoves e s).plat := by
  cases hi : (environmentMoves e s).interruptPending with
  | true => rw [stepWith_of_interrupt hi] at h; cases h
  | false =>
    by_cases ha : AlignedTo .word (environmentMoves e s).pc
    · rw [stepWith_of_aligned hi ha] at h
      rcases andThen_eq_fault.mp h with h | ⟨⟨w, u⟩, hu, h⟩
      · exact absurd h (fetch_no_fault f)
      · have hf := fetch_frame hu
        unfold executeWord at h
        split at h
        · cases h
        · rename_i i _
          split at h
          · cases h
          · exact ⟨i, _, mapNext_eq_fault.mp h, by simp only [advancePC_plat]; rw [hf]; rfl⟩
    · rw [stepWith_of_misaligned hi ha] at h; cases h

theorem updateHazards_frame (i : Instr) (s : State) :
    updateHazards i s = { s with mfAge := (updateHazards i s).mfAge, hiloUnread := (updateHazards i s).hiloUnread } := by
  cases i <;> rfl

/-- The age never exceeds 3 after a step (R506). -/
theorem mfAge_updateHazards (i : Instr) (s : State) : (updateHazards i s).mfAge ≤ 3 := by
  cases i <;> simp [updateHazards, ageHazards]

/-- What the environment does to the platform's invariant and to memory (R411, R379). -/
theorem environmentMoves_keeps (e : Environment) (s : State) :
    (environmentMoves e s).plat.mem = s.plat.mem ∧
    (PlatformInv s.plat → PlatformInv (environmentMoves e s).plat) := by
  refine ⟨rfl, fun h => ⟨h.memory, h.storage, h.gpu, fun t => ?_, h.chcr, h.irq⟩⟩
  exact clockCycles_timers e.cycles s.plat t (P := fun _ x => timerSound x = true) (h.timers t)
    fun _ _ hs => timerSound_cycleTimer t.isLt hs

end Sys2Proof.Machine
end

