-- ==== Sys2Proof/Tests/Slice0.lean ====
section
/-! SUPPORT. Tests: ill-formed terms, one written word for every constructor, one step of every instruction, the devices
and the cache. Expected values are those of spec/95_test_vectors.md (the vector is named beside each test), of the
rules' own examples, or computed by hand from the rule named. Statements' hypotheses are met in the theorems `witness_…`. -/

namespace Sys2Proof.Tests

open Sys2Proof.Machine Sys2Proof.Safety

-- The tests evaluate in the kernel, one after the other.
set_option Elab.async false

/-! ## States and outcomes -/

/-- The vectors' start state: kernel mode, BEV, cache off, the next instruction in uncached RAM. -/
def base : State := { State.reset with pc := 0xA0001000#32, nextPC := 0xA0001004#32 }

/-- The state with general registers set. -/
def withRegs (l : List (Reg × Word)) (s : State) : State := l.foldl (fun s r => s.setReg r.1 r.2) s

/-- The platform with words of memory set. -/
def setWords (l : List (Nat × Word)) (p : Platform) : Platform :=
  l.foldl (fun p w => { p with mem := p.mem.write w.1 .word w.2 }) p

/-- The state with words of memory set. -/
def withWords (l : List (Nat × Word)) (s : State) : State := { s with plat := setWords l s.plat }

/-- The state with Status set. -/
def withStatus (v : Word) (s : State) : State := { s with status := v }

/-- One fetched word runs in a state. -/
def run (w : Word) (s : State) : Result State := executeWord w (begun s)

/-- The environment that does nothing. -/
def quiet : Environment := { cycles := 0, asserts := 0#11 }

/-- The outcome is a next state with a property. -/
def yields {α : Type} (o : Result α) (c : α → Bool) : Bool :=
  match o with
  | .next t => c t
  | _ => false

/-- The outcome is the refusal. -/
def refuses {α : Type} (o : Result α) (r : Refusal) : Bool :=
  match o with
  | .refused q => q == r
  | _ => false

/-- The outcome is the fault. -/
def faults {α : Type} (o : Result α) (f : Fault) : Bool :=
  match o with
  | .fault g => g == f
  | _ => false

/-- A word with registers set leaves a value in a register. -/
def gives (w : Word) (regs : List (Reg × Word)) (r : Reg) (v : Word) : Bool :=
  yields (run w (withRegs regs base)) fun t => t.reg r == v

/-- An exception from the start state: Cause as given, the rest as R385 says, x[3] unwritten. -/
def trapped (cause : Word) (t : State) : Bool :=
  t.cause == cause && t.epc == 0xA0001000#32 && t.pc == 0xBFC00180#32 && t.nextPC == 0xBFC00184#32 &&
    t.status.extractLsb' 0 6 == 0#6 && t.reg 3 == 0#32

/-! ## Well-formedness: the ill-formed terms are refused (R115) -/

theorem test_wf_bltz : (Instr.bltz 1 8 4).wf = false ∧ (Instr.bltz 1 0 4).wf = true := by decide
theorem test_wf_bgez : (Instr.bgez 1 8 4).wf = false ∧ (Instr.bgez 1 15 4).wf = true := by decide

/-! ## Decoding: words written in the spec, or bit by bit from the formats of R111 -/

/-- V-A26 to V-A33. -/
theorem test_decode_shifts :
    decode 0x00011FC0#32 = .ok (.sll 1 3 31) ∧ decode 0x00011842#32 = .ok (.srl 1 3 1) ∧
    decode 0x00011FC3#32 = .ok (.sra 1 3 31) ∧ decode 0x00411804#32 = .ok (.sllv 2 1 3) ∧
    decode 0x00411806#32 = .ok (.srlv 2 1 3) ∧ decode 0x00411807#32 = .ok (.srav 2 1 3) := by decide

/-- V-C3, V-C4. -/
theorem test_decode_register_jumps :
    decode 0x00200008#32 = .ok (.jr 1) ∧ decode 0x00202809#32 = .ok (.jalr 1 5) := by decide

/-- V-S2, V-S3. -/
theorem test_decode_traps :
    decode 0x03FFFFCC#32 = .ok (.syscall 0xFFFFF) ∧ decode 0x0000000D#32 = .ok (.brk 0) := by decide

/-- V-M1, V-M2, V-M7, V-M10, V-M11, V-M16, E7; MTLO bit by bit. -/
theorem test_decode_hilo :
    decode 0x00001810#32 = .ok (.mfhi 3) ∧ decode 0x00200011#32 = .ok (.mthi 1) ∧
    decode 0x00001812#32 = .ok (.mflo 3) ∧ decode 0x00200013#32 = .ok (.mtlo 1) ∧
    decode 0x00220018#32 = .ok (.mult 1 2) ∧ decode 0x00220019#32 = .ok (.multu 1 2) ∧
    decode 0x0022001A#32 = .ok (.div 1 2) ∧ decode 0x0022001B#32 = .ok (.divu 1 2) := by decide

/-- V-A1 to V-A21. -/
theorem test_decode_register_alu :
    decode 0x00221820#32 = .ok (.add 1 2 3) ∧ decode 0x00221821#32 = .ok (.addu 1 2 3) ∧
    decode 0x00221822#32 = .ok (.sub 1 2 3) ∧ decode 0x00221823#32 = .ok (.subu 1 2 3) ∧
    decode 0x00221824#32 = .ok (.and 1 2 3) ∧ decode 0x00221825#32 = .ok (.or 1 2 3) ∧
    decode 0x00221826#32 = .ok (.xor 1 2 3) ∧ decode 0x00221827#32 = .ok (.nor 1 2 3) ∧
    decode 0x0022182A#32 = .ok (.slt 1 2 3) ∧ decode 0x0022182B#32 = .ok (.sltu 1 2 3) := by decide

/-- V-C1, V-C2, V-C6 to V-C15. -/
theorem test_decode_branches :
    decode 0x08100000#32 = .ok (.j 0x100000) ∧ decode 0x0C100000#32 = .ok (.jal 0x100000) ∧
    decode 0x1022FFFF#32 = .ok (.beq 1 2 0xFFFF) ∧ decode 0x1422FFFF#32 = .ok (.bne 1 2 0xFFFF) ∧
    decode 0x1820FFFB#32 = .ok (.blez 1 0xFFFB) ∧ decode 0x1C20FFFB#32 = .ok (.bgtz 1 0xFFFB) ∧
    decode 0x04207FFF#32 = .ok (.bltz 1 0 0x7FFF) ∧ decode 0x04217FFF#32 = .ok (.bgez 1 0 0x7FFF) ∧
    decode 0x0430003F#32 = .ok (.bltzal 1 0x3F) ∧ decode 0x0431003F#32 = .ok (.bgezal 1 0x3F) ∧
    decode 0x04220004#32 = .ok (.bltz 1 1 4) := by decide

/-- V-A9 to V-A25. -/
theorem test_decode_immediates :
    decode 0x2023FFFF#32 = .ok (.addi 1 3 0xFFFF) ∧ decode 0x24238000#32 = .ok (.addiu 1 3 0x8000) ∧
    decode 0x2823FFFF#32 = .ok (.slti 1 3 0xFFFF) ∧ decode 0x2C23FFFF#32 = .ok (.sltiu 1 3 0xFFFF) ∧
    decode 0x3023FFFF#32 = .ok (.andi 1 3 0xFFFF) ∧ decode 0x34238000#32 = .ok (.ori 1 3 0x8000) ∧
    decode 0x3823FFFF#32 = .ok (.xori 1 3 0xFFFF) ∧ decode 0x3C038000#32 = .ok (.lui 3 0x8000) := by decide

/-- V-S6, V-S10, V-S13, V-P1 to V-P6, E6. -/
theorem test_decode_coprocessors :
    decode 0x40027800#32 = .ok (.mfc0 2 15) ∧ decode 0x40816000#32 = .ok (.mtc0 1 12) ∧
    decode 0x43FFFFD0#32 = .ok .rfe ∧ decode 0x48023800#32 = .ok (.mfc2 2 7) ∧
    decode 0x4842F800#32 = .ok (.cfc2 2 31) ∧ decode 0x48820000#32 = .ok (.mtc2 2 0) ∧
    decode 0x48C20000#32 = .ok (.ctc2 2 0) ∧ decode 0x4A080012#32 = .ok (.cop2 0x0080012) ∧
    decode 0xC8800000#32 = .ok (.lwc2 4 0 0) ∧ decode 0xE8870004#32 = .ok (.swc2 4 7 4) := by decide

/-- V-L1 to V-L11 and the unaligned table. -/
theorem test_decode_loads_stores :
    decode 0x80230000#32 = .ok (.lb 1 3 0) ∧ decode 0x84230002#32 = .ok (.lh 1 3 2) ∧
    decode 0x88020100#32 = .ok (.lwl 0 2 0x100) ∧ decode 0x8C23FFFC#32 = .ok (.lw 1 3 0xFFFC) ∧
    decode 0x90230000#32 = .ok (.lbu 1 3 0) ∧ decode 0x94230002#32 = .ok (.lhu 1 3 2) ∧
    decode 0x9822FFFD#32 = .ok (.lwr 1 2 0xFFFD) ∧ decode 0xA0220003#32 = .ok (.sb 1 2 3) ∧
    decode 0xA4220001#32 = .ok (.sh 1 2 1) ∧ decode 0xA8020100#32 = .ok (.swl 0 2 0x100) ∧
    decode 0xAC220000#32 = .ok (.sw 1 2 0) ∧ decode 0xB8020100#32 = .ok (.swr 0 2 0x100) := by decide

/-- V-S16 to V-S18, V-P10: words that are no instruction; a short byte sequence is none (R122, R125). -/
theorem test_decode_rejects :
    decode 0xFC000000#32 = .error (.illegalOpcode 0x3F) ∧ decode 0x00000001#32 = .error (.illegalFunct 1) ∧
    decode 0x40200000#32 = .error (.illegalCop0 1 0) ∧ decode 0x48200000#32 = .error (.illegalCop2 1) ∧
    decodeBytes [0x20, 0x18, 0x22] = .error .truncated ∧
    decodeBytes [0x20, 0x18, 0x22, 0x00, 0xFF] = .ok (.add 1 2 3, [0xFF]) := by decide

/-- The table's numbering: bit 0 is the least significant bit of the word (V-A1, V-C1). -/
theorem test_decodeTableWord :
    decodeTableWord 32 0x00221820 = some (.add 1 2 3) ∧ decodeTableWord 32 0x08100000 = some (.j 0x100000) := by decide

/-! ## Arithmetic and logic -/

/-- V-A1, V-A2, V-A3. -/
theorem test_add :
    yields (run 0x00221820#32 (withRegs [(1, 0x7FFFFFFF#32), (2, 0x00000001#32)] base)) (trapped 0x00000030#32) =
      true ∧
    yields (run 0x00221820#32 (withRegs [(1, 0x80000000#32), (2, 0xFFFFFFFF#32)] base)) (trapped 0x00000030#32) =
      true ∧
    gives 0x00221820#32 [(1, 0xFFFFFFFF#32), (2, 0x00000001#32)] 3 0x00000000#32 = true := by decide +kernel

/-- V-A4, V-A5. -/
theorem test_addu :
    gives 0x00221821#32 [(1, 0x7FFFFFFF#32), (2, 0x00000001#32)] 3 0x80000000#32 = true ∧
    gives 0x00221821#32 [(1, 0xFFFFFFFF#32), (2, 0x00000001#32)] 3 0x00000000#32 = true := by decide +kernel

/-- V-A6, V-A7. -/
theorem test_sub :
    yields (run 0x00221822#32 (withRegs [(1, 0x80000000#32), (2, 0x00000001#32)] base)) (trapped 0x00000030#32) =
      true ∧
    gives 0x00221822#32 [(1, 0x00000005#32), (2, 0x00000007#32)] 3 0xFFFFFFFE#32 = true := by decide +kernel

/-- V-A8. -/
theorem test_subu :
    gives 0x00221823#32 [(1, 0x00000000#32), (2, 0x00000001#32)] 3 0xFFFFFFFF#32 = true := by decide +kernel

/-- V-A9, V-A10. -/
theorem test_addi :
    yields (run 0x2023FFFF#32 (withRegs [(1, 0x80000000#32)] base)) (trapped 0x00000030#32) = true ∧
    gives 0x2023FFFF#32 [(1, 0x00000000#32)] 3 0xFFFFFFFF#32 = true := by decide +kernel

/-- V-A11, V-A12. -/
theorem test_addiu :
    gives 0x24238000#32 [(1, 0x00000000#32)] 3 0xFFFF8000#32 = true ∧
    gives 0x24200005#32 [(1, 0x00000001#32)] 0 0x00000000#32 = true := by decide +kernel

/-- V-A13. -/
theorem test_slt :
    gives 0x0022182A#32 [(1, 0xFFFFFFFF#32), (2, 0x00000001#32)] 3 0x00000001#32 = true := by decide +kernel

/-- V-A14. -/
theorem test_sltu :
    gives 0x0022182B#32 [(1, 0xFFFFFFFF#32), (2, 0x00000001#32)] 3 0x00000000#32 = true := by decide +kernel

/-- V-A15. -/
theorem test_slti :
    gives 0x2823FFFF#32 [(1, 0x80000000#32)] 3 0x00000001#32 = true := by decide +kernel

/-- V-A16, V-A17, and the second example of R173. -/
theorem test_sltiu :
    gives 0x2C23FFFF#32 [(1, 0xFFFFFFFE#32)] 3 0x00000001#32 = true ∧
    gives 0x2C238000#32 [(1, 0x00007FFF#32)] 3 0x00000001#32 = true ∧
    gives 0x2C23FFFF#32 [(1, 0xFFFFFFFF#32)] 3 0x00000000#32 = true := by decide +kernel

/-- V-A18. -/
theorem test_and :
    gives 0x00221824#32 [(1, 0xF0F0F0F0#32), (2, 0xFF00FF00#32)] 3 0xF000F000#32 = true := by decide +kernel

/-- The example of R151. -/
theorem test_or :
    gives 0x00221825#32 [(1, 0xFF00FF00#32), (2, 0x0FF00FF0#32)] 3 0xFFF0FFF0#32 = true := by decide +kernel

/-- V-A20. -/
theorem test_xor :
    gives 0x00221826#32 [(1, 0xFFFF0000#32), (2, 0xFF00FF00#32)] 3 0x00FFFF00#32 = true := by decide +kernel

/-- The example of R153. -/
theorem test_nor :
    gives 0x00221827#32 [(1, 0xFF00FF00#32), (2, 0x0FF00FF0#32)] 3 0x000F000F#32 = true := by decide +kernel

/-- V-A22. -/
theorem test_andi :
    gives 0x3023FFFF#32 [(1, 0x12345678#32)] 3 0x00005678#32 = true := by decide +kernel

/-- V-A23, V-A35. -/
theorem test_ori :
    gives 0x34238000#32 [(1, 0x00000000#32)] 3 0x00008000#32 = true ∧
    gives 0x34030000#32 [(3, 0x12345678#32)] 3 0x00000000#32 = true := by decide +kernel

/-- V-A24. -/
theorem test_xori :
    gives 0x3823FFFF#32 [(1, 0xFFFFFFFF#32)] 3 0xFFFF0000#32 = true := by decide +kernel

/-- V-A25. -/
theorem test_lui :
    gives 0x3C038000#32 [] 3 0x80000000#32 = true := by decide +kernel

/-- V-A26, V-A27. -/
theorem test_sll :
    gives 0x00011FC0#32 [(1, 0x00000003#32)] 3 0x80000000#32 = true ∧
    yields (run 0x00000000#32 base) (fun t => t.regs == base.regs && t.pc == 0xA0001004#32 && t.plat == base.plat)
      = true := by decide +kernel

/-- V-A28. -/
theorem test_srl :
    gives 0x00011842#32 [(1, 0x80000000#32)] 3 0x40000000#32 = true := by decide +kernel

/-- V-A29, V-A30. -/
theorem test_sra :
    gives 0x00011FC3#32 [(1, 0x80000000#32)] 3 0xFFFFFFFF#32 = true ∧
    gives 0x00011903#32 [(1, 0x7FFFFFF0#32)] 3 0x07FFFFFF#32 = true := by decide +kernel

/-- V-A31. -/
theorem test_sllv :
    gives 0x00411804#32 [(1, 0x00000001#32), (2, 0x00000021#32)] 3 0x00000002#32 = true := by decide +kernel

/-- V-A32. -/
theorem test_srlv :
    gives 0x00411806#32 [(1, 0x80000000#32), (2, 0x00000020#32)] 3 0x80000000#32 = true := by decide +kernel

/-- V-A33. -/
theorem test_srav :
    gives 0x00411807#32 [(1, 0x80000000#32), (2, 0xFFFFFFFF#32)] 3 0xFFFFFFFF#32 = true := by decide +kernel

/-! ## Multiply, divide, HI and LO -/

/-- A word with x[1] and x[2] set leaves values in HI and LO. -/
def hiLo (w x1 x2 hi lo : Word) : Bool :=
  yields (run w (withRegs [(1, x1), (2, x2)] base)) fun t => t.hi == hi && t.lo == lo && t.hiloUnread && t.mfAge == 3

/-- The start state with HI, LO and the hazard state as given. -/
def hazards (hi lo : Word) (age : Nat) (unread : Bool) : State :=
  { base with hi := hi, lo := lo, mfAge := age, hiloUnread := unread }

/-- V-M1, V-M3, V-M4. -/
theorem test_mult :
    hiLo 0x00220018#32 0x80000000#32 0x80000000#32 0x40000000#32 0x00000000#32 = true ∧
    hiLo 0x00220018#32 0xFFFFFFFF#32 0x00000001#32 0xFFFFFFFF#32 0xFFFFFFFF#32 = true ∧
    hiLo 0x00220018#32 0x12345678#32 0xFFFFFFF0#32 0xFFFFFFFE#32 0xDCBA9880#32 = true := by decide +kernel

/-- V-M2. -/
theorem test_multu :
    hiLo 0x00220019#32 0xFFFFFFFF#32 0xFFFFFFFF#32 0xFFFFFFFE#32 0x00000001#32 = true := by decide +kernel

/-- V-M5, V-M6. -/
theorem test_div :
    hiLo 0x0022001A#32 0x00000007#32 0xFFFFFFFE#32 0x00000001#32 0xFFFFFFFD#32 = true ∧
    hiLo 0x0022001A#32 0xFFFFFFF9#32 0x00000002#32 0xFFFFFFFF#32 0xFFFFFFFD#32 = true := by decide +kernel

/-- E7. -/
theorem test_div_corners :
    hiLo 0x0022001A#32 0x00000005#32 0x00000000#32 0x00000005#32 0xFFFFFFFF#32 = true ∧
    hiLo 0x0022001A#32 0x00000000#32 0x00000000#32 0x00000000#32 0xFFFFFFFF#32 = true ∧
    hiLo 0x0022001A#32 0xFFFFFFFB#32 0x00000000#32 0xFFFFFFFB#32 0x00000001#32 = true ∧
    hiLo 0x0022001A#32 0x80000000#32 0xFFFFFFFF#32 0x00000000#32 0x80000000#32 = true := by decide +kernel

/-- V-M7, V-M8, E7. -/
theorem test_divu :
    hiLo 0x0022001B#32 0xFFFFFFF9#32 0x00000002#32 0x00000001#32 0x7FFFFFFC#32 = true ∧
    hiLo 0x0022001B#32 0x80000000#32 0xFFFFFFFF#32 0x80000000#32 0x00000000#32 = true ∧
    hiLo 0x0022001B#32 0x00000005#32 0x00000000#32 0x00000005#32 0xFFFFFFFF#32 = true := by decide +kernel

/-- The example of R206; R506. -/
theorem test_mfhi :
    yields (run 0x00001810#32 (hazards 0x3FFFFFFF#32 0#32 3 true)) (fun t => t.reg 3 == 0x3FFFFFFF#32 && t.mfAge ==
      0 && !t.hiloUnread) = true := by decide +kernel

/-- V-M11. -/
theorem test_mflo :
    yields (run 0x00001812#32 (hazards 0#32 0xCAFEBABE#32 3 true)) (fun t => t.reg 3 == 0xCAFEBABE#32 && t.mfAge ==
      0 && !t.hiloUnread) = true := by decide +kernel

/-- V-M10, V-M15. -/
theorem test_mthi :
    yields (run 0x00200011#32 (withRegs [(1, 0x1234#32)] (hazards 1#32 2#32 3 false))) (fun t => t.hi == 0x1234#32
      && t.lo == 2#32) = true ∧
    yields (run 0x00200011#32 (withRegs [(1, 0x1234#32)] (hazards 1#32 2#32 3 true))) (fun t => t.hi == 0x1234#32
      && t.plat.draws == 1 && !t.hiloUnread) = true := by decide +kernel

/-- The example of R209. -/
theorem test_mtlo :
    yields (run 0x00200013#32 (withRegs [(1, 0xCAFEF00D#32)] (hazards 1#32 2#32 3 false))) (fun t => t.lo ==
      0xCAFEF00D#32 && t.hi == 1#32) = true := by decide +kernel

/-- V-M12, V-M13, V-M14: none, one and two instructions after MFLO. -/
theorem test_hilo_hazard :
    refuses (run 0x00220018#32 (hazards 0#32 0#32 0 false)) .hiLoHazard = true ∧
    refuses (run 0x00220018#32 (hazards 0#32 0#32 1 false)) .hiLoHazard = true ∧
    yields (run 0x00220018#32 (hazards 0#32 0#32 2 false)) (fun t => t.mfAge == 3) = true := by decide +kernel

/-! ## Jumps and branches -/

/-- A word with registers set goes to `next` after its delay slot. -/
def goes (w : Word) (regs : List (Reg × Word)) (next : Word) : Bool :=
  yields (run w (withRegs regs base)) fun t => t.branchPending && t.nextPC == next && t.pc == 0xA0001004#32

/-- As `goes`, with the link in a register. -/
def links (w : Word) (regs : List (Reg × Word)) (r : Reg) (next : Word) : Bool :=
  yields (run w (withRegs regs base)) fun t => t.branchPending && t.nextPC == next && t.reg r == 0xA0001008#32

/-- V-C1. -/
theorem test_j :
    goes 0x08100000#32 [] 0xA0400000#32 = true := by decide +kernel

/-- V-C2. -/
theorem test_jal :
    links 0x0C100000#32 [] 31 0xA0400000#32 = true := by decide +kernel

/-- V-C3. -/
theorem test_jr :
    goes 0x00200008#32 [(1, 0x80001234#32)] 0x80001234#32 = true := by decide +kernel

/-- V-C4, V-C5. -/
theorem test_jalr :
    links 0x00202809#32 [(1, 0x80010000#32)] 5 0x80010000#32 = true ∧
    links 0x00200809#32 [(1, 0x80010000#32)] 1 0x80010000#32 = true := by decide +kernel

/-- V-C6, V-C14. -/
theorem test_beq :
    goes 0x1022FFFF#32 [(1, 0x00000001#32), (2, 0x00000001#32)] 0xA0001000#32 = true ∧
    goes 0x10008000#32 [] 0x9FFE1004#32 = true := by decide +kernel

/-- V-C7, and taken. -/
theorem test_bne :
    goes 0x1422FFFF#32 [(1, 0x00000001#32), (2, 0x00000001#32)] 0xA0001008#32 = true ∧
    goes 0x1422FFFF#32 [(1, 0x00000001#32), (2, 0x00000002#32)] 0xA0001000#32 = true := by decide +kernel

/-- V-C8. -/
theorem test_blez :
    goes 0x1820FFFB#32 [(1, 0x00000000#32)] 0xA0000FF0#32 = true := by decide +kernel

/-- V-C9, and the example of R241. -/
theorem test_bgtz :
    goes 0x1C20FFFB#32 [(1, 0x00000000#32)] 0xA0001008#32 = true ∧
    goes 0x1C20FFFB#32 [(1, 0x00000001#32)] 0xA0000FF0#32 = true := by decide +kernel

/-- V-C10, V-C15. -/
theorem test_bltz :
    goes 0x04207FFF#32 [(1, 0x80000000#32)] 0xA0021000#32 = true ∧
    goes 0x04220004#32 [(1, 0xFFFFFFFF#32)] 0xA0001014#32 = true := by decide +kernel

/-- V-C11, and the example of R237. -/
theorem test_bgez :
    goes 0x04217FFF#32 [(1, 0x80000000#32)] 0xA0001008#32 = true ∧
    goes 0x04217FFF#32 [(1, 0x00000000#32)] 0xA0021000#32 = true := by decide +kernel

/-- V-C12. -/
theorem test_bltzal :
    links 0x0430003F#32 [(1, 0x00000000#32)] 31 0xA0001008#32 = true := by decide +kernel

/-- V-C13. -/
theorem test_bgezal :
    links 0x0431003F#32 [(1, 0x00000000#32)] 31 0xA0001100#32 = true := by decide +kernel

/-- V-C17. -/
theorem test_branch_in_slot :
    refuses (run 0x08000000#32 { base with branchPending := true }) .branchInDelaySlot = true := by decide +kernel

/-! ## Loads and stores -/

/-- The start state with x[1], x[2] and one word of memory set. -/
def loadState (x1 x2 : Word) (a : Nat) (w : Word) : State := withWords [(a, w)] (withRegs [(1, x1), (2, x2)] base)

/-- A load leaves a value in x[3] and records its load delay. -/
def loads (w x1 : Word) (a : Nat) (m v : Word) : Bool :=
  yields (run w (loadState x1 0#32 a m)) fun t => t.reg 3 == v && t.ldNext == some ⟨3, 0#32, .whole⟩

/-- A store leaves a word in memory. -/
def stores (w x1 x2 : Word) (a : Nat) (m v : Word) : Bool :=
  yields (run w (loadState x1 x2 a m)) fun t => t.plat.mem.read a .word == v && Memory.wf t.plat.mem

/-- An unaligned load of the table of R279: `lwl $2,0x100($0)` and so on, with x[2] = 0xAABBCCDD. -/
def merges (w v : Word) : Bool :=
  yields (run w (loadState 0#32 0xAABBCCDD#32 0x100 0x44332211#32)) fun t => t.reg 2 == v

/-- An unaligned store of the table of R279. -/
def mergesTo (w v : Word) : Bool := stores w 0#32 0xAABBCCDD#32 0x100 0x44332211#32 v

/-- V-L1. -/
theorem test_lb :
    loads 0x80230000#32 0x00002000#32 0x2000 0x000000F0#32 0xFFFFFFF0#32 = true := by decide +kernel

/-- V-L2, and the three mirrors of E8. -/
theorem test_lbu :
    loads 0x90230000#32 0x00002000#32 0x2000 0x000000F0#32 0x000000F0#32 = true ∧
    loads 0x90230000#32 0x80002000#32 0x2000 0x000000F0#32 0x000000F0#32 = true ∧
    loads 0x90230000#32 0xA0002000#32 0x2000 0x000000F0#32 0x000000F0#32 = true := by decide +kernel

/-- V-L3, V-L6. -/
theorem test_lh :
    loads 0x84230002#32 0x00002000#32 0x2000 0x8001FFFF#32 0xFFFF8001#32 = true ∧
    yields (run 0x84230001#32 (loadState 0x00002000#32 5#32 0x2000 0x44332211#32)) (trapped 0x00000010#32) = true := by
  decide +kernel

/-- V-L4. -/
theorem test_lhu :
    loads 0x94230002#32 0x00002000#32 0x2000 0x8001FFFF#32 0x00008001#32 = true := by decide +kernel

/-- V-L5, V-L7, V-L18. -/
theorem test_lw :
    loads 0x8C23FFFC#32 0x00002004#32 0x2000 0xDEADBEEF#32 0xDEADBEEF#32 = true ∧
    yields (run 0x8C230002#32 (loadState 0x00002000#32 5#32 0x2000 0x44332211#32)) (trapped 0x00000010#32) = true ∧
    loads 0x8C230000#32 0xBFC00000#32 0x1FC00000 0x3C081F80#32 0x3C081F80#32 = true := by decide +kernel

/-- V-L14, V-L20, V-L21. -/
theorem test_lw_elsewhere :
    faults (run 0x8C230000#32 (withRegs [(1, 0x00200000#32)] base)) .unmappedRead = true ∧
    gives 0x8C230000#32 [(1, 0x1F000000#32)] 3 0x00000000#32 = true ∧
    refuses (run 0x8C230000#32 (withStatus 2#32 (withRegs [(1, 0x80002000#32)] base))) .userKernelAccess = true := by
  decide +kernel

/-- The unaligned table of R279, a row for each offset. -/
theorem test_lwl :
    merges 0x88020100#32 0x11BBCCDD#32 = true ∧ merges 0x88020101#32 0x2211CCDD#32 = true ∧
    merges 0x88020102#32 0x332211DD#32 = true ∧ merges 0x88020103#32 0x44332211#32 = true := by decide +kernel

/-- The unaligned table of R279, a row for each offset. -/
theorem test_lwr :
    merges 0x98020100#32 0x44332211#32 = true ∧ merges 0x98020101#32 0xAA443322#32 = true ∧
    merges 0x98020102#32 0xAABB4433#32 = true ∧ merges 0x98020103#32 0xAABBCC44#32 = true := by decide +kernel

/-- The unaligned table of R279, a row for each offset. -/
theorem test_swl :
    mergesTo 0xA8020100#32 0x443322AA#32 = true ∧ mergesTo 0xA8020101#32 0x4433AABB#32 = true ∧
    mergesTo 0xA8020102#32 0x44AABBCC#32 = true ∧ mergesTo 0xA8020103#32 0xAABBCCDD#32 = true := by decide +kernel

/-- The unaligned table of R279, a row for each offset. -/
theorem test_swr :
    mergesTo 0xB8020100#32 0xAABBCCDD#32 = true ∧ mergesTo 0xB8020101#32 0xBBCCDD11#32 = true ∧
    mergesTo 0xB8020102#32 0xCCDD2211#32 = true ∧ mergesTo 0xB8020103#32 0xDD332211#32 = true := by decide +kernel

/-- V-L10, V-L17. -/
theorem test_sb :
    stores 0xA0220003#32 0x00002000#32 0xFFFFFF5A#32 0x2000 0x44332211#32 0x5A332211#32 = true ∧
    refuses (run 0xA0220000#32 (withRegs [(1, 0x1F8010F0#32)] base)) .subwordDeviceAccess = true := by
  decide +kernel

/-- V-L8, V-L11. -/
theorem test_sh :
    stores 0xA4220000#32 0x00002000#32 0x0000BEEF#32 0x2000 0x44332211#32 0x4433BEEF#32 = true ∧
    yields (run 0xA4220001#32 (loadState 0x00002000#32 5#32 0x2000 0x44332211#32)) (trapped 0x00000014#32) = true := by
  decide +kernel

/-- V-L9, and the example of R287. -/
theorem test_sw :
    yields (run 0xAC220000#32 (loadState 0x00002002#32 5#32 0x2000 0x44332211#32)) (trapped 0x00000014#32) = true ∧
    stores 0xAC220000#32 0x80000100#32 0x44332211#32 0x100 0x00000000#32 0x44332211#32 = true := by decide +kernel

/-- V-L15, V-L16, V-L19. -/
theorem test_sw_elsewhere :
    yields (run 0xAC220000#32 (withRegs [(1, 0xBF801000#32)] base)) (fun t => t.plat == base.plat) = true ∧
    faults (run 0xAC220000#32 (withRegs [(1, 0x00200000#32)] base)) .unmappedWrite = true ∧
    yields (run 0xAC220000#32 (withRegs [(1, 0xBFC00000#32), (2, 7#32)] base)) (fun t => t.plat == base.plat) = true := by
  decide +kernel

/-- V-L12, V-L13: in the slot the read is a draw between 1 and 7, so one of the two;
after it, and in the slot of another load, it is the committed value. -/
theorem test_load_delay :
    yields (run 0x8C230000#32 (withRegs [(3, 1#32)] (loadState 0x2000#32 0#32 0x2000 7#32))) (fun t => t.reg 3 ==
      7#32 && t.ldNext == some ⟨3, 1#32, .whole⟩) = true ∧
    yields (run 0x00602021#32 (withRegs [(3, 7#32)] base)) (fun t => t.reg 4 == 7#32) = true ∧
    yields (run 0x00602021#32 { withRegs [(3, 7#32)] base with ldNext := some ⟨5, 1#32, .whole⟩ }) (fun t => t.reg 4 ==
      7#32) = true := by decide +kernel

/-! ## System -/

/-- V-S1, V-S3. -/
theorem test_syscall :
    yields (run 0x0000000C#32 base) (trapped 0x20#32) = true ∧
    yields (run 0x03FFFFCC#32 base) (trapped 0x20#32) = true := by decide +kernel

/-- V-S4, V-S5, V-X7. -/
theorem test_syscall_status :
    yields (run 0x0000000C#32 (withStatus 1#32 base)) (fun t => t.status == 4#32 && t.pc == 0x80000080#32) = true ∧
    yields (run 0x0000000C#32 (withStatus 0x3F#32 base)) (fun t => t.status == 0x3C#32) = true ∧
    yields (run 0x0000000C#32 (withStatus 4#32 base)) (fun t => t.status == 0x10#32) = true := by decide +kernel

/-- V-S2. -/
theorem test_break :
    yields (run 0x0000000D#32 base) (trapped 0x24#32) = true := by decide +kernel

/-- V-S6, V-S7, V-S14. -/
theorem test_mfc0 :
    yields (run 0x40027800#32 base) (fun t => t.reg 2 == 2#32 && t.ldNext == some ⟨2, 0#32, .whole⟩) = true ∧
    gives 0x40026000#32 [] 2 0x00400000#32 = true ∧
    refuses (run 0x40026000#32 (withStatus 2#32 base)) .userCop0 = true := by decide +kernel

/-- V-S8, V-S9, V-S10. -/
theorem test_mtc0 :
    yields (run 0x40816800#32 (withRegs [(1, 0xFFFFFFFF#32)] base)) (fun t => t.cause == 0x300#32) = true ∧
    yields (run 0x40817000#32 (withRegs [(1, 0x12345678#32)] base)) (fun t => t.epc == 0#32) = true ∧
    yields (run 0x40816000#32 (withRegs [(1, 0x00010000#32)] base)) (fun t => t.status == 0x00010000#32) = true := by
  decide +kernel

/-- V-S11, V-S12, V-S13. -/
theorem test_rfe :
    yields (run 0x42000010#32 (withStatus 4#32 base)) (fun t => t.status == 1#32) = true ∧
    yields (run 0x42000010#32 (withStatus 0x2C#32 base)) (fun t => t.status == 0x2B#32) = true ∧
    yields (run 0x43FFFFD0#32 (withStatus 4#32 base)) (fun t => t.status == 1#32) = true := by decide +kernel

/-- V-S16, V-S17, V-S18. -/
theorem test_illegal :
    yields (run 0xFC000000#32 base) (trapped 0x28#32) = true ∧
    yields (run 0x00000001#32 base) (trapped 0x28#32) = true ∧
    yields (run 0x40200000#32 base) (trapped 0x28#32) = true := by decide +kernel

/-! ## Coprocessor 2

What the engine's functions answer is free, so these tests compare with the functions themselves. -/

/-- The start state with CU2 set. -/
def usable : State := withStatus 0x40400000#32 base

theorem test_mfc2 : ∃ t, run 0x48023800#32 usable = .next t ∧ t.reg 2 = Config.gteReadData GteState.reset 7 ∧
    t.ldNext = some ⟨2, 0#32, .whole⟩ := ⟨_, rfl, rfl, rfl⟩ -- V-P1
theorem test_cfc2 : ∃ t,
    run 0x4842F800#32 { usable with gte := { GteState.reset with flags := 0x80001000#32 } } = .next t ∧
    t.reg 2 = 0x80001000#32 := ⟨_, rfl, rfl⟩ -- V-P2
theorem test_mtc2 : ∃ t, run 0x48820000#32 (withRegs [(2, 9#32)] usable) = .next t ∧
    t.gte = Config.gteWriteData GteState.reset 0 9#32 := ⟨_, rfl, rfl⟩ -- V-P3
theorem test_ctc2 : ∃ t, run 0x48C20000#32 (withRegs [(2, 9#32)] usable) = .next t ∧
    t.gte = Config.gteWriteCtrl GteState.reset 0 9#32 := ⟨_, rfl, rfl⟩ -- V-P4
theorem test_lwc2 : ∃ t,
    run 0xC8800000#32 (withWords [(0x2000, 0x00010002#32)] (withRegs [(4, 0x2000#32)] usable)) = .next t ∧
    t.gte = Config.gteWriteData GteState.reset 0 0x00010002#32 := ⟨_, rfl, rfl⟩ -- V-P5
theorem test_lwc2_misaligned : yields (run 0xC8800002#32 usable) (fun t => t.cause == 0x10#32) = true := by
  decide +kernel -- V-P7
theorem test_swc2 : ∃ v, run 0xE8870004#32 (withRegs [(4, 0x2000#32)] usable) =
    .next (ageHazards { begun (withRegs [(4, 0x2000#32)] usable) with
      plat := { usable.plat with mem := Memory.write [] 0x2004 .word v } }) ∧ v = Config.gteReadData GteState.reset 7 :=
  ⟨_, rfl, rfl⟩ -- V-P6
theorem test_cop2 : run 0x4A00003F#32 usable = .next (begun usable) ∧ -- V-P9
    refuses (run 0x4A00003F#32 base) .cop2Unusable = true ∧ -- V-P8
    refuses (run 0x48023800#32 base) .cop2Unusable = true ∧
    yields (run 0x48200000#32 usable) (fun t => t.cause == 0x28#32) = true := -- V-P10
  ⟨rfl, by decide +kernel, by decide +kernel, by decide +kernel⟩

/-- E8 item 5: flag bits 24 and 17 count into bit 31, bits 22, 21, 20, 19 and 12 do not (R346). -/
theorem test_gte_summary :
    [24, 17].all (fun k => (withSummary (flagBit k true)).getLsbD 31) = true ∧
    [22, 21, 20, 19, 12].all (fun k => !(withSummary (flagBit k true)).getLsbD 31) = true := by decide

/-- Hand calculation from R347: the table's ends, an overflow, MAC1 over 2^43 as in E6. -/
theorem test_gte_bounds :
    unrTable 0 = 0xFF ∧ unrTable 256 = 0 ∧
    clampMac 0x12 0x7FFFFFFF000000 = 0x7FFFFFFFFFF ∧ clampMac 0x80012 0x7FFFFFFF000000 = 0x7FFFFFFF := by decide

/-- An engine with the operation numbers of R348, the translation and the matrix corner in control registers 5 and 0, the
vector in data register 0, MAC1 in data register 25, and a product that only MVMVA makes: an instance for E6. -/
def sampleEngine : GteEngine where
  operation n :=
    match n with
    | 0x01#6 => some .rtps
    | 0x06#6 => some .nclip
    | 0x10#6 => some .dpcs
    | 0x12#6 => some .mvmva
    | 0x13#6 => some .ncds
    | 0x2D#6 => some .avsz3
    | 0x30#6 => some .rtpt
    | _ => none
  acceptsSelectors n := n != 0x3F#6
  divideOperands _ _ k := (2#16, BitVec.ofNat 16 k)
  refine h shift d u := h.toNat * 2 ^ shift + d + u
  arith cmd g quotients :=
    let mac1 : Int := (g.ctrl[5]).toInt * 4096 + (g.data[0]).toInt * (g.ctrl[0]).toInt
    let made := gteNumber cmd = 0x12#6
    { mac0 := quotients.map Int.ofNat, mac1 := if made then [mac1] else [], mac2 := [], mac3 := [], ir0 := [], ir1 := []
      ir2 := [], ir3 := [], screenX := [], screenY := [], screenZ := [], colourClips := 0#3 }
  store _ g r := (g.data.set 25 (BitVec.ofInt 32 (r.mac1.getD 0 0)), g.ctrl)

/-- The registers of E6: V0 = 0x7FFF, RT = 0x1000 (1.0), TR = 0x7FFFFFFF. -/
def saturating : GteState :=
  { GteState.reset with
    data := GteState.reset.data.set 0 0x7FFF#32
    ctrl := (GteState.reset.ctrl.set 0 0x1000#32).set 5 0x7FFFFFFF#32 }

/-- E6: MAC1 saturated at 2^43 − 1 before the shift, flag bits 30 and 31; R347: an overflowing divide sets bits 17 and 31. -/
theorem test_gte_command :
    yields (gteCommand sampleEngine 0x0080012 saturating) (fun g => g.data[25] == 0x7FFFFFFF#32 &&
      g.flags == 0xC0000000#32) = true ∧
    yields (gteCommand sampleEngine 0x0080001 saturating) (fun g => g.flags == 0x80020000#32) = true ∧
    (gteDivide sampleEngine 2 1).2 = true ∧ (gteDivide sampleEngine 1 1).2 = false := by decide +kernel

/-! ## Exceptions, interrupts, fetch -/

/-- The start state with a program word at its PC. -/
def placed (w : Word) (s : State) : State := placeWord w s

/-- The slot of the BEQ at 0xA0001010, with x[3] = 0x7FFFFFFF. -/
def slotState : State :=
  withRegs [(3, 0x7FFFFFFF#32)] { base with pc := 0xA0001014#32, nextPC := 0xA000101C#32, branchPending := true }

/-- V-X2: the overflowing ADD in the slot of the BEQ at 0xA0001010. -/
theorem test_slot_exception :
    yields (run 0x00632020#32 slotState) (fun t => t.epc == 0xA0001010#32 && t.cause == 0x80000030#32 && t.pc ==
      0xBFC00180#32 && t.reg 4 == 0#32) = true := by decide +kernel

/-- V-X3 to V-X6: the Dma bit pending and unmasked, with the given Status and in a delay slot or not. -/
def pending (status : Word) (slot : Bool) : State :=
  let s := placed 0x00221820#32 (withRegs [(1, 0x7FFFFFFF#32), (2, 1#32)] base)
  { s with status := status, branchPending := slot, plat := { s.plat with iStat := 8#11, iMask := 8#11 } }

/-- V-X3, V-X4, V-X8: taken before the overflowing ADD at 0xA0001000. -/
theorem test_interrupt :
    yields (stepWith quiet (pending 0x401#32 false)) (fun t => t.epc == 0xA0001000#32 && t.cause == 0#32 &&
      t.causeRead == 0x400#32 && t.status == 0x404#32 && t.pc == 0x80000080#32) = true ∧
    yields (stepWith quiet (pending 0x401#32 true)) (fun t => t.epc == 0xA0000FFC#32 && t.causeRead ==
      0x80000400#32) = true := by decide +kernel

/-- V-X5, V-X6: IEc or IM2 clear, so the ADD overflows instead. -/
theorem test_no_interrupt :
    yields (stepWith quiet (pending 0x400#32 false)) (fun t => t.causeRead == 0x430#32) = true ∧
    yields (stepWith quiet (pending 0x1#32 false)) (fun t => t.causeRead == 0x430#32) = true := by decide +kernel

/-- V-S15, its second step. -/
theorem test_software_interrupt :
    yields (stepWith quiet { base with status := 0x101#32, cause := 0x100#32, pc := 0xA0001004#32 }) (fun t =>
      t.epc == 0xA0001004#32 && t.cause == 0x100#32) = true := by decide +kernel

/-- V-C16, V-X9. -/
theorem test_fetch_misaligned :
    yields (stepWith quiet { base with pc := 0x80001002#32, nextPC := 0x80001006#32 }) (fun t => t.epc ==
      0x80001002#32 && t.cause == 0x10#32) = true := by decide +kernel

/-- A first step after reset runs the word placed at 0xBFC00000 (R502), under the drawn environment. -/
theorem test_first_step :
    yields (step (State.reset.withFetchWord 32 0x3C011F80)) 
      (fun t => t.reg 1 == 0x1F800000#32 && t.pc == 0xBFC00004#32) = true := by decide +kernel

/-- Nothing placed: the reset step runs the word 0 (log 4), `sll $0,$0,0`. -/
theorem test_reset_step :
    yields (step State.reset) (fun t => t.pc == 0xBFC00004#32 && t.regs == State.reset.regs) = true := by
  decide +kernel

/-! ## The instruction cache (V-K1 to V-K13) -/

/-- Cache on, four words at 0x2000. -/
def cacheState : State :=
  let s := withWords
    [(0x2000, 0x11111111#32), (0x2004, 0x22222222#32), (0x2008, 0x33333333#32), (0x200C, 0x44444444#32)] base
  { s with plat := { s.plat with ccr := 0x800#32 } }

/-- Line 0 as V-K1 fills it. -/
def filled : CacheLine :=
  { valid := true, tag := 0x00002#19, data := #v[0x11111111#32, 0x22222222#32, 0x33333333#32, 0x44444444#32] }

/-- `cacheState` with line 0 filled and memory changed behind it. -/
def staleState : State := withWords [(0x2004, 0x55555555#32), (0x3000, 0x66666666#32)] (cacheState.setLine 0 filled)

/-- A fetch answers a word and leaves a line 0. -/
def fetches (va : Word) (s : State) (w : Word) (l : CacheLine) : Bool :=
  yields (fetch va s) fun r => r.1 == w && r.2.line 0 == l

/-- V-K1, V-K10. -/
theorem test_cache_fill :
    fetches 0x80002004#32 cacheState 0x22222222#32 filled = true ∧
    fetches 0x80002004#32 { cacheState with plat := { cacheState.plat with ccr := 0#32 } } 0x22222222#32
      CacheLine.reset = true := by decide +kernel

/-- V-K2, V-K3, V-K4, V-K11. -/
theorem test_cache_hit :
    fetches 0x00002008#32 staleState 0x33333333#32 filled = true ∧
    fetches 0x80002004#32 staleState 0x22222222#32 filled = true ∧
    fetches 0xA0002004#32 staleState 0x55555555#32 filled = true ∧
    yields (fetch 0x80003000#32 staleState) (fun r => r.1 == 0x66666666#32 && (r.2.line 0).tag == 0x00003#19) = true := by
  decide +kernel

/-- V-K5, V-K6, V-K7, V-K9. -/
theorem test_cache_isolate :
    yields (run 0xA0200000#32 (withStatus 0x00010000#32 (withRegs [(1, 0x80005000#32)] staleState))) (fun t =>
      t.line 0 == { filled with valid := false } && t.plat == staleState.plat) = true ∧
    yields (run 0xAC200000#32 (withStatus 0x00010000#32 (withRegs [(1, 0x80002000#32)] staleState))) (fun t =>
      t.line 0 == filled && t.plat == staleState.plat) = true ∧
    yields (run 0xACA60130#32 (withStatus 0x00010000#32 (withRegs [(5, 0xFFFE0000#32)] staleState))) (fun t =>
      t.plat.ccr == 0#32) = true ∧
    yields (run 0x8C230000#32 (withStatus 0x00010000#32 (withRegs [(1, 0xA0002000#32)] staleState))) (fun t =>
      t.reg 3 == 0x11111111#32) = true := by decide +kernel

/-- V-K8: one draw and no bus access. -/
theorem test_cache_isolate_load :
    yields (run 0x8C230000#32 (withStatus 0x00010000#32 (withRegs [(1, 0x80002000#32)] staleState))) (fun t =>
      t.plat == { staleState.plat with draws := 1 }) = true := by decide +kernel

/-! ## The interrupt aggregator and the timers -/

/-- A word stored at a device register. -/
def put (a : Nat) (v : Word) (p : Platform) : Result Platform := busWrite a .word v p

/-- Words stored at device registers, in order. -/
def puts : List (Nat × Word) → Platform → Result Platform
  | [], p => .next p
  | (a, v) :: l, p => andThen (put a v p) (puts l)

/-- A word loaded from a device register. -/
def get (a : Nat) (p : Platform) : Option Word :=
  match busRead a .word p with
  | .next r => some r.1
  | _ => none

/-- V-I1, V-I2, V-I4. -/
theorem test_istat :
    yields (put 0x1F801070 0x0000FFF7#32 { base.plat with iStat := 0x019#11 }) (fun p => p.iStat == 0x011#11) =
      true ∧
    yields (put 0x1F801070 0xFFFFFFFF#32 { base.plat with iStat := 0x011#11 }) (fun p => p.iStat == 0x011#11) =
      true ∧
    yields (busWrite 0x1F801070 .byte 0xFF#32 { base.plat with iStat := 0x711#11 }) (fun p => p.iStat == 0x011#11)
      = true := by decide +kernel

/-- V-I3, V-I5, V-I6, V-I7. -/
theorem test_imask :
    yields (put 0x1F801074 0xFFFFFFFF#32 base.plat) (fun p => p.iMask == 0x7FF#11) = true ∧
    get 0x1F801070 { base.plat with iStat := 0x011#11 } = some 0x11#32 ∧
    interruptLine { base.plat with iStat := 0x010#11, iMask := 0x010#11 } = true ∧
    interruptLine { base.plat with iStat := 0x010#11, iMask := 0x001#11 } = false := by decide +kernel

/-- V-I8. -/
theorem test_assert :
    assertSource (timerSource 1) (assertSource (timerSource 1) 0#11) = 0x020#11 ∧
    yields (put 0x1F801070 0x7DF#32 { base.plat with iStat := 0x020#11 }) (fun p => p.iStat == 0#11) = true := by
  decide +kernel

/-- Words stored, then clock cycles, then a property. -/
def clocked (l : List (Nat × Word)) (n : Nat) (c : Platform → Bool) : Bool :=
  yields (puts l base.plat) fun p => c (clockCycles n p)

/-- V-T1, V-T13, V-T14, V-T12. -/
theorem test_timer_mode :
    clocked [(0x1F801104, 0x58#32), (0x1F801108, 3#32)] 0 (fun p => (p.timers[0]).mode == 0x458#13 &&
      (p.timers[0]).armed) = true ∧
    clocked [(0x1F801104, 0xFFFF0058#32)] 0 (fun p => (p.timers[0]).mode == 0x458#13) = true ∧
    clocked [(0x1F801100, 0x12345#32)] 0 (fun p => (p.timers[0]).count == 0x2345#16) = true ∧
    refuses (put 0x1F801104 1#32 base.plat) .timerSync = true := by decide +kernel

/-- V-T2, V-T3, V-T4. -/
theorem test_timer_repeat :
    clocked [(0x1F801104, 0x58#32), (0x1F801108, 3#32)] 3 (fun p => (p.timers[0]).count == 3#16 &&
      (p.timers[0]).mode == 0xC58#13 && p.iStat == 0x10#11) = true ∧
    clocked [(0x1F801104, 0x58#32), (0x1F801108, 3#32)] 4 (fun p => (p.timers[0]).count == 0#16) = true ∧
    clocked [(0x1F801104, 0x58#32), (0x1F801108, 3#32)] 7 (fun p => (p.timers[0]).count == 3#16 &&
      (p.timers[0]).armed) = true := by decide +kernel

/-- V-T5. -/
theorem test_timer_read :
    yields (busRead 0x1F801104 .word { base.plat with timers := base.plat.timers.set 0 { Timer.reset with mode :=
      0xC58#13 } }) (fun r => r.1 == 0xC58#32 && (r.2.timers[0]).mode == 0x458#13) = true := by decide +kernel

/-- V-T6: fired at 2; after I_STAT is cleared, three more cycles do not fire again. -/
theorem test_timer_one_shot :
    clocked [(0x1F801104, 0x18#32), (0x1F801108, 2#32)] 2 (fun p => (p.timers[0]).count == 2#16 && p.iStat ==
      0x10#11 && !(p.timers[0]).armed) = true ∧
    clocked [(0x1F801104, 0x18#32), (0x1F801108, 2#32)] 2 (fun p => (clockCycles 3 { p with iStat := 0#11 }).iStat
      == 0#11 && ((clockCycles 3 p).timers[0]).count == 2#16) = true := by decide +kernel

/-- V-T7, V-T8. -/
theorem test_timer_ffff :
    clocked [(0x1F801104, 0x20#32), (0x1F801108, 0x1234#32), (0x1F801100, 0xFFFE#32)] 1 (fun p =>
      (p.timers[0]).count == 0xFFFF#16 && (p.timers[0]).mode.getLsbD 12 && p.iStat == 0x10#11) = true ∧
    clocked [(0x1F801104, 0x20#32), (0x1F801108, 0x1234#32), (0x1F801100, 0xFFFE#32)] 2 (fun p =>
      (p.timers[0]).count == 0#16) = true := by decide +kernel

/-- Timer 1 with source 1, `n` cycles into its period. -/
def dividing (n : Nat) : Platform :=
  { base.plat with timers := base.plat.timers.set 1 { Timer.reset with mode := 0x500#13, prescaler := n } }

/-- V-T9, V-T10, V-T11. -/
theorem test_timer_divide :
    ((clockCycles 1 (dividing 2098)).timers[1]).count = 0#16 ∧
    ((clockCycles 1 (dividing 2099)).timers[1]).count = 1#16 ∧
    ((clockCycles 1 (dividing 2099)).timers[1]).prescaler = 0 ∧
    clocked [(0x1F801104, 0x100#32)] 5 (fun p => (p.timers[0]).count == 5#16) = true := by decide +kernel

/-! ## DMA -/

/-- V-D1: OTC of `bcr` words from 0x4010 with the given DPCR and DICR. -/
def otc (dpcr dicr bcr : Word) : Result Platform :=
  puts [(0x1F8010F0, dpcr), (0x1F8010F4, dicr), (0x1F8010E0, 0x4010#32), (0x1F8010E4, bcr), (0x1F8010E8, 0x11000002#32)]
    (setWords [(0x4000, 0xCCCCCCCC#32)] base.plat)

/-- V-D1. -/
theorem test_dma_otc :
    yields (otc 0x0F654321#32 0#32 4#32) (fun p => p.mem.read 0x4010 .word == 0x400C#32 && p.mem.read 0x400C .word
      == 0x4008#32 && p.mem.read 0x4008 .word == 0x4004#32 && p.mem.read 0x4004 .word == 0x00FFFFFF#32 &&
      p.mem.read 0x4000 .word == 0xCCCCCCCC#32 && (p.dma.channels[6]).chcr == 2#32) = true := by decide +kernel

/-- V-D2, V-D3, V-D7, V-D8, V-D9. -/
theorem test_dma_refusals :
    refuses (otc 0x07654321#32 0#32 4#32) .dmaChannelDisabled = true ∧
    refuses (otc 0x0F654321#32 0#32 0#32) .dmaZeroSize = true ∧
    refuses (puts [(0x1F8010F0, 0x07654B21#32), (0x1F8010A8, 0x01000400#32)] base.plat) .dmaLinkedListNotGpu = true
      ∧
    refuses (puts [(0x1F8010F0, 0x0765C321#32), (0x1F8010B4, 1#32), (0x1F8010B8, 0x01000600#32)] base.plat)
      .dmaSyncReserved = true ∧
    refuses (puts [(0x1F8010F0, 0x07E54321#32), (0x1F8010D4, 0x00020004#32), (0x1F8010D8, 0xFFFFFFFF#32)]
      base.plat) .dmaSyncReserved = true := by decide +kernel

/-- V-D4, V-D5, V-D14. -/
theorem test_dma_stored :
    yields (put 0x1F8010A8 1#32 base.plat) (fun p => get 0x1F8010A8 p == some 1#32) = true ∧
    yields (put 0x1F8010A8 0x01000000#32 base.plat) (fun p => get 0x1F8010A8 p == some 0x01000000#32) = true ∧
    yields (put 0x1F801080 0xFFFFFFFF#32 base.plat) (fun p => get 0x1F801080 p == some 0x00FFFFFF#32) = true := by
  decide +kernel

/-- V-D6, which draws the fill of V-G1. -/
theorem test_dma_list :
    yields (puts [(0x1F8010F0, 0x07654B21#32), (0x1F8010A0, 0x100#32), (0x1F8010A8, 0x01000401#32)] (setWords
      [(0x100, 0x03000200#32), (0x104, 0x02FF0000#32), (0x108, 0x00100015#32), (0x10C, 0x00020011#32), (0x200,
      0x00FFFFFF#32)] base.plat)) (fun p => p.gpu.cell 16 16 == 0x7C00#16 && p.gpu.cell 47 17 == 0x7C00#16 &&
      p.gpu.fifo == [] && (p.dma.channels[2]).chcr == 0x401#32) = true := by decide +kernel

/-- V-D10, V-D11. -/
theorem test_dma_interrupt :
    yields (otc 0x0F654321#32 0x00C00000#32 4#32) (fun p => get 0x1F8010F4 p == some 0xC0C00000#32 && p.iStat ==
      8#11) = true ∧
    yields (otc 0x0F654321#32 0x00C00000#32 4#32) (fun p => yields (put 0x1F8010F4 0x40C00000#32 p) (fun q => get
      0x1F8010F4 q == some 0x00C00000#32 && !q.dma.irqLevel)) = true := by decide +kernel

/-- V-D12: a second write of Force asserts nothing. -/
theorem test_dma_force :
    yields (put 0x1F8010F4 0x8000#32 base.plat) (fun p => p.iStat == 8#11 && p.dma.dicr.irq && yields (put
      0x1F8010F4 0x8000#32 { p with iStat := 0#11 }) (fun q => q.iStat == 0#11)) = true := by decide +kernel

/-- V-D13. -/
theorem test_dma_otc_block :
    yields (puts [(0x1F8010F0, 0x0F654321#32), (0x1F8010E0, 0x5000#32), (0x1F8010E4, 0x00020002#32), (0x1F8010E8,
      0x11000202#32)] base.plat) (fun p => p.mem.read 0x5000 .word == 0x4FFC#32 && p.mem.read 0x4FFC .word ==
      0x00FFFFFF#32 && p.mem.read 0x4FF8 .word == 0#32) = true := by decide +kernel

/-! ## GPU -/

/-- Words to GP0, in order. -/
def gp0s (l : List Word) (p : Platform) : Result Platform := puts (l.map fun w => (0x1F801810, w)) p

/-- V-G1, and the cells just outside. -/
theorem test_gpu_fill :
    yields (gp0s [0x02FF0000#32, 0x00100015#32, 0x00020011#32] base.plat) (fun p => p.gpu.cell 16 16 == 0x7C00#16
      && p.gpu.cell 47 17 == 0x7C00#16 && p.gpu.cell 15 16 == 0#16 && p.gpu.cell 48 17 == 0#16 && p.gpu.cell 16 18
      == 0#16) = true := by decide +kernel

/-- V-G3. -/
theorem test_gpu_vram_write :
    yields (gp0s [0xA0000000#32, 0x00200010#32, 0x00010003#32, 0x22221111#32, 0x44443333#32] base.plat) (fun p =>
      p.gpu.cell 16 32 == 0x1111#16 && p.gpu.cell 17 32 == 0x2222#16 && p.gpu.cell 18 32 == 0x3333#16 && p.gpu.cell
      19 32 == 0#16 && p.gpu.transfer.mode == .fifo) = true := by decide +kernel

/-- V-G4: the three cells of V-G3 and a VRAM read command under way. -/
def readingGpu : Result Platform :=
  gp0s [0xA0000000#32, 0x00200010#32, 0x00010003#32, 0x22221111#32, 0x44443333#32, 0xC0000000#32, 0x00200010#32,
    0x00010003#32] base.plat

/-- V-G4. -/
theorem test_gpu_vram_read :
    yields readingGpu (fun p => (gpuRead p).1 == 0x22221111#32 && (gpuRead (gpuRead p).2).2.gpu.transfer.mode ==
      .fifo) = true := by decide +kernel

/-- V-G4: the second load of GPUREAD is a draw above 0x3333. -/
theorem test_gpu_vram_read_draw :
    yields readingGpu (fun p => (gpuRead (gpuRead p).2).1.extractLsb' 0 16 == 0x3333#16) = true := by
  have h : ∀ v : Word, (v.extractLsb' 16 16 ++ 0x3333#16 : Word).extractLsb' 0 16 = 0x3333#16 := by
    intro v; apply BitVec.eq_of_getLsbD_eq; intro k hk
    rw [BitVec.getLsbD_extractLsb', BitVec.getLsbD_append]; simp [hk]
  exact beq_iff_eq.mpr (h (Config.freeWord 0))

/-- V-G5, V-G6: Read mode, which is bit 27, and the toggle that is bit 31. -/
theorem test_gpu_status :
    yields readingGpu (fun p => p.gpu.transfer.mode == .read && (gpuStat p).2.gpu.stat31 && !(gpuStat (gpuStat
      p).2).2.gpu.stat31) = true := by decide +kernel

/-- V-G8, V-G9, V-G7. -/
theorem test_gpu_settings :
    yields (gp0s [0xE1000209#32] base.plat) (fun p => p.gpu.draw.texpage == 0x209#14) = true ∧
    yields (gp0s [0xE3000000#32, 0xE4077C3F#32] base.plat) (fun p => p.gpu.draw.area == ⟨0, 0, 63, 479⟩) = true ∧
    refuses (gp0s [0x40000000#32] base.plat) .gpuUnknownCommand = true := by decide +kernel

/-- V-G10, V-G11: a shaded textured quad runs on its twelfth word, its vertices here one point; GP1 empties a FIFO. -/
theorem test_gpu_reset_fifo :
    yields (gp0s [0x3C000000#32, 0#32, 0#32, 0#32, 0#32, 0#32, 0#32, 0#32, 0#32, 0#32, 0#32] base.plat) (fun p =>
      p.gpu.fifo.length == 11) = true ∧
    yields (gp0s [0x3C000000#32, 0#32, 0#32, 0#32, 0#32, 0#32, 0#32, 0#32, 0#32, 0#32, 0#32, 0#32] base.plat) (fun
      p => p.gpu.fifo == []) = true ∧
    yields (gp0s [0x02FF0000#32, 0x00100015#32] base.plat) (fun p => yields (put 0x1F801814 0x01000000#32 p) (fun q
      => q.gpu == base.plat.gpu)) = true := by decide +kernel

/-- V-G12, with 0x1234 in cell (0,0). -/
theorem test_gpu_blit :
    yields (gp0s [0xA0000000#32, 0#32, 0x00010001#32, 0x1234#32, 0xE6000000#32, 0x80000000#32, 0#32, 0x10#32,
      0x00010001#32] base.plat) (fun p => p.gpu.cell 16 0 == 0x1234#16) = true := by decide +kernel

/-- Hand calculation from R467, R482, R484, R489: a 1 × 1 rectangle of colour 0xF80008 at (3, 2), in the area or
not. -/
theorem test_gpu_rectangle :
    yields (gp0s [0xE4077C3F#32, 0x68F80008#32, 0x00020003#32] base.plat) (fun p => p.gpu.cell 3 2 == 0x7C01#16) =
      true ∧
    yields (gp0s [0xE4000402#32, 0x68F80008#32, 0x00020003#32] base.plat) (fun p => p.gpu.vram == []) = true := by
  decide +kernel

/-- Hand calculation from R486, R487: half and half, sum, difference, quarter; the dither corners. -/
theorem test_gpu_blend :
    blendChannel 0 31 7 = 18 ∧ blendChannel 1 31 7 = 31 ∧ blendChannel 2 7 31 = 0 ∧ blendChannel 3 10 31 = 17 ∧
    ditherOffset 0 0 = -4 ∧ ditherOffset 3 3 = -2 ∧ ditherChannel true 0 0 2 = 0 ∧ ditherChannel true 0 3 254 = 255 := by
  decide +kernel


/-! ## Witnesses: concrete states and operands that meet the statements' hypotheses

A statement's witness bears its name. Where a statement has several clauses, the witness meets each, at the ends of its
ranges. `TriangleFragmentsObeyTheirLaws` speaks of the members of an opaque list (log 19), so only its premise on the area
has a witness. -/

/-- A state in which `x[1]` is the effective address of `offset 0($1)`. -/
def addressed (ea : Word) (s : State) : State := withRegs [(1, ea)] s

/-- The base state with the cache isolated, and with CU2 set as well. -/
def isolated : State := withStatus 0x40010000#32 base

/-- User mode at 0x00001000. -/
def userState : State := { base with status := 2#32, pc := 0x1000#32, nextPC := 0x1004#32 }

theorem witness_DecodeOfEncodeIsIdentity :
    (Instr.bltz 1 15 0xFFFF).wf = true ∧ (Instr.bgez 31 0 0).wf = true ∧ (Instr.add 1 2 3).wf = true := by decide

theorem witness_UnusedFieldsAreIgnored :
    decode 0x43FFFFD0#32 = .ok .rfe ∧ 0x42000010#32 &&& usedBits .rfe = 0x43FFFFD0#32 &&& usedBits .rfe ∧
    decode 0x0000000C#32 = .ok (.syscall 0) ∧
    0x03FFFFCC#32 &&& usedBits (.syscall 0) = 0x0000000C#32 &&& usedBits (.syscall 0) := by decide

/-- An end of every range of R122. -/
theorem witness_IllegalWordsRaiseReservedInstruction :
    Illegal 0x44000000#32 ∧ Illegal 0x50000000#32 ∧ Illegal 0x7FFFFFFF#32 ∧ Illegal 0xCC000000#32 ∧
    Illegal 0xE4000000#32 ∧ Illegal 0xFC000000#32 ∧ Illegal 0x00000001#32 ∧ Illegal 0x00000014#32 ∧
    Illegal 0x0000003F#32 ∧ Illegal 0x40200000#32 ∧ Illegal 0x41E00000#32 ∧ Illegal 0x42000011#32 ∧
    Illegal 0x43E00000#32 ∧ Illegal 0x48200000#32 ∧ Illegal 0x49E00000#32 := by
  simp [Illegal]

/-- An ADDIU, also in a delay slot, and a J in a delay slot. -/
theorem witness_StepRunsDecodedInstruction :
    [(0x24010005#32, Instr.addiu 0 1 5, false), (0x24010005#32, .addiu 0 1 5, true), (0x08000000#32, .j 0, true)].all
      (fun c =>
        let m := environmentMoves quiet (placed c.1 { base with branchPending := c.2.2 })
        !m.interruptPending && m.pc.toNat % 4 == 0 && m.branchPending == c.2.2 &&
          yields (fetch m.pc m) fun r => decide (decode r.1 = .ok c.2.1)) = true := by decide +kernel

/-- Uncached from the ends of RAM and BIOS; from no memory; a hit; a miss. -/
theorem witness_FetchGoesThroughTheCache :
    [0xA0000000#32, 0x801FFFFC#32, 0xBFC00000#32, 0xBFC7FFFC#32].all (fun va => decide
      (¬ Forbidden base va ∧ va.toNat % 4 = 0 ∧ ¬ (base.plat.ccr.getLsbD 11 = true ∧ va.toNat < 0xA0000000) ∧
      (InRam (physical va) ∨ InBios (physical va)))) = true ∧
    [0xA0200000#32, 0x1F800000#32, 0xBFBFFFFC#32, 0xBFC80000#32].all (fun va => decide
      (¬ Forbidden base va ∧ va.toNat % 4 = 0 ∧ ¬ base.plat.ccr.getLsbD 11 = true ∧
      ¬ (InRam (physical va) ∨ InBios (physical va)))) = true ∧
    (staleState.plat.ccr.getLsbD 11 = true ∧ Hits staleState 0x80002004#32 ∧ Hits staleState 0x2008#32) ∧
    (cacheState.plat.ccr.getLsbD 11 = true ∧ ¬ Hits cacheState 0x80002004#32 ∧ ¬ Hits staleState 0x9FC00000#32 ∧
      InRam (physical 0x80002004#32) ∧ InBios (physical 0x9FC00000#32)) := by
  unfold Hits
  decide +kernel

theorem witness_PendingInterruptIsTakenBeforeFetch :
    (pending 0x401#32 false).cause &&& ~~~causeStored = 0#32 ∧
    (environmentMoves quiet (pending 0x401#32 false)).interruptPending = true ∧
    (environmentMoves quiet (pending 0x400#32 false)).interruptPending = false := by decide +kernel

theorem witness_MisalignedAccessRaisesAddressError :
    [1#32, 2#32, 3#32].all (fun k => decide
      ((environmentMoves quiet { base with pc := 0x80001000#32 + k }).interruptPending = false ∧
      (environmentMoves quiet { base with pc := 0x80001000#32 + k }).pc.toNat % 4 ≠ 0 ∧
      ¬ AlignedTo .word (effectiveAddress (addressed (0x2000#32 + k) usable) 1 0))) = true ∧
    [1#32, 3#32].all (fun k => decide
      (¬ AlignedTo .half (effectiveAddress (addressed (0x2000#32 + k) usable) 1 0))) = true ∧
    (∀ f ∈ loadForms 1 3 0 ++ storeForms 1 3 0, Usable f.1 usable) := by decide +kernel

theorem witness_HazardStateAfterEveryStep :
    [0x00001810#32, 0x00001812#32, 0x00200011#32, 0x00200013#32, 0x00220018#32, 0x0022001B#32, 0x24010005#32,
      0xFC000000#32].all (fun w => yields (executeWord w base) fun _ => true) = true ∧
    (environmentMoves quiet (pending 0x401#32 false)).interruptPending = true ∧
    yields (stepWith quiet (pending 0x401#32 false)) (fun _ => true) = true ∧
    (environmentMoves quiet { base with pc := 2#32 }).pc.toNat % 4 ≠ 0 ∧
    yields (stepWith quiet { base with pc := 2#32 }) (fun _ => true) = true := by decide +kernel

/-- Bits 0 and 10, which `DEV` owns, asserted; bit 3 pending before. -/
theorem witness_EnvironmentOnlyMovesTimersAndRaisesInterrupts :
    let e : Environment := { cycles := 3, asserts := 0x401#11 }
    let s : State := { base with plat := { base.plat with iStat := 8#11 } }
    e.asserts.getLsbD 0 = true ∧ e.asserts.getLsbD 10 = true ∧ s.plat.iStat.getLsbD 3 = true ∧
    (environmentMoves e s).plat.iStat = 0x409#11 := by decide +kernel

theorem witness_FirstStepAfterResetRunsTheRom : InBios 0x1FC00000 ∧ InBios 0x1FC7FFFF := by decide

theorem witness_MultiplyGivesTheExactProduct : 2 ≤ (hazards 0#32 0#32 2 false).mfAge := by decide

/-- By zero, the overflow, and neither. -/
theorem witness_DivideGivesQuotientAndRemainder :
    let s := withRegs [(1, 0x80000000#32), (2, 0xFFFFFFFF#32), (3, 7#32)] (hazards 0#32 0#32 2 false)
    2 ≤ s.mfAge ∧ readReg s 0 = 0#32 ∧ (readReg s 1 = 0x80000000#32 ∧ readReg s 2 = 0xFFFFFFFF#32) ∧
    (readReg s 2 ≠ 0#32 ∧ ¬ (readReg s 3 = 0x80000000#32 ∧ readReg s 2 = 0xFFFFFFFF#32)) := by decide +kernel

theorem witness_HiLoMovesAndHazards :
    (2 ≤ (hazards 1#32 2#32 2 false).mfAge ∧ (hazards 1#32 2#32 2 false).hiloUnread = false) ∧
    (2 ≤ (hazards 1#32 2#32 3 true).mfAge ∧ (hazards 1#32 2#32 3 true).hiloUnread = true) ∧
    Instr.mtlo 1 ∈ [Instr.mult 1 2, .multu 1 2, .div 1 2, .divu 1 2, .mthi 1, .mtlo 1] ∧
    (hazards 1#32 2#32 1 false).mfAge < 2 := by decide +kernel

/-- A taken BEQ with an ADDIU in its slot, and with the overflowing ADD of V-X2 there. -/
def branching (slot : Word) : State :=
  withWords [(0x1000, 0x10000003#32), (0x1004, slot)] (withRegs [(3, 0x7FFFFFFF#32)] base)

theorem witness_DelaySlotRunsBeforeTheTarget :
    (branching 0#32).nextPC = (branching 0#32).pc + 4#32 ∧
    yields (stepWith quiet (branching 0x24010005#32)) (fun t => t.branchPending &&
      yields (stepWith quiet t) fun u => u.branchDelay && u.pc == 0xA0001010#32 && u.reg 1 == 5#32) = true ∧
    yields (stepWith quiet (branching 0x00632020#32)) (fun t => t.branchPending &&
      yields (stepWith quiet t) fun u => u.epc == 0xA0001000#32 && u.cause.getLsbD 31) = true := by decide +kernel

/-- The ends of RAM, scratchpad and BIOS, through each segment. -/
theorem witness_LoadsReadLittleEndianBytes :
    [0#32, 0x1FFFFF#32, 0x1F800000#32, 0x1F8003FF#32, 0xBFC00000#32, 0x9FC7FFFF#32].all (fun a =>
      let s := addressed a base
      decide (LoadReachesBus s (effectiveAddress s 1 0) ∧ InStorage (physical (effectiveAddress s 1 0)))) = true ∧
    AlignedTo .half (effectiveAddress (addressed 0xA01FFFFE#32 base) 1 0) ∧
    AlignedTo .word (effectiveAddress (addressed 0x801FFFFC#32 base) 1 0) := by decide +kernel

/-- Both ends of every region; and a pair half done, where the write is not raced. -/
theorem witness_UnalignedLoadsMergeBytes :
    [0#32, 0x1FFFFF#32, 0x1F8003FD#32, 0xBFC7FFFE#32].all (fun a =>
      let s := addressed a base
      decide (LoadReachesBus s (effectiveAddress s 1 0) ∧ InStorage (physical (effectiveAddress s 1 0)))) = true ∧
    PairPending { base with ldNow := some ⟨2, 0#32, .right⟩ } 2 .left ∧ (2 : Reg) ≠ 0#5 :=
  ⟨by decide +kernel, ⟨_, rfl, rfl, .inl ⟨rfl, rfl⟩⟩, by decide⟩

theorem witness_StoresWriteLittleEndianBytes :
    [0#32, 0x801FFFFF#32, 0x1F800000#32, 0x1F8003FF#32].all (fun a =>
      let s := addressed a base
      decide (Memory.wf s.plat.mem = true ∧ StoreReachesBus s (effectiveAddress s 1 0) ∧
        Writable (physical (effectiveAddress s 1 0)))) = true ∧
    AlignedTo .half (effectiveAddress (addressed 0xA01FFFFE#32 base) 1 0) ∧
    AlignedTo .word (effectiveAddress (addressed 0x801FFFFC#32 base) 1 0) := by decide +kernel

theorem witness_UnalignedStoresWritePartOfTheWord :
    [0#32, 0x801FFFFF#32, 0x1F800001#32, 0x1F8003FE#32].all (fun a =>
      let s := addressed a base
      decide (Memory.wf s.plat.mem = true ∧ StoreReachesBus s (effectiveAddress s 1 0) ∧
        Writable (physical (effectiveAddress s 1 0)))) = true := by decide +kernel

/-- The word at 0x2001, and the one that ends RAM. -/
theorem witness_UnalignedPairsMoveAWholeWord :
    [0x2001#32, 0x801FFFFC#32].all (fun a =>
      let s := addressed a base
      let ea := effectiveAddress s 1 0
      decide ((0#16).toInt + 3 ≤ 32767 ∧ s.ldNext = none ∧ s.pendingOld 1 = none ∧ physical (ea + 3#32) = physical ea + 3 ∧
      ((1 : Reg) ≠ 2 ∨ (2 : Reg) = 0#5) ∧ s.pendingOld 2 = none ∧ Memory.wf s.plat.mem = true ∧
      ∀ k : Fin 4, LoadReachesBus s (ea + BitVec.ofNat 32 k.val) ∧ InStorage (physical ea + k.val) ∧
        StoreReachesBus s (ea + BitVec.ofNat 32 k.val) ∧ Writable (physical ea + k.val))) = true := by decide +kernel

theorem witness_BusOutsideStorage :
    (0x1F000000 ≤ 0x1F7FFFFF ∧ 0x1F7FFFFF < 0x1F800000) ∧ (InBios 0x1FC00000 ∧ InBios 0x1FC7FFFF) ∧
    Size.half ≠ .word := by decide

theorem witness_BusOutsideStorage_unmapped :
    (∀ pa ∈ [0x1F801000, 0x1F801023, 0x1F801060, 0x1F801063, 0x1F802000, 0x1F802FFF],
      ¬ Mapped pa ∧ WriteIgnored base.plat pa) ∧
    ∀ pa ∈ [0x200000, 0x1F800400, 0x1F801024, 0x1F801064, 0x1F8010F8, 0x1F803000, 0x1FC80000, 0xFFFE0131],
      ¬ Mapped pa ∧ ¬ WriteIgnored base.plat pa := by
  have h : base.plat.ignoredWrites = defaultIgnoredWrites := rfl
  simp only [Mapped, WriteIgnored, h, defaultIgnoredWrites, List.mem_cons, List.not_mem_nil, or_false, exists_eq_or_imp,
    exists_eq_left]
  constructor <;> rintro pa h <;> constructor <;> omega

theorem witness_BusOutsideStorage_wordRegister :
    ∀ pa ∈ [0x1F801080, 0x1F8010E8, 0x1F8010F0, 0x1F801814, 0xFFFE0130], WordRegister pa := by
  simp only [WordRegister, List.mem_cons, List.not_mem_nil, or_false]
  rintro pa (rfl | rfl | rfl | rfl | rfl)
  · exact .inr ⟨0, by omega, .inl rfl⟩
  · exact .inr ⟨6, by omega, .inr (.inr rfl)⟩
  all_goals exact .inl (by simp)

/-- A load that faults, one that is refused, one that answers, also at the word; stores that do the same. -/
theorem witness_MemoryInstructionsEndAsTheirBusAccessEnds :
    [0x200000#32, 0x1F8010F0#32, 0x2000#32].all (fun a =>
      let s := addressed a usable
      let ea := effectiveAddress s 1 0
      decide (AlignedTo .half ea ∧ LoadReachesBus s ea ∧ StoreReachesBus s ea)) = true ∧
    ((Instr.lh 1 3 0, Size.half) ∈ loadForms 1 3 0 ∧ (Instr.sh 1 3 0, Size.half) ∈ storeForms 1 3 0) ∧
    (∀ f ∈ loadForms 1 3 0 ++ storeForms 1 3 0, Usable f.1 usable) ∧
    faults (busRead 0x200000 .half usable.plat) .unmappedRead = true ∧
    refuses (busRead 0x1F8010F0 .half usable.plat) .subwordDeviceAccess = true ∧
    yields (busRead 0x2000 .half usable.plat) (fun _ => true) = true ∧
    (mergeLoadForms 1 3 0).length = 2 ∧ (mergeStoreForms 1 3 0).length = 2 ∧
    faults (busRead (physical (wordBase 0x200003#32)) .word usable.plat) .unmappedRead = true ∧
    refuses (busRead (physical (wordBase 0x1F801103#32)) .word usable.plat) .subwordDeviceAccess = false := by
  decide +kernel

theorem witness_IsolatedStoresReachOnlyTheCache :
    [0x80002000#32, 0xA0002000#32, 0xFFFE0130#32].all (fun a =>
      let s := addressed a isolated
      let ea := effectiveAddress s 1 0
      decide (s.cacheIsolated = true ∧ ¬ Forbidden s ea ∧ AlignedTo .half ea ∧ AlignedTo .word ea ∧
        s.cop2Usable = true)) = true ∧
    cached (wordBase 0x80002001#32) = true ∧
    (cached (wordBase 0xA0002003#32) = false ∧ InStorage (physical (wordBase 0xA0002003#32))) ∧
    physical (wordBase 0xFFFE0133#32) = 0xFFFE0130 := by decide +kernel

theorem witness_IsolatedLoadsReadADraw :
    [0#32, 0x80002000#32, 0x9FFFFFFC#32].all (fun a =>
      let s := addressed a isolated
      let ea := effectiveAddress s 1 0
      decide (s.cacheIsolated = true ∧ ¬ Forbidden s ea ∧ cached ea = true ∧ AlignedTo .word ea)) = true ∧
    (∀ f ∈ loadForms 1 3 0, Usable f.1 isolated) ∧
    (mergeLoadForms 1 3 0).length = 2 ∧
    (cached 0xA0000000#32 = false ∧ cached 0xFFFFFFFF#32 = false) := by decide +kernel

theorem witness_PrivilegeRefusals :
    [0x80000000#32, 0xFFFFFFFC#32].all (fun a =>
      let s := addressed a { userState with status := 0x40000002#32 }
      decide (Forbidden s (effectiveAddress s 1 0) ∧ AlignedTo .word (effectiveAddress s 1 0) ∧
        ∀ f ∈ loadForms 1 3 0 ++ storeForms 1 3 0, Usable f.1 s)) = true ∧
    Instr.rfe ∈ [Instr.mfc0 1 2, .mtc0 1 2, .rfe] ∧
    Instr.swr 1 3 0 ∈ [Instr.lwl 1 3 0, .lwr 1 3 0, .swl 1 3 0, .swr 1 3 0] ∧
    (isCop2 (.cop2 0) = true ∧ isCop2 (.lwc2 1 3 0) = true) := by decide +kernel

theorem witness_LoadDelaySlotReadsOldOrNew :
    base.ldNow = none ∧ ({ base with ldNow := some ⟨3, 1#32, .whole⟩ } : State).ldNow = some ⟨3, 1#32, .whole⟩ ∧
    (3 : Reg) ≠ 4 := by decide +kernel

theorem witness_OnlyStoresChangeMemory :
    yields (exec (.addiu 0 1 5) base) (fun _ => true) = true ∧ storedTo base (.addiu 0 1 5) = none ∧
    yields (exec (.swl 1 2 3) (addressed 0x2000#32 base)) (fun _ => true) = true ∧
    storedTo (addressed 0x2000#32 base) (.swl 1 2 3) = some (0x2000#32, .word) ∧
    base.cacheIsolated = false ∧ ¬ StartsTransfer (physical 0x2000#32) := by
  unfold StartsTransfer
  decide +kernel

theorem witness_CoprocessorZeroMoves :
    base.userMode = false ∧ (withStatus 2#32 base).userMode = true ∧ (0#5 ∉ [12#5, 13#5, 14#5, 15#5] ∧ 11#5 ∉ [12#5, 13#5, 14#5, 15#5] ∧
      16#5 ∉ [12#5, 13#5, 14#5, 15#5]) ∧
    (withStatus 0x04#32 base).status = (enter .sys (withStatus 1#32 base)).status := by decide +kernel

theorem witness_CoprocessorTwoMovesAndTransfers :
    let s := addressed 0x2000#32 usable
    let ea := effectiveAddress s 1 0
    s.cop2Usable = true ∧ AlignedTo .word ea ∧ LoadReachesBus s ea ∧ InStorage (physical ea) ∧
      Memory.wf s.plat.mem = true ∧ StoreReachesBus s ea ∧ Writable (physical ea) ∧ (7 : Reg) ≠ 31#5 := by decide +kernel

/-- Unknown operations, RTPS, MVMVA with selectors 0, with others the engine accepts, and with some it does not. -/
theorem witness_CoprocessorTwoCommands :
    usable.cop2Usable = true ∧ (0x0080012#25).toNat / 8192 % 64 = 0 ∧
    (0x000003F#25).extractLsb' 0 6 = 0x3F#6 ∧ sampleEngine.operation 0x3E#6 = none ∧
    sampleEngine.operation 0x01#6 = some .rtps ∧ sampleEngine.operation 0x12#6 = some .mvmva ∧
    ((0x0060012#25).extractLsb' 13 6 ≠ 0#6 ∧ sampleEngine.acceptsSelectors ((0x0060012#25).extractLsb' 13 6) = true) ∧
    ((0x007E012#25).extractLsb' 13 6 ≠ 0#6 ∧ sampleEngine.acceptsSelectors ((0x007E012#25).extractLsb' 13 6) = false) := by
  decide +kernel

/-- RTPS, RTPT and MVMVA complete; a divide that overflows. -/
theorem witness_GteResultsSaturate :
    [(0x0080001#25, GteOperation.rtps), (0x0080030#25, .rtpt), (0x0080012#25, .mvmva)].all (fun c =>
      decide (c.1.extractLsb' 0 6 ≠ 0x3F#6 ∧ sampleEngine.operation (c.1.extractLsb' 0 6) = some c.2) &&
        yields (gteCommand sampleEngine c.1 saturating) fun _ => true) = true ∧
    2 * (1#16).toNat ≤ (2#16).toNat := by decide +kernel

theorem witness_InterruptAndTimerRegisters :
    (Size.byte.low 0xFFFFFF01#32).getLsbD 0 = true ∧ (Size.half.low 0x58#32).getLsbD 0 = false := by decide

/-- A timer that counts every cycle, below its target; timer 1 dividing, at the end of its period. -/
theorem witness_TimersCountAndReload :
    let p : Platform :=
      { base.plat with timers := base.plat.timers.set 0 { Timer.reset with mode := 0x408#13, count := 3#16, target := 3#16 } }
    ((p.timers[0]).prescaler < 2100 ∧ (p.timers[0]).mode.getLsbD 3 = true ∧
      (p.timers[0]).count.toNat ≤ (p.timers[0]).target.toNat) ∧
    (((dividing 2099).timers[1]).prescaler < 2100 ∧ ((dividing 2099).timers[1]).mode.extractLsb' 8 2 = 1#2 ∧
      ((dividing 2099).timers[1]).mode.getLsbD 3 = false) := by decide +kernel

/-- Timer 1 one cycle before the end of its period, which waits; at the end, which does not; pulse and toggle mode. -/
theorem witness_TimerInterruptsOnReaching :
    let at_ (n : Nat) : TimerStep := { timer := (dividing n).timers[1], iStat := 0#11, draws := 0 }
    ((1 < 3) ∧ (at_ 2098).timer.mode.getLsbD 8 = true ∧ (at_ 2098).timer.prescaler + 1 < 2100) ∧
    ¬ (at_ 2099).timer.prescaler + 1 < 2100 ∧ (at_ 2099).timer.mode.getLsbD 7 = false ∧
    (0x480#13).getLsbD 7 = true := by decide +kernel

/-- CHCR words that do not trigger and that do, on channels with no words, disabled, with sync mode 3 and 2. -/
theorem witness_DmaStartsAndRefusals :
    ¬ ((0x01000000#32).getLsbD 24 = true ∧ ((0x01000000#32).getLsbD 28 = true ∨ (0x01000000#32).extractLsb' 9 2 ≠ 0#2)) ∧
    ((0x11000002#32).getLsbD 24 = true ∧ (0x11000002#32).getLsbD 28 = true ∧ (base.plat.dma.channels[6]).size = 0) ∧
    base.plat.dma.dpcr.getLsbD (4 * 6 + 3) = false ∧
    ((0x01000600#32).getLsbD 24 = true ∧ (0x01000600#32).extractLsb' 9 2 = 3#2) ∧
    ((0x01000400#32).getLsbD 24 = true ∧ (0x01000400#32).extractLsb' 9 2 = 2#2 ∧ (0x01000400#32).getLsbD 0 = false) := by
  decide +kernel

/-- All channels enabled, each with MADR 0x100 and BCR 0x00020003. -/
def enabledDma : Platform :=
  { base.plat with
    dma := { base.plat.dma with
      dpcr := 0x0FEDCBA8#32, channels := Vector.replicate 7 { madr := 0x100#24, bcr := 0x00020003#32, chcr := 0#32 } } }

theorem witness_OrderingTableIsBuilt : TransferAdmitted 6 0x11000002#32 enabledDma ∧ Memory.wf enabledDma.mem = true := by
  decide +kernel

/-- The list of V-D6, and its first node alone, which is no whole list. -/
def listed : Platform :=
  setWords [(0x100, 0x03000200#32), (0x104, 0x02FF0000#32), (0x108, 0x00100015#32), (0x10C, 0x00020011#32),
    (0x200, 0x00FFFFFF#32)] enabledDma

theorem witness_LinkedListDeliversItsWordsInOrder :
    listWords listed maxListNodes 0x100#32 = some [0x02FF0000#32, 0x00100015#32, 0x00020011#32] ∧
    listWords listed 1 0x100#32 = none ∧
    (TransferAdmitted 2 0x01000401#32 listed ∧ (0x01000401#32).extractLsb' 9 2 = 2#2 ∧
      (0x01000401#32).getLsbD 0 = true) := by decide +kernel

/-- In memory of zeros the node at 0 is its own successor. -/
theorem witness_LongListsNeverEnd : ∀ fuel, listWords base.plat fuel 0#32 = none
  | 0 => rfl
  | fuel + 1 => by
    have h : dmaRead 0#32 base.plat = 0#32 := by decide +kernel
    have ih := witness_LongListsNeverEnd fuel
    unfold listWords
    rw [h]
    simpa using ih

/-- To the GPU, to a device, from a device; manual and in blocks. -/
theorem witness_BlockTransfersMoveWordsInOrder :
    (TransferAdmitted 2 0x11000001#32 enabledDma ∧ (0x11000001#32).getLsbD 0 = true) ∧
    (TransferAdmitted 4 0x01000201#32 enabledDma ∧ (0x01000201#32).getLsbD 0 = true) ∧
    (TransferAdmitted 3 0x11000002#32 enabledDma ∧ (0x11000002#32).getLsbD 0 = false) :=
  ⟨by decide +kernel, by decide +kernel, by decide +kernel⟩

theorem witness_BlockTransfersMoveWordsInOrder_sync :
    (0x11000001#32).extractLsb' 9 2 = 0#2 ∧ (0x01000201#32).extractLsb' 9 2 = 1#2 := by decide

/-- A rectangle that wraps: its corners, and a cell outside. -/
theorem witness_FillWritesItsRectangle :
    Sparse.wf base.plat.gpu.vram = true ∧ (0 < 1024 ∧ 511 < 512) ∧
    (let g := { base.plat.gpu with fifo := [0x02000000#32, 0#32] }
     g.transfer.mode ≠ .write ∧ g.fifo = [0x02000000#32, 0#32] ∧ (0x02000000#32).toNat / 0x1000000 = 2) ∧
    InRectangle 1008 511 32 2 1008 511 ∧
    InRectangle 1008 511 32 2 15 0 ∧ ¬ InRectangle 1008 511 32 2 16 0 := by
  refine ⟨rfl, by decide, by decide +kernel, ⟨0, 0, by decide⟩, ⟨31, 1, by decide⟩, ?_⟩
  rintro ⟨i, j, hi, hj, hx, hy⟩
  omega

theorem witness_VramWriteThenReadReturnsThePixels :
    Sparse.wf base.plat.gpu.vram = true ∧
    [1#16, 2#16, 3#16].length = sizeWidth 0x00010003#32 * sizeHeight 0x00010003#32 ∧
    ∀ i j, i < sizeWidth 0x00010003#32 → j < sizeHeight 0x00010003#32 →
      cellKey (positionX 0x00200010#32 + i) (positionY 0x00200010#32 + j) ≠ cellKey 19 32 := by
  have hw : sizeWidth 0x00010003#32 = 3 := by decide
  have hh : sizeHeight 0x00010003#32 = 1 := by decide
  refine ⟨rfl, by decide, fun i j hi hj => ?_⟩
  rw [hw] at hi
  rw [hh] at hj
  interval_cases i <;> interval_cases j <;> decide

/-- The invariant holds in a state that runs a program. -/
theorem placed_inv : Safety.Inv (placed 0x24010005#32 base) where
  zero := by decide +kernel
  cause := by decide +kernel
  mfAge := by decide +kernel
  platform :=
    { memory := by decide +kernel
      storage := by decide +kernel
      gpu := ⟨by decide +kernel, by decide +kernel, by decide +kernel, by decide +kernel⟩
      timers := by decide +kernel
      chcr := by decide +kernel
      irq := by decide +kernel }

/-- The words of a write and of a read of three cells, and a read under way. -/
theorem witness_VramWriteThenReadReturnsThePixels_words :
    [0x00020001#32, 0x00000003#32].length = (sizeWidth 0x00010003#32 * sizeHeight 0x00010003#32 + 1) / 2 ∧
    (0xA0000000#32).toNat / 0x1000000 = 0xA0 ∧ (0xC0FFFFFF#32).toNat / 0x1000000 = 0xC0 ∧
    base.plat.gpu.transfer.mode ≠ .write ∧
    (let q : Platform := { base.plat with gpu := { base.plat.gpu with transfer := startTransfer .read 0#32 0x00010003#32 } }
     q.gpu.transfer = startTransfer .read 0#32 0x00010003#32) := by decide +kernel

theorem witness_CommandFifoNeverOverflows :
    Safety.Inv (placed 0x24010005#32 base) ∧ Reaches (placed 0x24010005#32 base) (placed 0x24010005#32 base) :=
  ⟨placed_inv, .start⟩

theorem witness_TriangleFragmentsObeyTheirLaws :
    let v (x y : Int) : Vertex := { x := x, y := y, r := 0, g := 0, b := 0, u := 0, v := 0 }
    ((v 2 2).x - (v 0 0).x) * ((v 5 5).y - (v 0 0).y) = ((v 2 2).y - (v 0 0).y) * ((v 5 5).x - (v 0 0).x) := by decide

/-- A GPU with a drawing area, both mask bits, and a masked cell; an 8 × 8 rectangle and a polygon with no area. -/
def maskedGpu : Gpu :=
  { base.plat.gpu.setCell 4 4 0x8000#16 with
    draw := { base.plat.gpu.draw with area := ⟨0, 0, 63, 479⟩, setMask := true, checkMask := true } }

theorem witness_DrawingRespectsAreaAndMask :
    Sparse.wf maskedGpu.vram = true ∧
    yields (drawRectangle ⟨1, false, false, false⟩ [0x60FF0000#32, 0x00030003#32] maskedGpu)
      (fun g => g.cell 3 3 != maskedGpu.cell 3 3) = true ∧
    yields (drawPolygon ⟨false, false, false, false, false⟩ [0x20FF0000#32, 0#32, 0#32, 0#32] maskedGpu)
      (fun _ => true) = true ∧
    ¬ (maskedGpu.draw.area.x1.toNat ≤ 64 ∧ 64 ≤ maskedGpu.draw.area.x2.toNat) ∧
    (maskedGpu.draw.checkMask = true ∧ (maskedGpu.cell 4 4).getLsbD 15 = true) ∧ maskedGpu.draw.setMask = true := by
  decide +kernel

theorem witness_GpuStatusAndControl :
    (0x00FFFFFF#32).toNat / 0x1000000 = 0 ∧ (0x01000000#32).toNat / 0x1000000 = 1 ∧
    2 ≤ (0x02000000#32).toNat / 0x1000000 ∧ 2 ≤ (0xFFFFFFFF#32).toNat / 0x1000000 := by decide

theorem witness_EveryStepKeepsTheInvariant :
    Safety.Inv (placed 0x24010005#32 base) ∧ yields (stepWith quiet (placed 0x24010005#32 base)) (fun _ => true) = true :=
  ⟨placed_inv, by decide +kernel⟩

theorem witness_UserModeEndsOnlyByException :
    (placed 0x0000000C#32 userState).userMode = true ∧
    yields (stepWith quiet (placed 0x0000000C#32 userState)) (fun t => !t.userMode) = true := by decide +kernel

theorem witness_RomNeverChanges :
    yields (stepWith quiet (placed 0xAC220000#32 (addressed 0xBFC00000#32 base))) (fun _ => true) = true ∧
    InBios 0x1FC00000 ∧ InBios 0x1FC7FFFF := by decide +kernel

end Sys2Proof.Tests
end

section
/-! Proofs of the family "memory": translation (O24), and fetch through the instruction cache (O6). -/

namespace Sys2Proof.Machine

open Sys2Proof.Safety

/-! ## Translation -/

/-- Settles O24: the segment is the top three bits of the address. -/
theorem segmentsTranslateByFixedMasks : Obligations.SegmentsTranslateByFixedMasks :=
  fun va => ⟨physical_eq va, cached_iff va⟩

/-! ## Lines of the instruction cache -/

@[simp] theorem State.line_setLine_same (s : State) (i : BitVec 8) (l : CacheLine) : (s.setLine i l).line i = l := by
  simp [State.line]

theorem State.line_setLine_of_ne (s : State) {i j : BitVec 8} (l : CacheLine) (h : j ≠ i) :
    (s.setLine i l).line j = s.line j := by
  have hij : i.toNat ≠ j.toNat := fun e => h (BitVec.eq_of_toNat_eq e.symm)
  simp [State.line, hij]

theorem State.hits_iff (s : State) (va : Word) : s.hits va = true ↔ Hits s va := by
  unfold State.hits Hits lineIndex lineTag; simp

/-- Bits [3:2] of the address number the word within its line (R38). -/
theorem CacheLine.wordAt_eq (l : CacheLine) {va : Word} (k : Fin 4) (h : (va.extractLsb' 2 2).toNat = k.val) :
    l.wordAt va = l.data[k] := by
  have hk : va.extractLsb' 2 2 = BitVec.ofNat 2 k.val := by rw [← h, BitVec.ofNat_toNat, BitVec.setWidth_eq]
  unfold CacheLine.wordAt
  rw [hk]
  fin_cases k <;> rfl

theorem toNat_wordInLine (va : Word) : (va.extractLsb' 2 2).toNat = va.toNat / 4 % 4 := by
  rw [BitVec.extractLsb'_toNat, Nat.shiftRight_eq_div_pow]

/-- The mask of R92 rounds down to the 16-byte block. -/
theorem toNat_blockBase (pa : Word) : (pa &&& 0xFFFFFFF0#32).toNat = pa.toNat / 16 * 16 := by
  have h : pa &&& 0xFFFFFFF0#32 = (pa >>> 4) <<< 4 := by
    apply BitVec.eq_of_getLsbD_eq; intro k hk
    interval_cases k <;> simp
  have := pa.isLt
  rw [h, BitVec.toNat_shiftLeft, BitVec.toNat_ushiftRight, Nat.shiftRight_eq_div_pow, Nat.shiftLeft_eq]
  omega

/-! ## The fill of a line (R92) -/

/-- Instruction fetch is admitted from RAM and BIOS (R67). -/
abbrev Fetchable (pa : Nat) : Prop := InRam pa ∨ InBios pa

/-- Word `k` of the block that a fill reads. -/
theorem toNat_blockWord (va : Word) {k : Nat} (h : k < 4) :
    ((translate va &&& 0xFFFFFFF0#32) + BitVec.ofNat 32 (4 * k)).toNat = physical va / 16 * 16 + 4 * k := by
  have := (translate va).isLt
  rw [BitVec.toNat_add, BitVec.toNat_ofNat, toNat_blockBase]
  unfold physical
  omega

/-- RAM and BIOS consist of whole blocks. -/
theorem fetchable_block (pa : Nat) {k : Nat} (h : k < 4) : Fetchable (pa / 16 * 16 + 4 * k) ↔ Fetchable pa := by
  unfold Fetchable InRam InBios; omega

theorem fetchBus_blockWord {va : Word} (s : State) (hf : Fetchable (physical va)) {k : Nat} (h : k < 4) :
    fetchBus ((translate va &&& 0xFFFFFFF0#32) + BitVec.ofNat 32 (4 * k)) s =
      .next (s.plat.mem.read (physical va / 16 * 16 + 4 * k) .word) := by
  rw [fetchBus_of_fetchable, toNat_blockWord va h]
  rw [toNat_blockWord va h]; exact (fetchable_block _ h).mpr hf

/-- The block of a fetchable address fills a line: valid, tagged, with the four words in order. -/
theorem filledLine_of_fetchable {va : Word} (s : State) (hf : Fetchable (physical va)) :
    ∃ l, filledLine va s = .next l ∧ l.valid = true ∧ l.tag = va.extractLsb' 12 19 ∧
      ∀ k : Fin 4, l.data[k] = s.plat.mem.read (physical va / 16 * 16 + 4 * k.val) .word := by
  have h0 := fetchBus_blockWord s hf (k := 0) (by decide)
  have h1 := fetchBus_blockWord s hf (k := 1) (by decide)
  have h2 := fetchBus_blockWord s hf (k := 2) (by decide)
  have h3 := fetchBus_blockWord s hf (k := 3) (by decide)
  rw [Nat.mul_zero, BitVec.add_zero] at h0
  unfold filledLine
  simp only [h0, h1, h2, h3, andThen_next]
  exact ⟨_, rfl, rfl, rfl, fun k => by fin_cases k <;> rfl⟩

theorem filledLine_of_not_fetchable {va : Word} (s : State) (hf : ¬ Fetchable (physical va)) :
    filledLine va s = .refused .fetchOutsideMemory := by
  have hb : ¬ Fetchable (translate va &&& 0xFFFFFFF0#32).toNat := by
    rw [toNat_blockBase]; exact mt (fetchable_block (physical va) (k := 0) (by decide)).mp hf
  unfold filledLine
  dsimp only
  rw [fetchBus_of_not hb, andThen_refused]

/-- The word of the block that an aligned address selects is the word at the address. -/
theorem blockWord_selected {va : Word} (h : va.toNat % 4 = 0) :
    physical va / 16 * 16 + 4 * (va.extractLsb' 2 2).toNat = physical va := by
  have := physical_mod va (m := 16) (by decide)
  rw [toNat_wordInLine]; omega

/-! ## The three ways of a fetch (R90, R91, R92) -/

/-- A fetch consults the cache: the latch is set and the segment is cached (R90). -/
abbrev ThroughCache (s : State) (va : Word) : Prop := s.plat.ccr.getLsbD 11 = true ∧ va.toNat < 0xA0000000

section
variable {s : State} {va : Word}

theorem throughCache_iff : (s.cacheEnabled && cached va) = true ↔ ThroughCache s va := by
  rw [ThroughCache, Bool.and_eq_true, cached_iff, State.cacheEnabled]

theorem fetch_uncached (ha : ¬ Forbidden s va) (hc : ¬ ThroughCache s va) :
    fetch va s = mapNext (fun w => (w, s)) (fetchBus (translate va) s) := by
  unfold fetch
  rw [forbids_false ha, if_neg Bool.false_ne_true, if_neg (mt throughCache_iff.mp hc)]

theorem fetch_hit (ha : ¬ Forbidden s va) (hc : ThroughCache s va) (hh : Hits s va) :
    fetch va s = .next ((s.line (va.extractLsb' 4 8)).wordAt va, s) := by
  unfold fetch
  rw [forbids_false ha, if_neg Bool.false_ne_true, if_pos (throughCache_iff.mpr hc), if_pos ((s.hits_iff va).mpr hh)]
  rfl

theorem fetch_miss (ha : ¬ Forbidden s va) (hc : ThroughCache s va) (hh : ¬ Hits s va) :
    fetch va s = mapNext (fun l => (l.wordAt va, s.setLine (va.extractLsb' 4 8) l)) (filledLine va s) := by
  unfold fetch
  rw [forbids_false ha, if_neg Bool.false_ne_true, if_pos (throughCache_iff.mpr hc),
    if_neg (mt (s.hits_iff va).mp hh)]
  rfl

/-- Neither the bus nor a fill reads outside RAM and BIOS (R67). -/
theorem fetch_refused (ha : ¬ Forbidden s va) (hh : ¬ (ThroughCache s va ∧ Hits s va))
    (hf : ¬ Fetchable (physical va)) : fetch va s = .refused .fetchOutsideMemory := by
  by_cases hc : ThroughCache s va
  · rw [fetch_miss ha hc fun h => hh ⟨hc, h⟩, filledLine_of_not_fetchable s hf, mapNext_refused]
  · rw [fetch_uncached ha hc, fetchBus_of_not hf, mapNext_refused]

end

/-- Settles O6: a fetch goes past the cache, hits, or fills the line of its block. -/
theorem fetchGoesThroughTheCache : Obligations.FetchGoesThroughTheCache := by
  intro s va ha hal on fetchable
  refine ⟨fun hc hf => ?uncached, fetch_refused ha, fun hc hh => ?hit, fun hc hh hf => ?miss⟩
  case uncached => rw [fetch_uncached ha hc, fetchBus_of_fetchable hf]; rfl
  case hit => exact ⟨_, fetch_hit ha hc hh, fun k hk => CacheLine.wordAt_eq _ k hk⟩
  case miss =>
    obtain ⟨l, hl, hvalid, htag, hdata⟩ := filledLine_of_fetchable s hf
    have hword : l.wordAt va = s.plat.mem.read (physical va) .word := by
      rw [l.wordAt_eq (va.extractLsb' 2 2).toFin rfl, hdata, BitVec.val_toFin, blockWord_selected hal]
    refine ⟨s.setLine (va.extractLsb' 4 8) l, ?_, rfl, ?_, ?_, fun j hj => s.line_setLine_of_ne l hj⟩
    · rw [fetch_miss ha hc hh, hl, mapNext_next, hword]
    · unfold Hits; rw [State.line_setLine_same]; exact ⟨hvalid, htag⟩
    · rw [State.line_setLine_same]; exact hdata

end Sys2Proof.Machine
end

section
/-! Proofs of the family "encoding": the illegal words (O3), and the fields an instruction ignores (O2). -/

namespace Sys2Proof

open Sys2Proof.Machine Sys2Proof.Safety

/-! ## The fields of any word, as numbers (R110) -/

section
variable (w : Word)

theorem toNat_opField : (opField w).toNat = w.toNat / 0x4000000 := by
  have := w.isLt
  rw [opField, BitVec.extractLsb'_toNat, Nat.shiftRight_eq_div_pow]; omega

theorem toNat_rsField : (rsField w).toNat = w.toNat / 0x200000 % 32 := by
  rw [rsField, BitVec.extractLsb'_toNat, Nat.shiftRight_eq_div_pow]

theorem toNat_rtField : (rtField w).toNat = w.toNat / 0x10000 % 32 := by
  rw [rtField, BitVec.extractLsb'_toNat, Nat.shiftRight_eq_div_pow]

theorem toNat_rdField : (rdField w).toNat = w.toNat / 0x800 % 32 := by
  rw [rdField, BitVec.extractLsb'_toNat, Nat.shiftRight_eq_div_pow]

theorem toNat_shamtField : (shamtField w).toNat = w.toNat / 0x40 % 32 := by
  rw [shamtField, BitVec.extractLsb'_toNat, Nat.shiftRight_eq_div_pow]

theorem toNat_functField : (functField w).toNat = w.toNat % 64 := by
  rw [functField, BitVec.extractLsb'_toNat, Nat.shiftRight_zero]

theorem toNat_imm16Field : (imm16Field w).toNat = w.toNat % 0x10000 := by
  rw [imm16Field, BitVec.extractLsb'_toNat, Nat.shiftRight_zero]

theorem toNat_target26Field : (target26Field w).toNat = w.toNat % 0x4000000 := by
  rw [target26Field, BitVec.extractLsb'_toNat, Nat.shiftRight_zero]

theorem toNat_imm25Field : (imm25Field w).toNat = w.toNat % 0x2000000 := by
  rw [imm25Field, BitVec.extractLsb'_toNat, Nat.shiftRight_zero]

end

/-- The coprocessors' sub-opcodes with rs[4] = 1 are those from 16 on (R117, R118). -/
theorem getLsbD_four_iff (r : Reg) : r.getLsbD 4 = true ↔ 16 ≤ r.toNat := by
  revert r; decide

/-! ## The illegal encodings (R122) -/

/-- The first item of R122. -/
abbrev IllegalOp (op : Nat) : Prop :=
  op = 0x11 ∨ op = 0x13 ∨ (0x14 ≤ op ∧ op ≤ 0x1F) ∨ op = 0x27 ∨ op = 0x2C ∨ op = 0x2D ∨ op = 0x2F ∨ op = 0x30 ∨
    op = 0x31 ∨ (0x33 ≤ op ∧ op ≤ 0x39) ∨ (0x3B ≤ op ∧ op ≤ 0x3F)

/-- The second item of R122. -/
abbrev IllegalFunct (funct : Nat) : Prop :=
  funct = 0x01 ∨ funct = 0x05 ∨ funct = 0x0A ∨ funct = 0x0B ∨ funct = 0x0E ∨ funct = 0x0F ∨
    (0x14 ≤ funct ∧ funct ≤ 0x17) ∨ (0x1C ≤ funct ∧ funct ≤ 0x1F) ∨ funct = 0x28 ∨ funct = 0x29 ∨
    (0x2C ≤ funct ∧ funct ≤ 0x3F)

/-- The third item of R122. -/
abbrev IllegalCop0 (rs funct : Nat) : Prop :=
  (0x01 ≤ rs ∧ rs ≤ 0x03) ∨ (0x05 ≤ rs ∧ rs ≤ 0x0F) ∨ (0x10 ≤ rs ∧ rs ≤ 0x1F ∧ funct ≠ 0x10)

/-- The fourth item of R122. -/
abbrev IllegalCop2 (rs : Nat) : Prop := rs = 0x01 ∨ rs = 0x03 ∨ rs = 0x05 ∨ (0x07 ≤ rs ∧ rs ≤ 0x0F)

section
variable (w : Word)

/-- `Illegal` speaks of the fields that the decoder reads. -/
theorem illegal_iff : Illegal w ↔ IllegalOp (opField w).toNat ∨
    ((opField w).toNat = 0x00 ∧ IllegalFunct (functField w).toNat) ∨
    ((opField w).toNat = 0x10 ∧ IllegalCop0 (rsField w).toNat (functField w).toNat) ∨
    ((opField w).toNat = 0x12 ∧ IllegalCop2 (rsField w).toNat) := by
  rw [toNat_opField, toNat_rsField, toNat_functField]; rfl

/-- The last arm answers exactly the function codes that no row names. -/
theorem decodeSpecial_error_iff : (∃ e, decodeSpecial w = .error e) ↔ IllegalFunct (functField w).toNat := by
  unfold decodeSpecial
  split
  case h_29 =>
    have := (functField w).isLt
    refine iff_of_true ⟨_, rfl⟩ ?_
    simp only [imp_false, ← BitVec.toNat_inj, BitVec.reduceToNat] at *
    unfold IllegalFunct; omega
  all_goals rename_i hf; simp [hf]

theorem decodeBcond_ok : ∃ i, decodeBcond w = .ok i := by
  unfold decodeBcond
  split
  · exact ⟨_, rfl⟩
  · exact ⟨_, rfl⟩
  · split <;> exact ⟨_, rfl⟩

theorem decodeCop0_error_iff :
    (∃ e, decodeCop0 w = .error e) ↔ IllegalCop0 (rsField w).toNat (functField w).toNat := by
  unfold decodeCop0
  split
  case h_1 hrs => simp [hrs]
  case h_2 hrs => simp [hrs]
  case h_3 h0 h4 =>
    have := (rsField w).isLt
    simp only [imp_false, Bool.and_eq_true, beq_iff_eq, getLsbD_four_iff, ← BitVec.toNat_inj,
      BitVec.reduceToNat] at *
    split
    case isTrue h => exact iff_of_false nofun (by omega)
    case isFalse h => exact iff_of_true ⟨_, rfl⟩ (by unfold IllegalCop0; omega)

theorem decodeCop2_error_iff : (∃ e, decodeCop2 w = .error e) ↔ IllegalCop2 (rsField w).toNat := by
  unfold decodeCop2
  split
  case h_5 =>
    simp only [imp_false, getLsbD_four_iff, ← BitVec.toNat_inj, BitVec.reduceToNat] at *
    split
    case isTrue h => exact iff_of_false nofun (by omega)
    case isFalse h => exact iff_of_true ⟨_, rfl⟩ (by unfold IllegalCop2; omega)
  all_goals rename_i hrs; simp [hrs]

theorem decode_error_iff : (∃ e, decode w = .error e) ↔ Illegal w := by
  rw [illegal_iff]
  unfold decode
  split
  case h_1 hop => simp [hop, decodeSpecial_error_iff]
  case h_2 hop => obtain ⟨i, hi⟩ := decodeBcond_ok w; simp [hop, hi]
  case h_17 hop => simp [hop, decodeCop0_error_iff]
  case h_18 hop => simp [hop, decodeCop2_error_iff]
  case h_33 =>
    have := (opField w).isLt
    refine iff_of_true ⟨_, rfl⟩ (.inl ?_)
    simp only [imp_false, ← BitVec.toNat_inj, BitVec.reduceToNat] at *
    unfold IllegalOp; omega
  all_goals rename_i hop; simp [hop]

end

/-- Settles O3: the decoder's last arms answer what R122 lists, and a word without an instruction enters RI. -/
theorem illegalWordsRaiseReservedInstruction : Obligations.IllegalWordsRaiseReservedInstruction := by
  refine fun w => ⟨decode_error_iff w, fun h s => ?_⟩
  obtain ⟨e, he⟩ := (decode_error_iff w).mpr h
  exact ⟨enter .ri s, entered_enter .ri s, executeWord_of_error he s⟩

/-! ## A word is its fields (R111) -/

section
variable {u v : Word}

theorem eq_iff_fieldsI : u = v ↔ opField u = opField v ∧ rsField u = rsField v ∧ rtField u = rtField v ∧
    imm16Field u = imm16Field v := by
  simp only [← BitVec.toNat_inj, toNat_opField, toNat_rsField, toNat_rtField, toNat_imm16Field]
  omega

theorem imm16Field_eq_iff : imm16Field u = imm16Field v ↔
    rdField u = rdField v ∧ shamtField u = shamtField v ∧ functField u = functField v := by
  simp only [← BitVec.toNat_inj, toNat_rdField, toNat_shamtField, toNat_functField, toNat_imm16Field]
  omega

theorem eq_iff_fieldsR : u = v ↔ opField u = opField v ∧ rsField u = rsField v ∧ rtField u = rtField v ∧
    rdField u = rdField v ∧ shamtField u = shamtField v ∧ functField u = functField v := by
  rw [eq_iff_fieldsI, imm16Field_eq_iff]

theorem eq_iff_fieldsJ : u = v ↔ opField u = opField v ∧ target26Field u = target26Field v := by
  simp only [← BitVec.toNat_inj, toNat_opField, toNat_target26Field]
  omega

@[simp] theorem eq_formatI_iff {op : BitVec 6} {rs rt : Reg} {imm : BitVec 16} : u = formatI op rs rt imm ↔
    opField u = op ∧ rsField u = rs ∧ rtField u = rt ∧ imm16Field u = imm := by
  rw [eq_iff_fieldsI, opField_formatI, rsField_formatI, rtField_formatI, imm16Field_formatI]

@[simp] theorem eq_formatJ_iff {op : BitVec 6} {target : BitVec 26} : u = formatJ op target ↔
    opField u = op ∧ target26Field u = target := by
  rw [eq_iff_fieldsJ, opField_formatJ, target26Field_formatJ]

theorem getLsbD_four_rsField_formatCommand (c : BitVec 25) : (rsField (formatCommand c)).getLsbD 4 = true := by
  rw [rsField, BitVec.getLsbD_extractLsb', getLsbD_formatCommand]; rfl

theorem eq_formatCommand_iff {c : BitVec 25} : u = formatCommand c ↔
    opField u = 0x12#6 ∧ (rsField u).getLsbD 4 = true ∧ imm25Field u = c := by
  have hbit := getLsbD_four_rsField_formatCommand c
  refine ⟨fun h => h ▸ ⟨opField_formatCommand c, hbit, imm25Field_formatCommand c⟩, fun ⟨hop, hrs, hc⟩ => ?_⟩
  rw [← opField_formatCommand c] at hop
  rw [← imm25Field_formatCommand c] at hc
  simp only [getLsbD_four_iff, ← BitVec.toNat_inj, toNat_opField, toNat_rsField, toNat_imm25Field] at *
  omega

end

/-! ## Words that agree on the used bits (R123)

For each mask of `usedBits`, the fields on which words that agree under it agree. -/

section
variable {u v : Word}

theorem and_31 (x : BitVec 5) : x &&& 31#5 = x := BitVec.and_allOnes
theorem and_63 (x : BitVec 6) : x &&& 63#6 = x := BitVec.and_allOnes
theorem and_65535 (x : BitVec 16) : x &&& 65535#16 = x := BitVec.and_allOnes

theorem and_16_eq_iff (x y : BitVec 5) : x &&& 16#5 = y &&& 16#5 ↔ x.getLsbD 4 = y.getLsbD 4 := by
  revert x y; decide

theorem agree_iff_fieldsI (m : Word) : u &&& m = v &&& m ↔
    opField u &&& opField m = opField v &&& opField m ∧ rsField u &&& rsField m = rsField v &&& rsField m ∧
    rtField u &&& rtField m = rtField v &&& rtField m ∧
    imm16Field u &&& imm16Field m = imm16Field v &&& imm16Field m := by
  unfold opField rsField rtField imm16Field
  simp only [← BitVec.extractLsb'_and]; exact eq_iff_fieldsI

theorem agree_iff_fieldsR (m : Word) : u &&& m = v &&& m ↔
    opField u &&& opField m = opField v &&& opField m ∧ rsField u &&& rsField m = rsField v &&& rsField m ∧
    rtField u &&& rtField m = rtField v &&& rtField m ∧ rdField u &&& rdField m = rdField v &&& rdField m ∧
    shamtField u &&& shamtField m = shamtField v &&& shamtField m ∧
    functField u &&& functField m = functField v &&& functField m := by
  unfold opField rsField rtField rdField shamtField functField
  simp only [← BitVec.extractLsb'_and]; exact eq_iff_fieldsR

@[simp] theorem agree_all : u &&& 0xFFFFFFFF#32 = v &&& 0xFFFFFFFF#32 ↔ u = v := by
  rw [show 0xFFFFFFFF#32 = BitVec.allOnes 32 from rfl, BitVec.and_allOnes, BitVec.and_allOnes]

@[simp] theorem agree_op_rt_imm16 : u &&& 0xFC1FFFFF#32 = v &&& 0xFC1FFFFF#32 ↔
    opField u = opField v ∧ rtField u = rtField v ∧ imm16Field u = imm16Field v := by
  simp [agree_iff_fieldsI, and_31, and_63, and_65535, opField, rsField, rtField, imm16Field]

@[simp] theorem agree_op_rs_imm16 : u &&& 0xFFE0FFFF#32 = v &&& 0xFFE0FFFF#32 ↔
    opField u = opField v ∧ rsField u = rsField v ∧ imm16Field u = imm16Field v := by
  simp [agree_iff_fieldsI, and_31, and_63, and_65535, opField, rsField, rtField, imm16Field]

@[simp] theorem agree_op_rs_rt_rd_funct : u &&& 0xFFFFF83F#32 = v &&& 0xFFFFF83F#32 ↔
    opField u = opField v ∧ rsField u = rsField v ∧ rtField u = rtField v ∧ rdField u = rdField v ∧
    functField u = functField v := by
  simp [agree_iff_fieldsR, and_31, and_63, opField, rsField, rtField, rdField, shamtField, functField]

@[simp] theorem agree_op_rs_rt_funct : u &&& 0xFFFF003F#32 = v &&& 0xFFFF003F#32 ↔
    opField u = opField v ∧ rsField u = rsField v ∧ rtField u = rtField v ∧ functField u = functField v := by
  simp [agree_iff_fieldsR, and_31, and_63, opField, rsField, rtField, rdField, shamtField, functField]

@[simp] theorem agree_op_rs_rd_funct : u &&& 0xFFE0F83F#32 = v &&& 0xFFE0F83F#32 ↔
    opField u = opField v ∧ rsField u = rsField v ∧ rdField u = rdField v ∧ functField u = functField v := by
  simp [agree_iff_fieldsR, and_31, and_63, opField, rsField, rtField, rdField, shamtField, functField]

@[simp] theorem agree_op_rs_funct : u &&& 0xFFE0003F#32 = v &&& 0xFFE0003F#32 ↔
    opField u = opField v ∧ rsField u = rsField v ∧ functField u = functField v := by
  simp [agree_iff_fieldsR, and_31, and_63, opField, rsField, rtField, rdField, shamtField, functField]

@[simp] theorem agree_op_rd_funct : u &&& 0xFC00F83F#32 = v &&& 0xFC00F83F#32 ↔
    opField u = opField v ∧ rdField u = rdField v ∧ functField u = functField v := by
  simp [agree_iff_fieldsR, and_31, and_63, opField, rsField, rtField, rdField, shamtField, functField]

@[simp] theorem agree_op_funct : u &&& 0xFC00003F#32 = v &&& 0xFC00003F#32 ↔
    opField u = opField v ∧ functField u = functField v := by
  simp [agree_iff_fieldsR, and_63, opField, rsField, rtField, rdField, shamtField, functField]

@[simp] theorem agree_op_rs_rt_rd : u &&& 0xFFFFF800#32 = v &&& 0xFFFFF800#32 ↔
    opField u = opField v ∧ rsField u = rsField v ∧ rtField u = rtField v ∧ rdField u = rdField v := by
  simp [agree_iff_fieldsR, and_31, and_63, opField, rsField, rtField, rdField, shamtField, functField]

theorem agree_op_rs4_funct : u &&& 0xFE00003F#32 = v &&& 0xFE00003F#32 ↔
    opField u = opField v ∧ (rsField u).getLsbD 4 = (rsField v).getLsbD 4 ∧ functField u = functField v := by
  rw [← and_16_eq_iff]
  simp [agree_iff_fieldsR, and_63, opField, rsField, rtField, rdField, shamtField, functField]

end

/-! ## The default arms of the sub-decoders -/

theorem selField_eq (w : Word) : selField w = (rtField w).extractLsb' 1 4 := by
  apply BitVec.eq_of_getLsbD_eq
  intro k hk
  simp only [selField, rtField, BitVec.getLsbD_extractLsb', decide_eq_true hk, Bool.true_and]
  rw [decide_eq_true (by omega), Bool.true_and, ← Nat.add_assoc]

section
variable {w : Word}

theorem rtField_eq_selector_iff {sel : BitVec 4} {c : Bool} :
    rtField w = sel ++ BitVec.ofBool c ↔ selField w = sel ∧ (rtField w).getLsbD 0 = c := by
  rw [selField_eq]
  generalize rtField w = rt
  revert rt sel c; decide

theorem selField_eq_link_iff : selField w = 0b1000#4 ↔ rtField w = 0x10#5 ∨ rtField w = 0x11#5 := by
  rw [selField_eq]
  generalize rtField w = rt
  revert rt; decide

theorem decodeBcond_of_not_link (h : selField w ≠ 0b1000#4) : decodeBcond w =
    if (rtField w).getLsbD 0 then .ok (.bgez (rsField w) (selField w) (imm16Field w))
    else .ok (.bltz (rsField w) (selField w) (imm16Field w)) := by
  unfold decodeBcond
  split
  case h_1 hrt => exact absurd (selField_eq_link_iff.mpr (.inl hrt)) h
  case h_2 hrt => exact absurd (selField_eq_link_iff.mpr (.inr hrt)) h
  case h_3 => rfl

theorem decodeCop0_rfe (hrs : (rsField w).getLsbD 4 = true) (hf : functField w = 0x10#6) :
    decodeCop0 w = .ok .rfe := by
  unfold decodeCop0
  split
  case h_1 h => rw [h] at hrs; cases hrs
  case h_2 h => rw [h] at hrs; cases hrs
  case h_3 => rw [hrs, hf]; rfl

theorem decodeCop2_command (hrs : (rsField w).getLsbD 4 = true) : decodeCop2 w = .ok (.cop2 (imm25Field w)) := by
  unfold decodeCop2
  split
  case h_5 => rw [if_pos hrs]
  all_goals rename_i h; rw [h] at hrs; cases hrs

end

/-! ## The decoder reads the used bits, and no others (R123) -/

/-- The word holds every bit that the instruction uses. -/
def HoldsUsedBits (w : Word) (i : Instr) : Prop := w &&& usedBits i = encode i &&& usedBits i

section
variable {w : Word} {i : Instr}

theorem decodeSpecial_holdsUsedBits (hop : opField w = 0x00#6) (h : decodeSpecial w = .ok i) :
    i.wf = true ∧ HoldsUsedBits w i := by
  unfold decodeSpecial at h
  split at h <;> cases h
  all_goals rename_i hf; exact ⟨rfl, by simp [HoldsUsedBits, usedBits, encode, hop, hf, imm16Field_eq_iff]⟩

theorem decodeBcond_holdsUsedBits (hop : opField w = 0x01#6) (h : decodeBcond w = .ok i) :
    i.wf = true ∧ HoldsUsedBits w i := by
  by_cases hsel : selField w = 0b1000#4
  case pos =>
    rcases selField_eq_link_iff.mp hsel with hrt | hrt
    all_goals
      simp only [decodeBcond, hrt] at h
      cases h
      exact ⟨rfl, agree_all.mpr (eq_formatI_iff.mpr ⟨hop, rfl, hrt, rfl⟩)⟩
  case neg =>
    rw [decodeBcond_of_not_link hsel] at h
    split at h <;> cases h
    all_goals refine ⟨bne_iff_ne.mpr hsel, agree_all.mpr (eq_formatI_iff.mpr ⟨hop, rfl, ?_, rfl⟩)⟩
    case isTrue hc => exact rtField_eq_selector_iff.mpr ⟨rfl, hc⟩
    case isFalse hc => exact rtField_eq_selector_iff.mpr ⟨rfl, eq_false_of_ne_true hc⟩

theorem decodeCop0_holdsUsedBits (hop : opField w = 0x10#6) (h : decodeCop0 w = .ok i) :
    i.wf = true ∧ HoldsUsedBits w i := by
  unfold decodeCop0 at h
  split at h
  case h_3 =>
    split at h <;> cases h
    case isTrue hf =>
      rw [Bool.and_eq_true, beq_iff_eq] at hf
      exact ⟨rfl, agree_op_rs4_funct.mpr ⟨hop, hf⟩⟩
  all_goals cases h; rename_i hrs; exact ⟨rfl, by simp [HoldsUsedBits, usedBits, encode, hop, hrs]⟩

theorem decodeCop2_holdsUsedBits (hop : opField w = 0x12#6) (h : decodeCop2 w = .ok i) :
    i.wf = true ∧ HoldsUsedBits w i := by
  unfold decodeCop2 at h
  split at h
  case h_5 =>
    split at h <;> cases h
    case isTrue hrs => exact ⟨rfl, agree_all.mpr (eq_formatCommand_iff.mpr ⟨hop, hrs, rfl⟩)⟩
  all_goals cases h; rename_i hrs; exact ⟨rfl, by simp [HoldsUsedBits, usedBits, encode, hop, hrs]⟩

theorem decode_holdsUsedBits (h : decode w = .ok i) : i.wf = true ∧ HoldsUsedBits w i := by
  unfold decode at h
  split at h
  case h_1 hop => exact decodeSpecial_holdsUsedBits hop h
  case h_2 hop => exact decodeBcond_holdsUsedBits hop h
  case h_17 hop => exact decodeCop0_holdsUsedBits hop h
  case h_18 hop => exact decodeCop2_holdsUsedBits hop h
  case h_33 => cases h
  all_goals cases h; rename_i hop; exact ⟨rfl, by simp [HoldsUsedBits, usedBits, encode, hop]⟩

/-- The used bits determine the row and its operands. Only SYSCALL and BREAK have an operand outside of them, the code,
which their meaning ignores (R310, R311). -/
theorem decode_of_holdsUsedBits (hwf : i.wf = true) (h : HoldsUsedBits w i) :
    ∃ i', decode w = .ok i' ∧ ∀ s, exec i' s = exec i s := by
  cases i
  case syscall code =>
    refine ⟨.syscall (code20Field w), ?_, fun _ => rfl⟩
    simp [HoldsUsedBits, usedBits, encode] at h
    simp [decode, decodeSpecial, h]
  case brk code =>
    refine ⟨.brk (code20Field w), ?_, fun _ => rfl⟩
    simp [HoldsUsedBits, usedBits, encode] at h
    simp [decode, decodeSpecial, h]
  case bltz rs sel imm =>
    obtain ⟨hop, rfl, hrt, rfl⟩ := eq_formatI_iff.mp (agree_all.mp h)
    obtain ⟨rfl, hc⟩ := rtField_eq_selector_iff (c := false).mp hrt
    refine ⟨_, ?_, fun _ => rfl⟩
    rw [decode, hop]
    exact (decodeBcond_of_not_link (bne_iff_ne.mp hwf)).trans (if_neg (ne_true_of_eq_false hc))
  case bgez rs sel imm =>
    obtain ⟨hop, rfl, hrt, rfl⟩ := eq_formatI_iff.mp (agree_all.mp h)
    obtain ⟨rfl, hc⟩ := rtField_eq_selector_iff (c := true).mp hrt
    refine ⟨_, ?_, fun _ => rfl⟩
    rw [decode, hop]
    exact (decodeBcond_of_not_link (bne_iff_ne.mp hwf)).trans (if_pos hc)
  case rfe =>
    obtain ⟨hop, hrs, hf⟩ := agree_op_rs4_funct.mp h
    refine ⟨_, ?_, fun _ => rfl⟩
    rw [decode, hop]
    exact decodeCop0_rfe hrs hf
  case cop2 command =>
    obtain ⟨hop, hrs, rfl⟩ := eq_formatCommand_iff.mp (agree_all.mp h)
    refine ⟨_, ?_, fun _ => rfl⟩
    rw [decode, hop]
    exact decodeCop2_command hrs
  all_goals
    refine ⟨_, ?_, fun _ => rfl⟩
    simp [HoldsUsedBits, usedBits, encode, imm16Field_eq_iff] at h
    simp [decode, decodeSpecial, decodeBcond, decodeCop0, decodeCop2, h]

end

/-- Settles O2: a decoded word holds its instruction's used bits, and every word that holds them decodes alike. -/
theorem unusedFieldsAreIgnored : Obligations.UnusedFieldsAreIgnored := by
  refine ⟨fun w w' i h hagree => ?_, fun w i h => ?_⟩
  all_goals obtain ⟨hwf, hbits⟩ := decode_holdsUsedBits h
  · exact decode_of_holdsUsedBits hwf (hagree.trans hbits)
  · exact ⟨hwf, hbits.symm⟩

end Sys2Proof
end

section
/-! Proofs of the family "ALU": add and subtract (O13, O14), logic (O15), shifts (O16), set on less than (O17). -/

namespace Sys2Proof.Machine

open Sys2Proof.Safety

/-! ## Add and subtract -/

theorem exactSum_sext16 (a : Word) (imm : BitVec 16) : exactSum a (sext16 imm) = a.toInt + imm.toInt := by
  rw [exactSum, toInt_sext16]

/-- Settles O13: the three instructions are the trapping form on their exact result. -/
theorem trappingArithmetic : Obligations.TrappingArithmetic := by
  intro s rs rt rd imm
  rw [← exactSum_sext16]
  exact ⟨trapsOrWrites_of_exec rfl, trapsOrWrites_of_exec rfl, trapsOrWrites_of_exec rfl⟩

theorem add_eq_ofNat (a b : Word) : BitVec.ofNat 32 (a.toNat + b.toNat) = a + b := by
  rw [BitVec.ofNat_add, BitVec.ofNat_toNat, BitVec.ofNat_toNat, BitVec.setWidth_eq, BitVec.setWidth_eq]

theorem upper16_eq_ofNat (imm : BitVec 16) : upper16 imm = BitVec.ofNat 32 (imm.toNat * 65536) := by
  have hfit : imm.toNat * 65536 < 4294967296 := by have := imm.isLt; omega
  apply BitVec.eq_of_toNat_eq
  rw [BitVec.toNat_ofNat, Nat.mod_eq_of_lt hfit]
  exact (BitVec.toNat_append imm 0#16).trans (by simp [Nat.shiftLeft_eq])

/-- Settles O14: the results modulo 2^32 are the word operations of the model. -/
theorem wrappingArithmetic : Obligations.WrappingArithmetic := by
  intro s rs rt rd imm
  rw [add_eq_ofNat, sub_eq_ofInt, ← add_sext16, ← upper16_eq_ofNat]
  exact ⟨writes_of_exec s rfl, writes_of_exec s rfl, writes_of_exec s rfl, writes_of_exec s rfl⟩

/-! ## Logic -/

/-- Settles O15: the word operations are bitwise, and a zero-extended immediate has the bits of the immediate. -/
theorem logicIsBitwise : Obligations.LogicIsBitwise := by
  intro s rs rt rd imm a b
  refine ⟨⟨a &&& b, writes_of_exec s rfl, fun k => BitVec.getLsbD_and⟩,
    ⟨a ||| b, writes_of_exec s rfl, fun k => BitVec.getLsbD_or⟩,
    ⟨a ^^^ b, writes_of_exec s rfl, fun k => BitVec.getLsbD_xor⟩,
    ⟨~~~(a ||| b), writes_of_exec s rfl, fun k hk => ?nor⟩,
    ⟨a &&& zext16 imm, writes_of_exec s rfl, fun k => ?andi⟩,
    ⟨a ||| zext16 imm, writes_of_exec s rfl, fun k => ?ori⟩,
    ⟨a ^^^ zext16 imm, writes_of_exec s rfl, fun k => ?xori⟩⟩
  case nor => rw [BitVec.getLsbD_not, BitVec.getLsbD_or, decide_eq_true hk, Bool.true_and]
  case andi => rw [BitVec.getLsbD_and, getLsbD_zext16]
  case ori => rw [BitVec.getLsbD_or, getLsbD_zext16]
  case xori => rw [BitVec.getLsbD_xor, getLsbD_zext16]

/-! ## Shifts -/

section
variable (a : Word) (n : Nat) {k : Nat} (hk : k < 32)
include hk

theorem getLsbD_shiftLeft_word : (a <<< n).getLsbD k = (decide (n ≤ k) && a.getLsbD (k - n)) := by
  rw [BitVec.getLsbD_shiftLeft, decide_eq_true hk, Bool.true_and, ← decide_not, decide_eq_decide.mpr Nat.not_lt]

theorem getLsbD_sshiftRight_word :
    (a.sshiftRight n).getLsbD k = if k + n < 32 then a.getLsbD (k + n) else a.getLsbD 31 := by
  rw [BitVec.getLsbD_sshiftRight, decide_eq_false (by omega), Nat.add_comm n k, BitVec.msb_eq_getLsbD_last]
  rfl

end

/-- A bit past the word is 0, so the zeros a logical right shift fills in need no case of their own. -/
theorem getLsbD_ushiftRight_word (a : Word) (n k : Nat) :
    (a >>> n).getLsbD k = (decide (k + n < 32) && a.getLsbD (k + n)) := by
  rw [BitVec.getLsbD_ushiftRight, Nat.add_comm n k]
  by_cases h : k + n < 32
  · rw [decide_eq_true h, Bool.true_and]
  · rw [decide_eq_false h, Bool.false_and, BitVec.getLsbD_of_ge a _ (by omega)]

/-- Settles O16: each shift moves the bits of x[rt], the variable ones by x[rs] modulo 32. -/
theorem shiftsMoveBits : Obligations.ShiftsMoveBits := by
  intro s rs rt rd shamt a left right arith
  have hleft (n : Nat) : left n (a <<< n) := fun k hk => getLsbD_shiftLeft_word a n hk
  have hright (n : Nat) : right n (a >>> n) := fun k _ => getLsbD_ushiftRight_word a n k
  have harith (n : Nat) : arith n (a.sshiftRight n) := fun k hk => getLsbD_sshiftRight_word a n hk
  rw [← shiftAmount_eq]
  exact ⟨⟨_, writes_of_exec s rfl, hleft _⟩, ⟨_, writes_of_exec s rfl, hright _⟩,
    ⟨_, writes_of_exec s rfl, harith _⟩, ⟨_, writes_of_exec s rfl, hleft _⟩,
    ⟨_, writes_of_exec s rfl, hright _⟩, ⟨_, writes_of_exec s rfl, harith _⟩⟩

/-! ## Set on less than -/

/-- Settles O17: a sign-extended immediate keeps its signed value, and read as unsigned gains 2^32 where negative. -/
theorem setOnLessThanComparesExactly : Obligations.SetOnLessThanComparesExactly := by
  intro s rs rt rd imm a b
  rw [← toNat_sext16, ← toInt_sext16]
  simp only [Int.ofNat_lt, ← flagWord_decide]
  exact ⟨writes_of_exec s rfl, writes_of_exec s rfl, writes_of_exec s rfl, writes_of_exec s rfl⟩

end Sys2Proof.Machine
end

section
/-! Proofs of the family "multiply and divide": quotient and remainder (O19). -/

namespace Sys2Proof.Machine

/-! ## The remainder of a truncated division (R205) -/

theorem abs_tmod_lt (n : Int) {d : Int} (hd : d ≠ 0) : |n.tmod d| < |d| := by
  rw [Int.abs_eq_natAbs, Int.abs_eq_natAbs, Int.natAbs_tmod]
  exact_mod_cast Nat.mod_lt _ (Int.natAbs_pos.mpr hd)

theorem tmod_nonpos {n : Int} (d : Int) (hn : n ≤ 0) : n.tmod d ≤ 0 := by
  have h := Int.tmod_nonneg d (Int.neg_nonneg_of_nonpos hn)
  rw [Int.neg_tmod] at h
  omega

/-! ## DIV and DIVU by case of their operands -/

section
variable {a b : Word}

/-- By zero: the dividend, and 1 with the sign opposite to the dividend's (R202). -/
theorem signedDivision_byZero (hb : b = 0#32) :
    (signedDivision a b).1 = a ∧ (signedDivision a b).2 = if 0 ≤ a.toInt then 0xFFFFFFFF#32 else 1#32 := by
  simp [signedDivision, hb]

/-- The one quotient that does not fit, 2^31 (R202). -/
theorem signedDivision_overflow (ha : a = 0x80000000#32) (hb : b = 0xFFFFFFFF#32) :
    (signedDivision a b).1 = 0#32 ∧ (signedDivision a b).2 = 0x80000000#32 := by
  subst ha hb
  decide

/-- By zero: the dividend, and the largest word (R203). -/
theorem unsignedDivision_byZero (hb : b = 0#32) :
    (unsignedDivision a b).1 = a ∧ (unsignedDivision a b).2 = 0xFFFFFFFF#32 := by
  simp [unsignedDivision, hb]

/-- Away from the corners the signed pair is the quotient and the remainder of R205. -/
theorem signedDivision_spec (hb : b ≠ 0#32) (hab : ¬ (a = 0x80000000#32 ∧ b = 0xFFFFFFFF#32)) :
    let r := signedDivision a b
    r.2.toInt * b.toInt + r.1.toInt = a.toInt ∧ |r.1.toInt| < |b.toInt| ∧
      (0 ≤ a.toInt → 0 ≤ r.1.toInt) ∧ (a.toInt ≤ 0 → r.1.toInt ≤ 0) := by
  intro r
  obtain ⟨hrem, hquot⟩ : r.1.toInt = a.toInt.tmod b.toInt ∧ r.2.toInt = a.toInt.tdiv b.toInt :=
    signedDivision_exact hb hab
  have hd : b.toInt ≠ 0 := fun h => hb (BitVec.toInt_inj.mp h)
  rw [hrem, hquot]
  exact ⟨Int.tdiv_mul_add_tmod .., abs_tmod_lt _ hd, Int.tmod_nonneg _, tmod_nonpos _⟩

/-- By anything but zero the unsigned pair is the quotient and the remainder of R205. -/
theorem unsignedDivision_spec (hb : b ≠ 0#32) :
    let r := unsignedDivision a b
    r.2.toNat * b.toNat + r.1.toNat = a.toNat ∧ r.1.toNat < b.toNat := by
  intro r
  obtain ⟨hrem, hquot⟩ : r.1.toNat = a.toNat % b.toNat ∧ r.2.toNat = a.toNat / b.toNat := unsignedDivision_exact hb
  have hd : 0 < b.toNat := Nat.pos_of_ne_zero fun h => hb (BitVec.toNat_inj.mp h)
  rw [hrem, hquot]
  exact ⟨Nat.div_add_mod' .., Nat.mod_lt _ hd⟩

end

/-- A division writes its pair to HI and LO and nothing else, outside the window of R507. -/
theorem exec_div_eq {s : State} (rs rt : Reg) (h : 2 ≤ s.mfAge) :
    let r := signedDivision (readReg s rs) (readReg s rt)
    exec (.div rs rt) s = .next (s.setHiLo r.1 r.2) := whenHiLoFree_next h

theorem exec_divu_eq {s : State} (rs rt : Reg) (h : 2 ≤ s.mfAge) :
    let r := unsignedDivision (readReg s rs) (readReg s rt)
    exec (.divu rs rt) s = .next (s.setHiLo r.1 r.2) := whenHiLoFree_next h

/-- Settles O19: by zero, the one overflow, and the division proper of each instruction. -/
theorem divideGivesQuotientAndRemainder : Obligations.DivideGivesQuotientAndRemainder := by
  intro s rs rt hfree a b
  exact ⟨⟨_, exec_div_eq rs rt hfree, rfl, signedDivision_byZero, signedDivision_overflow, signedDivision_spec⟩,
    ⟨_, exec_divu_eq rs rt hfree, rfl, unsignedDivision_byZero, unsignedDivision_spec⟩⟩

end Sys2Proof.Machine
end

section
/-! Proofs of the family "jumps and branches": the jumps (O21), the branches (O22). -/

namespace Sys2Proof.Machine

open Sys2Proof.Safety

/-! ## The conditions of the branches on one register -/

section
variable (v : Word)

@[simp] theorem isNegative_iff : isNegative v = true ↔ v.toInt < 0 := decide_eq_true_iff

@[simp] theorem isPositive_iff : isPositive v = true ↔ 0 < v.toInt := decide_eq_true_iff

theorem not_isNegative_iff : (!isNegative v) = true ↔ 0 ≤ v.toInt := by
  rw [Bool.not_eq_true', ← Bool.not_eq_true, isNegative_iff, Int.not_lt]

theorem not_isPositive_iff : (!isPositive v) = true ↔ v.toInt ≤ 0 := by
  rw [Bool.not_eq_true', ← Bool.not_eq_true, isPositive_iff, Int.not_lt]

end

/-! ## The two forms of a jump or branch -/

section
variable {i : Instr} {s : State} {taken : Bool} {a : Word} {c : Prop}

/-- An instruction that ends in a branch without a link goes to its target exactly where the condition holds. -/
theorem goes_of_exec (hc : taken = true ↔ c) (h : exec i s = .next (branchIf taken a s)) :
    (c → exec i s = .next { s with branchPending := true, nextPC := a }) ∧
    (¬ c → exec i s = .next { s with branchPending := true }) := by
  rw [h, ← hc]
  constructor
  · rintro rfl; rfl
  · rw [Bool.not_eq_true]; rintro rfl; rfl

/-- An instruction that ends in a link and a branch: the frame, the return address, the delay slot and the next
address. -/
theorem links_of_exec {rd : Reg} (h : exec i s = .next (branchIf taken a (linkTo rd s))) :
    ∃ t, exec i s = .next t ∧ OnlyControl s t ∧ RegisterWritten s t rd (s.currentPC + 8#32) ∧
      t.branchPending = true ∧ t.nextPC = if taken then a else s.nextPC :=
  ⟨_, h, onlyControl_link s taken a rd _, registerWritten_link s taken a rd _, rfl,
    by rw [branchIf_nextPC, linkTo, writeReg_nextPC]⟩

/-- The linking form of a conditional branch: the link in either case, the target exactly where the condition holds. -/
theorem linksIf_of_exec (hc : taken = true ↔ c) {rd : Reg} (h : exec i s = .next (branchIf taken a (linkTo rd s))) :
    ∃ t, exec i s = .next t ∧ OnlyControl s t ∧ RegisterWritten s t rd (s.currentPC + 8#32) ∧
      t.branchPending = true ∧ (c → t.nextPC = a) ∧ (¬ c → t.nextPC = s.nextPC) := by
  obtain ⟨t, ht, hframe, hlink, hslot, hnext⟩ := links_of_exec h
  rw [← hc]
  exact ⟨t, ht, hframe, hlink, hslot, fun h => hnext.trans (if_pos h), fun h => hnext.trans (if_neg h)⟩

end

/-! ## The instructions -/

/-- Settles O21: the target of J and JAL as arithmetic; JALR's target is read in the state before the link. -/
theorem jumpsGoToTheirTargets : Obligations.JumpsGoToTheirTargets := by
  intro s rs rd target
  rw [← jumpTarget_eq]
  exact ⟨rfl, rfl, links_of_exec (taken := true) rfl, links_of_exec (taken := true) rfl⟩

/-- Settles O22: each condition as arithmetic on the values before the link, and the one target of all eight. -/
theorem branchesGoWhereTheirConditionsSay : Obligations.BranchesGoWhereTheirConditionsSay := by
  intro s rs rt sel imm
  rw [← branchTarget_eq]
  intro a dest goes links
  exact ⟨goes_of_exec beq_iff_eq rfl, goes_of_exec bne_iff_ne rfl, goes_of_exec (not_isPositive_iff a) rfl,
    goes_of_exec (isPositive_iff a) rfl, goes_of_exec (isNegative_iff a) rfl, goes_of_exec (not_isNegative_iff a) rfl,
    linksIf_of_exec (isNegative_iff a) rfl, linksIf_of_exec (not_isNegative_iff a) rfl⟩

end Sys2Proof.Machine
end

section
/-! Proofs of the family "system": the traps (O37), and the coprocessor-0 moves with RFE (O38). -/

namespace Sys2Proof.Machine

open Sys2Proof.Safety

/-! ## Traps -/

/-- Settles O37: both instructions are the entry of their exception, and their codes stand in no equation. -/
theorem trapsEnterTheirExceptions : Obligations.TrapsEnterTheirExceptions :=
  fun _ _ => ⟨raises_of_exec .sys rfl, raises_of_exec .bp rfl⟩

/-! ## Coprocessor-0 registers that MFC0 draws for, and those MTC0 leaves (R313, R314) -/

theorem cop0Read_of_not_mem {n : Reg} (s : State) (h : n ∉ [12#5, 13#5, 14#5, 15#5]) :
    cop0Read n s = ((drawWord s.plat).1, { s with plat := (drawWord s.plat).2 }) := by
  unfold cop0Read
  split
  case h_5 => rfl
  all_goals exact absurd h (by decide)

theorem cop0Write_of_ne {n : Reg} (v : Word) (s : State) (hstatus : n ≠ 12#5) (hcause : n ≠ 13#5) :
    cop0Write n v s = s := by
  unfold cop0Write
  split
  case h_1 => exact absurd rfl hstatus
  case h_2 => exact absurd rfl hcause
  case h_3 => rfl

/-! ## The mode stack through an entry and a return (R385, R390) -/

/-- What an entry pushes, RFE pops: only the old bits, 5 and 4, are lost. -/
theorem getLsbD_popStatus_pushStatus (status : Word) {k : Nat} (hk : k < 4 ∨ 6 ≤ k) :
    (popStatus (pushStatus status)).getLsbD k = status.getLsbD k := by
  rw [getLsbD_popStatus, getLsbD_pushStatus, getLsbD_pushStatus]
  rcases hk with hk | hk
  · rw [if_pos hk, if_neg (by omega), if_pos (by omega), Nat.add_sub_cancel]
  · rw [if_neg (by omega), if_neg (by omega), if_neg (by omega)]

/-- An entry leaves the machine in kernel mode. -/
theorem userMode_enter (x : Exception) (s : State) : (enter x s).userMode = false :=
  getLsbD_pushStatus s.status 1

/-! ## The instructions by mode (R312) -/

section
variable {s : State}

theorem kernelOnly_of_user (hu : s.userMode = true) (r : Result State) : kernelOnly s r = .refused .userCop0 :=
  if_pos hu

theorem kernelOnly_of_kernel (hu : s.userMode = false) (r : Result State) : kernelOnly s r = r :=
  if_neg (ne_true_of_eq_false hu)

theorem exec_mfc0_of_kernel (hu : s.userMode = false) (rt rd : Reg) :
    exec (.mfc0 rt rd) s = .next (writeDelayed (cop0Read rd s).2 rt (cop0Read rd s).1) := kernelOnly_of_kernel hu _

theorem exec_mtc0_of_kernel (hu : s.userMode = false) (rt rd : Reg) :
    exec (.mtc0 rt rd) s = .next (cop0Write rd (readReg s rt) s) := kernelOnly_of_kernel hu _

theorem exec_rfe_of_kernel (hu : s.userMode = false) : exec .rfe s = .next (leaveException s) :=
  kernelOnly_of_kernel hu _

theorem exec_cop0_of_user (hu : s.userMode = true) (rt rd : Reg) :
    ∀ i ∈ [Instr.mfc0 rt rd, .mtc0 rt rd, .rfe], exec i s = .refused .userCop0 := by
  rw [List.forall_mem_cons, List.forall_mem_cons, List.forall_mem_singleton]
  exact ⟨kernelOnly_of_user hu _, kernelOnly_of_user hu _, kernelOnly_of_user hu _⟩

/-- MFC0 of a register that names no state: the draw that is due, loaded with a delay (R32, R313). -/
theorem exec_mfc0_draw (hu : s.userMode = false) (rt : Reg) {rd : Reg} (h : rd ∉ [12#5, 13#5, 14#5, 15#5]) :
    ∃ t, exec (.mfc0 rt rd) s = .next t ∧
      t = { s with regs := t.regs, ldNext := t.ldNext, plat := { s.plat with draws := s.plat.draws + 1 } } ∧
      LoadWritten s t rt .whole (Config.freeWord s.plat.draws) := by
  refine ⟨_, exec_mfc0_of_kernel hu rt rd, ?_⟩
  rw [cop0Read_of_not_mem s h]
  exact ⟨onlyLoaded_writeDelayed _ rt _, loadWritten_writeDelayed _ rt _⟩

end

/-- Settles O38: in kernel mode each instruction is a read or a write by its register number, or the popped stack; an
entry leaves kernel mode on, so the RFE after it is not refused. -/
theorem coprocessorZeroMoves : Obligations.CoprocessorZeroMoves := by
  refine ⟨fun s rt rd hu => exec_cop0_of_user hu rt rd, fun s rt rd hu => ?kernel, fun x s h hs => ?afterEntry⟩
  case kernel =>
    have hmfc0 := exec_mfc0_of_kernel hu rt rd
    have hmtc0 := exec_mtc0_of_kernel hu rt rd
    refine ⟨?readStatus, ?readCause, ?readEpc, ?readPrid, exec_mfc0_draw hu rt, ?writeStatus, ?writeCause, ?writeNone,
      ?rfe⟩
    case readStatus | readEpc | readPrid => rintro rfl; exact loads_of_exec s hmfc0
    case readCause =>
      rintro rfl
      refine ⟨s.causeRead, loads_of_exec s hmfc0, ?_, fun k hk => ?_⟩
      · rw [getLsbD_causeRead, if_pos rfl, lineUp_iff]
      · rw [getLsbD_causeRead, if_neg hk]
    case writeStatus => rintro rfl; exact hmtc0
    case writeCause => rintro rfl; exact ⟨_, hmtc0, rfl, getLsbD_causeWrite s.cause (readReg s rt)⟩
    case writeNone => intro hstatus hcause; rw [hmtc0, cop0Write_of_ne _ s hstatus hcause]
    case rfe => exact ⟨_, exec_rfe_of_kernel hu, rfl, getLsbD_popStatus s.status⟩
  case afterEntry =>
    have hu : h.userMode = false := by rw [State.userMode, hs]; exact userMode_enter x s
    refine ⟨_, exec_rfe_of_kernel hu, fun k hk => ?_⟩
    rw [leaveException_status, hs, enter_status]
    exact getLsbD_popStatus_pushStatus s.status hk

end Sys2Proof.Machine
end

section
/-! Proofs of the family "exceptions", interrupts: when one is pending and what the step then does (O7), and the registers
of the aggregator and the timers (O42). -/

namespace Sys2Proof.Machine

open Sys2Proof.Safety

/-! ## The pending interrupt (R388) -/

/-- Bits 15:11 of Cause, the hardware lines of IP that the machine does not have, are among those that read 0 (R35). -/
theorem getLsbD_cause_unstored {s : State} (hc : s.cause &&& ~~~causeStored = 0#32) {k : Nat} (h : 11 ≤ k) (h' : k < 16) :
    s.cause.getLsbD k = false := by
  have hk := congrArg (·.getLsbD k) hc
  simp only [BitVec.getLsbD_and, BitVec.getLsbD_not, BitVec.getLsbD_zero] at hk
  interval_cases k <;> simpa [causeStored] using hk

/-- An interrupt is pending when one of the eight bits of IP is set where IM enables it. -/
theorem interruptPending_iff_exists (s : State) : s.interruptPending = true ↔ s.status.getLsbD 0 = true ∧
    ∃ k, k < 8 ∧ s.status.getLsbD (8 + k) = true ∧ s.causeRead.getLsbD (8 + k) = true := by
  unfold State.interruptPending State.interruptsEnabled
  rw [Bool.and_eq_true, bne_iff_ne, ne_eq, BitVec.eq_of_getLsbD_eq_iff]
  simp +contextual

/-- Of the eight, only the two software bits and the line can be set. -/
theorem interruptPending_iff {s : State} (hc : s.cause &&& ~~~causeStored = 0#32) :
    s.interruptPending = true ↔ s.status.getLsbD 0 = true ∧
      ((s.status.getLsbD 8 = true ∧ s.cause.getLsbD 8 = true) ∨ (s.status.getLsbD 9 = true ∧ s.cause.getLsbD 9 = true) ∨
       (s.status.getLsbD 10 = true ∧ LineUp s.plat)) := by
  rw [interruptPending_iff_exists, ← lineUp_iff]
  simp only [getLsbD_causeRead]
  refine and_congr_right fun _ => ⟨?_, ?_⟩
  · rintro ⟨k, hk, him, hip⟩
    obtain rfl | rfl | rfl | h3 : k = 0 ∨ k = 1 ∨ k = 2 ∨ 3 ≤ k := by omega
    · exact .inl ⟨him, hip⟩
    · exact .inr (.inl ⟨him, hip⟩)
    · exact .inr (.inr ⟨him, hip⟩)
    · rw [if_neg (by omega), getLsbD_cause_unstored hc (by omega) (by omega)] at hip
      exact absurd hip Bool.false_ne_true
  · rintro (h | h | h)
    · exact ⟨0, by decide, h⟩
    · exact ⟨1, by decide, h⟩
    · exact ⟨2, by decide, h⟩

/-- Settles O7: the environment leaves Cause as it was, and the entry clears the load-delay slot that the step's beginning
has moved on. -/
theorem pendingInterruptIsTakenBeforeFetch : Obligations.PendingInterruptIsTakenBeforeFetch := by
  intro e s hc m
  refine ⟨interruptPending_iff (s := m) hc, fun hi => ⟨takeInterrupt (shiftLoadSlot m), ?_, stepWith_of_interrupt hi⟩⟩
  exact entered_enter .int { m with currentPC := m.pc, branchDelay := m.branchPending }

/-! ## The addresses of the aggregator and of the timers (R66, R410) -/

theorem target_iStat : target 0x1F801070 = .iStat := rfl
theorem target_iMask : target 0x1F801074 = .iMask := rfl

theorem target_timerCount (t : Fin 3) : target (0x1F801100 + 16 * t.val + 0) = .timerCount t :=
  target_timer t 0 (by decide)
theorem target_timerMode (t : Fin 3) : target (0x1F801100 + 16 * t.val + 4) = .timerMode t :=
  target_timer t 4 (by decide)
theorem target_timerTarget (t : Fin 3) : target (0x1F801100 + 16 * t.val + 8) = .timerTarget t :=
  target_timer t 8 (by decide)

/-! ## The aggregator's and the timers' registers (R373 to R375, R413, R414) -/

theorem extractLsb'_zero_eq_ofNat (v : Word) : v.extractLsb' 0 16 = BitVec.ofNat 16 v.toNat := by
  rw [BitVec.ofNat_toNat, BitVec.setWidth_eq_extractLsb' (by decide)]

/-- An I_STAT write is an AND; past bit 10 both sides are 0 (R374). -/
theorem getLsbD_writeIStat (v : Word) (p : Platform) (b : Nat) :
    (writeIStat v p).iStat.getLsbD b = (p.iStat.getLsbD b && v.getLsbD b) := by
  unfold writeIStat
  rw [BitVec.getLsbD_and, BitVec.getLsbD_extractLsb', Nat.zero_add]
  by_cases h : b < 11
  · rw [decide_eq_true h, Bool.true_and]
  · rw [BitVec.getLsbD_of_ge _ _ (by omega), Bool.false_and, Bool.false_and]

theorem getLsbD_writeIMask (v : Word) (p : Platform) {b : Nat} (h : b < 11) :
    (writeIMask v p).iMask.getLsbD b = v.getLsbD b := by
  unfold writeIMask
  rw [BitVec.getLsbD_extractLsb', Nat.zero_add, decide_eq_true h, Bool.true_and]

/-- A mode read clears the two reached flags and no other bit (R413). -/
theorem getLsbD_reachedCleared (m : BitVec 13) (b : Nat) :
    (m &&& ~~~(reachedTarget ||| reachedFFFF)).getLsbD b = (decide (b ≠ 11 ∧ b ≠ 12) && m.getLsbD b) := by
  rw [BitVec.getLsbD_and]
  by_cases h : b < 13
  · rw [Bool.and_comm]; congr 1; interval_cases b <;> rfl
  · rw [BitVec.getLsbD_of_ge _ _ (by omega), Bool.false_and, Bool.and_false]

theorem writeTimerMode_refused {v : Word} (h : v.getLsbD 0 = true) (t : Fin 3) (p : Platform) :
    writeTimerMode t v p = .refused .timerSync := if_pos h

theorem writeTimerMode_next {v : Word} (h : v.getLsbD 0 = false) (t : Fin 3) (p : Platform) :
    ∃ m, writeTimerMode t v p = .next { p with
        timers := p.timers.set t { p.timers[t] with mode := m, count := 0#16, prescaler := 0, armed := true } } ∧
      ∀ b, m.getLsbD b = if b < 10 then v.getLsbD b else decide (b = 10) || (p.timers[t]).mode.getLsbD b :=
  ⟨_, if_neg (ne_true_of_eq_false h), getLsbD_modeWritten _ v⟩

/-- Settles O42: each address reaches its register, and each register's access is the named one. -/
theorem interruptAndTimerRegisters : Obligations.InterruptAndTimerRegisters := by
  intro p n v t z tm at_ timer'
  have hcount : target (at_ 0) = .timerCount t := target_timerCount t
  have hmode : target (at_ 4) = .timerMode t := target_timerMode t
  have htarget : target (at_ 8) = .timerTarget t := target_timerTarget t
  unfold busRead busWrite
  rw [target_iStat, target_iMask, hcount, hmode, htarget]
  refine ⟨rfl, rfl, ⟨_, rfl, getLsbD_writeIStat z p⟩, ⟨_, rfl, fun b => getLsbD_writeIMask z p⟩, rfl, rfl,
    ⟨_, rfl, getLsbD_reachedCleared tm.mode⟩, ?count, ?target, fun h => writeTimerMode_refused h t p,
    fun h => writeTimerMode_next h t p⟩
  case count | target => rw [← extractLsb'_zero_eq_ofNat]; rfl

end Sys2Proof.Machine
end

section
/-! Proofs of the family "exceptions", DMA interrupt: DICR, completion and the rising edge (O50). -/

namespace Sys2Proof.Machine

/-! ## DICR on the bus (R435, R436) -/

theorem target_dicr : target 0x1F8010F4 = .dicr := rfl

theorem busRead_dicr (p : Platform) : busRead 0x1F8010F4 .word p = .next (p.dma.dicr.word, p) := by
  unfold busRead; rw [target_dicr]; rfl

theorem busWrite_dicr (v : Word) (p : Platform) : busWrite 0x1F8010F4 .word v p = .next (writeDicr v p) := by
  unfold busWrite; rw [target_dicr]; rfl

/-- The bits of the word a load of DICR returns, by the fields they come from. -/
theorem getLsbD_dicrWord (d : Dicr) {k : Nat} (hk : k < 32) :
    d.word.getLsbD k = if k < 6 then d.low.getLsbD k else if k < 15 then false else if k < 16 then d.force
      else if k < 23 then d.enable.getLsbD (k - 16) else if k < 24 then d.master
      else if k < 31 then d.flag.getLsbD (k - 24) else d.irq := by
  unfold Dicr.word
  show BitVec.getLsbD (w := 1 + 7 + 1 + 7 + 1 + 9 + 6) _ k = _
  simp only [BitVec.getLsbD_append, BitVec.getLsbD_ofBool]
  interval_cases k <;> simp

/-- A field of DICR read back is the bits it holds. -/
theorem extractLsb'_dicrWord {d : Dicr} {start len : Nat} {f : BitVec len}
    (h : ∀ k, k < len → d.word.getLsbD (start + k) = f.getLsbD k) : d.word.extractLsb' start len = f := by
  apply BitVec.eq_of_getLsbD_eq
  intro k hk
  rw [BitVec.getLsbD_extractLsb', decide_eq_true hk, Bool.true_and, h k hk]

/-- A load of DICR returns its fields, with bit 31 computed. -/
theorem dicrWord_fields (d : Dicr) : d.word.extractLsb' 0 6 = d.low ∧ d.word.extractLsb' 6 9 = 0#9 ∧
    d.word.getLsbD 15 = d.force ∧ d.word.extractLsb' 16 7 = d.enable ∧ d.word.getLsbD 23 = d.master ∧
    d.word.extractLsb' 24 7 = d.flag ∧ d.word.getLsbD 31 = d.irq := by
  refine ⟨extractLsb'_dicrWord ?low, extractLsb'_dicrWord ?zero, getLsbD_dicrWord d (by decide),
    extractLsb'_dicrWord ?enable, getLsbD_dicrWord d (by decide), extractLsb'_dicrWord ?flag,
    getLsbD_dicrWord d (by decide)⟩
  case low | zero | enable | flag =>
    intro k hk
    interval_cases k <;> exact getLsbD_dicrWord d (by decide)

/-! ## The recomputed interrupt (R437) -/

/-- `irqLevel` follows DICR bit 31, and bit 3 of I_STAT is set where it was or where the level rises from `p`. -/
def DmaAsserted (p q : Platform) : Prop :=
  q.dma.irqLevel = q.dma.dicr.irq ∧
  ∀ b, q.iStat.getLsbD b = (p.iStat.getLsbD b || (decide (b = 3) && q.dma.dicr.irq && !p.dma.irqLevel))

/-- A recomputation asserts against the level and I_STAT it starts from. -/
theorem dmaAsserted_updateDmaIrq {p q : Platform} (hlevel : q.dma.irqLevel = p.dma.irqLevel) (hstat : q.iStat = p.iStat) :
    DmaAsserted p (updateDmaIrq q) := by
  refine ⟨rfl, fun b => ?_⟩
  rw [(updateDmaIrq_spec q).2 b, hlevel, hstat]
  rfl

/-! ## Completion (R444) -/

/-- The flag a completion leaves: the channel's own is set where it is enabled. -/
theorem getLsbD_completedFlag (n : Fin 7) (d : Dicr) (b : Nat) :
    (if d.enable.getLsbD n.val then d.flag ||| 1#7 <<< n.val else d.flag).getLsbD b =
      (d.flag.getLsbD b || (decide (b = n.val) && d.enable.getLsbD n.val)) := by
  have hbit : (1#7 <<< n.val).getLsbD b = decide (b = n.val) := by
    show (BitVec.twoPow 7 n.val).getLsbD b = _
    rw [BitVec.getLsbD_twoPow, decide_eq_true n.isLt, Bool.true_and, decide_eq_decide]
    exact eq_comm
  split
  · rename_i h; rw [BitVec.getLsbD_or, hbit, h, Bool.and_true]
  · rename_i h; rw [eq_false_of_ne_true h, Bool.and_false, Bool.or_false]

theorem completeTransfer_spec (n : Fin 7) (p : Platform) :
    let q := completeTransfer n p
    (∃ m, q.dma.channels = p.dma.channels.set n
      { p.dma.channels[n] with madr := m, chcr := (p.dma.channels[n]).chcr &&& 0xEEFFFFFF#32 }) ∧
    (∃ f, q.dma.dicr = { p.dma.dicr with flag := f } ∧
      ∀ b, f.getLsbD b = (p.dma.dicr.flag.getLsbD b || (decide (b = n.val) && p.dma.dicr.enable.getLsbD n.val))) ∧
    q = { p with iStat := q.iStat, dma := { q.dma with dpcr := p.dma.dpcr }, draws := p.draws + 1 } := by
  rw [completeTransfer_eq]
  exact ⟨⟨_, rfl⟩, ⟨_, rfl, getLsbD_completedFlag n p.dma.dicr⟩, rfl⟩

theorem dmaAsserted_completeTransfer (n : Fin 7) (p : Platform) : DmaAsserted p (completeTransfer n p) := by
  rw [completeTransfer_eq]; exact dmaAsserted_updateDmaIrq rfl rfl

/-! ## A DICR write (R436) -/

/-- A flag stays where it was set and is not written 1. -/
theorem getLsbD_writtenFlag (v : Word) (d : Dicr) (b : Nat) :
    (d.written v).flag.getLsbD b = (d.flag.getLsbD b && !v.getLsbD (24 + b)) := by
  unfold Dicr.written
  rw [BitVec.getLsbD_and, BitVec.getLsbD_not, BitVec.getLsbD_extractLsb']
  by_cases h : b < 7
  · rw [decide_eq_true h, Bool.true_and, Bool.true_and]
  · rw [BitVec.getLsbD_of_ge _ _ (by omega), Bool.false_and, Bool.false_and]

/-- Settles O50: completion and a DICR write change their fields and end in the same recomputation, whose level is the
bit 31 that a load returns. -/
theorem dmaCompletionAndInterrupt : Obligations.DmaCompletionAndInterrupt := by
  refine ⟨⟨rfl, rfl⟩, fun v p => ⟨busWrite_dicr v p, p.dma.dicr.word, busRead_dicr p, dicrWord_fields p.dma.dicr⟩,
    fun n p => ⟨dmaAsserted_completeTransfer n p, completeTransfer_spec n p⟩,
    fun v p => ⟨dmaAsserted_updateDmaIrq rfl rfl, rfl, rfl, rfl, rfl, rfl, getLsbD_writtenFlag v p.dma.dicr⟩⟩

end Sys2Proof.Machine
end

section
/-! Proofs of the family "exceptions", drawing: fill rectangle (O51), and the fragments of a triangle (O54). -/

namespace Sys2Proof.Machine

open Sys2Proof.Safety

/-! ## Painting a set of cells -/

/-- From `g` to `g'` the cells of `S` got the value `c`, and nothing else changed. -/
structure Painted (c : Cell16) (S : Nat → Nat → Prop) (g g' : Gpu) : Prop where
  frame   : g' = { g with vram := g'.vram }
  wf      : Sparse.wf g'.vram = true
  inside  : ∀ x y, S x y → g'.cell x y = c
  outside : ∀ x y, ¬ S x y → g'.cell x y = g.cell x y

theorem painted_setCell {g : Gpu} (hw : Sparse.wf g.vram = true) (a b : Nat) (c : Cell16) :
    Painted c (fun x y => cellKey x y = cellKey a b) g (g.setCell a b c) where
  frame := rfl
  wf := wf_setCell hw a b c
  inside x y h := by rw [cell_setCell hw, if_pos h]
  outside x y h := cell_setCell_of_ne g c h

/-- A loop whose round `i` paints `S i` paints their union. -/
theorem painted_loop {c : Cell16} {S : Nat → Nat → Nat → Prop} {f : Nat → Gpu → Gpu}
    (hf : ∀ i g, Sparse.wf g.vram = true → Painted c (S i) g (f i g)) {g : Gpu} (hw : Sparse.wf g.vram = true)
    (n : Nat) : Painted c (fun x y => ∃ i, i < n ∧ S i x y) g (loop n f g) := by
  refine loop_induction (P := fun n g' => Painted c (fun x y => ∃ i, i < n ∧ S i x y) g g') n f g ?start ?round
  case start => exact ⟨rfl, hw, fun x y ⟨i, hi, _⟩ => absurd hi (Nat.not_lt_zero i), fun _ _ _ => rfl⟩
  case round =>
    intro i g' _ h
    have hi := hf i g' h.wf
    refine ⟨hi.frame.trans (by rw [h.frame]), hi.wf, fun x y ⟨j, hj, hS⟩ => ?_, fun x y hn => ?_⟩
    · by_cases hSi : S i x y
      · exact hi.inside x y hSi
      · have hji : j ≠ i := fun e => hSi (e ▸ hS)
        rw [hi.outside x y hSi]
        exact h.inside x y ⟨j, by omega, hS⟩
    · rw [hi.outside x y fun hS => hn ⟨i, by omega, hS⟩]
      exact h.outside x y fun ⟨j, hj, hS⟩ => hn ⟨j, by omega, hS⟩

/-! ## Fill rectangle (R473) -/

/-- The colour a fill writes: the top five bits of each channel, and bit 15 clear. -/
def fillColour (c : Word) : Cell16 := 0#1 ++ c.extractLsb' 19 5 ++ c.extractLsb' 11 5 ++ c.extractLsb' 3 5

theorem toNat_fillColour (c : Word) : (fillColour c).toNat =
    c.toNat % 256 / 8 + c.toNat / 256 % 256 / 8 * 32 + c.toNat / 65536 % 256 / 8 * 1024 := by
  unfold fillColour
  rw [BitVec.toNat_append, BitVec.toNat_append, BitVec.toNat_append,
    ← Nat.shiftLeft_add_eq_or_of_lt (c.extractLsb' 3 5).isLt, ← Nat.shiftLeft_add_eq_or_of_lt (c.extractLsb' 11 5).isLt,
    ← Nat.shiftLeft_add_eq_or_of_lt (c.extractLsb' 19 5).isLt]
  simp only [BitVec.extractLsb'_toNat, Nat.shiftRight_eq_div_pow, Nat.shiftLeft_eq, BitVec.toNat_ofNat]
  omega

/-- The mask of R473 rounds the left edge down to 16 cells. -/
theorem toNat_fillLeft (p : Word) : ((p.extractLsb' 0 10) &&& 0x3F0#10).toNat = p.toNat % 1024 / 16 * 16 := by
  have h : (p.extractLsb' 0 10) &&& 0x3F0#10 = (p.extractLsb' 0 10 >>> 4) <<< 4 := by
    apply BitVec.eq_of_getLsbD_eq; intro k hk
    interval_cases k <;> simp
  rw [h, BitVec.toNat_shiftLeft, BitVec.toNat_ushiftRight, BitVec.extractLsb'_toNat, Nat.shiftRight_eq_div_pow,
    Nat.shiftRight_eq_div_pow, Nat.shiftLeft_eq]
  omega

/-- The rounds of a fill together cover the wrapping rectangle. -/
theorem fillCells_iff (x0 y0 w h : Nat) {x y : Nat} (hx : x < 1024) (hy : y < 512) :
    (∃ j, j < h ∧ ∃ i, i < w ∧ cellKey x y = cellKey (x0 + i) (y0 + j)) ↔ InRectangle x0 y0 w h x y := by
  unfold InRectangle
  simp only [cellKey_eq_iff, Nat.mod_eq_of_lt hx, Nat.mod_eq_of_lt hy, eq_comm (a := x), eq_comm (a := y)]
  exact ⟨fun ⟨j, hj, i, hi, h⟩ => ⟨i, j, hi, hj, h⟩, fun ⟨i, j, hi, hj, h⟩ => ⟨j, hj, i, hi, h⟩⟩

/-- A fill paints, row by row, the cells of the rectangle its words give. -/
theorem painted_fillRectangle (c p s : Word) {g : Gpu} (hw : Sparse.wf g.vram = true) :
    Painted (fillColour c) (fun x y => ∃ j, j < s.toNat / 65536 % 512 ∧ ∃ i, i < (s.toNat % 1024 + 15) / 16 * 16 ∧
      cellKey x y = cellKey (p.toNat % 1024 / 16 * 16 + i) (p.toNat / 65536 % 512 + j)) g (fillRectangle c p s g) := by
  unfold fillRectangle
  simp only [toNat_fillLeft, BitVec.extractLsb'_toNat, Nat.shiftRight_eq_div_pow, Nat.pow_zero, Nat.div_one]
  exact painted_loop (fun j g hg => painted_loop (fun i g hg => painted_setCell hg _ _ _) hg _) hw _

/-- A map that commutes with every round commutes with the loop. -/
theorem map_loop {α β : Type} (m : α → β) {f : Nat → α → α} {f' : Nat → β → β} (hf : ∀ i a, m (f i a) = f' i (m a))
    (n : Nat) (a : α) : m (loop n f a) = loop n f' (m a) := by
  induction n with
  | zero => rfl
  | succ n ih => unfold loop; rw [hf, ih]

/-- The GPU with another FIFO. -/
def Gpu.withFifo (ws : List Word) (g : Gpu) : Gpu := { g with fifo := ws }

theorem setCell_withFifo (x y : Nat) (c : Cell16) (ws : List Word) (g : Gpu) :
    (g.setCell x y c).withFifo ws = (g.withFifo ws).setCell x y c := rfl

/-- A fill neither reads nor writes the FIFO. -/
theorem fillRectangle_withFifo (c p s : Word) (ws : List Word) (g : Gpu) :
    (fillRectangle c p s g).withFifo ws = fillRectangle c p s (g.withFifo ws) := by
  unfold fillRectangle
  apply map_loop
  intro j g
  apply map_loop
  intro i g
  exact setCell_withFifo ..

theorem gpuCommand_fill {c : Word} (hc : c.toNat / 0x1000000 = 2) : gpuCommand (c.extractLsb' 24 8) = some .fill := by
  have h : c.extractLsb' 24 8 = 0x02#8 := by
    apply BitVec.eq_of_toNat_eq
    rw [BitVec.extractLsb'_toNat, Nat.shiftRight_eq_div_pow, hc]; rfl
  rw [h]; rfl

/-- The last word of a command runs it and empties the FIFO (R461, R462). -/
theorem gp0_of_complete {v : Word} {g : Gpu} {c : GpuCommand} (hm : g.transfer.mode ≠ .write)
    (hc : gpuCommand (((g.fifo ++ [v]).getD 0 0#32).extractLsb' 24 8) = some c)
    (hl : (g.fifo ++ [v]).length = c.words) :
    gp0 v g = mapNext (fun g' => { g' with fifo := [] })
      (runCommand c (g.fifo ++ [v]) { g with fifo := g.fifo ++ [v] }) := by
  have hb := words_bounds c
  unfold gp0
  rw [if_neg hm]
  dsimp only
  rw [if_neg (by omega), hc]
  exact if_pos hl

/-- The third word of command 0x02 runs the fill. -/
theorem gp0_fill {c p s : Word} {g : Gpu} (hm : g.transfer.mode ≠ .write) (hf : g.fifo = [c, p])
    (hc : c.toNat / 0x1000000 = 2) : gp0 s g = .next { fillRectangle c p s g with fifo := [] } := by
  have hcmd : gpuCommand (((g.fifo ++ [s]).getD 0 0#32).extractLsb' 24 8) = some .fill := by
    rw [hf]; exact gpuCommand_fill hc
  have hrun : (fillRectangle c p s (g.withFifo [c, p, s])).withFifo [] = (fillRectangle c p s g).withFifo [] := by
    rw [fillRectangle_withFifo, fillRectangle_withFifo]; rfl
  rw [gp0_of_complete hm hcmd (by rw [hf]; rfl), hf]
  exact congrArg Host.Outcome.next hrun

/-- Settles O51: the two loops paint a union of cells, which is the wrapping rectangle. -/
theorem fillWritesItsRectangle : Obligations.FillWritesItsRectangle := by
  intro c p s g x y hw hx hy x0 y0 w h colour g'
  have hp := painted_fillRectangle c p s hw
  refine ⟨gp0_fill, hp.frame, fun hin => ?_, fun hout => hp.outside x y (mt (fillCells_iff _ _ _ _ hx hy).mp hout)⟩
  rw [hp.inside x y ((fillCells_iff _ _ _ _ hx hy).mpr hin), toNat_fillColour]

/-! ## The fragments of a triangle (R481) -/

/-- Law (b): each fragment kept has removed the later ones at its point. -/
theorem pairwise_onePerCell (fs : List Fragment) :
    (onePerCell fs).Pairwise fun f g => ¬ (f.x = g.x ∧ f.y = g.y) := by
  induction fs with
  | nil => exact .nil
  | cons f fs ih =>
    refine .cons (fun g hg => ?_) (ih.filter _)
    rintro ⟨hx, hy⟩
    have := (List.mem_filter.mp hg).2
    simp [hx, hy] at this

/-- Laws (c) and (e) for one byte of a fragment: a clamped value lies between the bounds it is clamped to. -/
theorem between_bounds (a b c v : Byte) : min a.toNat (min b.toNat c.toNat) ≤ (between a b c v).toNat ∧
    (between a b c v).toNat ≤ max a.toNat (max b.toNat c.toNat) := by
  have ha := a.isLt; have hb := b.isLt; have hc := c.isLt
  unfold between
  rw [BitVec.toNat_ofNat, Nat.mod_eq_of_lt (by omega)]
  omega

/-- Law (d). -/
theorem triangleFragments_of_collinear {a b c : Vertex} (area : DrawArea)
    (h : (b.x - a.x) * (c.y - a.y) = (b.y - a.y) * (c.x - a.x)) : triangleFragments a b c area = [] :=
  if_pos (Int.sub_eq_zero.mpr h)

/-- A fragment of a triangle is one that `TRI_COVERAGE` proposed, with its attributes clamped. -/
theorem exists_of_mem_triangleFragments {a b c : Vertex} {area : DrawArea} {f : Fragment}
    (h : f ∈ triangleFragments a b c area) : ∃ f0, f = boundAttributes a b c f0 := by
  unfold triangleFragments at h
  split at h
  · cases h
  · obtain ⟨f0, -, rfl⟩ := List.mem_map.mp h
    exact ⟨f0, rfl⟩

theorem pairwise_triangleFragments (a b c : Vertex) (area : DrawArea) :
    (triangleFragments a b c area).Pairwise fun f g => ¬ (f.x = g.x ∧ f.y = g.y) := by
  unfold triangleFragments
  split
  · exact .nil
  · exact List.pairwise_map.mpr (pairwise_onePerCell _)

/-- Settles O54: law (a) from the filter, (b) from the pass over equal points, (c) and (e) from the clamp, (d) from the
area. -/
theorem triangleFragmentsObeyTheirLaws : Obligations.TriangleFragmentsObeyTheirLaws := by
  intro a b c area fs bounded
  refine ⟨fun f hf => ?_, pairwise_triangleFragments a b c area, triangleFragments_of_collinear area⟩
  obtain ⟨harea, htriangle⟩ := insideArea_of_mem hf
  obtain ⟨f0, rfl⟩ := exists_of_mem_triangleFragments hf
  exact ⟨of_decide_eq_true harea, htriangle, between_bounds .., between_bounds .., between_bounds ..,
    between_bounds .., between_bounds ..⟩

end Sys2Proof.Machine
end

section
/-! Proofs of the family "reset and hazards": the hazard state after a word and after a step that fetches none (O9). -/

namespace Sys2Proof.Machine

open Sys2Proof.Safety

/-- An instruction itself leaves the hazard state to the end of its step, whether it ran or entered an exception. -/
theorem exec_keeps_hazards {i : Instr} {s t : State} (h : exec i s = .next t) :
    t.mfAge = s.mfAge ∧ t.hiloUnread = s.hiloUnread := by
  rcases exec_cases h with ⟨x, rfl, -⟩ | hr
  · exact ⟨enter_mfAge s x, enter_hiloUnread s x⟩
  · rw [hr.frame]; exact ⟨rfl, rfl⟩

/-- A word that gives a next state raised RI, or its instruction ran and the hazards were updated. -/
theorem executeWord_cases {w : Word} {s t : State} (h : executeWord w s = .next t) :
    (∃ e, decode w = .error e ∧ t = ageHazards (enter .ri s)) ∨
    (∃ i u, decode w = .ok i ∧ exec i s = .next u ∧ t = updateHazards i u) := by
  unfold executeWord at h
  split at h
  · cases h; exact .inl ⟨_, by assumption, rfl⟩
  · split at h
    · cases h
    · obtain ⟨u, hu, rfl⟩ := mapNext_eq_next.mp h
      exact .inr ⟨_, u, by assumption, hu, rfl⟩

/-- A step that takes an interrupt or a misaligned fetch only ages the hazards (R506). -/
theorem stepWith_ages_of_no_fetch {e : Environment} {s t : State}
    (hm : (environmentMoves e s).interruptPending = true ∨ (environmentMoves e s).pc.toNat % 4 ≠ 0)
    (h : stepWith e s = .next t) : t.mfAge = min 3 (s.mfAge + 1) ∧ t.hiloUnread = s.hiloUnread := by
  cases hi : (environmentMoves e s).interruptPending with
  | true => rw [stepWith_of_interrupt hi] at h; cases h; exact ⟨rfl, rfl⟩
  | false =>
    have ha : ¬ AlignedTo .word (environmentMoves e s).pc := hm.resolve_left (by simp [hi])
    rw [stepWith_of_misaligned hi ha] at h; cases h; exact ⟨rfl, rfl⟩

/-- Settles O9: RI ages the hazards and `exec` keeps them, so what a word does to them is `updateHazards`, one
constructor at a time; a step that fetches nothing only ages them. -/
theorem hazardStateAfterEveryStep : Obligations.HazardStateAfterEveryStep := by
  refine ⟨fun w s t h => ?_, fun e s t => stepWith_ages_of_no_fetch⟩
  rcases executeWord_cases h with ⟨r, hd, rfl⟩ | ⟨i, u, hd, hu, rfl⟩
  · rw [hd]; exact ⟨rfl, rfl⟩
  · obtain ⟨hage, hunread⟩ := exec_keeps_hazards hu
    rw [hd, ← hage, ← hunread]
    cases i <;> exact ⟨rfl, rfl⟩

end Sys2Proof.Machine
end

section
/-! Proofs of the family "other", the whole machine: a step said once (O5), what every step keeps (O58, O60), its base case
(O57), the FIFO along every run (O53), the end of user mode (O59), and the delay slot (O23). -/

namespace Sys2Proof.Machine

open Sys2Proof.Safety

/-! ## A step, said once -/

/-- From `m` to `b` an instruction began, or is about to: the state whose PC and mode an exception entry saves (R41). -/
def Begins (m b : State) : Prop :=
  b = { m with
    currentPC := m.pc, branchDelay := m.branchPending, pc := b.pc, nextPC := b.nextPC, branchPending := b.branchPending
    ldNow := b.ldNow, ldNext := b.ldNext, icache := b.icache }

/-- Nothing but the HI/LO hazard state differs, as at the end of a step (R506). -/
def AgedFrom (u t : State) : Prop :=
  t = { u with mfAge := t.mfAge, hiloUnread := t.hiloUnread } ∧ t.mfAge ≤ 3

theorem begins_takeInterrupt (m : State) :
    Begins m { shiftLoadSlot m with currentPC := m.pc, branchDelay := m.branchPending } := rfl

theorem begins_beginInstruction (m : State) : Begins m (beginInstruction (shiftLoadSlot m)) := rfl

theorem begins_begun (m : State) (ic : Vector CacheLine 256) : Begins m (begun { m with icache := ic }) := rfl

theorem agedFrom_ageHazards (u : State) : AgedFrom u (ageHazards u) := ⟨rfl, Nat.min_le_left ..⟩

theorem agedFrom_updateHazards (i : Instr) (u : State) : AgedFrom u (updateHazards i u) :=
  ⟨updateHazards_frame i u, mfAge_updateHazards i u⟩

/-- A step that gives a next state entered an exception, or its instruction ran; then the hazard state moved. -/
theorem stepWith_enters_or_runs {e : Environment} {s t : State} (h : stepWith e s = .next t) :
    let m := environmentMoves e s
    ∃ b u, Begins m b ∧ AgedFrom u t ∧
      ((∃ x, u = enter x b) ∨
       (∃ i, b = begun { m with icache := b.icache } ∧ (m.branchPending && i.isBranch) = false ∧
          exec i b = .next u ∧ Ran i b u)) := by
  intro m
  rcases stepWith_cases h with ⟨-, rfl⟩ | ⟨-, -, rfl⟩ | ⟨-, -, w, f, -, ⟨r, -, rfl⟩ | ⟨i, u, -, hb, hx, rfl⟩⟩
  · exact ⟨_, _, begins_takeInterrupt m, agedFrom_ageHazards _, .inl ⟨.int, rfl⟩⟩
  · exact ⟨_, _, begins_beginInstruction m, agedFrom_ageHazards _, .inl ⟨.adel, rfl⟩⟩
  · exact ⟨_, _, begins_begun m f.icache, agedFrom_ageHazards _, .inl ⟨.ri, rfl⟩⟩
  · refine ⟨_, u, begins_begun m f.icache, agedFrom_updateHazards i u, ?_⟩
    rcases exec_cases hx with ⟨x, hu, -⟩ | hr
    · exact .inl ⟨x, hu⟩
    · exact .inr ⟨i, rfl, hb, hx, hr⟩

section
variable {e : Environment} {s t b u : State}

theorem Begins.plat {m : State} (h : Begins m b) : b.plat = m.plat := by rw [h]
theorem Begins.status {m : State} (h : Begins m b) : b.status = m.status := by rw [h]
theorem Begins.cause {m : State} (h : Begins m b) : b.cause = m.cause := by rw [h]
theorem Begins.currentPC {m : State} (h : Begins m b) : b.currentPC = m.pc := by rw [h]
theorem Begins.branchDelay {m : State} (h : Begins m b) : b.branchDelay = m.branchPending := by rw [h]

theorem AgedFrom.plat (h : AgedFrom u t) : t.plat = u.plat := by rw [h.1]
theorem AgedFrom.status (h : AgedFrom u t) : t.status = u.status := by rw [h.1]
theorem AgedFrom.cause (h : AgedFrom u t) : t.cause = u.cause := by rw [h.1]
theorem AgedFrom.epc (h : AgedFrom u t) : t.epc = u.epc := by rw [h.1]
theorem AgedFrom.pc (h : AgedFrom u t) : t.pc = u.pc := by rw [h.1]
theorem AgedFrom.nextPC (h : AgedFrom u t) : t.nextPC = u.nextPC := by rw [h.1]
theorem AgedFrom.currentPC (h : AgedFrom u t) : t.currentPC = u.currentPC := by rw [h.1]
theorem AgedFrom.branchDelay (h : AgedFrom u t) : t.branchDelay = u.branchDelay := by rw [h.1]
theorem AgedFrom.branchPending (h : AgedFrom u t) : t.branchPending = u.branchPending := by rw [h.1]

end

/-- Settles O5: before the fetched word runs, the fetch has changed the cache only; a branch in a delay slot is refused
before it executes. -/
theorem stepRunsDecodedInstruction : Obligations.StepRunsDecodedInstruction := by
  refine ⟨fun _ => rfl, fun e s u w i => ?_⟩
  intro m hi ha hf hd
  have hstep : stepWith e s = executeWord w (begun { m with icache := u.icache }) := by
    rw [stepWith_of_aligned hi ha, fetch_begin, hf]; rfl
  refine ⟨fun hb => ?runs, fun hp hbr => ?refused⟩
  case runs =>
    rw [hstep]
    exact executeWord_of_ok hd _ (Bool.and_eq_false_iff.mpr hb)
  case refused =>
    rw [hstep, executeWord, hd]
    exact if_pos (Bool.and_eq_true_iff.mpr ⟨hp, hbr⟩)

/-! ## What every step keeps -/

/-- An entry writes none of the bits of Cause that read 0 (R35). -/
theorem enteredCause_stored (bd : Bool) (code : BitVec 5) (cause : Word) :
    enteredCause bd code cause &&& ~~~causeStored = 0#32 := by
  apply BitVec.eq_of_getLsbD_eq
  intro k hk
  rw [BitVec.getLsbD_and, getLsbD_enteredCause]
  interval_cases k <;> simp [causeStored]

/-- Cause with only the two software bits changed keeps the bits that read 0 (R35, R314). -/
theorem causeStored_of_same {c c' : Word} (hc : c &&& ~~~causeStored = 0#32)
    (h : ∀ k, k ≠ 8 → k ≠ 9 → c'.getLsbD k = c.getLsbD k) : c' &&& ~~~causeStored = 0#32 := by
  rw [← hc]
  apply BitVec.eq_of_getLsbD_eq
  intro k hk
  rw [BitVec.getLsbD_and, BitVec.getLsbD_and]
  by_cases hs : k = 8 ∨ k = 9
  · rcases hs with rfl | rfl <;> simp [causeStored]
  · rw [h k (fun h8 => hs (.inl h8)) fun h9 => hs (.inr h9)]

/-- Settles O58: the environment, an entry and a run each keep every part. -/
theorem everyStepKeepsTheInvariant : Obligations.EveryStepKeepsTheInvariant := by
  intro e s t hs h
  obtain ⟨b, u, hb, hu, hcase⟩ := stepWith_enters_or_runs h
  have hplat : PlatformInv b.plat := by rw [hb.plat]; exact (environmentMoves_keeps e s).2 hs.platform
  have hzero : b.regs[0] = 0#32 := by rw [hb]; exact hs.zero
  have hcause : b.cause &&& ~~~causeStored = 0#32 := by rw [hb.cause]; exact hs.cause
  suffices u.regs[0] = 0#32 ∧ u.cause &&& ~~~causeStored = 0#32 ∧ PlatformInv u.plat by
    obtain ⟨h0, hc, hp⟩ := this
    exact ⟨by rw [hu.1]; exact h0, hu.cause ▸ hc, hu.2, hu.plat ▸ hp⟩
  rcases hcase with ⟨x, rfl⟩ | ⟨i, -, -, -, hr⟩
  · exact ⟨hzero, enteredCause_stored _ _ _, hplat⟩
  · exact ⟨hr.zero.trans hzero, causeStored_of_same hcause hr.cause, hr.inv hplat⟩

/-- The keys of memory that a reset keeps: the ROM (R71). -/
def romKey (a : Nat) : Bool := decide (0x1FC00000 ≤ a ∧ a < 0x1FC80000)

theorem resetFrom_mem (s : State) : s.resetFrom.plat.mem = List.filter (fun c => romKey c.1) s.plat.mem := rfl

theorem inv_reset : Safety.Inv State.reset :=
  ⟨by decide, by decide, by decide, ⟨rfl, rfl, ⟨rfl, rfl, rfl, rfl⟩, by decide, by decide, rfl⟩⟩

/-- Settles O57: a reset leaves of memory what the ROM lists, which is canonical and inside storage as before. -/
theorem invariantHoldsAtReset : Obligations.InvariantHoldsAtReset := by
  refine ⟨inv_reset, fun s hs => ?_⟩
  obtain ⟨-, -, hgpu, htimers, hchcr, hirq⟩ := inv_reset.platform
  have hstorage : storageOnly s.resetFrom.plat.mem = true :=
    List.all_eq_true.mpr fun c hc => List.all_eq_true.mp hs.platform.storage c (List.mem_of_mem_filter hc)
  exact ⟨inv_reset.zero, inv_reset.cause, inv_reset.mfAge,
    ⟨resetFrom_mem s ▸ Sparse.wf_filter romKey hs.platform.memory, hstorage, hgpu, htimers, hchcr, hirq⟩⟩

/-- Settles O60: the environment and an entry leave memory alone, and a run the bytes of the ROM. -/
theorem romNeverChanges : Obligations.RomNeverChanges := by
  intro e s t h
  obtain ⟨b, u, hb, hu, hcase⟩ := stepWith_enters_or_runs h
  have hbytes : ∀ a, byteAt b a = byteAt s a := fun a => by rw [byteAt, hb.plat]; rfl
  have hranges : b.plat.ignoredWrites = s.plat.ignoredWrites := by rw [hb.plat]; rfl
  rw [hu.plat, ← hranges]
  simp only [byteAt, hu.plat]
  rcases hcase with ⟨x, rfl⟩ | ⟨i, -, -, hx, hr⟩
  · exact ⟨fun a _ => hbytes a, rfl⟩
  · exact ⟨fun a ha => (hr.rom a ha).trans (hbytes a), exec_ignoredWrites hx⟩

/-! ## Runs -/

/-- The invariant holds along every run (R7). -/
theorem inv_of_reaches {s t : State} (hs : Safety.Inv s) (h : Reaches s t) : Safety.Inv t := by
  induction h with
  | start => exact hs
  | step e t u _ hstep ih => exact everyStepKeepsTheInvariant e t u ih hstep

/-- Settles O53: from a state of the invariant no instruction ends in the overflow, and every state reached is one. -/
theorem commandFifoNeverOverflows : Obligations.CommandFifoNeverOverflows := by
  intro s hs t ht e hf
  obtain ⟨i, b, hx, hplat⟩ := stepWith_fault hf
  have hp : PlatformInv b.plat := hplat ▸ (environmentMoves_keeps e t).2 (inv_of_reaches hs ht).platform
  simpa using exec_fault hp hx

/-! ## The end of user mode -/

/-- Settles O59: what runs in user mode leaves Status alone, so the mode ended by an entry. -/
theorem userModeEndsOnlyByException : Obligations.UserModeEndsOnlyByException := by
  intro e s t hs h ht
  obtain ⟨b, u, hb, hu, hcase⟩ := stepWith_enters_or_runs h
  have hstatus : b.status = s.status := hb.status
  rcases hcase with ⟨x, rfl⟩ | ⟨i, -, -, -, hr⟩
  · rw [hu.pc, hu.status, hu.cause, ← hstatus]
    obtain ⟨-, -, -, -, -, hcode, -, hpush, hpc, -⟩ := entered_enter x b
    refine ⟨hpc, hpush, ?_⟩
    rw [hcode]
    cases x <;> decide
  · have hbu : b.userMode = true := by rw [State.userMode, hstatus]; exact hs
    have : t.userMode = b.userMode := by rw [State.userMode, hu.status, (hr.user hbu).1]; rfl
    rw [this, hbu] at ht
    cases ht

/-! ## The delay slot -/

/-- A step that leaves a branch pending ran a branch: PC is the word after it (R42). -/
theorem pc_of_branchPending {e : Environment} {s t : State} (h : stepWith e s = .next t) (hp : t.branchPending = true) :
    t.pc = s.nextPC := by
  obtain ⟨b, u, -, hu, hcase⟩ := stepWith_enters_or_runs h
  rw [hu.branchPending] at hp
  rcases hcase with ⟨x, rfl⟩ | ⟨i, hb, -, -, hr⟩
  · cases hp
  · rw [hu.pc, hr.frame, hb]; rfl

/-- Settles O23: the step after a branch runs no branch, so it moves on to the target; or it enters an exception, with
the branch as the place to restart. -/
theorem delaySlotRunsBeforeTheTarget : Obligations.DelaySlotRunsBeforeTheTarget := by
  intro e e' s t u hs ht hp hu
  have hpc : t.pc = s.pc + 4#32 := (pc_of_branchPending ht hp).trans hs
  refine ⟨hpc, ?_⟩
  obtain ⟨b, v, hb, hv, hcase⟩ := stepWith_enters_or_runs hu
  have hdelay : b.branchDelay = true := hb.branchDelay.trans hp
  rcases hcase with ⟨x, rfl⟩ | ⟨i, hbegun, hbr, -, hr⟩
  · right
    obtain ⟨-, hepc, hbd, -, -, -, -, -, hvec, -⟩ := entered_enter x b
    rw [hv.epc, hv.cause, hv.branchPending, hv.pc, hepc, hbd, hvec, hb.status, hdelay, hb.currentPC]
    refine ⟨?_, rfl, rfl, rfl⟩
    rw [if_pos rfl, environmentMoves_pc, hpc, BitVec.add_sub_cancel]
  · left
    have hnot : i.isBranch = false := by
      have hpm : (environmentMoves e' t).branchPending = true := hp
      rwa [hpm, Bool.true_and] at hbr
    obtain ⟨hpend, hnext⟩ := hr.other hnot
    rw [hv.currentPC, hv.branchDelay, hv.branchPending, hv.pc, hv.nextPC, hpend, hnext, hr.frame]
    refine ⟨hb.currentPC, hdelay, ?_, ?_, ?_⟩ <;> rw [hbegun] <;> rfl

end Sys2Proof.Machine
end

section
/-! Proofs of the family "other", encoding: decoding the encoding (O1), and the written words (O4). -/

namespace Sys2Proof

open Sys2Proof.Machine Sys2Proof.Safety

/-- A word laid out in memory order and put together again (R60). -/
theorem wordOfBytes_bytesOfWord (w : Word) :
    wordOfBytes (w.extractLsb' 0 8) (w.extractLsb' 8 8) (w.extractLsb' 16 8) (w.extractLsb' 24 8) = w := by
  apply BitVec.eq_of_getLsbD_eq
  intro k hk
  rw [wordOfBytes, getLsbD_bytes4]
  simp only [BitVec.getLsbD_extractLsb']
  split
  · simp [*]
  · split
    · rw [decide_eq_true (by omega), Bool.true_and]; congr 1; omega
    · split <;> rw [decide_eq_true (by omega), Bool.true_and] <;> congr 1 <;> omega

/-- What the decoder makes of a word, it makes of the word's bits in memory order. -/
theorem decodeTableWord_of_ok {w : Word} {i : Instr} (h : decode w = .ok i) : decodeTableWord 32 w.toNat = some i := by
  have hw : BitVec.ofNat 32 (w.toNat % 2 ^ 32) = w := by
    rw [Nat.mod_eq_of_lt w.isLt, BitVec.ofNat_toNat, BitVec.setWidth_eq]
  simp only [decodeTableWord, hw, bytesOfWord, decodeBytes, wordOfBytes_bytesOfWord, h]

/-- The selector of BLTZ and BGEZ and the condition bit below it come back apart (R115). -/
theorem decode_formatI_selector {sel : BitVec 4} (hsel : sel ≠ 0b1000#4) (c : Bool) (rs : Reg) (imm : BitVec 16) :
    decode (formatI 0x01#6 rs (sel ++ BitVec.ofBool c) imm) =
      if c then .ok (.bgez rs sel imm) else .ok (.bltz rs sel imm) := by
  obtain ⟨hs, hc⟩ := rtField_eq_selector_iff.mp (rtField_formatI 0x01#6 rs (sel ++ BitVec.ofBool c) imm)
  rw [decode, opField_formatI]
  show decodeBcond _ = _
  rw [decodeBcond_of_not_link (by rwa [hs]), hs, hc, rsField_formatI, imm16Field_formatI]

/-- Every row's encoding decodes to its own operands. -/
theorem decode_encode {i : Instr} (hwf : i.wf = true) : decode (encode i) = .ok i := by
  cases i
  case bltz rs sel imm => exact decode_formatI_selector (bne_iff_ne.mp hwf) false rs imm
  case bgez rs sel imm => exact decode_formatI_selector (bne_iff_ne.mp hwf) true rs imm
  case rfe => decide
  case cop2 command =>
    rw [encode, decode, opField_formatCommand]
    exact (decodeCop2_command (getLsbD_four_rsField_formatCommand command)).trans
      (by rw [imm25Field_formatCommand])
  all_goals simp [encode, decode, decodeSpecial, decodeBcond, decodeCop0, decodeCop2]

/-- Settles O1: the decoder reads back the fields of every format, and the word's bytes are the word. -/
theorem decodeOfEncodeIsIdentity : Obligations.DecodeOfEncodeIsIdentity :=
  fun _ hwf => ⟨decode_encode hwf, decodeTableWord_of_ok (decode_encode hwf)⟩

/-- Settles O4: the decoder computes on each of the twenty words. -/
theorem writtenWordsDecode : Obligations.WrittenWordsDecode := by
  unfold Obligations.WrittenWordsDecode
  decide

end Sys2Proof
end

section
/-! Proofs of the family "other", loads and stores by form: misaligned accesses (O8), accesses as bus accesses (O31), isolated
stores and loads (O32, O33), and what user mode and a clear CU2 refuse (O34). -/

namespace Sys2Proof.Machine

open Sys2Proof.Safety

/-! ## The forms, said once -/

/-- The end of a load: what it makes of the value read, in the state after the read (R270 to R274, R349). -/
def loadEnd (rt : Reg) : Instr → Word × State → State
  | .lwc2 _ _ _, r => r.2.setGte (Config.gteWriteData r.2.gte rt r.1)
  | i, r => writeDelayed r.2 rt (extension i r.1)

/-- The value a store hands the bus (R290, R350). -/
def storeValue (s : State) (rt : Reg) (n : Size) : Instr → Word
  | .swc2 _ _ _ => Config.gteReadData s.gte rt
  | _ => n.low (readReg s rt)

section
variable {s : State} {rs rt : Reg} {imm : BitVec 16} {i : Instr} {n : Size}

theorem withCop2_of_usable (h : s.cop2Usable = true) (r : Result State) : withCop2 s r = r := if_pos h

theorem withCop2_of_clear (h : s.cop2Usable = false) (r : Result State) : withCop2 s r = .refused .cop2Unusable :=
  if_neg (ne_true_of_eq_false h)

theorem forall_loadForms {P : Instr → Size → Prop} (hlb : P (.lb rs rt imm) .byte) (hlbu : P (.lbu rs rt imm) .byte)
    (hlh : P (.lh rs rt imm) .half) (hlhu : P (.lhu rs rt imm) .half) (hlw : P (.lw rs rt imm) .word)
    (hlwc2 : P (.lwc2 rs rt imm) .word) (h : (i, n) ∈ loadForms rs rt imm) : P i n := by
  simp only [loadForms, List.mem_cons, Prod.mk.injEq, List.not_mem_nil, or_false] at h
  rcases h with ⟨rfl, rfl⟩ | ⟨rfl, rfl⟩ | ⟨rfl, rfl⟩ | ⟨rfl, rfl⟩ | ⟨rfl, rfl⟩ | ⟨rfl, rfl⟩ <;> assumption

theorem forall_storeForms {P : Instr → Size → Prop} (hsb : P (.sb rs rt imm) .byte) (hsh : P (.sh rs rt imm) .half)
    (hsw : P (.sw rs rt imm) .word) (hswc2 : P (.swc2 rs rt imm) .word) (h : (i, n) ∈ storeForms rs rt imm) :
    P i n := by
  simp only [storeForms, List.mem_cons, Prod.mk.injEq, List.not_mem_nil, or_false] at h
  rcases h with ⟨rfl, rfl⟩ | ⟨rfl, rfl⟩ | ⟨rfl, rfl⟩ | ⟨rfl, rfl⟩ <;> assumption

/-- A usable load: AdEL, or the end of its read (R275). -/
theorem exec_loadForm (h : (i, n) ∈ loadForms rs rt imm) (hu : Usable i s) :
    exec i s = if misaligned n (effectiveAddress s rs imm) then raise .adel s
      else mapNext (loadEnd rt i) (memRead (effectiveAddress s rs imm) n s) := by
  refine forall_loadForms (P := fun i n => Usable i s → exec i s = if misaligned n (effectiveAddress s rs imm)
    then raise .adel s else mapNext (loadEnd rt i) (memRead (effectiveAddress s rs imm) n s)) ?_ ?_ ?_ ?_ ?_ ?_ h hu
  case refine_6 => exact fun hu => withCop2_of_usable (hu rfl) _
  all_goals exact fun _ => rfl

/-- A usable store: AdES, or its write (R290). -/
theorem exec_storeForm (h : (i, n) ∈ storeForms rs rt imm) (hu : Usable i s) :
    exec i s = if misaligned n (effectiveAddress s rs imm) then raise .ades s
      else memWrite (effectiveAddress s rs imm) n (storeValue s rt n i) s := by
  refine forall_storeForms (P := fun i n => Usable i s → exec i s = if misaligned n (effectiveAddress s rs imm)
    then raise .ades s else memWrite (effectiveAddress s rs imm) n (storeValue s rt n i) s) ?_ ?_ ?_ ?_ h hu
  case refine_4 => exact fun hu => withCop2_of_usable (hu rfl) _
  all_goals exact fun _ => rfl

theorem exec_mergeLoadForm {f : Instr × LoadKind × (BitVec 2 → Word → Word → Word)} (h : f ∈ mergeLoadForms rs rt imm) :
    exec f.1 s = loadMerged f.2.1 f.2.2 rs rt imm s := by
  simp only [mergeLoadForms, List.mem_cons, List.not_mem_nil, or_false] at h
  rcases h with rfl | rfl <;> rfl

theorem exec_mergeStoreForm {f : Instr × (BitVec 2 → Word → Word → Word)} (h : f ∈ mergeStoreForms rs rt imm) :
    exec f.1 s = storeMerged f.2 rs rt imm s := by
  simp only [mergeStoreForms, List.mem_cons, List.not_mem_nil, or_false] at h
  rcases h with rfl | rfl <;> rfl

theorem exec_loadForm_aligned (h : (i, n) ∈ loadForms rs rt imm) (hu : Usable i s)
    (ha : AlignedTo n (effectiveAddress s rs imm)) :
    exec i s = mapNext (loadEnd rt i) (memRead (effectiveAddress s rs imm) n s) := by
  rw [exec_loadForm h hu, (misaligned_eq_false _ _).mpr ha, if_neg Bool.false_ne_true]

theorem exec_storeForm_aligned (h : (i, n) ∈ storeForms rs rt imm) (hu : Usable i s)
    (ha : AlignedTo n (effectiveAddress s rs imm)) :
    exec i s = memWrite (effectiveAddress s rs imm) n (storeValue s rt n i) s := by
  rw [exec_storeForm h hu, (misaligned_eq_false _ _).mpr ha, if_neg Bool.false_ne_true]

theorem loadEnd_of_ne (h : (i, n) ∈ loadForms rs rt imm) (hne : i ≠ .lwc2 rs rt imm) (r : Word × State) :
    loadEnd rt i r = writeDelayed r.2 rt (extension i r.1) := by
  refine forall_loadForms (P := fun i _ => i ≠ .lwc2 rs rt imm → loadEnd rt i r = writeDelayed r.2 rt (extension i r.1))
    ?_ ?_ ?_ ?_ ?_ ?_ h hne
  case refine_6 => exact fun h => absurd rfl h
  all_goals exact fun _ => rfl

/-- What a load other than LWC2 leaves after a read that moved only the platform (R278). -/
theorem loadEnd_spec (h : (i, n) ∈ loadForms rs rt imm) (hne : i ≠ .lwc2 rs rt imm) (v : Word) (p : Platform) :
    let t := loadEnd rt i (v, { s with plat := p })
    t = { s with regs := t.regs, ldNext := t.ldNext, plat := p } ∧ LoadWritten s t rt .whole (extension i v) := by
  rw [loadEnd_of_ne h hne]
  exact ⟨onlyLoaded_writeDelayed { s with plat := p } rt _, loadWritten_writeDelayed p rt _⟩

/-- What LWL and LWR leave after a read that moved only the platform (R278, R503). -/
theorem writeMerged_spec (kind : LoadKind) (v : Word) (p : Platform) :
    let t := writeMerged { s with plat := p } kind rt v
    t = { s with regs := t.regs, ldNext := t.ldNext, plat := p } ∧ LoadWritten s t rt kind v :=
  ⟨onlyLoaded_writeMerged { s with plat := p } kind rt v, loadWritten_afterRead p kind rt v⟩

theorem storeValue_eq (h : (i, n) ∈ storeForms rs rt imm) :
    storeValue s rt n i = if i = .swc2 rs rt imm then Config.gteReadData s.gte rt else n.low (readReg s rt) := by
  refine forall_storeForms (P := fun i n => storeValue s rt n i =
    if i = .swc2 rs rt imm then Config.gteReadData s.gte rt else n.low (readReg s rt)) ?_ ?_ ?_ ?_ h
  case refine_4 => exact (if_pos rfl).symm
  all_goals exact (if_neg (by simp)).symm

theorem byteOffset_eq_ofNat (ea : Word) : byteOffset ea = BitVec.ofNat 2 ea.toNat := by
  apply BitVec.eq_of_toNat_eq
  rw [toNat_byteOffset, BitVec.toNat_ofNat]

end

/-! ## Misaligned accesses (R73, R275, R381) -/

/-- Settles O8: alignment is the first thing a step looks at after interrupts, and an access after usability. -/
theorem misalignedAccessRaisesAddressError : Obligations.MisalignedAccessRaisesAddressError := by
  refine ⟨fun e s => ?fetch, fun s rs rt imm i n hu ha => ?access⟩
  case fetch =>
    intro m hi ha
    exact ⟨_, entered_enter .adel { m with currentPC := m.pc, branchDelay := m.branchPending },
      stepWith_of_misaligned hi ha⟩
  case access =>
    have hmis := (misaligned_eq_true n _).mpr ha
    refine ⟨fun h => raises_of_exec .adel ?_, fun h => raises_of_exec .ades ?_⟩
    · rw [exec_loadForm h hu, if_pos hmis]
    · rw [exec_storeForm h hu, if_pos hmis]

/-! ## Accesses that reach the bus (R77, R78) -/

/-- Settles O31: every form ends as its access ends, and an admitted access is the bus's. -/
theorem memoryInstructionsEndAsTheirBusAccessEnds : Obligations.MemoryInstructionsEndAsTheirBusAccessEnds := by
  intro s rs rt imm ea base ends loads
  have endsOfMap : ∀ {i : Instr} {r : Result (Word × Platform)} {f : Word × Platform → State},
      exec i s = mapNext f r → ends i r := fun h =>
    ⟨fun _ hr => by rw [h, hr, mapNext_fault], fun _ hr => by rw [h, hr, mapNext_refused]⟩
  refine ⟨fun i n hu ha => ⟨fun h hb => ?load, fun h hb => ?store⟩, fun f h hb => ?mergeLoad, fun f h hb => ?mergeStore⟩
  case load =>
    have hx : exec i s = mapNext (fun q => loadEnd rt i (q.1, { s with plat := q.2 })) (busRead (physical ea) n s.plat) := by
      rw [exec_loadForm_aligned h hu ha, memRead_of_bus hb]
      cases busRead (physical ea) n s.plat <;> rfl
    refine ⟨endsOfMap hx, fun q hq => ?_⟩
    rw [hq] at hx
    refine ⟨fun hne => ⟨_, hx, loadEnd_spec h hne q.1 q.2⟩, fun he => ?_⟩
    subst he; exact hx
  case store =>
    rw [exec_storeForm_aligned h hu ha, memWrite_of_bus hb, storeValue_eq h]
  case mergeLoad =>
    have hx := exec_mergeLoadForm (s := s) h
    rw [loadMerged_of_bus hb, byteOffset_eq_ofNat] at hx
    refine ⟨endsOfMap hx, fun q hq => ?_⟩
    rw [show busRead _ _ _ = _ from hq] at hx
    exact ⟨_, hx, writeMerged_spec _ _ q.2⟩
  case mergeStore =>
    rw [exec_mergeStoreForm h, storeMerged_of_bus hb, byteOffset_eq_ofNat]

/-! ## Isolated stores (R96) -/

section
variable {s : State} {va : Word}

theorem translate_eq_ccr_iff (va : Word) : translate va = 0xFFFE0130#32 ↔ physical va = 0xFFFE0130 := by
  rw [← BitVec.toNat_inj]; rfl

/-- CCR lies in KSEG2, which is not cached (R62, R64). -/
theorem cached_of_physical_ccr (h : physical va = 0xFFFE0130) : cached va = false := by
  rw [physical_eq] at h
  rw [← Bool.not_eq_true, cached_iff]
  have := va.isLt
  split at h <;> omega

theorem isolatedStore_word (va : Word) (v : Word) (s : State) : isolatedStore va .word v s =
    if physical va = 0xFFFE0130 then { s with plat := { s.plat with ccr := v } } else s := by
  simp only [isolatedStore, translate_eq_ccr_iff]

/-- A byte or halfword store invalidates the line at its index and leaves the others (R96). -/
theorem isolatedStore_narrow {n : Size} (hn : n ≠ .word) (v : Word) :
    let t := isolatedStore va n v s
    t = { s with icache := t.icache } ∧
    t.line (va.extractLsb' 4 8) = { s.line (va.extractLsb' 4 8) with valid := false } ∧
    ∀ j, j ≠ va.extractLsb' 4 8 → t.line j = s.line j := by
  cases n
  case word => exact absurd rfl hn
  all_goals exact ⟨rfl, State.line_setLine_same .., fun j hj => State.line_setLine_of_ne s _ hj⟩

theorem forbidden_wordBase {ea : Word} : Forbidden s (wordBase ea) ↔ Forbidden s ea := by
  unfold Forbidden; rw [wordBase_31]

/-- SWL and SWR while isolated: the read of the word they merge into, then the isolated store (R96, R288, R289). -/
theorem storeMerged_isolated {rs rt : Reg} {imm : BitVec 16} {merge : BitVec 2 → Word → Word → Word}
    (hf : ¬ Forbidden s (effectiveAddress s rs imm)) (hi : s.cacheIsolated = true) :
    storeMerged merge rs rt imm s = mapNext (fun r => isolatedStore (wordBase (effectiveAddress s rs imm)) .word
        (merge (byteOffset (effectiveAddress s rs imm)) (readReg s rt) r.1) r.2)
      (memRead (wordBase (effectiveAddress s rs imm)) .word s) := by
  unfold storeMerged
  dsimp only
  cases hr : memRead (wordBase (effectiveAddress s rs imm)) .word s with
  | next r =>
    have hstatus : r.2.status = s.status := by rw [(memRead_keeps hr).1]
    refine memWrite_isolated (fun h => hf ?_) (by rw [State.cacheIsolated, hstatus]; exact hi) _ _
    rw [Forbidden, State.userMode, hstatus] at h
    exact forbidden_wordBase.mp h
  | fault => rfl
  | refused => rfl

theorem load_of_uncached (hf : ¬ Forbidden s va) (hc : cached va = false) : LoadReachesBus s va :=
  ⟨hf, fun h => by rw [hc] at h; cases h.2⟩

theorem busRead_ccr (p : Platform) : busRead 0xFFFE0130 .word p = .next (p.ccr, p) := rfl

theorem busWrite_ccr (v : Word) (p : Platform) : busWrite 0xFFFE0130 .word v p = .next { p with ccr := v } := rfl

end

/-- Settles O32: an isolated store is `isolatedStore`, and SWL and SWR read the word they merge into as a load does. -/
theorem isolatedStoresReachOnlyTheCache : Obligations.IsolatedStoresReachOnlyTheCache := by
  intro s rs rt imm ea base invalidates writes hi hf
  have invalidatesOfForm : ∀ {i : Instr} {n : Size}, (i, n) ∈ storeForms rs rt imm → isCop2 i = false → n ≠ .word →
      AlignedTo n ea → invalidates i := by
    intro i n h hcop hn ha
    refine ⟨isolatedStore ea n (storeValue s rt n i) s, ?_, isolatedStore_narrow hn _⟩
    rw [exec_storeForm_aligned h (fun h => by rw [hcop] at h; cases h) ha, memWrite_isolated hf hi]
  have writesOfForm : ∀ {i : Instr}, (i, Size.word) ∈ storeForms rs rt imm → Usable i s → AlignedTo .word ea →
      writes i (storeValue s rt .word i) := by
    intro i h hu ha
    show exec i s = _
    rw [exec_storeForm_aligned h hu ha, memWrite_isolated hf hi, isolatedStore_word]
  have hfb : ¬ Forbidden s base := mt forbidden_wordBase.mp hf
  refine ⟨invalidatesOfForm (n := .byte) (by simp [storeForms]) rfl (by simp) (aligned_byte ea),
    invalidatesOfForm (n := .half) (by simp [storeForms]) rfl (by simp),
    writesOfForm (by simp [storeForms]) (fun h => by cases h),
    fun ha hu => writesOfForm (by simp [storeForms]) (fun _ => hu) ha,
    fun f h => ?_⟩
  rw [exec_mergeStoreForm h, storeMerged_isolated hf hi]
  refine ⟨fun hc => ?drawn, fun hc hst => ?storage, fun hccr => ?ccr⟩
  case drawn =>
    have hne : physical base ≠ 0xFFFE0130 := fun h => by rw [cached_of_physical_ccr h] at hc; cases hc
    rw [memRead_isolated hfb hi hc, mapNext_next, isolatedStore_word, if_neg hne]
  case storage =>
    have hne : physical base ≠ 0xFFFE0130 := fun h => by
      rw [h] at hst; revert hst; decide
    rw [memRead_of_storage (load_of_uncached hfb hc) hst, mapNext_next, isolatedStore_word, if_neg hne]
  case ccr =>
    rw [memRead_of_bus (load_of_uncached hfb (cached_of_physical_ccr hccr)), hccr, busRead_ccr, mapNext_next,
      mapNext_next, isolatedStore_word, if_pos hccr, byteOffset_eq_ofNat]

/-! ## Isolated loads (R97) -/

/-- The state with IsC clear. -/
def State.unisolated (s : State) : State := { s with status := s.status &&& ~~~0x00010000#32 }

theorem forbidden_unisolated {s : State} {va : Word} : Forbidden s.unisolated va ↔ Forbidden s va := by
  have : s.unisolated.userMode = s.userMode := by simp [State.userMode, State.unisolated]
  rw [Forbidden, this]

/-- A read from an uncached segment does not look at IsC (R97). -/
theorem memRead_unisolated {s : State} {va : Word} (hc : cached va = false) (n : Size) :
    memRead va n s.unisolated = mapNext (fun r => (r.1, r.2.unisolated)) (memRead va n s) := by
  by_cases hf : Forbidden s va
  · rw [memRead_of_forbidden hf, memRead_of_forbidden (forbidden_unisolated.mpr hf), mapNext_refused]
  · rw [memRead_of_bus (load_of_uncached hf hc), memRead_of_bus (load_of_uncached (mt forbidden_unisolated.mp hf) hc)]
    show mapNext _ (busRead (physical va) n s.plat) = _
    cases busRead (physical va) n s.plat <;> rfl

/-- Settles O33: the read is the draw; from an uncached segment the isolation is not looked at. -/
theorem isolatedLoadsReadADraw : Obligations.IsolatedLoadsReadADraw := by
  refine ⟨fun s rs rt imm => ?_, fun s va n hc => memRead_unisolated hc n⟩
  · intro ea drawn plat' loads hi hf hc
    refine ⟨fun i n h hu ha => ?_, fun f h => ?_⟩
    · have hx := exec_loadForm_aligned h hu ha
      rw [memRead_isolated hf hi hc, mapNext_next] at hx
      refine ⟨fun hne => ⟨_, hx, loadEnd_spec h hne _ _⟩, fun he => ?_⟩
      subst he
      obtain rfl : n = .word := by simpa [loadForms] using h
      exact hx
    · have hx := exec_mergeLoadForm (s := s) h
      rw [loadMerged_isolated hf hi hc, byteOffset_eq_ofNat] at hx
      exact ⟨_, hx, writeMerged_spec _ _ plat'⟩

/-! ## Refusals (R65, R312, R341) -/

section
variable {s : State}

theorem loadMerged_of_forbidden {kind : LoadKind} {merge : BitVec 2 → Word → Word → Word} {rs rt : Reg}
    {imm : BitVec 16} (hf : Forbidden s (effectiveAddress s rs imm)) :
    loadMerged kind merge rs rt imm s = .refused .userKernelAccess := by
  unfold loadMerged
  dsimp only
  rw [memRead_of_forbidden (forbidden_wordBase.mpr hf), mapNext_refused]

theorem storeMerged_of_forbidden {merge : BitVec 2 → Word → Word → Word} {rs rt : Reg} {imm : BitVec 16}
    (hf : Forbidden s (effectiveAddress s rs imm)) : storeMerged merge rs rt imm s = .refused .userKernelAccess := by
  unfold storeMerged
  dsimp only
  rw [memRead_of_forbidden (forbidden_wordBase.mpr hf), andThen_refused]

theorem fetch_of_forbidden {va : Word} (hf : Forbidden s va) : fetch va s = .refused .userKernelAccess :=
  if_pos ((forbids_iff s va).mpr hf)

/-- In kernel mode MFC0, MTC0 and RFE complete (R312). -/
theorem exec_cop0_of_kernel (hu : s.userMode = false) (rt rd : Reg) :
    ∀ i ∈ [Instr.mfc0 rt rd, .mtc0 rt rd, .rfe], ∃ t, exec i s = .next t := by
  rw [List.forall_mem_cons, List.forall_mem_cons, List.forall_mem_singleton]
  exact ⟨⟨_, exec_mfc0_of_kernel hu rt rd⟩, ⟨_, exec_mtc0_of_kernel hu rt rd⟩, ⟨_, exec_rfe_of_kernel hu⟩⟩

theorem gteCommand_not_refused (e : GteEngine) (command : BitVec 25) (g : GteState) (r : Refusal) :
    gteCommand e command g ≠ .refused r := by
  unfold gteCommand
  split
  · simp
  · split <;> simp

/-- Behind the check of CU2 no coprocessor-2 instruction is refused as unusable again (R341). -/
theorem exec_cop2_form {i : Instr} (h : isCop2 i = true) (s : State) :
    ∃ r, exec i s = withCop2 s r ∧ r ≠ .refused .cop2Unusable := by
  cases i
  case cop2 command =>
    exact ⟨_, rfl, fun h => gteCommand_not_refused _ _ _ _ (mapNext_eq_refused.mp h)⟩
  case lwc2 rs rt imm =>
    refine ⟨_, rfl, fun h => ?_⟩
    split at h
    · cases h
    · simpa using memRead_refused (mapNext_eq_refused.mp h)
  case swc2 rs rt imm =>
    refine ⟨_, rfl, fun h => ?_⟩
    split at h
    · cases h
    · simpa using memWrite_refused h
  case mfc2 | cfc2 | mtc2 | ctc2 => exact ⟨_, rfl, by simp⟩
  all_goals cases h

end

/-- Settles O34: an access of a kernel address is refused before the bus, and each mode check comes before its
instruction. -/
theorem privilegeRefusals : Obligations.PrivilegeRefusals := by
  refine ⟨fun s rs rt imm i n hf => ⟨fun h hu ha => ?access, fun h => ?merged⟩, fun s va => fetch_of_forbidden,
    fun s rt rd i h => ?cop0, fun s i h => ?cop2⟩
  case access =>
    rcases List.mem_append.mp h with h | h
    · rw [exec_loadForm_aligned h hu ha, memRead_of_forbidden hf, mapNext_refused]
    · rw [exec_storeForm_aligned h hu ha, memWrite_of_forbidden hf]
  case merged =>
    revert i
    rw [List.forall_mem_cons, List.forall_mem_cons, List.forall_mem_cons, List.forall_mem_singleton]
    exact ⟨loadMerged_of_forbidden hf, loadMerged_of_forbidden hf, storeMerged_of_forbidden hf,
      storeMerged_of_forbidden hf⟩
  case cop0 =>
    cases hu : s.userMode with
    | true => exact iff_of_true (exec_cop0_of_user hu rt rd i h) rfl
    | false =>
      obtain ⟨t, ht⟩ := exec_cop0_of_kernel hu rt rd i h
      exact iff_of_false (by rw [ht]; simp) Bool.false_ne_true
  case cop2 =>
    obtain ⟨r, hx, hr⟩ := exec_cop2_form h s
    rw [hx]
    cases hu : s.cop2Usable with
    | true => exact iff_of_false (by rwa [withCop2_of_usable hu]) (by simp)
    | false => exact iff_of_true (withCop2_of_clear hu r) rfl

end Sys2Proof.Machine
end

section
/-! Proofs of the family "other", state and frame: the environment (O10), reset (O11, O12), register reads (O35), and what only
the stores change (O36). -/

namespace Sys2Proof.Machine

open Sys2Proof.Safety

/-! ## The environment between two steps (R371, R379, R411) -/

theorem getLsbD_devSources (b : Nat) : devSources.getLsbD b = decide (b ∈ [0, 1, 2, 7, 8, 9, 10]) := by
  by_cases h : b < 11
  · interval_cases b <;> rfl
  · rw [BitVec.getLsbD_of_ge _ _ (by omega), eq_comm, decide_eq_false_iff_not]
    simp
    omega

/-- I_STAT after the environment's move: the clock's, and the asserted sources that `DEV` owns. -/
theorem getLsbD_environmentMoves_iStat (e : Environment) (s : State) (b : Nat) :
    (environmentMoves e s).plat.iStat.getLsbD b = ((clockCycles e.cycles s.plat).iStat.getLsbD b ||
      (e.asserts.getLsbD b && decide (b ∈ [0, 1, 2, 7, 8, 9, 10]))) := by
  rw [← getLsbD_devSources, ← BitVec.getLsbD_and, ← BitVec.getLsbD_or]
  rfl

/-- Settles O10: the clock moves the timers and their sources, `DEV` its own, and one draw is used up besides. -/
theorem environmentOnlyMovesTimersAndRaisesInterrupts : Obligations.EnvironmentOnlyMovesTimersAndRaisesInterrupts := by
  intro e s m
  have hclock := clockCycles_iStat e.cycles s.plat
  have hbit : ∀ b, m.plat.iStat.getLsbD b = true ↔ (clockCycles e.cycles s.plat).iStat.getLsbD b = true ∨
      (b ∈ [0, 1, 2, 7, 8, 9, 10] ∧ e.asserts.getLsbD b = true) := by
    intro b
    rw [getLsbD_environmentMoves_iStat, Bool.or_eq_true, Bool.and_eq_true, decide_eq_true_iff, and_comm]
  refine ⟨rfl, fun b h => ?_, fun b hb ha => ?_, fun b h => ?_, Nat.lt_succ_of_le (hclock 0).2.2⟩
  · exact (hbit b).mpr (.inl ((hclock b).1 h))
  · exact (hbit b).mpr (.inr ⟨hb, ha⟩)
  · rcases (hbit b).mp h with h | h
    · exact ((hclock b).2.1 h).imp_right .inr
    · exact .inr (.inl h)

/-! ## Reset (R500 to R502) -/

/-- Settles O11: every field is that of `State.reset`, and a reset of any machine copies what it keeps. -/
theorem resetValuesAreTheStatedOnes : Obligations.ResetValuesAreTheStatedOnes := by
  unfold Obligations.ResetValuesAreTheStatedOnes
  refine ⟨rfl, rfl, rfl, rfl, rfl, rfl, rfl, rfl, rfl, rfl, rfl, rfl, rfl, rfl, rfl, rfl, rfl, rfl, by decide,
    by decide, rfl, rfl, rfl, rfl, rfl, rfl, rfl, fun s => ⟨rfl, rfl, rfl⟩⟩

/-- A reset keeps the ROM (R71, R500). -/
theorem byteAt_resetFrom (s : State) {a : Nat} (h : InBios a) : byteAt s.resetFrom a = byteAt s a :=
  Sparse.read_filter s.plat.mem romKey (decide_eq_true h)

/-- Settles O12: right after a reset interrupts are off, the cache is off, and PC is the ROM's first word. -/
theorem firstStepAfterResetRunsTheRom : Obligations.FirstStepAfterResetRunsTheRom := by
  intro e s r
  refine ⟨fun a => byteAt_resetFrom s, ?_⟩
  let m := environmentMoves e r
  have hstatus : m.status = 0x00400000#32 := rfl
  have hccr : m.plat.ccr = 0#32 := rfl
  have hpc : m.pc = 0xBFC00000#32 := rfl
  have hpending : m.interruptPending = false := by
    rw [State.interruptPending, State.interruptsEnabled, hstatus]; rfl
  have hadmitted : ¬ Forbidden m 0xBFC00000#32 := by rw [Forbidden, State.userMode, hstatus]; decide
  have huncached : ¬ ThroughCache m 0xBFC00000#32 := by rw [ThroughCache, hccr]; decide
  have hword : r.plat.mem.read 0x1FC00000 .word = s.plat.mem.read 0x1FC00000 .word :=
    Memory.read_congr _ _ fun k hk => byteAt_resetFrom s ⟨by omega, by have : k < 4 := hk; omega⟩
  have hfetch : fetch m.pc m = .next (s.plat.mem.read 0x1FC00000 .word, m) := by
    rw [← hword, hpc, fetch_uncached hadmitted huncached,
      fetchBus_of_fetchable (by decide)]
    rfl
  rw [stepWith_of_aligned hpending (by rw [hpc]; decide), fetch_begin, hfetch]
  rfl

/-! ## Register reads (R21, R503) -/

/-- Settles O35: only a pending load of the very register gives a read a choice. -/
theorem loadDelaySlotReadsOldOrNew : Obligations.LoadDelaySlotReadsOldOrNew := by
  intro s r d
  refine ⟨readReg_zero s, fun h => readReg_of_not_pending s (pendingOld_of_ldNow_none s h), fun h hne => ?other,
    fun h heq => ?same⟩
  case other =>
    exact readReg_of_not_pending s (by rw [State.pendingOld, h]; exact if_neg fun hd => hne hd.1)
  case same =>
    cases hp : s.pendingOld r with
    | none => exact .inl (readReg_of_not_pending s hp)
    | some old =>
      obtain ⟨-, d', hd', -, hold⟩ := (pendingOld_eq_some s).mp hp
      rw [h, Option.some.injEq] at hd'
      rw [hd', hold]
      exact readReg_of_pending s hp

/-! ## The frame of memory (R43, R76, R98, R290) -/

/-- Settles O36: an entry changes no memory, and what ran is within the frame of its store. -/
theorem onlyStoresChangeMemory : Obligations.OnlyStoresChangeMemory := by
  intro i s t h
  rcases exec_cases h with ⟨x, rfl, hx⟩ | hr
  · refine ⟨fun _ => ⟨rfl, rfl⟩, fun a n hst => .inl ?_⟩
    rcases hx with ⟨hnone, -⟩ | ⟨-, rfl⟩
    · rw [hst] at hnone; cases hnone
    · exact entered_enter .ades s
  · exact ⟨hr.quiet, fun a n hst => .inr (hr.store a n hst)⟩

end Sys2Proof.Machine
end

section
/-! Proofs of the family "other", HI and LO: products (O18), moves and hazards (O20). -/

namespace Sys2Proof.Machine

open Sys2Proof.Safety

section
variable {s : State}

theorem writeProduct_next (h : 2 ≤ s.mfAge) (p : BitVec 64) :
    writeProduct p s = .next (s.setHiLo (p.extractLsb' 32 32) (p.extractLsb' 0 32)) := whenHiLoFree_next h

/-- 64 bits hold the exact signed product (R200). -/
theorem toInt_product (a b : Word) : (BitVec.ofInt 64 (a.toInt * b.toInt)).toInt = a.toInt * b.toInt := by
  obtain ⟨hlow, hhigh⟩ := mul_bounds a b
  rw [BitVec.toInt_ofInt]
  exact Int.bmod_eq_of_le (by omega) (by omega)

/-- 64 bits hold the exact unsigned product (R201). -/
theorem toNat_product (a b : Word) : (BitVec.ofNat 64 (a.toNat * b.toNat)).toNat = a.toNat * b.toNat := by
  rw [BitVec.toNat_ofNat]
  exact Nat.mod_eq_of_lt (by have := Nat.mul_lt_mul'' a.isLt b.isLt; omega)

/-- Settles O18: HI and LO are the halves of a product that 64 bits hold. -/
theorem multiplyGivesTheExactProduct : Obligations.MultiplyGivesTheExactProduct := by
  intro s rs rt h
  refine ⟨⟨_, writeProduct_next h _, rfl, ?_⟩, ⟨_, writeProduct_next h _, rfl, ?_⟩⟩
  · exact (product_halves_int _).trans (toInt_product _ _)
  · exact (product_halves_nat _).trans (toNat_product _ _)

/-! ## Moves and hazards (R206 to R209, R507) -/

theorem otherHalf_of_read (h : s.hiloUnread = false) (half : Word) : otherHalf half s = (half, s) :=
  if_neg (ne_true_of_eq_false h)

theorem otherHalf_of_unread (h : s.hiloUnread = true) (half : Word) :
    otherHalf half s = (Config.freeWord s.plat.draws, { s with plat := { s.plat with draws := s.plat.draws + 1 } }) :=
  if_pos h

theorem exec_mthi_eq (h : 2 ≤ s.mfAge) (rs : Reg) :
    exec (.mthi rs) s = .next ((otherHalf s.lo s).2.setHiLo (readReg s rs) (otherHalf s.lo s).1) := whenHiLoFree_next h

theorem exec_mtlo_eq (h : 2 ≤ s.mfAge) (rs : Reg) :
    exec (.mtlo rs) s = .next ((otherHalf s.hi s).2.setHiLo (otherHalf s.hi s).1 (readReg s rs)) := whenHiLoFree_next h

theorem whenHiLoFree_refused_iff (s t : State) : whenHiLoFree s t = .refused .hiLoHazard ↔ s.mfAge < 2 := by
  unfold whenHiLoFree; split <;> simp [*]

/-- The six writers of HI and LO are behind the one check (R507). -/
theorem exec_hiLoWriter (s : State) (rs rt : Reg) :
    ∀ i ∈ [Instr.mult rs rt, .multu rs rt, .div rs rt, .divu rs rt, .mthi rs, .mtlo rs],
      ∃ t, exec i s = whenHiLoFree s t := by
  simp only [List.forall_mem_cons]
  exact ⟨⟨_, rfl⟩, ⟨_, rfl⟩, ⟨_, rfl⟩, ⟨_, rfl⟩, ⟨_, rfl⟩, ⟨_, rfl⟩, by simp⟩

end

/-- Settles O20: each instruction is its move, behind the check of the age for the six writers. -/
theorem hiLoMovesAndHazards : Obligations.HiLoMovesAndHazards := by
  refine ⟨fun s rs rd => ⟨writes_of_exec s rfl, writes_of_exec s rfl, fun h hr => ?read, fun h hu => ?unread⟩,
    fun s rs rt i hi => ?hazard⟩
  case read => rw [exec_mthi_eq h, exec_mtlo_eq h, otherHalf_of_read hr, otherHalf_of_read hr]; exact ⟨rfl, rfl⟩
  case unread => rw [exec_mthi_eq h, exec_mtlo_eq h, otherHalf_of_unread hu, otherHalf_of_unread hu]; exact ⟨rfl, rfl⟩
  case hazard =>
    obtain ⟨t, ht⟩ := exec_hiLoWriter s rs rt i hi
    rw [ht, whenHiLoFree_refused_iff]

end Sys2Proof.Machine
end

section
/-! Proofs of the family "other", coprocessor 2: moves and transfers (O39), commands (O40), saturation and flags (O41). -/

namespace Sys2Proof.Machine

open Sys2Proof.Safety

/-! ## Moves and transfers (R342 to R345, R349, R350) -/

/-- Settles O39: with CU2 set each instruction is what stands behind the check, and its access is that of a word. -/
theorem coprocessorTwoMovesAndTransfers : Obligations.CoprocessorTwoMovesAndTransfers := by
  intro s rs rt rd imm hu
  refine ⟨loads_of_exec s (withCop2_of_usable hu _), loads_of_exec s (withCop2_of_usable hu _),
    withCop2_of_usable hu _, withCop2_of_usable hu _, fun ha => ⟨fun hb hs => ?load, fun hw hb hwr => ?store⟩⟩
  case load =>
    refine ⟨s.plat.mem.read (physical (effectiveAddress s rs imm)) .word,
      fun k hk => Memory.wordByte_read _ _ .word k hk, ?_⟩
    rw [exec_loadForm_aligned (n := .word) (rt := rt) (by simp [loadForms]) (fun _ => hu) ha, memRead_of_storage hb hs]
    rfl
  case store =>
    refine stores_of_exec (n := .word) hw ?_ fun k _ => rfl
    rw [exec_storeForm_aligned (n := .word) (rt := rt) (by simp [storeForms]) (fun _ => hu) ha, memWrite_of_writable hb hwr]
    rfl

/-! ## Flag bits (R346) -/

theorem getLsbD_flagBit (n k : Nat) (b : Bool) : (flagBit n b).getLsbD k = (decide (k < 32) && decide (k = n) && b) := by
  unfold flagBit
  cases b
  · simp
  · show (BitVec.twoPow 32 n).getLsbD k = _
    rw [BitVec.getLsbD_twoPow, Bool.and_true]
    by_cases h : n = k
    · subst h; simp
    · simp [h, Ne.symm h]

/-- The summary changes no bit but 31 (R346). -/
theorem getLsbD_withSummary (flags : Word) {k : Nat} (h : k < 31) :
    (withSummary flags).getLsbD k = flags.getLsbD k := by
  have hmask : (0x7FFFFFFF#32).getLsbD k = true := by interval_cases k <;> rfl
  rw [withSummary, BitVec.getLsbD_or, BitVec.getLsbD_and, getLsbD_flagBit, hmask, decide_eq_false (p := k = 31) (by omega)]
  simp

theorem getLsbD_summaryMask (k : Nat) :
    (0x7F87E000#32).getLsbD k = true ↔ (23 ≤ k ∧ k ≤ 30) ∨ (13 ≤ k ∧ k ≤ 18) := by
  by_cases h : k < 32
  · interval_cases k <;> simp
  · rw [BitVec.getLsbD_of_ge _ _ (by omega)]
    exact iff_of_false Bool.false_ne_true (by omega)

/-- Bit 31 sums up bits [30:23] and [18:13] (R346). -/
theorem getLsbD_withSummary_31 (flags : Word) : (withSummary flags).getLsbD 31 = true ↔
    ∃ k, ((23 ≤ k ∧ k ≤ 30) ∨ (13 ≤ k ∧ k ≤ 18)) ∧ (withSummary flags).getLsbD k = true := by
  have hbit : (withSummary flags).getLsbD 31 = (flags &&& 0x7F87E000#32 != 0#32) := by
    rw [withSummary, BitVec.getLsbD_or, BitVec.getLsbD_and, getLsbD_flagBit]; simp
  rw [hbit, bne_iff_ne, ne_eq, BitVec.eq_of_getLsbD_eq_iff]
  simp only [BitVec.getLsbD_and, BitVec.getLsbD_zero, not_forall, Bool.not_eq_false, Bool.and_eq_true,
    getLsbD_summaryMask]
  constructor
  · rintro ⟨k, -, hf, hk⟩
    exact ⟨k, hk, by rwa [getLsbD_withSummary flags (by omega)]⟩
  · rintro ⟨k, hk, hf⟩
    exact ⟨k, by omega, by rwa [getLsbD_withSummary flags (by omega)] at hf, hk⟩

/-- The colour bits stand at 19 to 21. -/
theorem getLsbD_colourClips (c : BitVec 3) (k : Nat) :
    ((c.setWidth 32) <<< 19).getLsbD k = (decide (k < 32) && !decide (k < 19) && c.getLsbD (k - 19)) := by
  rw [BitVec.getLsbD_shiftLeft, BitVec.getLsbD_setWidth]
  by_cases h : k < 32
  · rw [decide_eq_true (p := k - 19 < 32) (by omega), Bool.true_and]
  · simp [h]

/-- The flag bits of the saturating helpers, by number (R346). -/
def saturationFlag (cmd : BitVec 25) (r : GteRaw) : Nat → Bool
  | 30 => above (mac43 - 1) r.mac1
  | 29 => above (mac43 - 1) r.mac2
  | 28 => above (mac43 - 1) r.mac3
  | 27 => below (-mac43) r.mac1
  | 26 => below (-mac43) r.mac2
  | 25 => below (-mac43) r.mac3
  | 24 => outside (irFloor cmd) 0x7FFF r.ir1
  | 23 => outside (irFloor cmd) 0x7FFF r.ir2
  | 22 => outside (irFloor cmd) 0x7FFF r.ir3
  | 21 => r.colourClips.getLsbD 2
  | 20 => r.colourClips.getLsbD 1
  | 19 => r.colourClips.getLsbD 0
  | 18 => outside 0 0xFFFF r.screenZ
  | 16 => above 2147483647 r.mac0
  | 15 => below (-2147483648) r.mac0
  | 14 => outside (-0x400) 0x3FF r.screenX
  | 13 => outside (-0x400) 0x3FF r.screenY
  | 12 => outside 0 0xFFF r.ir0
  | _ => false

theorem getLsbD_saturationFlags (cmd : BitVec 25) (r : GteRaw) {k : Nat} (h : k < 32) :
    (saturationFlags cmd r).getLsbD k = saturationFlag cmd r k := by
  simp only [saturationFlags, BitVec.getLsbD_or, getLsbD_flagBit, getLsbD_colourClips]
  interval_cases k <;> simp [saturationFlag]

/-! ## Commands (R348) -/

section
variable {e : GteEngine} {command : BitVec 25} {op : GteOperation}

theorem gteOperation_eq_some (hn : command.extractLsb' 0 6 ≠ 0x3F#6)
    (h : e.operation (command.extractLsb' 0 6) = some op) : gteOperation e command = some op :=
  (if_neg hn).trans h

theorem gteInvalidSelector_iff : gteInvalidSelector e op command = true ↔
    op = .mvmva ∧ command.extractLsb' 13 6 ≠ 0#6 ∧ e.acceptsSelectors (command.extractLsb' 13 6) = false := by
  unfold gteInvalidSelector gteSelectors
  simp [and_assoc]

theorem gteCommand_of_unknown (h : command.extractLsb' 0 6 = 0x3F#6 ∨ e.operation (command.extractLsb' 0 6) = none)
    (g : GteState) : gteCommand e command g = .next g := by
  have hop : gteOperation e command = none := by
    unfold gteOperation gteNumber
    split
    · rfl
    · exact h.resolve_left ‹_›
  rw [gteCommand, hop]

theorem gteCommand_of_valid (hop : gteOperation e command = some op)
    (hv : gteInvalidSelector e op command = false) (g : GteState) :
    gteCommand e command g = .next (runGteCommand e op command g) := by
  rw [gteCommand, hop]
  exact if_neg (ne_true_of_eq_false hv)

theorem gteCommand_of_invalid (hop : gteOperation e command = some op)
    (hv : gteInvalidSelector e op command = true) (g : GteState) :
    gteCommand e command g = .fault .invalidGteSelector := by
  rw [gteCommand, hop]
  exact if_pos hv

/-- Selector fields 0 are accepted, so every command with them completes (R348, E6). -/
theorem gteCommand_of_selectors_zero (h : command.extractLsb' 13 6 = 0#6) (g : GteState) :
    ∃ g', gteCommand e command g = .next g' := by
  cases hop : gteOperation e command with
  | none => exact ⟨g, by rw [gteCommand, hop]⟩
  | some op =>
    refine ⟨_, gteCommand_of_valid hop (Bool.eq_false_iff.mpr fun hv => ?_) g⟩
    exact (gteInvalidSelector_iff.mp hv).2.1 h

/-- The flags of a known command below bit 31: the helpers' and, in bit 17, those of its divides (R346, R347). -/
theorem getLsbD_runGteCommand_flags (e : GteEngine) (op : GteOperation) (command : BitVec 25) (g : GteState) {k : Nat}
    (h : k < 31) :
    let cleared := { g with flags := 0#32 }
    let divides := gteDivides e op command cleared
    (runGteCommand e op command g).flags.getLsbD k =
      (saturationFlag command (e.arith command cleared (divides.map Prod.fst)) k ||
        (decide (k = 17) && divides.any Prod.snd)) := by
  intro cleared divides
  show (withSummary _).getLsbD k = _
  rw [getLsbD_withSummary _ h, BitVec.getLsbD_or, getLsbD_saturationFlags _ _ (by omega), getLsbD_flagBit,
    decide_eq_true (p := k < 32) (by omega), Bool.true_and]

end

/-- A known command that is no invalid MVMVA completes with its flags summed up (R346, R348). -/
theorem gteCommand_of_known {e : GteEngine} {command : BitVec 25} {op : GteOperation}
    (hop : gteOperation e command = some op) (hv : gteInvalidSelector e op command = false) (g : GteState) :
    ∃ g', gteCommand e command g = .next g' ∧
      (g'.flags.getLsbD 31 = true ↔ ∃ k, ((23 ≤ k ∧ k ≤ 30) ∨ (13 ≤ k ∧ k ≤ 18)) ∧ g'.flags.getLsbD k = true) ∧
      ∀ k, k < 12 → g'.flags.getLsbD k = false := by
  refine ⟨_, gteCommand_of_valid hop hv g, getLsbD_withSummary_31 _, fun k hk => ?_⟩
  rw [getLsbD_runGteCommand_flags e op command g (by omega), decide_eq_false (by omega), Bool.false_and, Bool.or_false]
  interval_cases k <;> rfl

/-- Settles O40: unknown, known and invalid commands are the three ways of the command function, for every engine. -/
theorem coprocessorTwoCommands : Obligations.CoprocessorTwoCommands := by
  refine ⟨fun s command hu => ?instruction, fun e command g => ?command⟩
  case instruction =>
    have hx : exec (.cop2 command) s = mapNext s.setGte (gteCommand Config.gteEngine command s.gte) :=
      withCop2_of_usable hu _
    refine ⟨hx, fun hsel => ?_⟩
    have hzero : command.extractLsb' 13 6 = 0#6 := by
      apply BitVec.eq_of_toNat_eq
      rw [BitVec.extractLsb'_toNat, Nat.shiftRight_eq_div_pow]
      exact hsel
    obtain ⟨g, hg⟩ := gteCommand_of_selectors_zero hzero s.gte
    exact ⟨g, by rw [hx, hg]; rfl⟩
  case command =>
    intro number selectors invalid
    refine ⟨fun h => gteCommand_of_unknown h g, fun hn hknown hv => ?_, fun hn ⟨hop, hrest⟩ => ?_⟩
    · obtain ⟨op, hop⟩ := Option.ne_none_iff_exists'.mp hknown
      refine gteCommand_of_known (gteOperation_eq_some hn hop) (Bool.eq_false_iff.mpr fun h => hv ?_) g
      obtain ⟨rfl, hrest⟩ := gteInvalidSelector_iff.mp h
      exact ⟨hop, hrest⟩
    · exact gteCommand_of_invalid (gteOperation_eq_some hn hop) (gteInvalidSelector_iff.mpr ⟨rfl, hrest⟩) g

/-! ## Saturation (R347) -/

/-- The list `q'` is `q` forced into a range. -/
def Within (lo hi : Int) (q q' : List Int) : Prop :=
  q'.length = q.length ∧ ∀ x ∈ q.zip q', lo ≤ x.2 ∧ x.2 ≤ hi ∧ (lo ≤ x.1 → x.1 ≤ hi → x.2 = x.1)

theorem forall_mem_zip_map {α β : Type} {P : α × β → Prop} {f : α → β} (h : ∀ a, P (a, f a)) (q : List α) :
    ∀ x ∈ q.zip (q.map f), P x := by
  have hzip : q.zip (q.map f) = q.map fun a => (a, f a) := by
    simpa using List.zip_map' (f := id) (g := f) (l := q)
  rw [hzip]
  exact List.forall_mem_map.mpr fun a _ => h a

theorem within_clampTo {lo hi : Int} (h : lo ≤ hi) (q : List Int) : Within lo hi q (q.map (clampTo lo hi)) := by
  refine ⟨List.length_map _, forall_mem_zip_map (fun a => ?_) q⟩
  unfold clampTo
  dsimp only
  omega

/-- The unit of a shifted MAC: 4096 or 1 (R347). -/
def macUnit (command : BitVec 25) : Int := if command.getLsbD 19 then 4096 else 1

theorem clampMac_eq (command : BitVec 25) (x : Int) :
    clampMac command x = clampTo (-mac43) (mac43 - 1) x / macUnit command := by
  unfold clampMac macShift macUnit
  split
  · exact Int.shiftRight_eq_div_pow _ 12
  · exact Int.shiftRight_eq_div_pow _ 0

/-- MAC1 to MAC3 are clamped before they are shifted: times their unit they stay in the bounds (R347). -/
theorem clampMac_bounds (command : BitVec 25) (q : List Int) :
    (q.map (clampMac command)).length = q.length ∧ ∀ x ∈ q.zip (q.map (clampMac command)),
      -8796093022208 ≤ x.2 * macUnit command ∧ x.2 * macUnit command ≤ 8796093022207 ∧
      (-8796093022208 ≤ x.1 → x.1 ≤ 8796093022207 → x.2 = x.1 / macUnit command) := by
  refine ⟨List.length_map _, forall_mem_zip_map (fun a => ?_) q⟩
  rw [clampMac_eq]
  unfold clampTo mac43 macUnit
  dsimp only
  split <;> omega

theorem above_iff (hi : Int) (q : List Int) : above hi q = true ↔ ∃ x ∈ q, hi < x := by simp [above]

theorem below_iff (lo : Int) (q : List Int) : below lo q = true ↔ ∃ x ∈ q, x < lo := by simp [below]

theorem outside_iff (lo hi : Int) (q : List Int) : outside lo hi q = true ↔ ∃ x ∈ q, x < lo ∨ hi < x := by
  rw [outside, Bool.or_eq_true, above_iff, below_iff, or_comm, ← exists_or]
  simp only [← and_or_left]

/-- The quotient of a divide: the greatest one on overflow, else cut to it (R347). -/
theorem gteDivide_spec (e : GteEngine) (h sz3 : BitVec 16) : (gteDivide e h sz3).1 ≤ 0x1FFFF ∧
    ((gteDivide e h sz3).2 = true ↔ 2 * sz3.toNat ≤ h.toNat) ∧
    (2 * sz3.toNat ≤ h.toNat → (gteDivide e h sz3).1 = 0x1FFFF) := by
  unfold gteDivide
  split
  · rename_i hle; exact ⟨Nat.le_refl _, iff_of_true rfl hle, fun _ => rfl⟩
  · rename_i hle; exact ⟨Nat.min_le_left .., iff_of_false Bool.false_ne_true hle, fun h => absurd h hle⟩

theorem gteVertices_eq (op : GteOperation) : gteVertices op = if op = .rtps then 1 else if op = .rtpt then 3 else 0 := by
  cases op <;> rfl

/-- A command that completes is a run of its operation. -/
theorem gteCommand_eq_next {e : GteEngine} {command : BitVec 25} {op : GteOperation} {g g' : GteState}
    (hop : gteOperation e command = some op) (h : gteCommand e command g = .next g') :
    g' = runGteCommand e op command g := by
  rw [gteCommand, hop] at h
  dsimp only at h
  split at h <;> cases h
  rfl

/-- Settles O41: a known command's flags are those of its clamps and its divides, and every clamp stays in
its bounds and keeps what lay inside. -/
theorem gteResultsSaturate : Obligations.GteResultsSaturate := by
  refine ⟨fun e command g g' op => ?command, fun command r => ?saturation, gteDivide_spec⟩
  case command =>
    intro cleared vertices divides raw hn hop h
    obtain rfl := gteCommand_eq_next (gteOperation_eq_some hn hop) h
    have hdivides : divides = gteDivides e op command cleared := by
      rw [gteDivides, gteVertices_eq]
    refine ⟨?_, fun k hk => ?_⟩
    · show _ = e.store command cleared (saturate command (e.arith command cleared (divides.map Prod.fst)))
      rw [hdivides]
      rfl
    · rw [getLsbD_runGteCommand_flags e op command g hk, getLsbD_saturationFlags _ _ (by omega), Bool.or_eq_true,
        Bool.and_eq_true, decide_eq_true_iff, List.any_eq_true, ← hdivides]
  case saturation =>
    intro t flag shift floor within
    have hflag : ∀ k, k < 32 → (flag k ↔ saturationFlag command r k = true) := fun k hk => by
      rw [← getLsbD_saturationFlags command r hk]
    have hfloor : irFloor command ≤ 0x7FFF := by unfold irFloor; split <;> omega
    refine ⟨within_clampTo (by decide) _, ?mac, within_clampTo (by decide) _, within_clampTo hfloor _,
      within_clampTo hfloor _, within_clampTo hfloor _, within_clampTo (by decide) _, within_clampTo (by decide) _,
      within_clampTo (by decide) _, ?macAbove, ?macBelow, ?ir, (hflag 18 (by decide)).trans (outside_iff ..),
      (hflag 16 (by decide)).trans (above_iff ..), (hflag 15 (by decide)).trans (below_iff ..),
      (hflag 14 (by decide)).trans (outside_iff ..), (hflag 13 (by decide)).trans (outside_iff ..),
      (hflag 12 (by decide)).trans (outside_iff ..), mt (hflag 17 (by decide)).mp Bool.false_ne_true,
      fun k hk => ?low, fun k hk => ?colour⟩
    case mac =>
      simp only [List.forall_mem_cons]
      exact ⟨clampMac_bounds .., clampMac_bounds .., clampMac_bounds .., by simp⟩
    case macAbove =>
      simp only [List.forall_mem_cons]
      exact ⟨(hflag 30 (by decide)).trans (above_iff ..), (hflag 29 (by decide)).trans (above_iff ..),
        (hflag 28 (by decide)).trans (above_iff ..), by simp⟩
    case macBelow =>
      simp only [List.forall_mem_cons]
      exact ⟨(hflag 27 (by decide)).trans (below_iff ..), (hflag 26 (by decide)).trans (below_iff ..),
        (hflag 25 (by decide)).trans (below_iff ..), by simp⟩
    case ir =>
      simp only [List.forall_mem_cons]
      exact ⟨(hflag 24 (by decide)).trans (outside_iff ..), (hflag 23 (by decide)).trans (outside_iff ..),
        (hflag 22 (by decide)).trans (outside_iff ..), by simp⟩
    case low =>
      refine mt (hflag k (by omega)).mp ?_
      interval_cases k <;> exact Bool.false_ne_true
    case colour =>
      rw [hflag _ (by omega)]
      interval_cases k <;> rfl

end Sys2Proof.Machine
end

section
/-! Proofs of the family "other", loads and stores on plain memory: the aligned ones (O25, O27), the merging ones
(O26, O28) and the unaligned pairs (O29). -/

namespace Sys2Proof.Machine

open Sys2Proof.Safety

/-! ## Aligned loads and stores -/

/-- Settles O25: a load from storage is the delayed write of the bytes at its address, extended. -/
theorem loadsReadLittleEndianBytes : Obligations.LoadsReadLittleEndianBytes := by
  intro s rs rt imm
  refine ⟨add_sext16 _ _, fun hb hs => ?_⟩
  have hbyte := aligned_byte (effectiveAddress s rs imm)
  refine ⟨?lb, loads_of_exec s (loadAligned_storage hbyte hb hs), fun ha => ⟨?lh, ?lhu⟩, fun ha => ?lw⟩
  case lb =>
    rw [← extendByte_read]
    exact loads_of_exec s (loadAligned_storage hbyte hb hs)
  case lh =>
    refine ⟨_, loads_of_exec s (loadAligned_storage ha hb hs), ?_⟩
    rw [Memory.read, extendHalf_read, BitVec.toInt_signExtend_of_le (by decide), toInt_bytes2]
    rfl
  case lhu =>
    refine ⟨_, loads_of_exec s (loadAligned_storage ha hb hs), ?_⟩
    rw [Memory.read, id, BitVec.toNat_setWidth_of_le (by decide), toNat_bytes2]
    rfl
  case lw => exact ⟨_, loads_of_exec s (loadAligned_storage ha hb hs), fun k hk => Memory.wordByte_read _ _ .word k hk⟩

/-- Settles O27: a store to RAM or scratchpad is the write of the low bytes of its register. -/
theorem storesWriteLittleEndianBytes : Obligations.StoresWriteLittleEndianBytes := by
  intro s rs rt imm ea v hw hb hwr
  have stores (n : Size) (i : Instr) (ha : AlignedTo n ea) (hi : exec i s = storeAligned n rs rt imm s) :
      StoresBytes i s (physical ea) n.bytes (wordByte v) :=
    stores_of_exec hw (hi.trans (storeAligned_writable ha hb hwr)) fun k hk => wordByte_low v k hk
  exact ⟨stores .byte _ (aligned_byte ea) rfl, fun ha => stores .half _ ha rfl, fun ha => stores .word _ ha rfl⟩

/-! ## The bytes of a merge, by address (R279) -/

section
variable {s : State} {rs rt : Reg} {imm : BitVec 16}

theorem physical_mod4 (ea : Word) : (byteOffset ea).toNat = physical ea % 4 := by
  rw [toNat_byteOffset, physical_mod ea (by decide)]

/-- LWL at a loads the byte at a into the top byte of the register, and those below it down to the word's base. -/
theorem wordByte_mergeLwl_read (m : Memory) (ea r : Word) (k : Nat) (hk : k < 4) :
    wordByte (mergeLwl (byteOffset ea) r (m.read (physical ea / 4 * 4) .word)) k =
      if 3 - physical ea % 4 ≤ k then m.readByte (physical ea + k - 3) else wordByte r k := by
  rw [wordByte_mergeLwl _ _ _ _ hk, physical_mod4]
  split
  · rw [Memory.wordByte_read _ _ .word _ (show _ < 4 by omega)]; congr 1; omega
  · rfl

/-- LWR at a loads the byte at a into the bottom byte of the register, and those above it up to the word's end. -/
theorem wordByte_mergeLwr_read (m : Memory) (ea r : Word) (k : Nat) (hk : k < 4) :
    wordByte (mergeLwr (byteOffset ea) r (m.read (physical ea / 4 * 4) .word)) k =
      if k < 4 - physical ea % 4 then m.readByte (physical ea + k) else wordByte r k := by
  rw [wordByte_mergeLwr _ _ _ _ hk, physical_mod4]
  split
  · rw [Memory.wordByte_read _ _ .word _ (show _ < 4 by omega)]; congr 1; omega
  · rfl

/-- A byte of memory after a word write. -/
theorem Memory.readByte_write_word {m : Memory} (hw : m.wf = true) (a b : Nat) (v : Word) :
    (m.write a .word v).readByte b = if a ≤ b ∧ b < a + 4 then wordByte v (b - a) else m.readByte b := by
  split
  · rename_i h
    obtain ⟨k, rfl⟩ := Nat.exists_eq_add_of_le h.1
    rw [Nat.add_sub_cancel_left]
    exact Memory.readByte_write_inside hw a .word v k (show k < 4 by omega)
  · exact Memory.readByte_write_outside m a .word v b (show _ ∨ a + 4 ≤ b by omega)

/-- SWL at a stores the top byte of the register at a, and the bytes below it down to the word's base. -/
theorem readByte_write_mergeSwl {m : Memory} (hw : m.wf = true) (ea r : Word) (b : Nat) :
    (m.write (physical ea / 4 * 4) .word (mergeSwl (byteOffset ea) r (m.read (physical ea / 4 * 4) .word))).readByte b =
      if physical ea / 4 * 4 ≤ b ∧ b ≤ physical ea then wordByte r (b + 3 - physical ea) else m.readByte b := by
  rw [Memory.readByte_write_word hw]
  by_cases hin : physical ea / 4 * 4 ≤ b ∧ b < physical ea / 4 * 4 + 4
  · rw [if_pos hin, wordByte_mergeSwl _ _ _ _ (by omega), physical_mod4]
    by_cases hle : b ≤ physical ea
    · rw [if_pos (by omega), if_pos ⟨hin.1, hle⟩]; congr 1; omega
    · rw [if_neg (by omega), if_neg (by omega), Memory.wordByte_read _ _ .word _ (show _ < 4 by omega)]; congr 1; omega
  · rw [if_neg hin, if_neg (by omega)]

/-- SWR at a stores the bottom byte of the register at a, and the bytes above it up to the word's end. -/
theorem readByte_write_mergeSwr {m : Memory} (hw : m.wf = true) (ea r : Word) (b : Nat) :
    (m.write (physical ea / 4 * 4) .word (mergeSwr (byteOffset ea) r (m.read (physical ea / 4 * 4) .word))).readByte b =
      if physical ea ≤ b ∧ b < physical ea / 4 * 4 + 4 then wordByte r (b - physical ea) else m.readByte b := by
  rw [Memory.readByte_write_word hw]
  by_cases hin : physical ea / 4 * 4 ≤ b ∧ b < physical ea / 4 * 4 + 4
  · rw [if_pos hin, wordByte_mergeSwr _ _ _ _ (by omega), physical_mod4]
    by_cases hle : physical ea ≤ b
    · rw [if_pos (by omega), if_pos ⟨hle, hin.2⟩]; congr 1; omega
    · rw [if_neg (by omega), if_neg (by omega), Memory.wordByte_read _ _ .word _ (show _ < 4 by omega)]; congr 1; omega
  · rw [if_neg hin, if_neg (by omega)]

end

/-- Settles O26: the merge of the word read into the committed register, by bytes. -/
theorem unalignedLoadsMergeBytes : Obligations.UnalignedLoadsMergeBytes := by
  intro s rs rt imm ea n base hb hs
  have hn : physical ea % 4 = n := physical_mod ea (by decide)
  refine ⟨⟨_, loadsAs_of_exec s (loadMerged_storage hb hs), fun k hk => ?_⟩,
    ⟨_, loadsAs_of_exec s (loadMerged_storage hb hs), fun k hk => ?_⟩⟩
  · refine (wordByte_mergeLwl_read s.plat.mem ea (s.reg rt) k hk).trans ?_
    rw [hn]
    exact ite_congr rfl (fun h => congrArg s.plat.mem.readByte (by omega)) fun _ => rfl
  · refine (wordByte_mergeLwr_read s.plat.mem ea (s.reg rt) k hk).trans ?_
    rw [hn]
    exact ite_congr rfl (fun h => congrArg s.plat.mem.readByte (by omega)) fun _ => rfl

/-- Settles O28: the word around the address is written back with the stored bytes in it. -/
theorem unalignedStoresWritePartOfTheWord : Obligations.UnalignedStoresWritePartOfTheWord := by
  intro s rs rt imm ea v n hw hb hwr
  have hn : physical ea % 4 = n := physical_mod ea (by decide)
  refine ⟨⟨_, storeMerged_writable hb hwr, rfl, fun k hk => ?_, fun b hout => ?_⟩,
    ⟨_, storeMerged_writable hb hwr, rfl, fun k hk => ?_, fun b hout => ?_⟩⟩
  · refine (readByte_write_mergeSwl hw ea v _).trans ((if_pos (by omega)).trans ?_)
    exact congrArg (wordByte v) (by omega)
  · exact (readByte_write_mergeSwl hw ea v b).trans (if_neg (by omega))
  · refine (readByte_write_mergeSwr hw ea v _).trans ((if_pos (by omega)).trans ?_)
    exact congrArg (wordByte v) (by omega)
  · exact (readByte_write_mergeSwr hw ea v b).trans (if_neg (by omega))

/-! ## The unaligned pairs (R280) -/

section
variable {s : State} {rs rt : Reg} {imm : BitVec 16}

/-- The offset of a pair's second access. -/
theorem sext16_add_three (h : imm.toInt + 3 ≤ 32767) : sext16 (imm + 3#16) = sext16 imm + 3#32 := by
  have hadd : (imm + 3#16).toInt = imm.toInt + 3 := by
    have := BitVec.le_toInt imm
    rw [BitVec.toInt_add]
    exact Int.bmod_eq_of_le (by simp at this ⊢; omega) (by simp; omega)
  rw [sext16_eq_ofInt, hadd, BitVec.ofInt_add, ← sext16_eq_ofInt]
  rfl

/-- A state in which rs reads as before has the pair's second address 3 bytes further on. -/
theorem effectiveAddress_far {t : State} (h : imm.toInt + 3 ≤ 32767) (hr : readReg t rs = readReg s rs) :
    effectiveAddress t rs (imm + 3#16) = effectiveAddress s rs imm + 3#32 := by
  unfold effectiveAddress
  rw [hr, sext16_add_three h, BitVec.add_assoc]

/-- After LWR from an instruction's beginning, a register other than its destination reads as before. -/
theorem readReg_after_writeMerged (kind : LoadKind) (v : Word) (hne : rs ≠ rt ∨ rt = 0#5) (hrs : s.pendingOld rs = none) :
    readReg (shiftLoadSlot (writeMerged s kind rt v)) rs = readReg s rs := by
  by_cases h0 : rs = 0#5
  · rw [h0, readReg_zero, readReg_zero]
  have hne : rs ≠ rt := hne.elim id fun h => h ▸ h0
  have hnow : (shiftLoadSlot (writeMerged s kind rt v)).pendingOld rs = none := by
    simp [State.pendingOld, shiftLoadSlot, writeMerged, Ne.symm hne]
  obtain ⟨-, hother, -⟩ := registerWritten_writeMerged s kind rt v
  rw [readReg_of_not_pending _ hnow, readReg_of_not_pending _ hrs]
  exact hother rs hne

end

/-- The two merges of a load pair at a make the word at a. -/
theorem wordByte_loadPair (m : Memory) {ea far : Word} (hphys : physical far = physical ea + 3) (r : Word) (k : Nat)
    (hk : k < 4) :
    wordByte (mergeLwl (byteOffset far) (mergeLwr (byteOffset ea) r (m.read (physical ea / 4 * 4) .word))
      (m.read (physical far / 4 * 4) .word)) k = m.readByte (physical ea + k) := by
  rw [wordByte_mergeLwl_read _ _ _ k hk, hphys, wordByte_mergeLwr_read _ _ _ k hk]
  split
  · exact congrArg m.readByte (by omega)
  · rw [if_pos (by omega)]

/-- The memory a store pair at a leaves. -/
def storePair (m : Memory) (ea far r : Word) : Memory :=
  let m' := m.write (physical ea / 4 * 4) .word (mergeSwr (byteOffset ea) r (m.read (physical ea / 4 * 4) .word))
  m'.write (physical far / 4 * 4) .word (mergeSwl (byteOffset far) r (m'.read (physical far / 4 * 4) .word))

/-- The two merges of a store pair at a store the word at a. -/
theorem readByte_storePair {m : Memory} (hw : m.wf = true) {ea far : Word} (hphys : physical far = physical ea + 3)
    (r : Word) (b : Nat) : (storePair m ea far r).readByte b =
      if physical ea ≤ b ∧ b < physical ea + 4 then wordByte r (b - physical ea) else m.readByte b := by
  rw [storePair, readByte_write_mergeSwl (Memory.wf_write hw _ _ _), readByte_write_mergeSwr hw, hphys]
  split
  · rw [if_pos (by omega)]; congr 1; omega
  · split
    · rw [if_pos (by omega)]
    · rw [if_neg (by omega)]

/-- Settles O29: the second access sees what the first left, and between them the two merges cover the word at a. -/
theorem unalignedPairsMoveAWholeWord : Obligations.UnalignedPairsMoveAWholeWord := by
  intro s rs rt imm ea far himm hnext hrs hrt hphys
  have hzero : ea + BitVec.ofNat 32 0 = ea := BitVec.add_zero _
  refine ⟨fun hne hb hs => ?loads, fun hw hb hwr => ?stores⟩
  case loads =>
    have hb0 : LoadReachesBus s ea := hzero ▸ hb 0
    let v := mergeLwr (byteOffset ea) (s.reg rt) (s.plat.mem.read (physical ea / 4 * 4) .word)
    let t := shiftLoadSlot (writeMerged s .right rt v)
    have honly : t = { s with regs := t.regs, ldNow := t.ldNow, ldNext := t.ldNext } :=
      congrArg shiftLoadSlot (onlyLoaded_writeMerged s .right rt v)
    have hea : effectiveAddress t rs far = ea + 3#32 :=
      effectiveAddress_far himm (readReg_after_writeMerged .right v hne hrs)
    have hlwl := loadMerged_storage (s := t) (kind := .left) (merge := mergeLwl) (rs := rs) (rt := rt) (imm := far)
      (by rw [hea, honly]; exact hb 3) (by rw [hea, hphys]; exact hs 3)
    refine ⟨_, _, loadMerged_storage hb0 (hs 0), hlwl, fun h => h ▸ State.reg_zero _, fun h0 k hk => ?_⟩
    have hpair : t.completesPair .left rt = true :=
      (completesPair_iff _).mpr ⟨⟨rt, s.reg rt, .right⟩, rfl, rfl, .inl ⟨rfl, rfl⟩⟩
    obtain ⟨-, -, hwritten⟩ := registerWritten_writeMerged s .right rt v
    have htreg : t.reg rt = v := (hwritten h0).resolve_right fun h => h.1 hrt
    have hmem : t.plat.mem = s.plat.mem := by rw [honly]
    rw [reg_writeMerged_pair _ hpair _ h0, htreg, hea, hmem]
    exact wordByte_loadPair s.plat.mem hphys (s.reg rt) k hk
  case stores =>
    have hb0 : StoreReachesBus s ea := hzero ▸ hb 0
    let v := readReg s rt
    let m := s.plat.mem.write (physical ea / 4 * 4) .word
      (mergeSwr (byteOffset ea) v (s.plat.mem.read (physical ea / 4 * 4) .word))
    let t := shiftLoadSlot { s with plat := { s.plat with mem := m } }
    have hread : ∀ q, s.pendingOld q = none → readReg t q = readReg s q := fun q hq => by
      rw [readReg_of_not_pending _ hq, readReg_of_not_pending _ (pendingOld_of_ldNow_none _ hnext)]; rfl
    have hea : effectiveAddress t rs far = ea + 3#32 := effectiveAddress_far himm (hread rs hrs)
    have hswl := storeMerged_writable (s := t) (merge := mergeSwl) (rt := rt) (rs := rs) (imm := far)
      (by rw [hea]; exact hb 3) (by rw [hea, hphys]; exact hwr 3)
    rw [hea, hread rt hrt] at hswl
    refine ⟨_, _, storeMerged_writable hb0 (hwr 0), hswl, fun k hk => ?_, fun b hout => ?_⟩
    · refine (readByte_storePair hw hphys v _).trans ((if_pos (by omega)).trans ?_)
      rw [Nat.add_sub_cancel_left]
    · exact (readByte_storePair hw hphys v b).trans (if_neg (by omega))

end Sys2Proof.Machine
end

section
/-! Proof of the family "other": the bus outside RAM, scratchpad and ROM (O30). -/

namespace Sys2Proof.Machine

open Sys2Proof.Safety

/-- A register that takes words only (R74). -/
def Target.WordWide : Target → Prop
  | .madr _ | .bcr _ | .chcr _ | .dpcr | .dicr | .gp0 | .gp1 | .ccr => True
  | _ => False

section
variable {pa : Nat} {n : Size}

theorem wordWide_of_wordRegister (h : WordRegister pa) : (target pa).WordWide := by
  rcases h with h | ⟨c, hc, h⟩
  · simp only [List.mem_cons, List.not_mem_nil, or_false] at h
    rcases h with rfl | rfl | rfl | rfl | rfl <;> trivial
  · simp only [List.mem_cons, List.not_mem_nil, or_false] at h
    rcases h with rfl | rfl | rfl
    · exact (target_channel ⟨c, hc⟩ 0 (by decide)).symm ▸ trivial
    · rw [show 0x1F801084 + 16 * c = 0x1F801080 + 16 * c + 4 by omega, target_channel ⟨c, hc⟩ 4 (by decide)]; trivial
    · rw [show 0x1F801088 + 16 * c = 0x1F801080 + 16 * c + 8 by omega, target_channel ⟨c, hc⟩ 8 (by decide)]; trivial

theorem busRead_of_narrow (h : (target pa).WordWide) (hn : n ≠ .word) (p : Platform) :
    busRead pa n p = .refused .subwordDeviceAccess := by
  unfold busRead
  cases ht : target pa <;> rw [ht] at h
  case madr | bcr | chcr | dpcr | dicr | gp0 | gp1 | ccr => exact if_neg hn
  all_goals exact h.elim

theorem busWrite_of_narrow (h : (target pa).WordWide) (hn : n ≠ .word) (v : Word) (p : Platform) :
    busWrite pa n v p = .refused .subwordDeviceAccess := by
  unfold busWrite
  cases ht : target pa <;> rw [ht] at h
  case madr | bcr | chcr | dpcr | dicr | gp0 | gp1 | ccr => exact if_neg hn
  all_goals exact h.elim

theorem ignoredWrite_iff (p : Platform) : ignoredWrite p.ignoredWrites pa = true ↔ WriteIgnored p pa := by
  simp [ignoredWrite]

theorem busWrite_of_unmapped (h : ¬ Mapped pa) (v : Word) (p : Platform) :
    busWrite pa n v p = if ignoredWrite p.ignoredWrites pa then .next p else .fault .unmappedWrite := by
  unfold busWrite; rw [(target_unmapped_iff pa).mpr h]

end

/-- Settles O30: each clause is the map's row for that address. -/
theorem busOutsideStorage : Obligations.BusOutsideStorage := by
  intro pa n v p
  refine ⟨fun hlo hhi => ?expansion, fun h => ?rom,
    fun h => ⟨busRead_of_unmapped h n p, fun hi => ?ignored, fun hi => ?fatal⟩, fun h hn => ?narrow,
    busRead_ccr p, busWrite_ccr v p⟩
  case expansion =>
    unfold busRead busWrite
    rw [target_of_expansion ⟨hlo, hhi⟩]
    exact ⟨rfl, rfl⟩
  case narrow =>
    have hwide := wordWide_of_wordRegister h
    exact ⟨busRead_of_narrow hwide hn p, busWrite_of_narrow hwide hn v p⟩
  case rom => unfold busWrite; rw [target_of_bios h]
  case ignored => rw [busWrite_of_unmapped h, if_pos ((ignoredWrite_iff p).mpr hi)]
  case fatal => rw [busWrite_of_unmapped h, if_neg (mt (ignoredWrite_iff p).mp hi)]

end Sys2Proof.Machine
end

section
/-! Proofs of the family "other": the timers under the clock (O43) and in one cycle (O44). -/

namespace Sys2Proof.Machine

open Sys2Proof.Safety

/-! ## Any number of cycles (R415, R417) -/

/-- The cycles of k that the prescaler passes on to the counter. -/
def Timer.passed (t : Nat) (tm : Timer) (k : Nat) : Nat := if tm.divides t then (tm.prescaler + k) / 2100 else k

/-- x is what k cycles make of tm, up to what comparisons do. -/
structure TimerAfter (t : Nat) (tm : Timer) (k : Nat) (x : Timer) : Prop where
  target : x.target = tm.target
  mode : ∀ b, b < 10 → x.mode.getLsbD b = tm.mode.getLsbD b
  prescaler : x.prescaler = if tm.divides t then (tm.prescaler + k) % 2100 else tm.prescaler
  free : tm.resetAtTarget = false → x.count.toNat = (tm.count.toNat + tm.passed t k) % 65536
  reset : tm.resetAtTarget = true → tm.count.toNat ≤ tm.target.toNat →
    x.count.toNat = (tm.count.toNat + tm.passed t k) % (tm.target.toNat + 1)

section
variable {t : Nat} {tm : Timer}

theorem divides_iff : tm.divides t = true ↔ t = 1 ∧ tm.mode.getLsbD 8 = true := by
  simp [Timer.divides, Timer.source]

theorem mode_source (tm : Timer) :
    (tm.mode.extractLsb' 8 2 = 1#2 ∨ tm.mode.extractLsb' 8 2 = 3#2) ↔ tm.mode.getLsbD 8 = true := by
  have hbit : tm.mode.getLsbD 8 = (tm.mode.extractLsb' 8 2).getLsbD 0 := by simp
  rw [hbit]
  generalize tm.mode.extractLsb' 8 2 = q
  revert q; decide

theorem skips_iff : tm.skips t = true ↔ t = 1 ∧ tm.mode.getLsbD 8 = true ∧ tm.prescaler + 1 < 2100 := by
  rw [Timer.skips, Bool.and_eq_true, divides_iff, decide_eq_true_iff, and_assoc]

/-- A cycle that counts moves count and prescaler as `counted` does; the comparisons leave them alone. -/
theorem cycleTimer_timer (ht : t < 3) {s : TimerStep} (h : s.timer.skips t = false) :
    (cycleTimer t s).timer = { s.timer.counted t with
      mode := (cycleTimer t s).timer.mode, armed := (cycleTimer t s).timer.armed } := by
  obtain ⟨htimer, -⟩ := count_spec t ht { s with timer := s.timer.counted t }
  rw [cycleTimer_of_counts h]
  exact htimer

theorem timerAfter_zero (h : tm.prescaler < 2100) : TimerAfter t tm 0 tm := by
  have hpassed : tm.passed t 0 = 0 := by
    unfold Timer.passed; split
    · exact Nat.div_eq_of_lt h
    · rfl
  refine ⟨rfl, fun _ _ => rfl, ?_, fun _ => ?_, fun _ hle => ?_⟩
  · split
    · exact (Nat.mod_eq_of_lt h).symm
    · rfl
  · rw [hpassed]; exact (Nat.mod_eq_of_lt tm.count.isLt).symm
  · rw [hpassed]; exact (Nat.mod_eq_of_lt (by omega)).symm

theorem passed_of_skips {k : Nat} {x : Timer} (hx : TimerAfter t tm k x) (hd : tm.divides t = true)
    (h : x.prescaler + 1 < 2100) : tm.passed t (k + 1) = tm.passed t k := by
  have := hx.prescaler
  simp only [Timer.passed, hd, if_true] at *
  omega

theorem passed_of_counts {k : Nat} {x : Timer} (hx : TimerAfter t tm k x)
    (h : tm.divides t = true → 2100 ≤ x.prescaler + 1) : tm.passed t (k + 1) = tm.passed t k + 1 := by
  have := hx.prescaler
  unfold Timer.passed
  cases hd : tm.divides t
  · rfl
  · have := h hd
    simp only [hd, if_true] at *
    omega

/-- Counting modulo n: the successor of the last number is 0. -/
theorem succ_mod (a n : Nat) (hn : 0 < n) : (a + 1) % n = if a % n = n - 1 then 0 else a % n + 1 := by
  rw [← Nat.mod_add_mod]
  have := Nat.mod_lt a hn
  split
  · rename_i h; rw [h, Nat.sub_add_cancel hn, Nat.mod_self]
  · exact Nat.mod_eq_of_lt (by omega)

theorem timerAfter_succ (ht : t < 3) {k : Nat} {s : TimerStep} (hx : TimerAfter t tm k s.timer) :
    TimerAfter t tm (k + 1) (cycleTimer t s).timer := by
  obtain ⟨htarget, hmode, -⟩ := cycleTimer_frame t ht s
  have hd : s.timer.divides t = tm.divides t := Bool.eq_iff_iff.mpr (by rw [divides_iff, divides_iff, hx.mode 8 (by decide)])
  have hr : s.timer.resetAtTarget = tm.resetAtTarget := hx.mode 3 (by decide)
  have hp := hx.prescaler
  cases h : s.timer.skips t with
  | true =>
    obtain ⟨h1, h8, hlt⟩ := skips_iff.mp h
    have hdt : tm.divides t = true := hd.symm.trans (divides_iff.mpr ⟨h1, h8⟩)
    rw [cycleTimer_of_skips h]
    refine ⟨hx.target, hx.mode, ?_, ?_, ?_⟩
    · show s.timer.prescaler + 1 = _
      rw [if_pos hdt] at hp ⊢; omega
    · rw [passed_of_skips hx hdt hlt]; exact hx.free
    · rw [passed_of_skips hx hdt hlt]; exact hx.reset
  | false =>
    have hge : tm.divides t = true → 2100 ≤ s.timer.prescaler + 1 := fun hdt => by
      simpa [Timer.skips, hd, hdt] using h
    have heq := cycleTimer_timer ht h
    have hcount : (cycleTimer t s).timer.count = (s.timer.counted t).count := by rw [heq]
    have hpre : (cycleTimer t s).timer.prescaler = (s.timer.counted t).prescaler := by rw [heq]
    refine ⟨htarget.trans hx.target, fun b hb => (hmode b hb).trans (hx.mode b hb), ?_, fun hf => ?_, fun hf hle => ?_⟩
    · rw [hpre, Timer.counted, hd]
      dsimp only
      split
      · rename_i hdt; have := hge hdt; rw [if_pos hdt] at hp; omega
      · rename_i hdt; rw [hp, if_neg hdt]
    · rw [hcount, passed_of_counts hx hge, Timer.counted, hr, hf, ← Nat.add_assoc, ← Nat.mod_add_mod, ← hx.free hf]
      exact BitVec.toNat_add ..
    · rw [hcount, passed_of_counts hx hge, Timer.counted, hr, hf, ← Nat.add_assoc, succ_mod _ _ (by omega),
        ← hx.reset hf hle, hx.target, Bool.true_and, Nat.add_sub_cancel]
      have hbelow : s.timer.count.toNat < tm.target.toNat + 1 := hx.reset hf hle ▸ Nat.mod_lt _ (Nat.succ_pos _)
      have hwide := tm.target.isLt
      simp only [beq_iff_eq, ← BitVec.toNat_inj]
      split
      · rfl
      · rw [BitVec.toNat_add]; exact Nat.mod_eq_of_lt (by simp; omega)

end

/-- Settles O43: what k cycles make of a timer, by induction on the clock. -/
theorem timersCountAndReload : Obligations.TimersCountAndReload := by
  intro k p t hp tm tm' divides counts
  have h : TimerAfter t tm k tm' := clockCycles_timers k p t (P := TimerAfter t tm) (timerAfter_zero hp)
    fun _ _ hx => timerAfter_succ t.isLt hx
  have hdiv : divides ↔ tm.divides t = true := by
    rw [divides_iff]; exact and_congr Fin.ext_iff (mode_source tm)
  refine ⟨h.target, h.mode, fun hd => ?_, fun hd => ?_⟩
  · have hpassed : tm.passed t k = k := if_neg (mt hdiv.mpr hd)
    exact ⟨⟨hpassed ▸ h.free, hpassed ▸ h.reset⟩, h.prescaler.trans (if_neg (mt hdiv.mpr hd))⟩
  · have hpassed : tm.passed t k = (tm.prescaler + k) / 2100 := if_pos (hdiv.mp hd)
    exact ⟨⟨hpassed ▸ h.free, hpassed ▸ h.reset⟩, h.prescaler.trans (if_pos (hdiv.mp hd))⟩

/-- A cycle that counts, by the count it leaves (R415, R416). -/
theorem cycleTimer_compares {t : Nat} (ht : t < 3) {s : TimerStep} (h : s.timer.skips t = false) :
    let r := cycleTimer t s
    let hit := decide (r.timer.count = s.timer.target)
    let full := decide (r.timer.count = 0xFFFF#16)
    let fires := (hit && s.timer.mode.getLsbD 4) || (full && s.timer.mode.getLsbD 5)
    let first := s.timer.armed && hit && s.timer.mode.getLsbD 4
    let second := s.timer.armed && (!first || s.timer.mode.getLsbD 6) && full && s.timer.mode.getLsbD 5
    (∀ b, b ≠ 10 → r.timer.mode.getLsbD b =
      (s.timer.mode.getLsbD b || (hit && decide (b = 11)) || (full && decide (b = 12)))) ∧
    r.timer.mode.getLsbD 10 = (s.timer.mode.getLsbD 10 ^^ (s.timer.mode.getLsbD 7 && first) ^^
      (s.timer.mode.getLsbD 7 && second)) ∧
    r.timer.armed = (s.timer.armed && (!fires || s.timer.mode.getLsbD 6)) ∧
    ((s.timer.armed && fires) = false → r.iStat = s.iStat) ∧
    ((s.timer.armed && fires) = true → s.timer.mode.getLsbD 7 = false → r.iStat.getLsbD (4 + t) = true) := by
  intro r hit full
  have hcount : (s.timer.counted t).count = r.timer.count := by
    rw [show r.timer = _ from cycleTimer_timer ht h]
  have hhit : ((s.timer.counted t).count == (s.timer.counted t).target) = hit := by rw [hcount, beq_eq_decide]; rfl
  have hfull : ((s.timer.counted t).count == 0xFFFF#16) = full := by rw [hcount, beq_eq_decide]
  have hr : r = compareFFFF t (compareTarget t { s with timer := s.timer.counted t }) := cycleTimer_of_counts h
  obtain ⟨-, hmode, hline, harmed, -, -, hquiet, hpulse, -⟩ := count_spec t ht { s with timer := s.timer.counted t }
  rw [← hr] at hmode hline harmed hquiet hpulse
  simp only [hhit, hfull] at hmode hline harmed hquiet hpulse
  exact ⟨hmode, hline, harmed, hquiet, hpulse⟩

/-- Settles O44: a cycle the prescaler holds back, and one that counts and compares. -/
theorem timerInterruptsOnReaching : Obligations.TimerInterruptsOnReaching := by
  intro t s ht r waits full hit fires
  refine ⟨fun hw => cycleTimer_of_skips (skips_iff.mpr hw), fun hw => ?_⟩
  obtain ⟨hmode, hline, harmed, hquiet, hpulse⟩ := cycleTimer_compares ht (eq_false_of_ne_true (mt skips_iff.mp hw))
  obtain ⟨-, hlow, -, -, hother, hkeep, -⟩ := cycleTimer_frame t ht s
  have hfires : (decide hit && s.timer.mode.getLsbD 4 || decide full && s.timer.mode.getLsbD 5) = decide fires := by
    simp [fires]
  rw [hfires] at harmed hquiet hpulse
  have hasserted : r.iStat.getLsbD (4 + t) = true →
      s.iStat.getLsbD (4 + t) = true ∨ s.timer.armed = true ∧ fires := fun hb => by
    by_cases hf : s.timer.armed = true ∧ fires
    · exact .inr hf
    · exact .inl (hquiet (by simpa using hf) ▸ hb)
  refine ⟨?reached, ?full, hother, ?armed, fun h7 => ⟨fun b hb => ?line, hasserted, ?pulse⟩,
    fun h7 => ⟨hlow, ?toggle, hasserted⟩⟩
  case reached => rw [hmode 11 (by decide)]; simp [hit, r]
  case full => rw [hmode 12 (by decide)]; simp [full, r]
  case armed =>
    rw [harmed]
    by_cases hf : fires <;> simp [hf]
  case line =>
    rcases Nat.lt_or_eq_of_le hb with hb | rfl
    · exact hlow b hb
    · rw [hline, h7, Bool.false_and, Bool.false_and, Bool.xor_false, Bool.xor_false]
  case pulse =>
    rintro (hs | ⟨ha, hf⟩)
    · exact hkeep hs
    · exact hpulse (by simp [ha, hf]) h7
  case toggle => rw [hline, h7, Bool.true_and, Bool.true_and]

end Sys2Proof.Machine
end

section
/-! Proofs of the family "other", the DMA: registers, starts and refusals (O45), OTC (O46), linked lists (O47, O48) and manual
and block transfers (O49). -/

namespace Sys2Proof.Machine

open Sys2Proof.Safety

/-! ## Starts and refusals (R431 to R434, R440) -/

section
variable {n : Fin 7} {v : Word} {p : Platform}

/-- Channel n once a CHCR write is stored. -/
def storedChannel (n : Fin 7) (v : Word) (p : Platform) : DmaChannel :=
  { p.dma.channels[n] with chcr := v &&& chcrMask }

/-- The CHCR write starts a transfer (R440). -/
def Triggers (v : Word) : Prop := v.getLsbD 24 = true ∧ (v.getLsbD 28 = true ∨ v.extractLsb' 9 2 ≠ 0#2)

/-- The triggered transfer moves no words (R433, R443). -/
def MovesNothing (n : Fin 7) (v : Word) (p : Platform) : Prop :=
  (n = 6 ∧ (p.dma.channels[n]).size = 0) ∨ (n ≠ 6 ∧ v.extractLsb' 9 2 = 0#2 ∧ (p.dma.channels[n]).size = 0) ∨
    (n ≠ 6 ∧ v.extractLsb' 9 2 = 1#2 ∧ ((p.dma.channels[n]).size = 0 ∨ (p.dma.channels[n]).blocks = 0))

theorem channel_chcrStored (n : Fin 7) (v : Word) (p : Platform) :
    (chcrStored n v p).dma.channels[n] = storedChannel n v p := Vector.getElem_set_self _

/-- The fields of the stored CHCR are those of the word written. -/
theorem storedChannel_fields (n : Fin 7) (v : Word) (p : Platform) :
    (storedChannel n v p).toDevice = v.getLsbD 0 ∧ (storedChannel n v p).stepsDown = v.getLsbD 1 ∧
    (storedChannel n v p).sync = v.extractLsb' 9 2 ∧ (storedChannel n v p).enabled = v.getLsbD 24 ∧
    (storedChannel n v p).started = v.getLsbD 28 := by
  refine ⟨?_, ?_, ?_, ?_, ?_⟩
  case refine_3 =>
    show (v &&& chcrMask).extractLsb' 9 2 = _
    rw [BitVec.extractLsb'_and]
    exact BitVec.and_allOnes
  all_goals exact (BitVec.getLsbD_and ..).trans (Bool.and_true _)

theorem triggered_iff : (storedChannel n v p).triggered = true ↔ Triggers v := by
  obtain ⟨-, -, hsync, henabled, hstarted⟩ := storedChannel_fields n v p
  rw [DmaChannel.triggered, hsync, henabled, hstarted]
  simp [Triggers]

theorem zeroSize_iff : zeroSize n (storedChannel n v p) = true ↔ MovesNothing n v p := by
  obtain ⟨-, -, hsync, -, -⟩ := storedChannel_fields n v p
  have hsize : (storedChannel n v p).size = (p.dma.channels[n]).size := rfl
  have hblocks : (storedChannel n v p).blocks = (p.dma.channels[n]).blocks := rfl
  unfold zeroSize MovesNothing
  rw [hsync, hsize, hblocks]
  by_cases h6 : n = 6 <;> simp [h6]

theorem writeChcr_of_not_triggers (h : ¬ Triggers v) : writeChcr n v p = .next (chcrStored n v p) :=
  if_neg (mt triggered_iff.mp h)

theorem writeChcr_of_triggers (h : Triggers v) : writeChcr n v p = runTransfer n (chcrStored n v p) :=
  if_pos (triggered_iff.mpr h)

/-- A triggered transfer, by the channel stored. -/
theorem runTransfer_chcrStored (n : Fin 7) (v : Word) (p : Platform) : runTransfer n (chcrStored n v p) =
    let c := storedChannel n v p
    let p' := chcrStored n v p
    if zeroSize n c then .refused .dmaZeroSize
    else if !p.dma.dpcr.getLsbD (4 * n.val + 3) then .refused .dmaChannelDisabled
    else if v.extractLsb' 9 2 = 3#2 then .refused .dmaSyncReserved
    else if n = 6 then .next (completeTransfer n (orderingTable c p'))
    else if v.extractLsb' 9 2 = 2#2 then
      if n = 2 && v.getLsbD 0 then
        mapNext (completeTransfer n) (linkedList maxListNodes (c.madr.setWidth 32) p')
      else .refused .dmaLinkedListNotGpu
    else mapNext (completeTransfer n) (loopResult c.words (transferWord n c) p') := by
  obtain ⟨htoDevice, -, hsync, -, -⟩ := storedChannel_fields n v p
  unfold runTransfer
  rw [channel_chcrStored]
  dsimp only
  rw [hsync, htoDevice]
  rfl

theorem not_movesNothing (h : TransferAdmitted n v p) : ¬ MovesNothing n v p := by
  obtain ⟨-, -, h6, h0, h1, -, -⟩ := h
  rintro (⟨hn, hz⟩ | ⟨hn, hs, hz⟩ | ⟨hn, hs, hz | hz⟩)
  · exact h6 hn hz
  · exact h0 hn hs hz
  · exact (h1 hn hs).1 hz
  · exact (h1 hn hs).2 hz

/-- An admitted transfer passes the checks. -/
theorem writeChcr_of_admitted (h : TransferAdmitted n v p) : writeChcr n v p =
    let c := storedChannel n v p
    let p' := chcrStored n v p
    if n = 6 then .next (completeTransfer n (orderingTable c p'))
    else if v.extractLsb' 9 2 = 2#2 then
      if n = 2 && v.getLsbD 0 then
        mapNext (completeTransfer n) (linkedList maxListNodes (c.madr.setWidth 32) p')
      else .refused .dmaLinkedListNotGpu
    else mapNext (completeTransfer n) (loopResult c.words (transferWord n c) p') := by
  have hz := mt zeroSize_iff.mp (not_movesNothing h)
  obtain ⟨he, hs, -, -, -, henabled, h3⟩ := h
  rw [writeChcr_of_triggers ⟨he, hs⟩, runTransfer_chcrStored]
  dsimp only
  rw [if_neg hz, if_neg (by simp [henabled]), if_neg h3]

theorem writeMadr_eq (n : Fin 7) (v : Word) (p : Platform) :
    writeMadr n v p = setChannel n { p.dma.channels[n] with madr := BitVec.ofNat 24 v.toNat } p := by
  rw [writeMadr, BitVec.ofNat_toNat, BitVec.setWidth_eq_extractLsb' (by decide)]

end

/-- Settles O45: the channel's registers are the map's, and the checks are made in the model's order. -/
theorem dmaStartsAndRefusals : Obligations.DmaStartsAndRefusals := by
  refine ⟨fun n v p => ?registers, fun n v p => ?starts⟩
  case registers =>
    intro c base channel'
    have hmadr : target base = .madr n := target_channel n 0 (by decide)
    have hbcr : target (base + 4) = .bcr n := target_channel n 4 (by decide)
    have hchcr : target (base + 8) = .chcr n := target_channel n 8 (by decide)
    unfold busRead busWrite
    rw [hmadr, hbcr, hchcr]
    exact ⟨rfl, rfl, rfl, rfl, congrArg Host.Outcome.next (writeMadr_eq n v p), rfl, rfl, rfl⟩
  case starts =>
    intro p' size count sync triggered empty enabled
    refine ⟨writeChcr_of_not_triggers, fun ht he => ?_, fun ht he hd => ?_, fun ht he hd hs => ?_,
      fun ht hd hn hs hl => ?_⟩
    all_goals rw [writeChcr_of_triggers ht, runTransfer_chcrStored]; dsimp only
    · exact if_pos (zeroSize_iff.mpr he)
    · rw [if_neg (mt zeroSize_iff.mp he), if_pos (by simpa [enabled] using hd)]
    · rw [if_neg (mt zeroSize_iff.mp he), if_neg (by simpa using hd), if_pos hs]
    · have he : ¬ MovesNothing n v p := by
        rintro (⟨h6, -⟩ | ⟨-, h0, -⟩ | ⟨-, h1, -⟩)
        · exact hn h6
        · exact absurd (hs.symm.trans h0) (by decide)
        · exact absurd (hs.symm.trans h1) (by decide)
      have h3 : v.extractLsb' 9 2 ≠ 3#2 := fun h3 => absurd (hs.symm.trans h3) (by decide)
      rw [if_neg (mt zeroSize_iff.mp he), if_neg (by simpa using hd), if_neg h3, if_neg hn, if_pos hs, if_neg]
      rcases hl with hl | hl
      · simp [hl]
      · simp only [hl, Bool.and_false, Bool.false_eq_true, not_false_eq_true]

/-! ## Words stored in order -/

section
variable {a : Nat → Nat}

/-- Words stored elsewhere leave a byte alone. -/
theorem readByte_storeWords_outside (ws : List Word) (i : Nat) (m : Memory) (b : Nat)
    (h : ∀ k, k < ws.length → b < a (i + k) ∨ a (i + k) + 4 ≤ b) :
    (storeWords a i ws m).readByte b = m.readByte b := by
  induction ws generalizing i m with
  | nil => rfl
  | cons w ws ih =>
    rw [storeWords, ih (i + 1) _ fun k hk => ?_]
    · exact Memory.readByte_write_outside m (a i) .word w b (h 0 (Nat.succ_pos _))
    · rw [Nat.add_assoc, Nat.add_comm 1 k]
      exact h (k + 1) (Nat.succ_lt_succ hk)

theorem wf_storeWords (ws : List Word) (i : Nat) {m : Memory} (hw : m.wf = true) : (storeWords a i ws m).wf = true := by
  induction ws generalizing i m with
  | nil => exact hw
  | cons w ws ih => exact ih (i + 1) (Memory.wf_write hw _ _ _)

/-- Words stored at addresses a word apart read back. -/
theorem read_storeWords {k : Nat} {f : Nat → Word} {m : Memory} (hw : m.wf = true)
    (hdisjoint : ∀ i j, i < j → j < k → a i + 4 ≤ a j ∨ a j + 4 ≤ a i) {i : Nat} (hi : i < k) :
    (storeWords a 0 ((List.range k).map f) m).read (a i) .word = f i := by
  induction k with
  | zero => omega
  | succ k ih =>
    rw [List.range_succ, List.map_append, List.map_singleton, storeWords_append, List.length_map, List.length_range,
      Nat.zero_add]
    rcases Nat.lt_succ_iff_lt_or_eq.mp hi with hi | rfl
    · rw [← ih (fun i j hij hj => hdisjoint i j hij (by omega)) hi]
      have := hdisjoint i k hi (Nat.lt_succ_self k)
      refine word_ext fun b hb => ?_
      rw [Memory.wordByte_read _ _ .word b hb, Memory.wordByte_read _ _ .word b hb]
      exact Memory.readByte_write_outside _ _ .word _ _ (show _ ∨ a k + 4 ≤ _ by omega)
    · exact Memory.read_write_word (wf_storeWords _ _ hw) _ _

/-- A loop of DMA writes stores its words in order. -/
theorem loop_dmaWrite (addr f : Nat → Word) (k : Nat) (p : Platform) : loop k (fun i p => dmaWrite (addr i) (f i) p) p =
    { p with mem := storeWords (fun i => dmaAddress (addr i)) 0 ((List.range k).map f) p.mem } := by
  induction k with
  | zero => rfl
  | succ k ih =>
    rw [List.range_succ, List.map_append, List.map_singleton, storeWords_append, List.length_map, List.length_range,
      Nat.zero_add, loop, ih]
    rfl

end

/-! ## Stepped addresses (R439) -/

theorem ofInt_add_four_mul (x : BitVec 24) (i : Nat) :
    BitVec.ofInt 32 ((x.toNat : Int) + 4 * i) = x.setWidth 32 + BitVec.ofNat 32 (4 * i) := by
  rw [BitVec.ofInt_add, BitVec.ofInt_natCast, BitVec.ofNat_toNat, ← BitVec.ofInt_natCast 32 (4 * i), Int.natCast_mul]
  rfl

theorem ofInt_sub_four_mul (x : BitVec 24) (i : Nat) :
    BitVec.ofInt 32 ((x.toNat : Int) + -4 * i) = x.setWidth 32 - BitVec.ofNat 32 (4 * i) := by
  rw [BitVec.ofInt_add, BitVec.ofInt_natCast, BitVec.ofNat_toNat, Int.neg_mul, BitVec.ofInt_neg,
    ← BitVec.ofInt_natCast 32 (4 * i), Int.natCast_mul, BitVec.sub_eq_add_neg]
  rfl

theorem wordAddress_up (madr : BitVec 24) (i : Nat) :
    wordAddress madr false i = dmaAddress (madr.setWidth 32 + BitVec.ofNat 32 (4 * i)) :=
  congrArg dmaAddress (ofInt_add_four_mul madr i)

theorem wordAddress_down (madr : BitVec 24) (i : Nat) :
    wordAddress madr true i = dmaAddress (madr.setWidth 32 - BitVec.ofNat 32 (4 * i)) :=
  congrArg dmaAddress (ofInt_sub_four_mul madr i)

/-- The stepped addresses are those of the rule. -/
theorem wordAddress_eq (c : DmaChannel) (i : Nat) :
    wordAddress c.madr c.stepsDown i = dmaAddress (transferAddress c i) := by
  unfold transferAddress
  cases c.stepsDown
  · exact wordAddress_up c.madr i
  · exact wordAddress_down c.madr i

/-- Stepping down, the words of a transfer of less than 2^19 are apart. -/
theorem wordAddress_disjoint (madr : BitVec 24) {i j : Nat} (hij : i < j) (hj : j < 65536) :
    wordAddress madr true i + 4 ≤ wordAddress madr true j ∨ wordAddress madr true j + 4 ≤ wordAddress madr true i := by
  have heq (k : Nat) (hk : k < 65536) : wordAddress madr true k = (madr.toNat + 0x200000 - 4 * k) % 0x200000 / 4 * 4 := by
    have hlt := madr.isLt
    rw [wordAddress_down, dmaAddress_eq, BitVec.toNat_sub, BitVec.toNat_setWidth, BitVec.toNat_ofNat]
    omega
  rw [heq i (by omega), heq j hj]
  omega

/-! ## OTC (R443) -/

/-- The word of place i of an ordering table. -/
def otcWord (c : DmaChannel) (i : Nat) : Word :=
  if i + 1 = c.size then 0x00FFFFFF#32 else (c.madr.setWidth 32 - BitVec.ofNat 32 (4 * i) - 4#32) &&& 0x001FFFFF#32

theorem orderingTable_eq (c : DmaChannel) (p : Platform) : orderingTable c p = { p with
    mem := storeWords (wordAddress c.madr true) 0 ((List.range c.size).map (otcWord c)) p.mem } := by
  rw [funext (wordAddress_down c.madr)]
  exact loop_dmaWrite _ (otcWord c) c.size p

theorem size_lt (c : DmaChannel) : c.size < 65536 := (c.bcr.extractLsb' 0 16).isLt

/-- What completion leaves of the channel, the memory and the GPU (R444). -/
theorem completeTransfer_keeps (n : Fin 7) (p : Platform) :
    ((completeTransfer n p).dma.channels[n]).chcr = (p.dma.channels[n]).chcr &&& 0xEEFFFFFF#32 ∧
    (completeTransfer n p).mem = p.mem ∧ (completeTransfer n p).gpu = p.gpu := by
  obtain ⟨⟨m, hchannels⟩, -, hq⟩ := completeTransfer_spec n p
  refine ⟨?_, by rw [hq], by rw [hq]⟩
  have hself : (completeTransfer n p).dma.channels[n] = _ := congrArg (·[n]) hchannels
  rw [hself]
  exact congrArg DmaChannel.chcr (Vector.getElem_set_self n.isLt)

/-- The CHCR a completed transfer leaves (R431, R444). -/
theorem chcr_completed (v : Word) : v &&& chcrMask &&& 0xEEFFFFFF#32 = v &&& 0x60770703#32 := by
  rw [BitVec.and_assoc]; rfl

/-- Settles O46: the table's words are stored at addresses a word apart, so each reads back. -/
theorem orderingTableIsBuilt : Obligations.OrderingTableIsBuilt := by
  intro v p h hw madr size
  let c := storedChannel 6 v p
  let q := orderingTable c (chcrStored 6 v p)
  have hq : q = { chcrStored 6 v p with
    mem := storeWords (wordAddress madr true) 0 ((List.range size).map (otcWord c)) p.mem } := orderingTable_eq c _
  obtain ⟨hchcr, hmem, hgpu⟩ := completeTransfer_keeps 6 q
  refine ⟨_, (writeChcr_of_admitted h).trans (if_pos rfl), fun i hi => ?word, fun b hb => ?frame, ?chcr, ?gpu⟩
  case word =>
    rw [hmem, hq]
    refine (read_storeWords hw (fun i j hij hj => wordAddress_disjoint madr hij (hj.trans (size_lt _))) hi).trans ?_
    refine ite_congr rfl (fun _ => rfl) fun _ => congrArg (· &&& 0x001FFFFF#32) ?_
    rw [Int.sub_eq_add_neg, Int.sub_eq_add_neg, ← Int.neg_mul, BitVec.ofInt_add, ofInt_sub_four_mul, BitVec.sub_eq_add_neg]
    rfl
  case frame =>
    rw [hmem, hq]
    refine readByte_storeWords_outside _ 0 p.mem b fun k hk => ?_
    rw [Nat.zero_add]
    exact hb k (by simpa using hk)
  case chcr =>
    rw [hchcr, hq, ← chcr_completed]
    exact congrArg (fun c : DmaChannel => c.chcr &&& 0xEEFFFFFF#32) (channel_chcrStored 6 v p)
  case gpu => rw [hgpu, hq]; rfl

end Sys2Proof.Machine
end

section
/-! Proofs of the family "other", the DMA's linked lists (O47, O48) and its manual and block transfers (O49). -/

namespace Sys2Proof.Machine

open Sys2Proof.Safety

/-! ## Words to GP0, in order -/

theorem andThen_assoc {α β γ : Type} (r : Result α) (f : α → Result β) (g : β → Result γ) :
    andThen (andThen r f) g = andThen r fun a => andThen (f a) g := by
  cases r <;> rfl

theorem andThen_next_right {α : Type} (r : Result α) : andThen r .next = r := by cases r <;> rfl

theorem putAll_append (ws us : List Word) (p : Platform) : putAll (ws ++ us) p = andThen (putAll ws p) (putAll us) := by
  induction ws generalizing p with
  | nil => rfl
  | cons w ws ih =>
    show andThen (putGp0 w p) (putAll (ws ++ us)) = andThen (andThen (putGp0 w p) (putAll ws)) (putAll us)
    rw [andThen_assoc, funext ih]

theorem mem_putAll {ws : List Word} {p q : Platform} (h : putAll ws p = .next q) : q.mem = p.mem := by
  induction ws generalizing p with
  | nil => cases h; rfl
  | cons w ws ih =>
    obtain ⟨r, hr, h⟩ := andThen_eq_next.mp h
    rw [ih h, putGp0_frame hr]

theorem dmaRead_congr {p q : Platform} (h : q.mem = p.mem) (a : Word) : dmaRead a q = dmaRead a p := by
  rw [dmaRead, dmaRead, h]

/-- A loop that puts words of RAM puts them as they stood at its start: GP0 does not change RAM. -/
theorem loop_putGp0 (addr : Nat → Word) (k : Nat) (p : Platform) :
    loopResult k (fun i p => putGp0 (dmaRead (addr i) p) p) p =
      putAll ((List.range k).map fun i => dmaRead (addr i) p) p := by
  induction k with
  | zero => rfl
  | succ k ih =>
    rw [List.range_succ, List.map_append, putAll_append, loopResult, ih]
    cases hr : putAll ((List.range k).map fun i => dmaRead (addr i) p) p with
    | next q =>
      rw [andThen_next, andThen_next, dmaRead_congr (mem_putAll hr)]
      exact (andThen_next_right _).symm
    | fault | refused => rfl

/-! ## Linked lists (R442) -/

/-- The words a node delivers. -/
def nodeWords (p : Platform) (a : Word) : List Word :=
  (List.range ((dmaRead a p).extractLsb' 24 8).toNat).map fun i => dmaRead (a + BitVec.ofNat 32 (4 * (i + 1))) p

/-- The node ends its list. -/
def endsList (p : Platform) (a : Word) : Bool := (dmaRead a p).getLsbD 23

/-- The address of the next node. -/
def nextNode (p : Platform) (a : Word) : Word := ((dmaRead a p).extractLsb' 0 24).setWidth 32

theorem listWords_succ (p : Platform) (fuel : Nat) (a : Word) : listWords p (fuel + 1) a =
    if endsList p a then some (nodeWords p a) else (listWords p fuel (nextNode p a)).map (nodeWords p a ++ ·) := rfl

theorem listWords_congr {p q : Platform} (h : q.mem = p.mem) (fuel : Nat) (a : Word) :
    listWords q fuel a = listWords p fuel a := by
  induction fuel generalizing a with
  | zero => rfl
  | succ fuel ih =>
    have hends : endsList q a = endsList p a := by rw [endsList, dmaRead_congr h, endsList]
    have hnext : nextNode q a = nextNode p a := by rw [nextNode, dmaRead_congr h, nextNode]
    have hwords : nodeWords q a = nodeWords p a := by simp only [nodeWords, dmaRead_congr h]
    rw [listWords_succ, listWords_succ, ih, hends, hnext, hwords]

theorem linkedList_succ (fuel : Nat) (a : Word) (p : Platform) : linkedList (fuel + 1) a p =
    andThen (putAll (nodeWords p a) p) fun q => if endsList p a then .next q else linkedList fuel (nextNode p a) q := by
  rw [linkedList, loop_putGp0 fun i => a + BitVec.ofNat 32 (4 * (i + 1))]
  rfl

/-- The walk of a list that ends is the delivery of its words. -/
theorem linkedList_of_ends {fuel : Nat} {a : Word} {p : Platform} {ws : List Word} (h : listWords p fuel a = some ws) :
    linkedList fuel a p = putAll ws p := by
  induction fuel generalizing a p ws with
  | zero => cases h
  | succ fuel ih =>
    rw [listWords_succ] at h
    rw [linkedList_succ]
    cases he : endsList p a with
    | true =>
      rw [he] at h
      cases h
      exact andThen_next_right _
    | false =>
      rw [he] at h
      obtain ⟨us, hus, rfl⟩ := Option.map_eq_some_iff.mp h
      rw [putAll_append]
      cases hq : putAll (nodeWords p a) p with
      | next q => exact ih ((listWords_congr (mem_putAll hq) fuel _).trans hus)
      | fault | refused => rfl

/-- The walk of a list that does not end never answers a next state. -/
theorem linkedList_of_not_ends {fuel : Nat} {a : Word} {p : Platform} (h : listWords p fuel a = none) (q : Platform) :
    linkedList fuel a p ≠ .next q := by
  induction fuel generalizing a p with
  | zero => simp [linkedList]
  | succ fuel ih =>
    rw [listWords_succ] at h
    rw [linkedList_succ]
    intro hnext
    obtain ⟨r, hr, hnext⟩ := andThen_eq_next.mp hnext
    cases he : endsList p a with
    | true => rw [he] at h; cases h
    | false =>
      rw [he] at h hnext
      exact ih ((listWords_congr (mem_putAll hr) fuel _).trans (Option.map_eq_none_iff.mp h)) hnext

/-- Settles O47: by induction on the bound; an admitted linked-list transfer is its walk. -/
theorem linkedListDeliversItsWordsInOrder : Obligations.LinkedListDeliversItsWordsInOrder := by
  refine ⟨fun fuel a p => ⟨fun ws => linkedList_of_ends, linkedList_of_not_ends⟩, fun v p h hsync hdir ws hws => ?_⟩
  have hmadr : (storedChannel 2 v p).madr = (p.dma.channels[(2 : Fin 7)]).madr := rfl
  have hends := (listWords_congr (p := p) (q := chcrStored 2 v p) rfl maxListNodes _).trans hws
  rw [writeChcr_of_admitted h]
  dsimp only
  rw [if_neg (by decide), if_pos hsync, if_pos (by simp [hdir]), hmadr, linkedList_of_ends hends]

/-! ## A list that ends does so within the words of RAM (log 16) -/

theorem listWords_eq_none_iff (p : Platform) (fuel : Nat) (a : Word) :
    listWords p fuel a = none ↔ ∀ k, k < fuel → endsList p ((nextNode p)^[k] a) = false := by
  induction fuel generalizing a with
  | zero => exact iff_of_true rfl fun k hk => absurd hk (Nat.not_lt_zero k)
  | succ fuel ih =>
    rw [listWords_succ]
    cases he : endsList p a with
    | true => exact iff_of_false (by simp) fun h => absurd ((h 0 (Nat.succ_pos _)).symm.trans he) Bool.false_ne_true
    | false =>
      rw [if_neg Bool.false_ne_true, Option.map_eq_none_iff, ih]
      constructor
      · intro h k hk
        cases k with
        | zero => exact he
        | succ k => exact h k (by omega)
      · exact fun h k hk => h (k + 1) (by omega)

/-- Nodes at one RAM address go on alike. -/
theorem iterate_nextNode_congr {p : Platform} {a b : Word} (h : dmaAddress a = dmaAddress b) (k : Nat) :
    endsList p ((nextNode p)^[k] a) = endsList p ((nextNode p)^[k] b) := by
  have hread : dmaRead a p = dmaRead b p := by rw [dmaRead, dmaRead, h]
  cases k with
  | zero => exact congrArg (·.getLsbD 23) hread
  | succ k =>
    rw [Function.iterate_succ_apply, Function.iterate_succ_apply, nextNode, nextNode, hread]

/-- The RAM word of a DMA address. -/
def ramWord (a : Word) : Fin 524288 :=
  ⟨dmaAddress a / 4, by have := dmaAddress_lt a; omega⟩

theorem dmaAddress_of_ramWord {a b : Word} (h : ramWord a = ramWord b) : dmaAddress a = dmaAddress b := by
  have h : dmaAddress a / 4 = dmaAddress b / 4 := congrArg Fin.val h
  rw [dmaAddress_eq, dmaAddress_eq] at *
  omega

/-- The nodes up to the first that ends a list lie at different RAM words. -/
theorem ramWord_injective {p : Platform} {a : Word} {k : Nat} (hk : endsList p ((nextNode p)^[k] a) = true)
    (hfirst : ∀ j, j < k → endsList p ((nextNode p)^[j] a) = false) :
    Function.Injective fun i : Fin (k + 1) => ramWord ((nextNode p)^[i.val] a) := by
  have hlt : ∀ i j, i < j → j ≤ k →
      ramWord ((nextNode p)^[i] a) ≠ ramWord ((nextNode p)^[j] a) := fun i j hij hj h => by
    have hend := iterate_nextNode_congr (p := p) (dmaAddress_of_ramWord h) (k - j)
    rw [← Function.iterate_add_apply, ← Function.iterate_add_apply, Nat.sub_add_cancel hj, hk,
      hfirst _ (by omega)] at hend
    exact Bool.false_ne_true hend
  intro i j h
  rcases Nat.lt_trichotomy i.val j.val with hij | hij | hij
  · exact absurd h (hlt _ _ hij (by omega))
  · exact Fin.ext hij
  · exact absurd h.symm (hlt _ _ hij (by omega))

/-- Settles O48: by the pigeonhole principle over the words of RAM. -/
theorem longListsNeverEnd : Obligations.LongListsNeverEnd := by
  intro p a fuel h
  rw [listWords_eq_none_iff] at *
  by_contra hends
  have hends : ∃ k, endsList p ((nextNode p)^[k] a) = true := by
    simp only [not_forall, Bool.not_eq_false] at hends
    obtain ⟨k, -, hk⟩ := hends
    exact ⟨k, hk⟩
  classical
  have hinj := ramWord_injective (Nat.find_spec hends) fun j hj => eq_false_of_ne_true (Nat.find_min hends hj)
  have hcard := Fintype.card_le_of_injective _ hinj
  rw [Fintype.card_fin, Fintype.card_fin] at hcard
  exact absurd ((h _ hcard).symm.trans (Nat.find_spec hends)) Bool.false_ne_true

/-! ## Manual and block transfers (R438, R439, R441) -/

/-- A transfer to GP0 puts the words at its addresses. -/
theorem transfer_toGp0 {c : DmaChannel} (h : c.toDevice = true) (k : Nat) (p : Platform) :
    loopResult k (transferWord 2 c) p =
      putAll ((List.range k).map fun i => p.mem.read (wordAddress c.madr c.stepsDown i) .word) p := by
  have hword : transferWord 2 c = fun i p => putGp0 (dmaRead (transferAddress c i) p) p := by
    funext i p
    rw [transferWord, h]
    rfl
  rw [hword, loop_putGp0, funext (wordAddress_eq c)]
  rfl

/-- A transfer to a device other than the GPU changes nothing. -/
theorem transfer_toOther {n : Fin 7} {c : DmaChannel} (h : c.toDevice = true) (hn : n ≠ 2) (k : Nat) (p : Platform) :
    loopResult k (transferWord n c) p = .next p := by
  have hword : ∀ i, transferWord n c i p = .next p := fun i => by
    rw [transferWord, h]
    exact if_neg hn
  induction k with
  | zero => rfl
  | succ k ih => rw [loopResult, ih]; exact hword k

theorem takeWords_frame (n : Fin 7) (k : Nat) (p : Platform) :
    (takeWords n k p).2.dma = p.dma ∧ (n ≠ 2 → (takeWords n k p).2.gpu = p.gpu) := by
  induction k with
  | zero => exact ⟨rfl, fun _ => rfl⟩
  | succ k ih =>
    obtain ⟨hdma, hgpu⟩ := ih
    rw [takeWords_succ]
    unfold deviceGet
    refine ⟨?_, fun hn => ?_⟩
    · refine Eq.trans ?_ hdma
      split
      · rw [gpuRead_frame]
      · rfl
    · rw [if_neg hn]; exact hgpu hn

/-- Settles O49: each kind of transfer is its words in order, then completion. -/
theorem blockTransfersMoveWordsInOrder : Obligations.BlockTransfersMoveWordsInOrder := by
  intro n v p h h6 hsync c words a p'
  obtain ⟨htoDevice, hsteps, hfield, -, -⟩ := storedChannel_fields n v p
  have hwords : (storedChannel n v p).words = words := by rw [DmaChannel.words, hfield]; rfl
  have haddr : ∀ i, a i = wordAddress (storedChannel n v p).madr (storedChannel n v p).stepsDown i := fun i => by
    rw [hsteps]; rfl
  have hrun : writeChcr n v p =
      mapNext (completeTransfer n) (loopResult words (transferWord n (storedChannel n v p)) p') := by
    rw [writeChcr_of_admitted h]
    dsimp only
    rw [if_neg h6, if_neg hsync, hwords]
  refine ⟨fun hdir hn => ?gp0, fun hdir hn => ?other, fun hdir => ?toRam⟩
  case gp0 =>
    subst hn
    rw [hrun, transfer_toGp0 (htoDevice.trans hdir), ← funext haddr]
    rfl
  case other => rw [hrun, transfer_toOther (htoDevice.trans hdir) hn]; rfl
  case toRam =>
    have hram := hrun.trans (congrArg (mapNext (completeTransfer n)) (transfer_toRam (htoDevice.trans hdir) words p'))
    rw [← funext (wordAddress_eq (storedChannel n v p)), ← funext haddr] at hram
    obtain ⟨hdma, hgpu⟩ := takeWords_frame n words p'
    obtain ⟨hchcr, hmem, hgpu'⟩ := completeTransfer_keeps n { (takeWords n words p').2 with
      mem := storeWords a 0 (takeWords n words p').1 p'.mem }
    refine ⟨_, hram, ?chcr, fun hn => hgpu'.trans (hgpu hn), ⟨rfl, length_takeWords ..⟩, fun b hb => ?frame⟩
    case chcr =>
      rw [hchcr, ← chcr_completed]
      refine congrArg (fun d : DmaChannel => d.chcr &&& 0xEEFFFFFF#32) (Eq.trans ?_ (channel_chcrStored n v p))
      exact congrArg (fun d : Dma => d.channels[n]) hdma
    case frame =>
      rw [hmem]
      refine readByte_storeWords_outside _ 0 p.mem b fun k hk => ?_
      rw [Nat.zero_add]
      exact hb k (by rwa [length_takeWords] at hk)

end Sys2Proof.Machine
end

section
/-! Proofs of the family "other", the GPU: drawing inside the area and under the mask (O55), status and control (O56). -/

namespace Sys2Proof.Machine

open Sys2Proof.Safety

/-! ## Drawing (R467, R469) -/

/-- (x, y) lies in the drawing area. -/
def InArea (g : Gpu) (x y : Nat) : Prop :=
  g.draw.area.x1.toNat ≤ x ∧ x ≤ g.draw.area.x2.toNat ∧ g.draw.area.y1.toNat ≤ y ∧ y ≤ g.draw.area.y2.toNat

/-- What drawing may make of g: cells of the area only, none under a checked mask bit, each with a forced mask bit. -/
structure DrawnOver (g g' : Gpu) : Prop where
  vram : Sparse.wf g'.vram = true
  area : g'.draw.area = g.draw.area
  checkMask : g'.draw.checkMask = g.draw.checkMask
  setMask : g'.draw.setMask = g.draw.setMask
  outside : ∀ x y, x < 1024 → y < 512 → ¬ InArea g x y → g'.cell x y = g.cell x y
  masked : ∀ x y, x < 1024 → y < 512 → g.draw.checkMask = true → maskBit (g.cell x y) = true →
    g'.cell x y = g.cell x y
  forced : ∀ x y, x < 1024 → y < 512 → g.draw.setMask = true → g'.cell x y ≠ g.cell x y →
    maskBit (g'.cell x y) = true

theorem drawnOver_refl {g : Gpu} (h : Sparse.wf g.vram = true) : DrawnOver g g :=
  ⟨h, rfl, rfl, rfl, fun _ _ _ _ _ => rfl, fun _ _ _ _ _ _ => rfl, fun _ _ _ _ _ h => absurd rfl h⟩

/-- Inside the area a cell's coordinates are its own: they do not wrap. -/
theorem cell_setCell_inside {g : Gpu} (hw : Sparse.wf g.vram = true) {x y a b : Nat} (h : InArea g a b) (hx : x < 1024)
    (hy : y < 512) (c : Cell16) : (g.setCell a b c).cell x y = if x = a ∧ y = b then c else g.cell x y := by
  obtain ⟨-, ha, -, hb⟩ := h
  have := g.draw.area.x2.isLt
  have := g.draw.area.y2.isLt
  rw [cell_setCell hw]
  refine if_congr ?_ rfl rfl
  rw [cellKey_eq_iff]
  omega

/-- One more fragment inside the area. -/
theorem DrawnOver.draw {g a b : Gpu} (h : DrawnOver g a) (hd : DrawnInside a b) : DrawnOver g b := by
  obtain ⟨x, y, c, hin, rfl, hcheck, hset⟩ := hd
  have hin : InArea a x y := by simpa [insideArea, InArea] using hin
  have hcell := fun {u v} hu hv => cell_setCell_inside h.vram hin (x := u) (y := v) hu hv c
  have hin : InArea g x y := by rwa [InArea, ← h.area]
  rw [h.checkMask] at hcheck
  rw [h.setMask] at hset
  refine ⟨wf_setCell h.vram x y c, h.area, h.checkMask, h.setMask, fun u v hu hv hout => ?outside,
    fun u v hu hv hc hm => ?masked, fun u v hu hv hs hne => ?forced⟩
  case outside =>
    rw [hcell hu hv, if_neg ?_]
    · exact h.outside u v hu hv hout
    · rintro ⟨rfl, rfl⟩; exact hout hin
  case masked =>
    have hsame := h.masked u v hu hv hc hm
    rw [hcell hu hv, if_neg ?_]
    · exact hsame
    · rintro ⟨rfl, rfl⟩; exact hcheck ⟨hc, hsame ▸ hm⟩
  case forced =>
    rw [hcell hu hv] at hne ⊢
    split
    · exact hset hs
    · rename_i heq
      rw [if_neg heq] at hne
      exact h.forced u v hu hv hs hne

/-- Settles O55: a polygon's own texture page leaves area and mask alone, and every fragment is one more drawn inside. -/
theorem drawingRespectsAreaAndMask : Obligations.DrawingRespectsAreaAndMask := by
  intro ws g g' hw hdraw x y hx hy
  have h0 : DrawnOver g g := drawnOver_refl hw
  have h : DrawnOver g g' := by
    rcases hdraw with ⟨f, hf⟩ | ⟨f, hf⟩
    · exact drawPolygon_keeps h0 (fun _ => ⟨hw, rfl, rfl, rfl, h0.outside, h0.masked, h0.forced⟩)
        (fun _ _ => DrawnOver.draw) hf
    · exact drawRectangle_keeps h0 (fun _ _ => DrawnOver.draw) hf
  exact ⟨h.outside x y hx hy, h.masked x y hx hy, h.forced x y hx hy⟩

/-! ## Status and control (R471, R472) -/

/-- The bits of GPUSTAT that are not draws. -/
def statNamed (g : Gpu) : Word :=
  BitVec.ofBool g.stat31 ++ 0#2 ++ 1#1 ++ BitVec.ofBool (g.transfer.mode == .read) ++ 1#1 ++ 0#13 ++
    BitVec.ofBool g.draw.checkMask ++ BitVec.ofBool g.draw.setMask ++ g.draw.texpage.extractLsb' 0 11

theorem getLsbD_statNamed (g : Gpu) {k : Nat} (hk : k < 32) : (statNamed g).getLsbD k =
    if k < 11 then g.draw.texpage.getLsbD k else if k < 12 then g.draw.setMask else if k < 13 then g.draw.checkMask
    else if k < 26 then false else if k < 27 then true else if k < 28 then g.transfer.mode == .read
    else if k < 29 then true else if k < 31 then false else g.stat31 := by
  unfold statNamed
  show BitVec.getLsbD (w := 1 + 2 + 1 + 1 + 1 + 13 + 1 + 1 + 11) _ k = _
  simp only [BitVec.getLsbD_append, BitVec.getLsbD_extractLsb', BitVec.getLsbD_ofBool]
  interval_cases k <;> simp

/-- A named bit of GPUSTAT is not a draw. -/
theorem getLsbD_gpuStat (p : Platform) {k : Nat} (hk : gpuStatNamed.getLsbD k = true) :
    (gpuStat p).1.getLsbD k = (statNamed p.gpu).getLsbD k := by
  show (statNamed p.gpu ||| ((drawWord p).1 &&& ~~~gpuStatNamed)).getLsbD k = _
  rw [BitVec.getLsbD_or, BitVec.getLsbD_and, BitVec.getLsbD_not, hk]
  simp

theorem target_gp0 : target 0x1F801810 = .gp0 := rfl
theorem target_gp1 : target 0x1F801814 = .gp1 := rfl

/-- A command byte, by its value. -/
theorem command_byte {v : Word} {k : Byte} (h : v.toNat / 0x1000000 = k.toNat) : v.extractLsb' 24 8 = k := by
  apply BitVec.eq_of_toNat_eq
  rw [BitVec.extractLsb'_toNat, Nat.shiftRight_eq_div_pow, h, Nat.mod_eq_of_lt k.isLt]

/-- GP1 commands other than 0 and 1 reach nothing that is modelled (R472). -/
theorem gp1_of_other {v : Word} (h : 2 ≤ v.toNat / 0x1000000) (p : Platform) : gp1 v p = p := by
  have hne : ∀ k : Byte, k.toNat < 2 → v.extractLsb' 24 8 ≠ k := fun k hk he => by
    have := v.isLt
    rw [← he, BitVec.extractLsb'_toNat, Nat.shiftRight_eq_div_pow] at hk
    omega
  unfold gp1
  split
  · rename_i he; exact absurd he (hne _ (by decide))
  · rename_i he; exact absurd he (hne _ (by decide))
  · rfl

/-- Settles O56: the map's rows for the two ports, the named bits of GPUSTAT, and GP1 by its command byte. -/
theorem gpuStatusAndControl : Obligations.GpuStatusAndControl := by
  intro v p
  refine ⟨?_, ?_, ?_, ?_, ⟨fun b hb => ?low, ?set, ?check, ?cmd, ?read, ?dma, ?toggle, rfl⟩, fun h => ?zero, fun h => ?one,
    fun h => gp1_of_other h p⟩
  case refine_1 => unfold busWrite; rw [target_gp0]; rfl
  case refine_2 => unfold busRead; rw [target_gp0]; rfl
  case refine_3 => unfold busWrite; rw [target_gp1]; rfl
  case refine_4 => unfold busRead; rw [target_gp1]; rfl
  case low =>
    rw [getLsbD_gpuStat p (by interval_cases b <;> rfl), getLsbD_statNamed _ (by omega), if_pos (by omega)]
  case read =>
    rw [getLsbD_gpuStat p rfl, getLsbD_statNamed _ (by decide)]
    exact beq_iff_eq
  case set | check | cmd | dma | toggle => rw [getLsbD_gpuStat p rfl, getLsbD_statNamed _ (by decide)]; rfl
  case zero => unfold gp1; rw [command_byte (k := 0x00#8) h]; exact ⟨rfl, rfl, rfl⟩
  case one => unfold gp1; rw [command_byte (k := 0x01#8) h]; exact ⟨rfl, rfl, rfl⟩

end Sys2Proof.Machine
end

section
/-! Proof of the family "other", the VRAM transfers (O52): the cursor's walk over the rectangle, and words as pairs of cells. -/

namespace Sys2Proof.Machine

open Sys2Proof.Safety

/-! ## The cursor's walk (R475, R476, R477) -/

/-- The cell a transfer's cursor stands on. -/
def Gpu.atCursor (g : Gpu) (t : Transfer) : Cell16 := g.cell (t.x + t.tx) (t.y + t.ty)

/-- The cell's key. -/
def Transfer.key (t : Transfer) : Nat := cellKey (t.x + t.tx) (t.y + t.ty)

/-- The transfer after k pixels. -/
def Transfer.after (t : Transfer) (k : Nat) : Transfer := Transfer.advance^[k] t

theorem after_succ (t : Transfer) (k : Nat) : t.after (k + 1) = t.advance.after k := Function.iterate_succ_apply ..

theorem after_succ' (t : Transfer) (k : Nat) : t.after (k + 1) = (t.after k).advance := Function.iterate_succ_apply' ..

/-- The next place of a row-major walk over rows of w. -/
theorem succ_place (k : Nat) {w : Nat} (hw : 0 < w) :
    ((k % w + 1 = w) → (k + 1) % w = 0 ∧ (k + 1) / w = k / w + 1) ∧
    (k % w + 1 ≠ w → (k + 1) % w = k % w + 1 ∧ (k + 1) / w = k / w) := by
  have hk := Nat.div_add_mod k w
  have hlt := Nat.mod_lt k hw
  refine ⟨fun h => ?_, fun h => ?_⟩
  · have heq : k + 1 = w * (k / w + 1) := by rw [Nat.mul_add]; omega
    rw [heq, Nat.mul_mod_right, Nat.mul_div_cancel_left _ hw]
    exact ⟨rfl, rfl⟩
  · have heq : k + 1 = k % w + 1 + w * (k / w) := by omega
    have hlt' : k % w + 1 < w := by omega
    constructor
    · conv_lhs => rw [heq, Nat.add_mul_mod_self_left]
      exact Nat.mod_eq_of_lt hlt'
    · conv_lhs => rw [heq, Nat.add_mul_div_left _ _ hw, Nat.div_eq_of_lt hlt', Nat.zero_add]

section
variable {m : TransferMode} {p s : Word}

/-- The cursor walks the rectangle row by row; the mode is Fifo again at its end. -/
theorem after_startTransfer (m : TransferMode) (p s : Word) {k : Nat} (hk : k ≤ sizeWidth s * sizeHeight s) :
    (startTransfer m p s).after k = { startTransfer m p s with
      mode := if k = sizeWidth s * sizeHeight s then .fifo else m, tx := k % sizeWidth s, ty := k / sizeWidth s } := by
  have hw := (sizeWidth_bounds s).1
  induction k with
  | zero =>
    have hh := (sizeHeight_bounds s).1
    rw [if_neg (Nat.mul_pos hw hh).ne, Nat.zero_mod, Nat.zero_div]
    rfl
  | succ k ih =>
    have hlt : k < sizeWidth s * sizeHeight s := hk
    rw [after_succ', ih (by omega), if_neg (by omega)]
    unfold Transfer.advance startTransfer
    dsimp only
    by_cases hrow : k % sizeWidth s + 1 = sizeWidth s
    · obtain ⟨hmod, hdiv⟩ := (succ_place k hw).1 hrow
      have hend : k + 1 = sizeWidth s * sizeHeight s ↔ k / sizeWidth s + 1 = sizeHeight s := by
        have hplace := Nat.div_add_mod (k + 1) (sizeWidth s)
        rw [hmod, hdiv, Nat.add_zero] at hplace
        rw [← hplace]
        exact Nat.mul_right_inj (by omega)
      rw [if_pos hrow, hmod, hdiv]
      by_cases hlast : k / sizeWidth s + 1 = sizeHeight s
      · rw [if_pos hlast, if_pos (hend.mpr hlast)]
      · rw [if_neg hlast, if_neg (mt hend.mp hlast)]
    · obtain ⟨hmod, hdiv⟩ := (succ_place k hw).2 hrow
      have hend : k + 1 ≠ sizeWidth s * sizeHeight s := fun h => by
        rw [h, Nat.mul_mod_right] at hmod
        exact absurd hmod (by omega)
      rw [if_neg hrow, hmod, hdiv, if_neg hend]

/-- No cell comes twice. -/
theorem key_after_ne (m : TransferMode) (p s : Word) {i j : Nat} (hij : i < j) (hj : j < sizeWidth s * sizeHeight s) :
    ((startTransfer m p s).after i).key ≠ ((startTransfer m p s).after j).key := by
  rw [after_startTransfer m p s (by omega), after_startTransfer m p s (by omega)]
  unfold Transfer.key startTransfer
  rw [Ne, cellKey_eq_iff]
  dsimp only
  rintro ⟨hx, hy⟩
  obtain ⟨hw, hw'⟩ := sizeWidth_bounds s
  obtain ⟨-, hh⟩ := sizeHeight_bounds s
  have hcolumn : i % sizeWidth s = j % sizeWidth s := (Nat.ModEq.add_left_cancel' (positionX p) hx).eq_of_lt_of_lt
    ((Nat.mod_lt i hw).trans_le hw') ((Nat.mod_lt j hw).trans_le hw')
  have hrow : i / sizeWidth s = j / sizeWidth s := (Nat.ModEq.add_left_cancel' (positionY p) hy).eq_of_lt_of_lt
    ((Nat.div_lt_of_lt_mul (hij.trans hj)).trans_le hh) ((Nat.div_lt_of_lt_mul hj).trans_le hh)
  have hi := Nat.div_add_mod i (sizeWidth s)
  rw [hcolumn, hrow, Nat.div_add_mod] at hi
  omega

end

/-! ## Pixels in order -/

theorem transfer_writeAll (cs : List Cell16) (g : Gpu) : (writeAll cs g).transfer = g.transfer.after cs.length := by
  induction cs generalizing g with
  | nil => rfl
  | cons c cs ih => rw [writeAll, ih, List.length_cons, after_succ]; rfl

theorem cell_writeAll_outside (cs : List Cell16) (g : Gpu) {x y : Nat}
    (h : ∀ k, k < cs.length → (g.transfer.after k).key ≠ cellKey x y) : (writeAll cs g).cell x y = g.cell x y := by
  induction cs generalizing g with
  | nil => rfl
  | cons c cs ih =>
    rw [writeAll, ih (writePixel c g) fun k hk => ?_]
    · exact cell_setCell_of_ne g c (h 0 (Nat.succ_pos _)).symm
    · have := h (k + 1) (Nat.succ_lt_succ hk)
      rwa [after_succ] at this

/-- Pixels written at different cells are there. -/
theorem atCursor_writeAll (cs : List Cell16) {g : Gpu} (hw : Sparse.wf g.vram = true)
    (hne : ∀ i j, i < j → j < cs.length → (g.transfer.after i).key ≠ (g.transfer.after j).key) (k : Nat)
    (hk : k < cs.length) :
    (writeAll cs g).atCursor (g.transfer.after k) = cs[k] := by
  induction cs generalizing g k with
  | nil => exact absurd hk (Nat.not_lt_zero k)
  | cons c cs ih =>
    cases k with
    | zero =>
      refine (cell_writeAll_outside cs (writePixel c g) fun k hk => ?_).trans ?_
      · have := hne 0 (k + 1) (Nat.succ_pos k) (Nat.succ_lt_succ hk)
        rw [after_succ] at this
        exact this.symm
      · exact (cell_setCell hw _ _ _ _ c).trans (if_pos rfl)
    | succ k =>
      have := ih (g := writePixel c g) (wf_setCell hw _ _ c) (fun i j hij hj => ?_) k (Nat.lt_of_succ_lt_succ hk)
      · rw [after_succ]; exact this
      · have := hne (i + 1) (j + 1) (Nat.succ_lt_succ hij) (Nat.succ_lt_succ hj)
        rwa [after_succ, after_succ] at this

/-- Pixels read are the cells of the walk. -/
theorem readAll_eq (n : Nat) (g : Gpu) : readAll n g = (List.range n).map fun k => g.atCursor (g.transfer.after k) := by
  induction n generalizing g with
  | zero => rfl
  | succ n ih =>
    rw [readAll, ih, List.range_succ_eq_map, List.map_cons, List.map_map]
    refine congrArg₂ List.cons rfl (List.map_congr_left fun k _ => ?_)
    show _ = g.atCursor (g.transfer.after (k + 1))
    rw [after_succ]
    rfl

/-! ## Words -/

theorem TransferMode.eq_write {m : TransferMode} (hf : m ≠ .fifo) (hr : m ≠ .read) : m = .write := by
  cases m
  · exact absurd rfl hf
  · exact absurd rfl hr
  · rfl

theorem TransferMode.eq_read {m : TransferMode} (hf : m ≠ .fifo) (hw : m ≠ .write) : m = .read := by
  cases m
  · exact absurd rfl hf
  · rfl
  · exact absurd rfl hw

/-- What is left of a transfer after a pixel. -/
theorem advance_spec {t : Transfer} (h : cursorInside t = true) (hm : t.mode ≠ .fifo) :
    cursorInside t.advance = true ∧ t.advance.remaining + 1 = t.remaining ∧
    (t.remaining = 1 → t.advance.mode = .fifo) ∧ (t.remaining ≠ 1 → t.advance.mode = t.mode) := by
  obtain ⟨-, hr, hfifo, hmode⟩ := remaining_advance h hm
  exact ⟨cursorInside_advance h hm, hr, hfifo.mpr, hmode⟩

/-- What is left after two pixels, where the first was not the last. -/
theorem advance_twice {t : Transfer} (h : cursorInside t = true) (hm : t.mode ≠ .fifo) (h1 : t.remaining ≠ 1) :
    t.advance.mode = t.mode ∧ cursorInside t.advance.advance = true ∧ t.remaining = t.advance.advance.remaining + 2 ∧
    (t.advance.advance.mode = .fifo ∨ t.advance.advance.mode = t.mode) := by
  obtain ⟨hc, hr, -, hmode⟩ := advance_spec h hm
  have hmode := hmode h1
  obtain ⟨hc', hr', hlast, hmore⟩ := advance_spec hc (hmode ▸ hm)
  refine ⟨hmode, hc', by omega, ?_⟩
  by_cases h2 : t.advance.remaining = 1
  · exact .inl (hlast h2)
  · exact .inr ((hmore h2).trans hmode)

theorem remaining_of_fifo {t : Transfer} (h : t.mode = .fifo) : t.remaining = 0 := if_pos h

theorem mode_eq_fifo_of_remaining {t : Transfer} (h : cursorInside t = true) (hr : t.remaining = 0) : t.mode = .fifo := by
  by_contra hm
  exact absurd hr (remaining_advance h hm).1.ne'

/-- The words a write of a transfer takes write its cells, low half first (R475). -/
theorem writeWords_eq (ws : List Word) {g : Gpu} (hc : cursorInside g.transfer = true) (hm : g.transfer.mode ≠ .read)
    (hl : ws.length = (g.transfer.remaining + 1) / 2) :
    writeWords ws g = writeAll ((cellsOf ws).take g.transfer.remaining) g := by
  induction ws generalizing g with
  | nil => rw [cellsOf, List.flatMap_nil, List.take_nil]; rfl
  | cons w ws ih =>
    rw [List.length_cons] at hl
    have hfifo : g.transfer.mode ≠ .fifo := fun h => by rw [remaining_of_fifo h] at hl; omega
    have hwrite : g.transfer.mode = .write := TransferMode.eq_write hfifo hm
    show writeWords ws (writePixels w g) = writeAll ((w.extractLsb' 0 16 :: w.extractLsb' 16 16 :: cellsOf ws).take _) g
    by_cases h1 : g.transfer.remaining = 1
    · obtain ⟨-, -, hlast, -⟩ := advance_spec hc hfifo
      obtain rfl : ws = [] := List.length_eq_zero_iff.mp (by omega)
      rw [writePixels_last (by rw [hlast h1]; decide), h1]
      rfl
    · obtain ⟨hmode, hc2, hr, hmode2⟩ := advance_twice hc hfifo h1
      rw [writePixels_two (hmode.trans hwrite), hr, List.take_succ_cons, List.take_succ_cons, writeAll, writeAll]
      have hnot : g.transfer.advance.advance.mode ≠ .read := by
        rcases hmode2 with hmode2 | hmode2
        · rw [hmode2]; decide
        · rw [hmode2, hwrite]; decide
      exact ih hc2 hnot (show ws.length = (g.transfer.advance.advance.remaining + 1) / 2 by omega)

/-- The words a read of a transfer gives hold its cells, low half first, and leave VRAM alone (R476). -/
theorem takeWords_gpu (k : Nat) {q : Platform} (hc : cursorInside q.gpu.transfer = true) (hm : q.gpu.transfer.mode ≠ .write)
    (hk : k = (q.gpu.transfer.remaining + 1) / 2) :
    (cellsOf (takeWords 2 k q).1).take q.gpu.transfer.remaining = readAll q.gpu.transfer.remaining q.gpu ∧
    (takeWords 2 k q).2.gpu.transfer.mode = .fifo ∧ (takeWords 2 k q).2.gpu.vram = q.gpu.vram := by
  induction k generalizing q with
  | zero =>
    have hr : q.gpu.transfer.remaining = 0 := by omega
    rw [hr]
    exact ⟨rfl, mode_eq_fifo_of_remaining hc hr, rfl⟩
  | succ k ih =>
    have hfifo : q.gpu.transfer.mode ≠ .fifo := fun h => by rw [remaining_of_fifo h] at hk; omega
    have hread : q.gpu.transfer.mode = .read := TransferMode.eq_read hfifo hm
    have hcells : cellsOf (takeWords 2 (k + 1) q).1 = (gpuRead q).1.extractLsb' 0 16 :: (gpuRead q).1.extractLsb' 16 16 ::
        cellsOf (takeWords 2 k (gpuRead q).2).1 := rfl
    have hend : (takeWords 2 (k + 1) q).2 = (takeWords 2 k (gpuRead q).2).2 := rfl
    rw [hcells, hend]
    by_cases h1 : q.gpu.transfer.remaining = 1
    · obtain ⟨-, -, hlast, -⟩ := advance_spec hc hfifo
      obtain rfl : k = 0 := by omega
      rw [gpuRead_last hread (by rw [hlast h1]; decide), h1, low_append]
      exact ⟨rfl, hlast h1, rfl⟩
    · obtain ⟨hmode, hc2, hr, hmode2⟩ := advance_twice hc hfifo h1
      have hnot : q.gpu.transfer.advance.advance.mode ≠ .write := by
        rcases hmode2 with hmode2 | hmode2
        · rw [hmode2]; decide
        · rw [hmode2, hread]; decide
      obtain ⟨hcs, hend, hvram⟩ := ih (q := { q with gpu := (readPixel (readPixel q.gpu).2).2 }) hc2 hnot
        (show k = (q.gpu.transfer.advance.advance.remaining + 1) / 2 by omega)
      rw [gpuRead_two hread (hmode.trans hread), hr, low_append, high_append, List.take_succ_cons, List.take_succ_cons,
        readAll, readAll]
      exact ⟨congrArg _ (congrArg _ hcs), hend, hvram⟩

/-! ## The commands (R461, R462) -/

/-- The third word of 0xA0 or 0xC0 starts its transfer. -/
theorem gp0_startTransfer {c p s : Word} {g : Gpu} {command : GpuCommand} {m : TransferMode} (hm : g.transfer.mode ≠ .write)
    (hf : g.fifo = [c, p]) (hc : gpuCommand (c.extractLsb' 24 8) = some command) (hl : command.words = 3)
    (hrun : ∀ g, runCommand command [c, p, s] g = .next { g with transfer := startTransfer m p s }) :
    gp0 s g = .next { g with fifo := [], transfer := startTransfer m p s } := by
  rw [gp0_of_complete hm (by rw [hf]; exact hc) (by rw [hf, hl]; rfl), hf]
  exact congrArg (mapNext _) (hrun _)

theorem sizeWidth_eq (s : Word) : sizeWidth s = (s.toNat % 65536 + 1023) % 1024 + 1 := by
  simp [sizeWidth, BitVec.extractLsb'_toNat, BitVec.toNat_sub]
  omega

theorem sizeHeight_eq (s : Word) : sizeHeight s = (s.toNat / 65536 + 511) % 512 + 1 := by
  have := s.isLt
  simp [sizeHeight, BitVec.extractLsb'_toNat, BitVec.toNat_sub, Nat.shiftRight_eq_div_pow]
  omega

theorem positionX_eq (p : Word) : positionX p = p.toNat % 1024 := by simp [positionX, BitVec.extractLsb'_toNat]

theorem positionY_eq (p : Word) : positionY p = p.toNat / 65536 % 512 := by
  simp [positionY, BitVec.extractLsb'_toNat, Nat.shiftRight_eq_div_pow]

/-- Settles O52: write and read walk the same cells, no cell twice, and a word is the next two. -/
theorem vramWriteThenReadReturnsThePixels : Obligations.VramWriteThenReadReturnsThePixels := by
  refine ⟨fun c p s v g => ⟨fun hm => if_pos hm, fun hm hf => ⟨fun hc => ?write, fun hc => ?read⟩⟩,
    fun p s => ⟨rfl, positionX_eq p, positionY_eq p, sizeWidth_eq s, sizeHeight_eq s, rfl, rfl⟩, fun p s g q hw => ?_⟩
  case write =>
    exact gp0_startTransfer hm hf (by rw [command_byte (k := 0xA0#8) hc]; rfl) (command := .vramWrite) rfl fun _ => rfl
  case read =>
    exact gp0_startTransfer hm hf (by rw [command_byte (k := 0xC0#8) hc]; rfl) (command := .vramRead) rfl fun _ => rfl
  intro pixels started
  refine ⟨fun cells hl => ⟨?pixels, ?mode, fun x y hout => ?frame⟩, fun words hl => ?words, fun ht => ?taken⟩
  case pixels =>
    rw [readAll_eq]
    refine List.ext_getElem (by simp [hl]) fun k hk hk' => ?_
    have hk : k < sizeWidth s * sizeHeight s := hk'.trans_eq hl
    rw [List.getElem_map, List.getElem_range, ← atCursor_writeAll cells (g := started) hw
      (fun i j hij hj => key_after_ne .write p s hij (hj.trans_eq hl)) k hk']
    have hread := after_startTransfer .read p s hk.le
    have hwrite := after_startTransfer .write p s hk.le
    show (writeAll cells started).atCursor ((startTransfer .read p s).after k) =
      (writeAll cells started).atCursor ((startTransfer .write p s).after k)
    rw [hread, hwrite]
    rfl
  case mode =>
    have hend : (writeAll cells started).transfer = (startTransfer .write p s).after (sizeWidth s * sizeHeight s) :=
      (transfer_writeAll cells started).trans (by rw [hl])
    show (writeAll cells started).transfer.mode = .fifo
    rw [hend, after_startTransfer .write p s le_rfl, if_pos rfl]
  case frame =>
    refine cell_writeAll_outside cells started fun k hk => ?_
    have hk : k < sizeWidth s * sizeHeight s := hk.trans_eq hl
    have hwrite := after_startTransfer .write p s hk.le
    show ((startTransfer .write p s).after k).key ≠ _
    rw [hwrite]
    exact hout _ _ (Nat.mod_lt _ (sizeWidth_bounds s).1) (Nat.div_lt_of_lt_mul hk)
  case words =>
    have hr : started.transfer.remaining = pixels := remaining_startTransfer (by decide) p s
    rw [← hr] at hl ⊢
    exact writeWords_eq words (cursorInside_startTransfer .write p s) (show TransferMode.write ≠ .read by decide) hl
  case taken =>
    have hr : q.gpu.transfer.remaining = pixels := by rw [ht]; exact remaining_startTransfer (by decide) p s
    rw [← hr]
    have hmode : q.gpu.transfer.mode ≠ .write := by rw [ht]; exact (by decide : TransferMode.read ≠ .write)
    exact takeWords_gpu _ (ht ▸ cursorInside_startTransfer .read p s) hmode rfl

end Sys2Proof.Machine
end
